-- ==== Sys2Proof/Word.lean ====
section
/-! DEFINITION. The machine's words: bytes, the 64-bit word of every host access (20_memory.md R62), and the
binary64 bit patterns a word may hold (10_state.md R39). -/

namespace Sys2Proof

/-- One byte of the bus space (20_memory.md R60). -/
abbrev Byte := BitVec 8

/-- One 64-bit register or memory word (10_state.md R39, 20_memory.md R62). -/
abbrev Word := BitVec 64

/-- The bit pattern of an IEEE 754 binary64 (10_state.md R39, `f64`). -/
abbrev F64 := BitVec 64

/-- A 32-bit value: a command word, a u32 register, an error's information word. -/
abbrev Word32 := BitVec 32

end Sys2Proof
end

