-- ==== Sys2Proof/Syntax.lean ====
section
/-! DEFINITION. The commands: one constructor for each row of spec/opcode_table.json (30_encoding.md R84), with the
fields of R81 and R83, and the pseudo-instructions of R89, which have no encoding of their own. -/

namespace Sys2Proof

/-- A sample buffer's number, fields D and A (30_encoding.md R82): every value names a buffer (10_state.md R40). -/
abbrev Buf := BitVec 4

/-- A command (30_encoding.md R84). `d` is the destination buffer, `a` the source buffer. The fields F, S, CSEL and DF
hold every value the word can carry; a value out of range (R86, case b) raises BadOperand when it is executed. -/
inductive Instr where
  /-- R200. -/
  | nop
  /-- R101. -/
  | construct
  /-- R130. -/
  | synth
  /-- R203. -/
  | procblk
  /-- R210. -/
  | finaud
  /-- R201; bit s of the mask is stream s. -/
  | rstcarry (mask : BitVec 3)
  /-- R161. -/
  | real (d a : Buf)
  /-- R162. -/
  | fft (d a : Buf)
  /-- R163. -/
  | ifft (d a : Buf)
  /-- R164; `f` is the filter slot. -/
  | cmul (d a : Buf) (f : BitVec 4)
  /-- R165. -/
  | env (d a : Buf)
  /-- R166. -/
  | phase (d a : Buf)
  /-- R167; `st` is the stream S. -/
  | unwrap (d a : Buf) (st : BitVec 2)
  /-- R168; `st` is the stream S, `c` the carrier CSEL. -/
  | fdemod (d a : Buf) (st c : BitVec 2)
  /-- R169. -/
  | mtf (d a : Buf)
  /-- R170; `df` is the decimation factor. -/
  | decim (d a : Buf) (df : BitVec 12)
  /-- R171. -/
  | copy (d a : Buf)
  /-- R172. -/
  | clr (d : Buf)
deriving DecidableEq, Repr, Inhabited

/-- The pseudo-instructions of 30_encoding.md R89. -/
inductive Pseudo where
  | mov (d a : Buf)
  | zero (d : Buf)
  | filter (d a : Buf) (f : BitVec 4)
  | rstall
  | demod (d a : Buf) (st c : BitVec 2)
deriving DecidableEq, Repr, Inhabited

end Sys2Proof
end

