-- ==== Sys2Proof/WellFormed.lean ====
section
/-! DEFINITION. The operand ranges of 30_encoding.md R82 and R83: a command is well formed when it is case (a) of R86,
a legal command whose operand values are in range. A command that is not raises BadOperand (case b). -/

namespace Sys2Proof

/-- F names a slot 0..6 (30_encoding.md R82). -/
def slotInRange (f : BitVec 4) : Bool := f.toNat < 7

/-- S is 0 = VID, 1 = AUDL or 2 = AUDR (30_encoding.md R83). -/
def streamInRange (st : BitVec 2) : Bool := st.toNat < 3

/-- CSEL is 0 = no carrier, 1 = AUDIO_L or 2 = AUDIO_R (30_encoding.md R83). -/
def carrierInRange (c : BitVec 2) : Bool := c.toNat < 3

/-- DF is 1..4095 (30_encoding.md R83). -/
def factorInRange (df : BitVec 12) : Bool := df != 0#12

/-- 30_encoding.md R86, case (a). -/
def WellFormed : Instr → Bool
  | .nop => true
  | .construct => true
  | .synth => true
  | .procblk => true
  | .finaud => true
  | .rstcarry _ => true
  | .real _ _ => true
  | .fft _ _ => true
  | .ifft _ _ => true
  | .cmul _ _ f => slotInRange f
  | .env _ _ => true
  | .phase _ _ => true
  | .unwrap _ _ st => streamInRange st
  | .fdemod _ _ st c => streamInRange st && carrierInRange c
  | .mtf _ _ => true
  | .decim _ _ df => factorInRange df
  | .copy _ _ => true
  | .clr _ => true

end Sys2Proof
end

