-- ==== Sys2Proof/Decode.lean ====
section
/-! DEFINITION. The command word (30_encoding.md R80 to R90): the decoder, total on 32-bit words and rejecting by name,
and the encoder of R90. -/

namespace Sys2Proof

/-- Why a word is illegal (30_encoding.md R85). Either way it raises IllegalCommand. -/
inductive Illegal where
  /-- OPC is not in the map of R84. -/
  | opcode
  /-- A field or an IMM bit that the command does not use is not zero. -/
  | reservedField
deriving DecidableEq, Repr

/-- The fields of the command word (30_encoding.md R81). -/
def fieldOpc (w : Word32) : BitVec 8 := w.extractLsb' 24 8
def fieldD (w : Word32) : Buf := w.extractLsb' 20 4
def fieldA (w : Word32) : Buf := w.extractLsb' 16 4
def fieldF (w : Word32) : BitVec 4 := w.extractLsb' 12 4
def fieldImm (w : Word32) : BitVec 12 := w.extractLsb' 0 12

/-- The command `i`, if every reserved field of the word is zero (30_encoding.md R85). -/
def ifReservedZero (reservedZero : Bool) (i : Instr) : Except Illegal Instr :=
  if reservedZero then .ok i else .error .reservedField

/-- The decoder (30_encoding.md R84, R85, R86). -/
def decode (w : Word32) : Except Illegal Instr :=
  let d := fieldD w
  let a := fieldA w
  let f := fieldF w
  let imm := fieldImm w
  -- commands without operands, with D and A, and with D, A and part of IMM
  let none4 := d == 0#4 && a == 0#4 && f == 0#4
  let plain := f == 0#4 && imm == 0#12
  match (fieldOpc w).toNat with
  | 0x00 => ifReservedZero (none4 && imm == 0#12) .nop
  | 0x01 => ifReservedZero (none4 && imm == 0#12) .construct
  | 0x02 => ifReservedZero (none4 && imm == 0#12) .synth
  | 0x03 => ifReservedZero (none4 && imm == 0#12) .procblk
  | 0x04 => ifReservedZero (none4 && imm == 0#12) .finaud
  | 0x05 => ifReservedZero (none4 && imm.extractLsb' 3 9 == 0#9) (.rstcarry (imm.extractLsb' 0 3))
  | 0x10 => ifReservedZero plain (.real d a)
  | 0x11 => ifReservedZero plain (.fft d a)
  | 0x12 => ifReservedZero plain (.ifft d a)
  | 0x13 => ifReservedZero (imm == 0#12) (.cmul d a f)
  | 0x14 => ifReservedZero plain (.env d a)
  | 0x15 => ifReservedZero plain (.phase d a)
  | 0x16 => ifReservedZero (f == 0#4 && imm.extractLsb' 2 10 == 0#10) (.unwrap d a (imm.extractLsb' 0 2))
  | 0x17 =>
    ifReservedZero (f == 0#4 && imm.extractLsb' 4 8 == 0#8) (.fdemod d a (imm.extractLsb' 0 2) (imm.extractLsb' 2 2))
  | 0x18 => ifReservedZero plain (.mtf d a)
  | 0x19 => ifReservedZero (f == 0#4) (.decim d a imm)
  | 0x1A => ifReservedZero plain (.copy d a)
  | 0x1B => ifReservedZero (a == 0#4 && plain) (.clr d)
  | _ => .error .opcode

/-- OPC of each command (30_encoding.md R84). -/
def opcodeOf : Instr → BitVec 8
  | .nop => 0x00#8
  | .construct => 0x01#8
  | .synth => 0x02#8
  | .procblk => 0x03#8
  | .finaud => 0x04#8
  | .rstcarry _ => 0x05#8
  | .real _ _ => 0x10#8
  | .fft _ _ => 0x11#8
  | .ifft _ _ => 0x12#8
  | .cmul _ _ _ => 0x13#8
  | .env _ _ => 0x14#8
  | .phase _ _ => 0x15#8
  | .unwrap _ _ _ => 0x16#8
  | .fdemod _ _ _ _ => 0x17#8
  | .mtf _ _ => 0x18#8
  | .decim _ _ _ => 0x19#8
  | .copy _ _ => 0x1A#8
  | .clr _ => 0x1B#8

/-- `enc(OPC, d, a, f, imm)` of 30_encoding.md R90. -/
def commandWord (opc : BitVec 8) (d a : Buf) (f : BitVec 4) (imm : BitVec 12) : Word32 :=
  opc ++ d ++ a ++ f ++ imm

/-- The encoder (30_encoding.md R90): unused fields are 0. -/
def encode (i : Instr) : Word32 :=
  match i with
  | .nop => commandWord (opcodeOf i) 0 0 0 0
  | .construct => commandWord (opcodeOf i) 0 0 0 0
  | .synth => commandWord (opcodeOf i) 0 0 0 0
  | .procblk => commandWord (opcodeOf i) 0 0 0 0
  | .finaud => commandWord (opcodeOf i) 0 0 0 0
  | .rstcarry mask => commandWord (opcodeOf i) 0 0 0 (0#9 ++ mask)
  | .real d a => commandWord (opcodeOf i) d a 0 0
  | .fft d a => commandWord (opcodeOf i) d a 0 0
  | .ifft d a => commandWord (opcodeOf i) d a 0 0
  | .cmul d a f => commandWord (opcodeOf i) d a f 0
  | .env d a => commandWord (opcodeOf i) d a 0 0
  | .phase d a => commandWord (opcodeOf i) d a 0 0
  | .unwrap d a st => commandWord (opcodeOf i) d a 0 (0#10 ++ st)
  | .fdemod d a st c => commandWord (opcodeOf i) d a 0 (0#8 ++ c ++ st)
  | .mtf d a => commandWord (opcodeOf i) d a 0 0
  | .decim d a df => commandWord (opcodeOf i) d a 0 df
  | .copy d a => commandWord (opcodeOf i) d a 0 0
  | .clr d => commandWord (opcodeOf i) d 0 0 0

/-- The expansions of 30_encoding.md R89. -/
def expandPseudo : Pseudo → List Instr
  | .mov d a => [.copy d a]
  | .zero d => [.clr d]
  | .filter d a f => [.fft d a, .cmul d d f, .ifft d d]
  | .rstall => [.rstcarry 7#3]
  | .demod d a st c => [.phase d a, .unwrap d d st, .fdemod d d st c]

/-- The host's question to the decoder: the command read from the word whose low `nbits` bits are those of `w` and whose
other bits are 0. Every command is one 32-bit word (30_encoding.md R80), so no bytes have to be laid out. -/
def decodeTableWord (nbits w : Nat) : Option Instr :=
  match decode (BitVec.ofNat 32 (w % 2 ^ nbits)) with
  | .ok i => some i
  | .error _ => none

end Sys2Proof
end

