-- ==== Sys2Proof/Machine/Assembler.lean ====
section
/-! DEFINITION. The assembler syntax of 30_encoding.md R87: one command per line, a mnemonic and its operands in the order
destination, source, slot, immediate, with the pseudo-instructions of R89. -/

namespace Sys2Proof.Machine

/-- The digits of R87's numbers, in order of value, and the letters among them as capitals. -/
def digits : List Char := "0123456789abcdef".toList
def capitals : List Char := "0123456789ABCDEF".toList

/-- The number that a run of digits spells in a base up to 16. -/
def digitsValue (base : Nat) (cs : List Char) : Option Nat :=
  (cs.mapM (fun c => ((digits.idxOf? c).or (capitals.idxOf? c)).filter (fun v => v < base))).map
    (fun vs => Nat.ofDigits base vs.reverse)

/-- "a number is decimal or `0x` hexadecimal" (R87). -/
def parseNumber (t : String) : Option Nat :=
  let (base, cs) := if "0x".toList.isPrefixOf t.toList then (16, t.toList.drop 2) else (10, t.toList)
  if cs.isEmpty then none else digitsValue base cs

/-- The names of the buffers B0 to B15 (R87). -/
def bufNames : List String :=
  ["SIN", "W1", "W2", "W3", "W4", "W5", "W6", "W7", "OUT_ENV", "OUT_UPHASE", "OUT_DEMOD", "OUT_SYNC", "OUT_FSYNC",
   "OUT_AUDL", "OUT_AUDR", "OUT_EFM"]

/-- The names of the slots F0 to F6 (R87). -/
def slotNames : List String := ["F_RF", "F_SYNC", "F_FSYNC", "F_AUDL", "F_AUDR", "F_EFM", "F_ALPF1"]

def streamNames : List String := ["VID", "AUDL", "AUDR"]
def carrierNames : List String := ["NONE", "CAR_L", "CAR_R"]

/-- The place of a name in a list. -/
def nameIndex (names : List String) (t : String) : Option Nat :=
  let i := names.findIdx (fun n => n == t)
  if i < names.length then some i else none

/-- A letter and a number below `bound`, such as B7. -/
def parseIndexed (letter : Char) (bound : Nat) (t : String) : Option Nat :=
  match t.toList with
  | c :: c' :: cs =>
    if c == letter then
      match digitsValue 10 (c' :: cs) with
      | some n => if n < bound then some n else none
      | none => none
    else none
  | _ => none

/-- A buffer operand: `B0`..`B15` or its name (R87). -/
def parseBuf (t : String) : Option Buf :=
  ((parseIndexed 'B' 16 t).or (nameIndex bufNames t)).map (BitVec.ofNat 4)

/-- A slot operand: `F0`..`F6` or its name (R87). -/
def parseSlot (t : String) : Option (BitVec 4) :=
  ((parseIndexed 'F' 7 t).or (nameIndex slotNames t)).map (BitVec.ofNat 4)

def parseStream (t : String) : Option (BitVec 2) := (nameIndex streamNames t).map (BitVec.ofNat 2)
def parseCarrier (t : String) : Option (BitVec 2) := (nameIndex carrierNames t).map (BitVec.ofNat 2)

/-- A number below `2^w`. -/
def parseField (w : Nat) (t : String) : Option (BitVec w) :=
  match parseNumber t with
  | some n => if n < 2 ^ w then some (BitVec.ofNat w n) else none
  | none => none

/-- The operands of a line of one form: none, `d`, `d, a`, `d, a` and one more, `d, a, s, c`. -/
def formNone (is : List Instr) (ops : List String) : Option (List Instr) := if ops.isEmpty then some is else none

def formDest (f : Buf → List Instr) (ops : List String) : Option (List Instr) :=
  match ops with
  | [d] => (parseBuf d).map f
  | _ => none

def formPair (f : Buf → Buf → List Instr) (ops : List String) : Option (List Instr) :=
  match ops with
  | [d, a] => (parseBuf d).bind (fun d => (parseBuf a).map (fun a => f d a))
  | _ => none

def formTriple {α : Type} (third : String → Option α) (f : Buf → Buf → α → List Instr) (ops : List String) :
    Option (List Instr) :=
  match ops with
  | [d, a, x] => (parseBuf d).bind (fun d => (parseBuf a).bind (fun a => (third x).map (fun x => f d a x)))
  | _ => none

def formStream (f : Buf → Buf → BitVec 2 → BitVec 2 → List Instr) (ops : List String) : Option (List Instr) :=
  match ops with
  | [d, a, st, c] =>
    (parseBuf d).bind (fun d => (parseBuf a).bind (fun a =>
      (parseStream st).bind (fun st => (parseCarrier c).map (fun c => f d a st c))))
  | _ => none

def formMask (ops : List String) : Option (List Instr) :=
  match ops with
  | [m] => (parseField 3 m).map (fun m => [.rstcarry m])
  | _ => none

/-- Every mnemonic of R87 and every pseudo-instruction of R89, with the reader of its operands. -/
def assemblerForms : List (String × (List String → Option (List Instr))) :=
  [("NOP", formNone [.nop]), ("CONSTRUCT", formNone [.construct]), ("SYNTH", formNone [.synth]),
   ("PROCBLK", formNone [.procblk]), ("FINAUD", formNone [.finaud]), ("RSTCARRY", formMask),
   ("REAL", formPair (fun d a => [.real d a])), ("FFT", formPair (fun d a => [.fft d a])),
   ("IFFT", formPair (fun d a => [.ifft d a])), ("CMUL", formTriple parseSlot (fun d a f => [.cmul d a f])),
   ("ENV", formPair (fun d a => [.env d a])), ("PHASE", formPair (fun d a => [.phase d a])),
   ("UNWRAP", formTriple parseStream (fun d a st => [.unwrap d a st])),
   ("FDEMOD", formStream (fun d a st c => [.fdemod d a st c])), ("MTF", formPair (fun d a => [.mtf d a])),
   ("DECIM", formTriple (parseField 12) (fun d a df => [.decim d a df])), ("COPY", formPair (fun d a => [.copy d a])),
   ("CLR", formDest (fun d => [.clr d])), ("MOV", formPair (fun d a => expandPseudo (.mov d a))),
   ("ZERO", formDest (fun d => expandPseudo (.zero d))),
   ("FILTER", formTriple parseSlot (fun d a f => expandPseudo (.filter d a f))),
   ("RSTALL", formNone (expandPseudo .rstall)),
   ("DEMOD", formStream (fun d a st c => expandPseudo (.demod d a st c)))]

/-- One line, split into its mnemonic and its operands (R87), with the expansions of R89. -/
def assembleLine (mnemonic : String) (operands : List String) : Option (List Instr) :=
  (assemblerForms.lookup mnemonic).bind (fun form => form operands)

/-- The command words of one line. -/
def assembleWords (mnemonic : String) (operands : List String) : Option (List Word32) :=
  (assembleLine mnemonic operands).map (fun is => is.map encode)

end Sys2Proof.Machine
end

