-- ==== Sys2Proof/Config.lean ====
section
/-! DEFINITION. What an implementation of LDFB fixes: the parameters of 00_scope.md R8 that have a value, the
types of those that are OPEN, the language in which the model writes the exact result of a rule (R13), and the
free values: opaque constants without a body, about whose values nothing can be proved. -/

namespace Sys2Proof

/-- The moment at which a free value is drawn. `fixed` is the one moment of everything the spec makes a
deterministic function of the parameters (CONSTRUCT's derived values, 40_parameter_model.md R102; SYNTH,
41_filter_synth.md R144); `nth n` is the n-th other moment (log 2). -/
inductive Draw where
  | fixed
  | nth (n : Nat)
deriving DecidableEq, Repr, Inhabited

/-- An exact real result, written down: every datapath rule is "exact arithmetic over the real and complex
numbers" (00_scope.md R13). `denote` (Sys2Proof/Machine/Denote.lean) says which real number it is. -/
inductive Exact where
  /-- The number a binary64 word stands for. -/
  | val (x : F64)
  /-- No value: a word of memory that nothing has written since reset (70_reset_and_hazards.md R262), or a number that no
  rule defines: outside the admitted ROMs (10_state.md R46), or of a Butterworth response of order 0 or of no width
  (41_filter_synth.md R131). -/
  | noValue (addr : Nat)
  /-- 0, where a rule says that what it computes is exactly 0; the zero a rule writes down is `rat 0` (log 3). -/
  | zero
  | rat (q : Rat)
  | pi
  | neg (a : Exact)
  | add (a b : Exact)
  | sub (a b : Exact)
  | mul (a b : Exact)
  | div (a b : Exact)
  | sqrt (a : Exact)
  | sin (a : Exact)
  | cos (a : Exact)
  | tan (a : Exact)
  /-- `arg (x + j*y)` in (-pi, pi], with `arg 0 = 0` (42_datapath.md R166). -/
  | arg (x y : Exact)
  /-- The second number where the first is 0, else the third (the band-stop's own case, 41_filter_synth.md R131). -/
  | ifZero (c t e : Exact)
deriving DecidableEq, Repr, Inhabited

/-- A binary64 that is a number: its three fields, the biased exponent below 2047, that of the infinities and NaNs. -/
structure FiniteF64 where
  sign : BitVec 1
  exponent : Fin 2047
  fraction : BitVec 52
deriving DecidableEq, Repr, Inhabited

/-- A control point of the EFM equalizer, (f_i, A_i, P_i) (10_state.md R45). -/
structure EfmPoint where
  freq  : F64
  amp   : F64
  phase : F64
deriving DecidableEq, Repr, Inhabited

/-- The coefficient ROM (10_state.md R45, 20_memory.md R66). Its contents are the OPEN parameters STD_ROM,
DEC_ROM and EFM_ROM. -/
structure Rom where
  stdNtsc : Vector Word 16
  stdPal  : Vector Word 16
  /-- DEC_ROM[NTSC][lowband = 0]. -/
  decNtsc : Vector Word 16
  /-- DEC_ROM[NTSC][lowband = 1]. -/
  decNtscLow : Vector Word 16
  /-- DEC_ROM[PAL][lowband = 0]. -/
  decPal : Vector Word 16
  /-- DEC_ROM[PAL][lowband = 1]. -/
  decPalLow : Vector Word 16
  efmScale : F64
  efmPhaseFactor : F64
  /-- The places of the 64 control points that the layout has room for, in order of frequency (20_memory.md R66). -/
  efmTable : Vector EfmPoint 64
  /-- K - 4, so that `4 <= K <= 64` (20_memory.md R66). -/
  efmExtra : Fin 61
deriving DecidableEq, Repr, Inhabited

/-- MTF_SCALAR (42_datapath.md R169): the spec's default instance (m, p, f) -> (m, 0), or any other function,
named by a number (`Config.mtfScalar`). -/
inductive MtfScalar where
  | default
  | other (id : Nat)
deriving DecidableEq, Repr, Inhabited

/-- AUDIO_MTF_GAIN (43_block_audio.md R213): the default, the constant 1, or any other function. -/
inductive AudioMtfGain where
  | default
  | other (id : Nat)
deriving DecidableEq, Repr, Inhabited

/-- PILOT_LINELEN (40_parameter_model.md R116): the default, floor(LINE_PERIOD_US * 4 * PILOT_MHZ), or any other
function. -/
inductive PilotLineLen where
  | default
  | other (id : Nat)
deriving DecidableEq, Repr, Inhabited

/-- DEEMP_HIGH_ABSENT (40_parameter_model.md R110). -/
inductive DeempPolicy where
  | keep
  | clear
deriving DecidableEq, Repr, Inhabited

/-- The parameters of 00_scope.md R8 that a model takes as arguments. They stand in State as plain data that no
step changes, so that a statement about every state holds for every choice of them (log 9, log 22). -/
structure Params where
  mtfScalar : MtfScalar
  audioMtfGain : AudioMtfGain
  pilotLineLen : PilotLineLen
  deempHighAbsent : DeempPolicy
  fsyncBwHz : F64
  fsyncOrder : Nat
deriving DecidableEq, Repr, Inhabited

namespace Config

/-- 00_scope.md R8, R103: N = 2^k with log2NMin <= k <= log2NMax (these constants: log 20). -/
def log2NMin : Nat := 4
def log2NMax : Nat := 16
/-- The number of elements of a sample buffer or a filter slot (10_state.md R40, R42). -/
def bufLen : Nat := 65536
/-- MAXFRAME = 2^19 (00_scope.md R8). -/
def maxFrame : Nat := 524288
/-- ORDER_MAX (00_scope.md R8). -/
def orderMax : Nat := 16
/-- D1, the stage-1 audio decimation factor (00_scope.md R8). -/
def d1 : Nat := 32
/-- D2, the stage-2 audio decimation factor (00_scope.md R8). -/
def d2 : Nat := 4
/-- The elements of AF_OUT_L and AF_OUT_R, ceil(MAXFRAME / D2) (10_state.md R44). -/
def outFrame : Nat := 131072
/-- ID at all times (10_state.md R23). -/
def idValue : Word := 0x4C44464200000007#64

/-- FREE VALUE (log 2). The binary64 an implementation stores for the exact result `e` of a rule, at the moment
`d`, in the place `site` (a bus offset): a finite number, because no infinity or NaN matches a number within a
tolerance. The spec asks that it match `e` within the OPEN tolerance TOL (00_scope.md R13): `Conforms` in
Sys2Proof/Machine/Denote.lean says that, and nothing else is said of it: not its sign either, where the exact
result is not negative (log 26). -/
opaque realise (d : Draw) (site : Nat) (e : Exact) : FiniteF64

/-- FREE VALUE (log 3). The sign of the zero stored where a rule says that what it computes is exactly 0. -/
opaque zeroSign (d : Draw) (site : Nat) : BitVec 1

/-- FREE VALUE (log 4, 5, 7, 10). A word whose value the spec calls unspecified or does not state. -/
opaque unspecified (d : Draw) (site : Nat) : Word

/-- FREE VALUE (log 5). A correction of the turn count whose value the spec calls unspecified. -/
opaque unspecifiedTurn (d : Draw) (site : Nat) : Int

/-- The OPEN function MTF_SCALAR when it is not the default instance: (gain, offset) (00_scope.md R8, log 9). -/
opaque mtfScalar (id : Nat) (mult poledist freq : F64) : F64 × F64

/-- The OPEN function AUDIO_MTF_GAIN when it is not the default instance (00_scope.md R8, log 9). -/
opaque audioMtfGain (id : Nat) (level : F64) : F64

/-- The OPEN function PILOT_LINELEN when it is not the default instance: of the twenty StandardParameters words
(PILOT_LINE_LEN itself read as 0) (40_parameter_model.md R116, log 9). -/
opaque pilotLineLen (id : Nat) (sp : Vector Word 20) : Word

/-- The OPEN contents of the coefficient ROM (10_state.md R45, log 9). -/
opaque rom : Rom

/-- The OPEN parameters of 00_scope.md R8 (log 9). -/
opaque openParams : Params

end Config

end Sys2Proof
end

