-- ==== Sys2Proof/Machine/Float.lean ====
section
/-! DEFINITION. The number a binary64 bit pattern stands for (20_memory.md R62), and the one product the spec rounds in a
stated way (40_parameter_model.md R111). -/

namespace Sys2Proof.Machine

/-- The biased exponent, bits 62:52. -/
def f64Exp (x : F64) : Nat := (x.extractLsb' 52 11).toNat

/-- The fraction, bits 51:0. -/
def f64Frac (x : F64) : Nat := (x.extractLsb' 0 52).toNat

/-- Neither an infinity nor a NaN. -/
def f64Finite (x : F64) : Bool := f64Exp x != 2047

/-- +0.0 or -0.0. -/
def f64Zero (x : F64) : Bool := x.extractLsb' 0 63 == 0#63

/-- The magnitude of a finite pattern in units of 2^-1074, the least positive binary64. -/
def f64Magnitude (x : F64) : Nat :=
  if f64Exp x = 0 then f64Frac x else (2 ^ 52 + f64Frac x) * 2 ^ (f64Exp x - 1)

/-- A finite pattern's number in units of 2^-1074; meaningless for a pattern that is not finite. -/
def f64Scaled (x : F64) : Int :=
  if x.msb then -(f64Magnitude x : Int) else (f64Magnitude x : Int)

/-- The number of a finite pattern, exactly. -/
def f64Rat (x : F64) : Rat := mkRat (f64Scaled x) (2 ^ 1074)

/-- The bit pattern of a finite number. -/
def finiteWord (x : FiniteF64) : F64 := x.sign ++ BitVec.ofNat 11 x.exponent.val ++ x.fraction

/-- The zero of a sign. -/
def zeroWord (sign : BitVec 1) : F64 := sign ++ 0#63

/-- Round `p` units of 2^-s (of the unit) down to units, to nearest, ties to even. -/
def shiftRoundEven (p s : Nat) : Nat :=
  let q := p >>> s
  let r := p % 2 ^ s
  if 2 * r > 2 ^ s || (2 * r == 2 ^ s && q % 2 == 1) then q + 1 else q

/-- The magnitude bits (62:0) of the binary64 nearest to `p * 2^(-2148)`, the unit of a product of two magnitudes; an
overflow gives the pattern of infinity. -/
def roundProduct (p : Nat) : Nat :=
  -- drop at least the 1074 places below the least positive binary64, and all but 53 significant places
  let s := max 1074 (Nat.log2 p - 52)
  let m := shiftRoundEven p s
  -- `m < 2^52` only when `s = 1074`: the subnormal patterns; a carry out of `m` moves into the exponent
  let bits := (s - 1074) * 2 ^ 52 + m
  if bits ≥ 2047 * 2 ^ 52 then 2047 * 2 ^ 52 else bits

/-- "the single rounded binary64 product of the two operands" (40_parameter_model.md R111), for finite operands: round to
nearest, ties to even (log 8). -/
def f64Mul (x y : F64) : F64 :=
  let m := BitVec.ofNat 63 (roundProduct (f64Magnitude x * f64Magnitude y))
  BitVec.ofBool (x.msb != y.msb) ++ m

/-- An i64 register's number (10_state.md R39). -/
def i64 (x : Word) : Int := x.toInt

/-- The i64 pattern of an integer, if it has one. -/
def i64OfInt? (z : Int) : Option Word :=
  if -(2 ^ 63) ≤ z && z < 2 ^ 63 then some (BitVec.ofInt 64 z) else none

end Sys2Proof.Machine
end

