-- ==== Sys2Proof/Machine/Exact.lean ====
section
/-! DEFINITION. Exact results: real and complex arithmetic written down (00_scope.md R12 to R15), and how a word stores
one (R13, log 2, log 3). -/

namespace Sys2Proof.Machine

/-- Every word the result is computed from holds a finite number. Where one does not (a NaN, an infinity:
42_datapath.md R160; an element nothing has written: 70_reset_and_hazards.md R262) the spec calls the result
unspecified.

MODEL'S CHOICE (log 27): R160 and R262 speak of elements, and this looks at the words that the rule reads. A command that
reads only the real part of an element has its result where the imaginary half is no number or unwritten. -/
def hasValue : Exact → Bool
  | .val x => f64Finite x
  | .noValue _ => false
  | .zero => true
  | .rat _ => true
  | .pi => true
  | .neg a => hasValue a
  | .add a b => hasValue a && hasValue b
  | .sub a b => hasValue a && hasValue b
  | .mul a b => hasValue a && hasValue b
  | .div a b => hasValue a && hasValue b
  | .sqrt a => hasValue a
  | .sin a => hasValue a
  | .cos a => hasValue a
  | .tan a => hasValue a
  | .arg x y => hasValue x && hasValue y
  | .ifZero c t e => hasValue c && hasValue t && hasValue e

/-- A zero that stands there: one that a rule writes or says, or a stored +0.0 or -0.0. No sum or product that comes out
as 0 is one (00_scope.md R13, log 3). -/
def isZero : Exact → Bool
  | .val x => f64Zero x
  | .rat q => q == 0
  | e => e == .zero

/-- The word stored for the exact result `e` at the moment `d` in the place `site`. A result that is a stored number
itself (a move) keeps its word; a result without a value is free; a zero that a rule writes is +0.0; one that a rule says
of what it computes has a free sign; any other is the implementation's, within TOL (00_scope.md R13, log 2, log 3, log 4,
log 5). That the stored word of a result that is never negative, such as ENV's (42_datapath.md R165), is not negative
either is not required: the rule is read as one about the exact result (log 26). -/
def put (d : Draw) (site : Nat) (e : Exact) : F64 :=
  match e with
  | .val x => if f64Finite x then x else Config.unspecified d site
  | .rat q => if q == 0 then 0#64 else finiteWord (Config.realise d site (.rat q))
  | e =>
    if e == .zero then zeroWord (Config.zeroSign d site)
    else if hasValue e then finiteWord (Config.realise d site e)
    else Config.unspecified d site

/-- A complex exact result, x + j*y (00_scope.md R12). -/
structure CExact where
  re : Exact
  im : Exact
deriving DecidableEq, Repr, Inhabited

/-- A whole number. -/
def exactNat (n : Nat) : Exact := .rat (n : Rat)

/-- A real number as a complex one. -/
def cOfReal (x : Exact) : CExact := ⟨x, .rat 0⟩
def cZero : CExact := cOfReal (.rat 0)
/-- What a rule says is exactly 0 (log 3). -/
def cVanished : CExact := ⟨.zero, .zero⟩
/-- What no rule gives a value. -/
def cNoValue : CExact := ⟨.noValue 0, .noValue 0⟩
def cOne : CExact := cOfReal (.rat 1)
/-- j*y. -/
def cOfImag (y : Exact) : CExact := ⟨.rat 0, y⟩
def cAdd (z w : CExact) : CExact := ⟨.add z.re w.re, .add z.im w.im⟩
def cSub (z w : CExact) : CExact := ⟨.sub z.re w.re, .sub z.im w.im⟩

/-- The product in the form 42_datapath.md R164 writes it. -/
def cMul (z w : CExact) : CExact :=
  ⟨.sub (.mul z.re w.re) (.mul z.im w.im), .add (.mul z.re w.im) (.mul z.im w.re)⟩

/-- Both parts are zeros. -/
def cIsZero (z : CExact) : Bool := isZero z.re && isZero z.im

/-- Both parts are computed from numbers. -/
def cHasValue (z : CExact) : Bool := hasValue z.re && hasValue z.im

/-- The product of two responses, with the zeros of either exact (41_filter_synth.md R134). -/
def cTimes (z w : CExact) : CExact :=
  if (cIsZero z && cHasValue w) || (cIsZero w && cHasValue z) then cZero else cMul z w

/-- |z|^2. -/
def normSq (z : CExact) : Exact := .add (.mul z.re z.re) (.mul z.im z.im)

/-- z / w, for w other than 0. -/
def cDiv (z w : CExact) : CExact :=
  ⟨.div (.add (.mul z.re w.re) (.mul z.im w.im)) (normSq w),
   .div (.sub (.mul z.im w.re) (.mul z.re w.im)) (normSq w)⟩

/-- x * z for a real x. -/
def cScale (x : Exact) (z : CExact) : CExact := ⟨.mul x z.re, .mul x z.im⟩

/-- q * z for a number q that a rule writes, 0 where q or z is exactly 0 (41_filter_synth.md R134). -/
def cWeigh (q : Rat) (z : CExact) : CExact := if q == 0 || cIsZero z then cZero else cScale (.rat q) z

/-- |z|, with |0| = 0 (42_datapath.md R165). -/
def modulus (z : CExact) : Exact := if cIsZero z then .zero else .sqrt (normSq z)

/-- arg z, with arg 0 = 0 (42_datapath.md R166). -/
def angle (z : CExact) : Exact := if cIsZero z then .zero else .arg z.re z.im

/-- exp(j*theta). -/
def cis (theta : Exact) : CExact := ⟨.cos theta, .sin theta⟩

/-- The sum of `f n` for n < N. -/
def cSum (N : Nat) (f : Nat → CExact) : CExact :=
  (List.range N).foldr (fun n acc => cAdd (f n) acc) cZero

/-- The product of `f n` for n < N. -/
def cProd (N : Nat) (f : Nat → CExact) : CExact :=
  (List.range N).foldr (fun n acc => cMul (f n) acc) cOne

/-- q*pi. -/
def ratPi (q : Rat) : Exact := .mul (.rat q) .pi

/-- DFT_N(x)[k] (00_scope.md R14). -/
def dft (N : Nat) (x : Nat → CExact) (k : Nat) : CExact :=
  cSum N (fun n => cMul (x n) (cis (ratPi (mkRat (-(2 * (k * n : Nat) : Int)) N))))

/-- IDFT_N(X)[n] (00_scope.md R14). -/
def idft (N : Nat) (X : Nat → CExact) (n : Nat) : CExact :=
  cScale (.rat (mkRat 1 N)) (cSum N (fun k => cMul (X k) (cis (ratPi (mkRat (2 * (k * n : Nat)) N)))))

/-- A frequency register in MHz as hertz (40_parameter_model.md R120). -/
def hertz (mhz : F64) : Exact := .mul (.val mhz) (.rat 1000000)

end Sys2Proof.Machine
end

