-- ==== Sys2Proof/Machine/State.lean ====
section
/-! DEFINITION. The state of LDFB (10_state.md R20) as plain data, the two reasons a step can stop, and the state right
after reset (70_reset_and_hazards.md R261, R262). -/

namespace Sys2Proof.Machine

/-- The faults of the model. No error of the spec is one: an error of 60_exceptions.md R231 is a next state. -/
inductive Fault where
  /-- Raised by SYNTH, PROCBLK and the datapath commands when CONSTRUCTED = 1 but CN or WIN hold values that no CONSTRUCT
  leaves (40_parameter_model.md R103, R104): the command would touch elements that no buffer has (10_state.md R40). No run
  from reset reaches such a state. Safe. -/
  | geometry
deriving DecidableEq, Repr

/-- The refusals of the model. -/
inductive Refusal where
  /-- Raised by `exec` for a command without a meaning. No arm of `exec` uses it: every command has its meaning. Safe. -/
  | notModelled (mnemonic : String)
deriving DecidableEq, Repr

/-- One event of the interleaving of 20_memory.md R71 that is still to happen (log 1). -/
inductive Input where
  /-- A host read of `bytes` bytes at an offset from the block's base (20_memory.md R60). -/
  | read (bytes : Nat) (addr : BitVec 32)
  /-- A host write of `bytes` bytes. -/
  | write (bytes : Nat) (addr : BitVec 32) (value : Word)
  /-- The engine completes the command it is executing, if there is one (20_memory.md R68, R70). -/
  | engine
  /-- The platform applies the reset (70_reset_and_hazards.md R260, R263). -/
  | reset
deriving DecidableEq, Repr

/-- The bus's answer to the last host access (20_memory.md R62, R63). -/
inductive Reply where
  | none
  | ok
  | data (v : Word)
  | busError
deriving DecidableEq, Repr

/-- The state of LDFB (10_state.md R20). A register with reserved bits (RsvdZ, R39) holds only its implemented bits, but
for those in the middle of a field table (CFG, ERRCODE). Each field names the rule that gives it. -/
structure State where
  /-- STATUS bits 6:0 (R24). -/
  status : BitVec 7
  /-- ERRCODE (R25). -/
  errcode : Word
  /-- IRQEN bits 1:0 (R27). -/
  irqen : BitVec 2
  /-- CFG bits 31:0 (R28). -/
  cfg : Word32
  /-- FS_MHZ, an f64 (R29). -/
  fsMhz : F64
  /-- NREG bits 31:0 (R29). -/
  nreg : Word32
  /-- BLOCKCUT bits 31:0 (R29). -/
  blockcut : Word32
  /-- BLOCKCUT_END bits 31:0 (R29). -/
  blockcutEnd : Word32
  /-- OVR_MASK bits 16:0 (R30). -/
  ovrMask : BitVec 17
  /-- OVR[0..16] (R30). -/
  ovr : Vector Word 17
  /-- BLK_START (R37). -/
  blkStart : Word
  /-- BLK_LEN bits 31:0 (R37). -/
  blkLen : Word32
  /-- AF_LEN bits 31:0 (R38). -/
  afLen : Word32
  /-- MTF_LEVEL, an f64 (R38). -/
  mtfLevel : F64
  /-- NEXT_START (R37). -/
  nextStart : Word
  /-- WIN: W0 in bits 31:0, W1 in bits 63:32 (R31). -/
  win : Word
  /-- AUD_COUNT bits 31:0 (R38). -/
  audCount : Word32
  /-- AUD_FIRST (R38). -/
  audFirst : Word
  /-- AF_OUTLEN bits 31:0 (R38). -/
  afOutlen : Word32
  /-- CARRY_VALID, bit s for stream s (R33). -/
  carryValid : BitVec 3
  /-- CARRY_PH[0..2], f64 (R33). -/
  carryPh : Vector F64 3
  /-- CARRY_TURNS[0..2], i64 (R33). -/
  carryTurns : Vector Word 3
  /-- SEED_VALID, bit s for stream s (R34). -/
  seedValid : BitVec 3
  /-- SEED_U[0..2], f64 (R34). -/
  seedU : Vector F64 3
  /-- DP[0..15] (R36). -/
  dp : Vector Word 16
  /-- SP[0..19] (R35). -/
  sp : Vector Word 20
  /-- DEEMP_ADJ, an f64 (R36). -/
  deempAdj : F64
  /-- CN bits 31:0 (R32). -/
  cn : Word32
  /-- CFS_MHZ, an f64 (R32). -/
  cfsMhz : F64
  /-- CFLAGS, a copy of CFG (R32). -/
  cflags : Word32
  /-- The buffers, slots and audio frame memories (R40, R42, R44): the bytes written since reset, by bus offset
  (20_memory.md R61), in the canonical form `Memory.wf` of Sys2Proof/Machine/Ops.lean. An offset that is not listed holds
  no value (70_reset_and_hazards.md R262, log 4). -/
  mem : List Host.Cell
  /-- The coefficient ROM (R45): constant. -/
  rom : Rom
  /-- The parameters of 00_scope.md R8: constant (log 9). -/
  params : Params
  /-- MODEL's own: the word of the command being executed, meaningful while BUSY = 1 (R20, R26, log 1). -/
  cmd : Word32
  /-- MODEL's own: the events still to happen, first the next (log 1). -/
  inputs : List Input
  /-- MODEL's own: the answer to the last host access (log 1). -/
  reply : Reply
  /-- MODEL's own: how many moments have drawn free values (log 2). -/
  draws : Nat
deriving DecidableEq, Repr

/-- The state right after reset: every register 0 (70_reset_and_hazards.md R261), no memory element with a value (R262).
The ROM and the OPEN parameters are arguments of the model (log 9), with DEEMP_HIGH_ABSENT at its value KEEP
(00_scope.md R8); the model's own fields start at the values of log 1 and log 2. -/
def State.reset : State where
  status := 0
  errcode := 0
  irqen := 0
  cfg := 0
  fsMhz := 0
  nreg := 0
  blockcut := 0
  blockcutEnd := 0
  ovrMask := 0
  ovr := Vector.replicate 17 0
  blkStart := 0
  blkLen := 0
  afLen := 0
  mtfLevel := 0
  nextStart := 0
  win := 0
  audCount := 0
  audFirst := 0
  afOutlen := 0
  carryValid := 0
  carryPh := Vector.replicate 3 0
  carryTurns := Vector.replicate 3 0
  seedValid := 0
  seedU := Vector.replicate 3 0
  dp := Vector.replicate 16 0
  sp := Vector.replicate 20 0
  deempAdj := 0
  cn := 0
  cfsMhz := 0
  cflags := 0
  mem := []
  rom := Config.rom
  params := { Config.openParams with deempHighAbsent := .keep }
  cmd := 0
  inputs := []
  reply := .none
  draws := 0

end Sys2Proof.Machine
end

