-- ==== Sys2Proof/Machine/Flags.lean ====
section
/-! DEFINITION. The status bits (10_state.md R24), the fields of the control registers, and the interrupt output
(60_exceptions.md R240). -/

namespace Sys2Proof.Machine

/-- Bit positions of STATUS (10_state.md R24). -/
def bitBusy : Nat := 0
def bitConstructed : Nat := 1
def bitBankValid : Nat := 2
def bitErr : Nat := 3
def bitWrBusy : Nat := 4
def bitCarryRestart : Nat := 5
def bitDone : Nat := 6

/-- A word of `n` flags with bit `i` replaced by `b`. -/
def setFlag (n : Nat) (st : BitVec n) (i : Nat) (b : Bool) : BitVec n :=
  let m := BitVec.ofNat n (2 ^ i)
  if b then st ||| m else st &&& ~~~m

def State.busy (s : State) : Bool := s.status.getLsbD bitBusy
def State.constructed (s : State) : Bool := s.status.getLsbD bitConstructed
def State.bankValid (s : State) : Bool := s.status.getLsbD bitBankValid
def State.err (s : State) : Bool := s.status.getLsbD bitErr
def State.wrBusy (s : State) : Bool := s.status.getLsbD bitWrBusy
def State.carryRestart (s : State) : Bool := s.status.getLsbD bitCarryRestart
def State.done (s : State) : Bool := s.status.getLsbD bitDone

/-- The state with one bit of STATUS replaced. -/
def State.setStatus (s : State) (i : Nat) (b : Bool) : State := { s with status := setFlag 7 s.status i b }

/-- The bits of STATUS that a host write can clear: ERR, WRBUSY, DONE (10_state.md R24, W1C). -/
def statusW1C : BitVec 7 := 0x58#7

/-- IRQ = (DONE and DONE_IE) or (ERR and ERR_IE) (60_exceptions.md R240, 10_state.md R27). -/
def State.irq (s : State) : Bool := (s.done && s.irqen.getLsbD 0) || (s.err && s.irqen.getLsbD 1)

/-- The implemented bits of CFG (10_state.md R28): all of 31:0 but 15:11. -/
def cfgMask : Word32 := 0xFFFF07FF#32

/-- The fields of CFG and of its copy CFLAGS (10_state.md R28, R32). -/
def cfgStdsel (c : Word32) : BitVec 8 := c.extractLsb' 0 8
def cfgLowband (c : Word32) : Bool := c.getLsbD 8
def cfgDda (c : Word32) : Bool := c.getLsbD 9
def cfgHasAudio (c : Word32) : Bool := c.getLsbD 10
def cfgAaLevel (c : Word32) : BitVec 16 := c.extractLsb' 16 16

/-- "LDFB treats 0 as off and every non-zero value as on" (00_scope.md R10). -/
def cfgAudioOn (c : Word32) : Bool := cfgAaLevel c != 0#16

/-- W0 and W1 (10_state.md R31). -/
def State.w0 (s : State) : Nat := (s.win.extractLsb' 0 32).toNat
def State.w1 (s : State) : Nat := (s.win.extractLsb' 32 32).toNat

/-- N, the block length in effect (10_state.md R32). -/
def State.n (s : State) : Nat := s.cn.toNat

/-- The carry and seed valid bits of stream `st` (10_state.md R33, R34). -/
def State.carryOk (s : State) (st : Nat) : Bool := s.carryValid.getLsbD st
def State.seedOk (s : State) (st : Nat) : Bool := s.seedValid.getLsbD st

/-- N is a legal block length: N = 2^k with LOG2_NMIN <= k <= LOG2_NMAX (40_parameter_model.md R103). -/
def legalBlockLength (n : Nat) : Bool :=
  (List.range' Config.log2NMin (Config.log2NMax + 1 - Config.log2NMin)).any (fun k => n == 2 ^ k)

/-- CN and WIN hold what a successful CONSTRUCT leaves: a legal block length and 1 <= W0 < W1 <= N
(40_parameter_model.md R103, R104). -/
def State.geometryOk (s : State) : Bool :=
  legalBlockLength s.n && decide (1 ≤ s.w0) && decide (s.w0 < s.w1) && decide (s.w1 ≤ s.n)

end Sys2Proof.Machine
end

