-- ==== Sys2Proof/Machine/Ops.lean ====
section
/-! DEFINITION. The named operations: memory (20_memory.md R61, R62), how a command ends (R70), and how a command ends with
an error, the one form of exception LDFB has (60_exceptions.md R233). There is no return from one (R236): the engine is idle
and the host clears STATUS.ERR by a write (`hostWrite`, Sys2Proof/Machine/Bus.lean). -/

namespace Sys2Proof.Machine

/-! ### Memory -/

/-- The canonical form: offsets strictly rising. An offset that is not listed has no value, so no entry can equal what it
reads as. -/
def Memory.wf (m : List Host.Cell) : Bool := decide (m.Pairwise (fun a b => a.1 < b.1))

/-- The bytes `bs` laid out from `base`. -/
def cellsAt (base : Nat) : List Byte → List Host.Cell
  | [] => []
  | b :: bs => (base, b) :: cellsAt (base + 1) bs

/-- Memory with the bytes `bs` stored from `base`: the one operation that changes memory. -/
def Memory.store (m : List Host.Cell) (base : Nat) (bs : List Byte) : List Host.Cell :=
  m.filter (fun c => c.1 < base) ++ cellsAt base bs ++ m.filter (fun c => base + bs.length ≤ c.1)

/-- The byte at an offset, if anything has written it since reset (70_reset_and_hazards.md R262). -/
def Memory.byte? (m : List Host.Cell) (addr : Nat) : Option Byte := m.lookup addr

/-- The bytes of a word, the least significant first (20_memory.md R62). -/
def wordBytes (v : Word) : List Byte :=
  [v.extractLsb' 0 8, v.extractLsb' 8 8, v.extractLsb' 16 8, v.extractLsb' 24 8,
   v.extractLsb' 32 8, v.extractLsb' 40 8, v.extractLsb' 48 8, v.extractLsb' 56 8]

/-- The word at an offset, if all its bytes have a value (20_memory.md R62). -/
def Memory.word? (m : List Host.Cell) (addr : Nat) : Option Word :=
  match Memory.byte? m addr, Memory.byte? m (addr + 1), Memory.byte? m (addr + 2), Memory.byte? m (addr + 3),
    Memory.byte? m (addr + 4), Memory.byte? m (addr + 5), Memory.byte? m (addr + 6), Memory.byte? m (addr + 7) with
  | some b0, some b1, some b2, some b3, some b4, some b5, some b6, some b7 =>
    some (b7 ++ b6 ++ b5 ++ b4 ++ b3 ++ b2 ++ b1 ++ b0)
  | _, _, _, _, _, _, _, _ => none

/-- The bytes of a run of words. -/
def wordsBytes (vs : List Word) : List Byte := vs.flatMap wordBytes

/-- The state with a run of words stored from `base`. -/
def State.storeWords (s : State) (base : Nat) (vs : List Word) : State :=
  { s with mem := Memory.store s.mem base (wordsBytes vs) }

/-- The word at an offset as an operand: its number, or no value where nothing has written it. -/
def State.operand (s : State) (addr : Nat) : Exact :=
  match Memory.word? s.mem addr with
  | some x => .val x
  | none => .noValue addr

/-! ### The bus offsets of 20_memory.md R61 -/

/-- NMAXB, the bytes of one buffer or slot. -/
def bufBytes : Nat := 0x100000

/-- The offset of element n of B[b]; its imaginary part is 8 bytes higher. -/
def bufAddr (b : Buf) (n : Nat) : Nat := 0x01000000 + b.toNat * bufBytes + 16 * n

/-- The offset of bin k of F[f]. -/
def slotAddr (f k : Nat) : Nat := 0x02000000 + f * bufBytes + 16 * k

def afInL : Nat := 0x03000000
def afInR : Nat := 0x03400000
def afOutL : Nat := 0x03800000
def afOutR : Nat := 0x03C00000
def romBase : Nat := 0x04000000

/-! ### How a command ends -/

/-- The end of a command without an error: BUSY becomes 0 and DONE becomes 1 in the step of its last effect
(20_memory.md R70). -/
def State.finish (s : State) : State := (s.setStatus bitBusy false).setStatus bitDone true

/-- The errors (60_exceptions.md R231). -/
inductive ErrKind where
  | invalidStandard
  | invalidParameter
  | inconsistentConfiguration
  | blockSizeMismatch
  | notConstructed
  | notSynthesized
  | illegalCommand
  | badOperand
  | frameLength
deriving DecidableEq, Repr

/-- ERRCODE.CODE of each error (60_exceptions.md R231). -/
def errCode : ErrKind → BitVec 8
  | .invalidStandard => 1
  | .invalidParameter => 2
  | .inconsistentConfiguration => 3
  | .blockSizeMismatch => 4
  | .notConstructed => 5
  | .notSynthesized => 6
  | .illegalCommand => 7
  | .badOperand => 8
  | .frameLength => 9

/-- The word of ERRCODE: {INFO, 0, OPC, CODE} (60_exceptions.md R233). -/
def errWord (opc : BitVec 8) (e : ErrKind) (info : Word32) : Word := info ++ 0#16 ++ opc ++ errCode e

/-- TAKING AN ERROR, `raise E(info)` (60_exceptions.md R233): ERRCODE is overwritten, ERR and DONE become 1 and BUSY 0, and
nothing else changes. -/
def State.raise (s : State) (opc : BitVec 8) (e : ErrKind) (info : Word32) : State :=
  { (s.setStatus bitErr true).finish with errcode := errWord opc e info }

/-- What a command answers when it ends with an error. -/
def errorOutcome (s : State) (opc : BitVec 8) (e : ErrKind) (info : Word32) : Host.Outcome State Fault Refusal :=
  .next (s.raise opc e info)

/-- The check that every command but NOP, RSTCARRY and CONSTRUCT makes first: NotConstructed unless CONSTRUCTED = 1
(42_datapath.md R160, 60_exceptions.md R234). -/
def ifConstructed (s : State) (opc : BitVec 8) (body : Host.Outcome State Fault Refusal) :
    Host.Outcome State Fault Refusal :=
  if s.constructed then body else errorOutcome s opc .notConstructed 0

/-- The check that CMUL and PROCBLK make: NotSynthesized unless BANK_VALID = 1 (42_datapath.md R164, 43_block_audio.md
R203). -/
def ifBankValid (s : State) (opc : BitVec 8) (body : Host.Outcome State Fault Refusal) :
    Host.Outcome State Fault Refusal :=
  if s.bankValid then body else errorOutcome s opc .notSynthesized 0

/-- A command whose checks have passed: it has the effect `eff` and ends. -/
def State.complete (s : State) (eff : State → State) : Host.Outcome State Fault Refusal := .next (eff s).finish

/-- `State.complete` of an effect that walks buffers, whose elements exist when CN and WIN hold what CONSTRUCT leaves
(log 13). -/
def State.completeOnBlock (s : State) (eff : State → State) : Host.Outcome State Fault Refusal :=
  if s.geometryOk then s.complete eff else .fault .geometry

end Sys2Proof.Machine
end

