-- ==== Sys2Proof/Machine/Operands.lean ====
section
/-! DEFINITION. The operand forms: a buffer as source and as destination (30_encoding.md R82, R88), a filter slot, a
stream, a carrier, and the window (00_scope.md R12, R18). -/

namespace Sys2Proof.Machine

/-- The buffers by name (10_state.md R40). -/
def bufSIN : Buf := 0
def bufW1 : Buf := 1
def bufW2 : Buf := 2
def bufW3 : Buf := 3
def bufW4 : Buf := 4
def bufW5 : Buf := 5
def bufW6 : Buf := 6
def bufW7 : Buf := 7
def bufOutEnv : Buf := 8
def bufOutUphase : Buf := 9
def bufOutDemod : Buf := 10
def bufOutSync : Buf := 11
def bufOutFsync : Buf := 12
def bufOutAudl : Buf := 13
def bufOutAudr : Buf := 14
def bufOutEfm : Buf := 15

/-- The slots by name (10_state.md R42). -/
def slotRf : Nat := 0
def slotSync : Nat := 1
def slotFsync : Nat := 2
def slotAudl : Nat := 3
def slotAudr : Nat := 4
def slotEfm : Nat := 5
def slotAlpf1 : Nat := 6

/-- The streams (10_state.md R33). -/
abbrev Stream := Fin 3
def streamVid : Stream := 0
def streamAudl : Stream := 1
def streamAudr : Stream := 2

/-- The carrier that FDEMOD subtracts (30_encoding.md R83). -/
inductive Carrier where
  | none
  | audioL
  | audioR
deriving DecidableEq, Repr

/-- The stream a field S names; 3 names none (30_encoding.md R83). -/
def streamOf? (st : BitVec 2) : Option Stream :=
  match st.toNat with
  | 0 => some streamVid
  | 1 => some streamAudl
  | 2 => some streamAudr
  | _ => none

/-- The carrier a field CSEL names; 3 names none (30_encoding.md R83). -/
def carrierOf? (c : BitVec 2) : Option Carrier :=
  match c.toNat with
  | 0 => some .none
  | 1 => some .audioL
  | 2 => some .audioR
  | _ => none

/-- Re(B[b][n]) and Im(B[b][n]) as operands. -/
def State.bufRe (s : State) (b : Buf) (n : Nat) : Exact := s.operand (bufAddr b n)
def State.bufIm (s : State) (b : Buf) (n : Nat) : Exact := s.operand (bufAddr b n + 8)

/-- B[b][n]. -/
def State.bufElem (s : State) (b : Buf) (n : Nat) : CExact := ⟨s.bufRe b n, s.bufIm b n⟩

/-- F[f][k]. -/
def State.slotElem (s : State) (f k : Nat) : CExact := ⟨s.operand (slotAddr f k), s.operand (slotAddr f k + 8)⟩

/-- Elements 0..N-1 of B[b] are a block of zeros (42_datapath.md R162). -/
def State.zeroBlock (s : State) (b : Buf) : Bool := (List.range s.n).all (fun n => cIsZero (s.bufElem b n))

/-- The two words stored for a complex result at `addr` (20_memory.md R62). -/
def putComplex (d : Draw) (addr : Nat) (z : CExact) : List Word := [put d addr z.re, put d (addr + 8) z.im]

/-- The words of `count` complex results stored from `base`. -/
def putRun (d : Draw) (base count : Nat) (f : Nat → CExact) : List Word :=
  (List.range count).flatMap (fun n => putComplex d (base + 16 * n) (f n))

/-- `for n in 0..N-1: d[n] <- f n`. Every element of the source is in `f` before any is written (30_encoding.md R88);
elements at and above N are not touched (10_state.md R40). -/
def State.writeBuf (s : State) (d : Buf) (f : Nat → CExact) : State :=
  { s.storeWords (bufAddr d 0) (putRun (.nth s.draws) (bufAddr d 0) s.n f) with draws := s.draws + 1 }

/-- `f n if W0 <= n < W1 else 0` (42_datapath.md R167 to R169). -/
def State.inWindow (s : State) (f : Nat → Exact) (n : Nat) : CExact :=
  cOfReal (if s.w0 ≤ n && n < s.w1 then f n else .rat 0)

/-- fs in hertz (42_datapath.md, "Throughout"). -/
def State.fs (s : State) : Exact := hertz s.cfsMhz

end Sys2Proof.Machine
end

