-- ==== Sys2Proof/Machine/Datapath.lean ====
section
/-! DEFINITION. The datapath commands (42_datapath.md): for each, its effect on the state and its meaning, the checks
followed by the effect. PROCBLK is made of the same effects (43_block_audio.md R203). -/

namespace Sys2Proof.Machine

/-! ### Transforms -/

/-- R161: `d[n] <- Re(a[n]) + j*0`. -/
def effReal (d a : Buf) (s : State) : State := s.writeBuf d (fun n => cOfReal (s.bufRe a n))

/-- REAL (R161). -/
def execReal (d a : Buf) (s : State) : Host.Outcome State Fault Refusal :=
  ifConstructed s 0x10 (s.completeOnBlock (effReal d a))

/-- DFT_N(a)[k]; "a block of zeros gives zeros" (R162). -/
def State.fftElem (s : State) (a : Buf) (k : Nat) : CExact :=
  if s.zeroBlock a then cVanished else dft s.n (s.bufElem a) k

/-- R162: `d[k] <- DFT_N(a)[k]`. -/
def effFft (d a : Buf) (s : State) : State := s.writeBuf d (s.fftElem a)

/-- FFT (R162). -/
def execFft (d a : Buf) (s : State) : Host.Outcome State Fault Refusal :=
  ifConstructed s 0x11 (s.completeOnBlock (effFft d a))

/-- IDFT_N(a)[n] (R163). A spectrum of zeros gives zeros: 43_block_audio.md R203 says so of a block of zeros, whose
analytic signal then has envelope 0 and phase 0 everywhere (DEDUCED, log 3). -/
def State.ifftElem (s : State) (a : Buf) (n : Nat) : CExact :=
  if s.zeroBlock a then cVanished else idft s.n (s.bufElem a) n

/-- R163: `d[n] <- IDFT_N(a)[n]`. -/
def effIfft (d a : Buf) (s : State) : State := s.writeBuf d (s.ifftElem a)

/-- IFFT (R163). -/
def execIfft (d a : Buf) (s : State) : Host.Outcome State Fault Refusal :=
  ifConstructed s 0x12 (s.completeOnBlock (effIfft d a))

/-! ### The complex multiplier -/

/-- a[k] * F[f][k]: exactly 0 for a finite a[k] where the slot is exactly 0 (R164); and, with a slot that holds numbers, in
a block of zeros, which 43_block_audio.md R203's needs (DEDUCED, log 3). An element 0 of another block is no such case. -/
def State.cmulElem (s : State) (a : Buf) (f k : Nat) : CExact :=
  let x := s.bufElem a k
  let h := s.slotElem f k
  if (cIsZero h && cHasValue x) || (s.zeroBlock a && cHasValue h) then cVanished else cMul x h

/-- R164: `d[k] <- a[k] * F[f][k]`. -/
def effCmul (d a : Buf) (f : Nat) (s : State) : State := s.writeBuf d (s.cmulElem a f)

/-- CMUL (R164): NotConstructed, BadOperand, NotSynthesized, in that order. -/
def execCmul (d a : Buf) (f : BitVec 4) (s : State) : Host.Outcome State Fault Refusal :=
  ifConstructed s 0x13
    (if slotInRange f then ifBankValid s 0x13 (s.completeOnBlock (effCmul d a f.toNat))
     else errorOutcome s 0x13 .badOperand (f.setWidth 32))

/-! ### Envelope and phase -/

/-- R165: `d[n] <- |a[n]| + j*0`. "The result is never negative" is said of the exact result (log 26). -/
def effEnv (d a : Buf) (s : State) : State :=
  s.writeBuf d (fun n => cOfReal (modulus (s.bufElem a n)))

/-- ENV (R165). -/
def execEnv (d a : Buf) (s : State) : Host.Outcome State Fault Refusal :=
  ifConstructed s 0x14 (s.completeOnBlock (effEnv d a))

/-- R166: `d[n] <- arg(a[n]) + j*0`. -/
def effPhase (d a : Buf) (s : State) : State :=
  s.writeBuf d (fun n => cOfReal (angle (s.bufElem a n)))

/-- PHASE (R166). -/
def execPhase (d a : Buf) (s : State) : Host.Outcome State Fault Refusal :=
  ifConstructed s 0x15 (s.completeOnBlock (effPhase d a))

/-! ### Phase unwrapping -/

/-- floor(pi * 2^1074): a difference of two binary64 numbers, a whole number of units of 2^-1074, is above pi exactly when
it is above this many units (log 17). -/
def piScaled : Int :=
  0xc90fdaa22168c234c4c6628b80dc1cd129024e088a67cc74020bbea63b139b22514a08798e3404ddef9519b3cd3a431b302b0a6df25f14374fe1356d6d51c245e485b576625e7ec6f44c42e9a637ed6b0bff5cb6f406b7edee386bfb5a899fa5ae9f24117c4b1fe649286651ece45b3dc2007cb8a163bf0598da48361c55d39a69163fa8fd24c

/-- The turn that the step from `prev` to `phi` adds (R167): -1 when it is above pi, +1 when it is below -pi, else 0;
unspecified where either has no value (log 5). -/
def turnCorrection (dr : Draw) (site : Nat) (prev phi : Exact) : Int :=
  match prev, phi with
  | .val p, .val q =>
    if f64Finite p && f64Finite q then
      if f64Scaled q - f64Scaled p > piScaled then -1
      else if f64Scaled p - f64Scaled q > piScaled then 1
      else 0
    else Config.unspecifiedTurn dr site
  | _, _ => Config.unspecifiedTurn dr site

/-- `turns` after the sample W0 + i of R167's loop, from the `prev` and `turns` before it. -/
def unwrapTurns (dr : Draw) (phi : Nat → Exact) (w0 : Nat) (prev : Exact) (turns : Int) : Nat → Int
  | 0 => turns + turnCorrection dr w0 prev (phi w0)
  | i + 1 => unwrapTurns dr phi w0 prev turns i + turnCorrection dr (w0 + (i + 1)) (phi (w0 + i)) (phi (w0 + (i + 1)))

/-- `phi + 2*pi*turns` (R167); 0 for a phase 0 without turns where `zeros` holds: the source is 43_block_audio.md R203's
block of zeros (DEDUCED, log 3). -/
def addTurns (zeros : Bool) (phi : Exact) (turns : Int) : Exact :=
  if zeros && isZero phi && turns == 0 then .zero else .add phi (ratPi ((2 * turns : Int) : Rat))

/-- The register offsets of a stream's carry and seed (10_state.md R33, R34). -/
def carryPhAddr (st : Stream) : Nat := 0x140 + 16 * st.val
def carryTurnsAddr (st : Stream) : Nat := 0x148 + 16 * st.val
def seedUAddr (st : Stream) : Nat := 0x178 + 8 * st.val

/-- The i64 word of a turn count; a count beyond i64 is outside the spec's domain and its word is free (R167, log 6). -/
def turnsWord (dr : Draw) (site : Nat) (turns : Int) : Word :=
  match i64OfInt? turns with
  | some w => w
  | none => Config.unspecified dr site

/-- `prev` before R167's loop. -/
def State.unwrapPrev (s : State) (a : Buf) (st : Stream) : Exact :=
  if s.carryOk st then .val s.carryPh[st] else s.bufRe a s.w0

/-- `turns` before R167's loop. -/
def State.unwrapTurns0 (s : State) (st : Stream) : Int := if s.carryOk st then i64 s.carryTurns[st] else 0

/-- `turns` after sample n of R167's loop. -/
def State.turnsAt (s : State) (a : Buf) (st : Stream) (n : Nat) : Int :=
  unwrapTurns (.nth s.draws) (s.bufRe a) s.w0 (s.unwrapPrev a st) (s.unwrapTurns0 st) (n - s.w0)

/-- R167's pseudocode: the unwrapped phase in the window, the seed and the carry of stream `st`. -/
def effUnwrap (d a : Buf) (st : Stream) (s : State) : State :=
  let dr := Draw.nth s.draws
  { s.writeBuf d (s.inWindow (fun n => addTurns (s.zeroBlock a) (s.bufRe a n) (s.turnsAt a st n))) with
    seedU := s.seedU.set st
      (if s.carryOk st then put dr (seedUAddr st) (addTurns (s.zeroBlock a) (.val s.carryPh[st]) (s.unwrapTurns0 st))
       else 0#64)
    seedValid := setFlag 3 s.seedValid st (s.carryOk st)
    carryPh := s.carryPh.set st (put dr (carryPhAddr st) (s.bufRe a (s.w1 - 1)))
    carryTurns := s.carryTurns.set st (turnsWord dr (carryTurnsAddr st) (s.turnsAt a st (s.w1 - 1)))
    carryValid := setFlag 3 s.carryValid st true }

/-- UNWRAP (R167). -/
def execUnwrap (d a : Buf) (st : BitVec 2) (s : State) : Host.Outcome State Fault Refusal :=
  ifConstructed s 0x16
    (match streamOf? st with
     | some k => s.completeOnBlock (effUnwrap d a k)
     | none => errorOutcome s 0x16 .badOperand 3)

/-! ### FM demodulation -/

/-- `(u1 - u0) * fs / (2*pi)` (R168); 0 between zeros where `zeros` holds: the source is 43_block_audio.md R203's block of
zeros, of "demodulated frequency 0" (DEDUCED, log 3). -/
def State.frequency (s : State) (zeros : Bool) (u1 u0 : Exact) : Exact :=
  if zeros && isZero u1 && isZero u0 then .zero else .div (.mul (.sub u1 u0) s.fs) (ratPi 2)

/-- `fi[n]` of R168 for W0 <= n < W1: at W0 from the seed, without one that of the next sample, 0 in a window of one. -/
def State.demodulated (s : State) (a : Buf) (st : Stream) (n : Nat) : Exact :=
  let u := s.bufRe a
  let freq := s.frequency (s.zeroBlock a)
  if n = s.w0 then
    if s.seedOk st then freq (u s.w0) (.val s.seedU[st])
    else if s.w1 - s.w0 ≥ 2 then freq (u (s.w0 + 1)) (u s.w0)
    else .rat 0
  else freq (u n) (u (n - 1))

/-- `fi - fc` (R168): fc is 0 without a carrier, the audio carrier's frequency in hertz with one. -/
def State.lessCarrier (s : State) (fi : Exact) : Carrier → Exact
  | .none => fi
  | .audioL => .sub fi (hertz s.sp[8])
  | .audioR => .sub fi (hertz s.sp[9])

/-- R168: `d[n] <- fi[n] - fc` in the window. -/
def effFdemod (d a : Buf) (st : Stream) (c : Carrier) (s : State) : State :=
  s.writeBuf d (s.inWindow (fun n => s.lessCarrier (s.demodulated a st n) c))

/-- FDEMOD (R168). -/
def execFdemod (d a : Buf) (st c : BitVec 2) (s : State) : Host.Outcome State Fault Refusal :=
  ifConstructed s 0x17
    (match streamOf? st, carrierOf? c with
     | some k, some cr => s.completeOnBlock (effFdemod d a k cr)
     | _, _ => errorOutcome s 0x17 .badOperand 3)

/-! ### MTF compensation -/

/-- 1.0. -/
def f64One : F64 := 0x3FF0000000000000#64

/-- (G, O) of MTF_SCALAR for the given DP words (R169, 00_scope.md R8). -/
def mtfPair (p : Params) (dp : Vector Word 16) : F64 × F64 :=
  match p.mtfScalar with
  | .default => (dp[9], 0#64)
  | .other id => Config.mtfScalar id dp[9] dp[10] dp[11]

/-- "with the default instance and `MTF_MULT = 1` the command copies the window" (R169). -/
def State.mtfCopies (s : State) : Bool := s.params.mtfScalar == .default && s.dp[9] == f64One

/-- `x*G + O`, or `x` where the command copies (R169). -/
def State.mtfApply (s : State) (x : Exact) : Exact :=
  if s.mtfCopies then x
  else .add (.mul x (.val (mtfPair s.params s.dp).1)) (.val (mtfPair s.params s.dp).2)

/-- R169: `d[n] <- Re(a[n])*G + O` in the window. -/
def effMtf (d a : Buf) (s : State) : State := s.writeBuf d (s.inWindow (fun n => s.mtfApply (s.bufRe a n)))

/-- MTF (R169). -/
def execMtf (d a : Buf) (s : State) : Host.Outcome State Fault Refusal :=
  ifConstructed s 0x18 (s.completeOnBlock (effMtf d a))

/-! ### Decimation -/

/-- `idx` of R170: the samples of the window whose global index is a multiple of `df`. -/
def State.decimIndex (s : State) (df : Nat) : List Nat :=
  (List.range' s.w0 (s.w1 - s.w0)).filter (fun i => (s.blkStart.toNat + i) % df == 0)

/-- R170: the picked samples from element 0, zeros after them, and AUD_COUNT and AUD_FIRST. -/
def effDecim (d a : Buf) (df : Nat) (s : State) : State :=
  let idx := s.decimIndex df
  { s.writeBuf d (fun j => cOfReal (match idx[j]? with
                                    | some i => s.bufRe a i
                                    | none => .rat 0)) with
    audCount := BitVec.ofNat 32 idx.length
    audFirst := match idx.head? with
                | some i => BitVec.ofNat 64 (s.blkStart.toNat + i)
                | none => 0#64 }

/-- DECIM (R170). -/
def execDecim (d a : Buf) (df : BitVec 12) (s : State) : Host.Outcome State Fault Refusal :=
  ifConstructed s 0x19
    (if factorInRange df then s.completeOnBlock (effDecim d a df.toNat)
     else errorOutcome s 0x19 .badOperand 0)

/-! ### Moves -/

/-- R171: `d[n] <- a[n]`; "D = A has no effect" (log 23). -/
def effCopy (d a : Buf) (s : State) : State := if d == a then s else s.writeBuf d (s.bufElem a)

/-- COPY (R171). -/
def execCopy (d a : Buf) (s : State) : Host.Outcome State Fault Refusal :=
  ifConstructed s 0x1A (s.completeOnBlock (effCopy d a))

/-- R172: `d[n] <- 0`. -/
def effClr (d : Buf) (s : State) : State := s.writeBuf d (fun _ => cZero)

/-- CLR (R172). -/
def execClr (d : Buf) (s : State) : Host.Outcome State Fault Refusal :=
  ifConstructed s 0x1B (s.completeOnBlock (effClr d))

end Sys2Proof.Machine
end

