-- ==== Sys2Proof/Machine/Construct.lean ====
section
/-! DEFINITION. CONSTRUCT (40_parameter_model.md): the parameter model. All checks are made before anything is written
(R101), so the command is the list of its checks, in the order of R101's pseudocode, and the commit. -/

namespace Sys2Proof

/-- K, the number of control points (10_state.md R45, 20_memory.md R66). -/
def Rom.efmCount (r : Rom) : Nat := 4 + r.efmExtra.val

/-- The K control points, in order of frequency (10_state.md R45). -/
def Rom.efmPoints (r : Rom) : List EfmPoint := r.efmTable.toList.take r.efmCount

end Sys2Proof

namespace Sys2Proof.Machine

/-! ### The tables (R102, R105) -/

/-- CFG.STDSEL selects PAL; 0 is NTSC (R102, log 21). -/
def isPal (cfg : Word32) : Bool := cfgStdsel cfg != 0#8

/-- STD_ROM[std] (R102). -/
def stdTable (r : Rom) (cfg : Word32) : Vector Word 16 := if isPal cfg then r.stdPal else r.stdNtsc

/-- DEC_ROM[std][lowband], taken whole (R105). -/
def decTable (r : Rom) (cfg : Word32) : Vector Word 16 :=
  if isPal cfg then (if cfgLowband cfg then r.decPalLow else r.decPal)
  else (if cfgLowband cfg then r.decNtscLow else r.decNtsc)

/-! ### The derived standard values (R112 to R117) -/

/-- LINE_FREQ_MHZ, exactly (R112). -/
def lineFreqExact (cfg : Word32) (std : Vector Word 16) : Exact :=
  if isPal cfg then .div (.mul (.val std[0]) (.val std[3])) (.rat 1000000)
  else .div (.val std[1]) (.rat (mkRat 455 2))

/-- LINE_FREQ_MHZ as a number, where the ROM words are numbers (R112). -/
def lineFreqRat? (cfg : Word32) (std : Vector Word 16) : Option Rat :=
  if isPal cfg then
    if f64Finite std[0] && f64Finite std[3] then some (f64Rat std[0] * f64Rat std[3] / 1000000) else none
  else if f64Finite std[1] then some (f64Rat std[1] / mkRat 455 2) else none

/-- LINE_PERIOD_US = 1 / LINE_FREQ_MHZ, exactly; no value for a line frequency of 0 (R113, log 7). -/
def linePeriodRat? (cfg : Word32) (std : Vector Word 16) : Option Rat :=
  match lineFreqRat? cfg std with
  | some q => if q == 0 then none else some (1 / q)
  | none => none

/-- floor(LINE_PERIOD_US * 4 * f) for a frequency in MHz, evaluated exactly (R114, R116). -/
def lineSamples? (cfg : Word32) (std : Vector Word 16) (f : F64) : Option Int :=
  match linePeriodRat? cfg std with
  | some p => if f64Finite f then some (p * 4 * f64Rat f).floor else none
  | none => none

/-- The i64 word of a derived count; the spec states none where there is no count or i64 cannot hold it (log 7). -/
def countWord (site : Nat) (z : Option Int) : Word :=
  match z.bind i64OfInt? with
  | some w => w
  | none => Config.unspecified .fixed site

/-- The offset of SP[i] (10_state.md R35). -/
def spAddr (i : Nat) : Nat := 0x280 + 8 * i

/-- The word of LINE_PERIOD_US (R113, log 7). -/
def linePeriodWord (cfg : Word32) (std : Vector Word 16) : Word :=
  match linePeriodRat? cfg std with
  | some _ => put .fixed (spAddr 5) (.div (.rat 1) (lineFreqExact cfg std))
  | none => Config.unspecified .fixed (spAddr 5)

/-- The twenty StandardParameters words with the given PILOT_LINE_LEN (10_state.md R35; R112 to R115). -/
def spWords (cfg : Word32) (std : Vector Word 16) (pilot : Word) : Vector Word 20 :=
  #v[std[0], std[1], std[2], std[3], std[4], linePeriodWord cfg std, std[6], std[7], std[8], std[9], std[10], std[11],
     std[12], std[13], std[14], std[15], countWord (spAddr 16) (lineSamples? cfg std std[1]), pilot,
     put .fixed (spAddr 18) (.mul (.rat 4) (.val std[1])), put .fixed (spAddr 19) (lineFreqExact cfg std)]

/-- PILOT_LINE_LEN = PILOT_LINELEN(SP) (R116). -/
def pilotWord (p : Params) (cfg : Word32) (std : Vector Word 16) : Word :=
  match p.pilotLineLen with
  | .default => countWord (spAddr 17) (lineSamples? cfg std std[2])
  | .other id => Config.pilotLineLen id (spWords cfg std 0#64)

/-- `derive(STD_ROM[std])` (R101, R117). -/
def derivedSp (p : Params) (cfg : Word32) (std : Vector Word 16) : Vector Word 20 :=
  spWords cfg std (pilotWord p cfg std)

/-! ### The decoder parameters (R105 to R111) -/

/-- Override i is present (10_state.md R30). -/
def State.overridden (s : State) (i : Nat) : Bool := s.ovrMask.getLsbD i

/-- The word of OVR[i]. -/
def State.ovrWord (s : State) (i : Nat) : Word := s.ovr.toList.getD i 0#64

/-- An order register's value lies in lo..ORDER_MAX, read as i64 (R108, log 19). -/
def orderIn (lo : Int) (v : Word) : Bool := decide (lo ≤ i64 v) && decide (i64 v ≤ Config.orderMax)

/-- `domainOK(i, v)` (R108). -/
def domainOk (i : Nat) (v : Word) : Bool :=
  match i with
  | 0 => f64Finite v && decide (0 ≤ f64Scaled v)
  | 1 => orderIn 0 v
  | 2 => f64Finite v && decide (0 < f64Scaled v)
  | 3 => f64Finite v && decide (0 ≤ f64Scaled v)
  | 4 => f64Finite v && decide (0 < f64Scaled v)
  | 5 => f64Finite v && decide (0 < f64Scaled v)
  | 6 => orderIn 1 v
  | 7 => f64Finite v && decide (0 < f64Scaled v)
  | 8 => orderIn 1 v
  | 9 => f64Finite v
  | 10 => f64Finite v
  | 11 => f64Finite v && decide (0 < f64Scaled v)
  | 12 => f64Finite v && decide (0 < f64Scaled v)
  | 13 => orderIn 1 v
  | 14 => f64Finite v && decide (0 < f64Scaled v)
  | 15 => orderIn 1 v
  | 16 => f64Finite v
  | _ => true

/-- DEEMP_ADJ: OVR[16] when present, else 1.0 (R111). -/
def State.deempFactor (s : State) : F64 := if s.overridden 16 then s.ovrWord 16 else f64One

/-- The offset of DP[i] (10_state.md R36). -/
def dpAddr (i : Nat) : Nat := 0x200 + 8 * i

/-- Field i after the overrides and the fallbacks of DEEMP_LOW and DEEMP_HIGH (R106, R109, R110). MODEL'S CHOICE (log 28):
a table word outside R108's range, which 10_state.md R46 does not admit, is taken as any other. -/
def State.dpChosen (s : State) (i : Fin 16) : Word :=
  if s.overridden i then s.ovrWord i
  else if i.val = 2 then 0#64
  else if i.val = 3 && s.params.deempHighAbsent == .clear then 0#64
  else (decTable s.rom s.cfg)[i]

/-- The product of R111; no value is stated where an operand is not a number (log 8). -/
def scaledWord (site : Nat) (x k : F64) : Word :=
  if f64Finite x && f64Finite k then f64Mul x k else Config.unspecified .fixed site

/-- The DecoderParameters of a CONSTRUCT (R105 to R111). -/
def State.dpWords (s : State) : Vector Word 16 :=
  Vector.ofFn (fun i : Fin 16 =>
    if i.val = 2 || i.val = 3 then scaledWord (dpAddr i) (s.dpChosen i) s.deempFactor else s.dpChosen i)

/-! ### The final range check (R119, R120) -/

/-- `0 < lo` and `hi < fs/2`, the form of every row but the first. -/
def bandOk (lo hi fs : Rat) : Bool := decide (0 < lo) && decide (hi < fs / 2)

/-- A frequency word in MHz as hertz (R120). -/
def mhzRat (x : F64) : Rat := f64Rat x * 1000000

/-- The word of fcfs, the fine-sync centre in MHz over its factor, and the factor (41_filter_synth.md R137). -/
def fsyncCentre (cfg : Word32) (sp : Vector Word 20) : F64 × Rat :=
  if isPal cfg then (sp[2], 1) else (sp[1], mkRat 7 2)

/-- The notch is enabled (41_filter_synth.md R138). MODEL'S CHOICE (log 25): for a table word AUDIO_NOTCHWIDTH that is a NaN,
which 10_state.md R46 does not admit, the sign bit decides: with it clear the width counts as above 0, with it set as not. -/
def notchOn (dp : Vector Word 16) : Bool := decide (0 < f64Scaled dp[0]) && decide (0 < i64 dp[1])

/-- `rangeOK` row j (R119), for fs in hertz (log 25). -/
def rangeRowOk (p : Params) (r : Rom) (cfg : Word32) (fs : Rat) (sp : Vector Word 20) (dp : Vector Word 16) (j : Nat) :
    Bool :=
  match j with
  | 0 => f64Finite dp[4] && f64Finite dp[5] && decide (f64Rat dp[4] < f64Rat dp[5])
      && bandOk (f64Rat dp[4]) (f64Rat dp[5]) fs
  | 1 => f64Finite dp[12] && bandOk (f64Rat dp[12]) (f64Rat dp[12]) fs
  | 2 => f64Finite dp[7] && bandOk (f64Rat dp[7]) (f64Rat dp[7]) fs
  | 3 =>
    let c := mhzRat (fsyncCentre cfg sp).1 * (fsyncCentre cfg sp).2
    let h := f64Rat p.fsyncBwHz / 2
    f64Finite (fsyncCentre cfg sp).1 && f64Finite p.fsyncBwHz && bandOk (c - h) (c + h) fs
  | 4 =>
    let h := f64Rat dp[14] / 2
    !cfgAudioOn cfg || (f64Finite sp[8] && f64Finite sp[9] && f64Finite dp[14]
      && bandOk (mhzRat sp[8] - h) (mhzRat sp[8] + h) fs && bandOk (mhzRat sp[9] - h) (mhzRat sp[9] + h) fs)
  | 5 =>
    let h := f64Rat dp[0] / 2
    !(cfgAudioOn cfg && notchOn dp) || (f64Finite sp[1] && f64Finite dp[0]
      && bandOk (mhzRat sp[1] - h) (mhzRat sp[1] + h) fs)
  | 6 => f64Finite (mtfPair p dp).1 && f64Finite (mtfPair p dp).2
  | 7 =>
    match r.efmPoints.getLast? with
    | some q => f64Finite q.freq && decide (f64Rat q.freq < fs / 2)
    | none => false
  | _ => true

/-! ### The command (R101) -/

/-- A check: it passes, or the error it raises. -/
abbrev Check := Bool × ErrKind × Word32

/-- The effective StandardParameters that a CONSTRUCT in this state derives. -/
def State.newSp (s : State) : Vector Word 20 := derivedSp s.params s.cfg (stdTable s.rom s.cfg)

/-- W1 = N - BLOCKCUT_END as an integer (R101). -/
def State.newW1 (s : State) : Int := (s.nreg.toNat : Int) - s.blockcutEnd.toNat

/-- The checks of R101's pseudocode, in its order. -/
def State.constructChecks (s : State) : List Check :=
  [(decide ((cfgStdsel s.cfg).toNat ≤ 1), .invalidStandard, (cfgStdsel s.cfg).setWidth 32),
   (legalBlockLength s.nreg.toNat, .invalidParameter, 0x100),
   (f64Finite s.fsMhz && decide (0 < f64Scaled s.fsMhz), .invalidParameter, 0x101),
   (!(cfgDda s.cfg && !cfgHasAudio s.cfg), .inconsistentConfiguration, 1),
   (!(cfgAudioOn s.cfg && !cfgHasAudio s.cfg), .inconsistentConfiguration, 2),
   (decide (1 ≤ s.blockcut.toNat) && decide ((s.blockcut.toNat : Int) < s.newW1) && decide (s.newW1 ≤ s.nreg.toNat),
     .invalidParameter, 0x102)]
  ++ (List.range 16).map (fun i =>
    (!s.overridden i || domainOk i (s.ovrWord i), .invalidParameter, BitVec.ofNat 32 i))
  ++ [(!s.overridden 16 || domainOk 16 (s.ovrWord 16), .invalidParameter, 16)]
  ++ (List.range 8).map (fun j =>
    (rangeRowOk s.params s.rom s.cfg (mhzRat s.fsMhz) s.newSp s.dpWords j, .invalidParameter,
      BitVec.ofNat 32 (0x20 + j)))

/-- The first check that fails, if any does. -/
def firstFailure (cs : List Check) : Option (ErrKind × Word32) := (cs.find? (fun c => !c.1)).map (·.2)

/-- The commit of R101. -/
def effConstruct (s : State) : State :=
  let t := (s.setStatus bitConstructed true).setStatus bitBankValid false
  { t with
    sp := s.newSp
    dp := s.dpWords
    deempAdj := s.deempFactor
    win := BitVec.ofInt 32 s.newW1 ++ s.blockcut
    cn := s.nreg
    cfsMhz := s.fsMhz
    cflags := s.cfg
    carryValid := 0
    seedValid := 0
    nextStart := 0 }

/-- CONSTRUCT (R101). -/
def execConstruct (s : State) : Host.Outcome State Fault Refusal :=
  match firstFailure s.constructChecks with
  | some (e, info) => errorOutcome s 0x01 e info
  | none => s.complete effConstruct

end Sys2Proof.Machine
end

