-- ==== Sys2Proof/Machine/Spline.lean ====
section
/-! DEFINITION. The cubic spline of 41_filter_synth.md R141, in exact rational arithmetic: the second derivatives at the
knots solve a linear system, the solution is checked against it, and the pieces are evaluated from them. -/

namespace Sys2Proof.Machine

/-- A spline's knots with its values and its second derivatives at them. -/
structure Curve where
  xs : List Rat
  ys : List Rat
  ms : List Rat
deriving DecidableEq, Repr

/-- Entry i of a list of numbers. -/
def nth (l : List Rat) (i : Nat) : Rat := l.getD i 0

/-- The width of piece i. -/
def knotGap (xs : List Rat) (i : Nat) : Rat := nth xs (i + 1) - nth xs i

/-- The coefficient of the second derivative M_j in equation i of K: the not-a-knot condition at x_1 (i = 0) and at
x_(K-2) (i = K-1), and the continuity of the first derivative at x_i (R141). -/
def splineCoeff (xs : List Rat) (K i j : Nat) : Rat :=
  let h := knotGap xs
  if i = 0 then
    if j = 0 then -h 1 else if j = 1 then h 0 + h 1 else if j = 2 then -h 0 else 0
  else if i + 1 = K then
    if j + 3 = K then -h (K - 2) else if j + 2 = K then h (K - 3) + h (K - 2) else if j + 1 = K then -h (K - 3) else 0
  else
    if j + 1 = i then h (i - 1) else if j = i then 2 * (h (i - 1) + h i) else if j = i + 1 then h i else 0

/-- The right side of equation i. -/
def splineRhs (xs ys : List Rat) (K i : Nat) : Rat :=
  let h := knotGap xs
  if i = 0 || i + 1 == K then 0
  else 6 * ((nth ys (i + 1) - nth ys i) / h i - (nth ys i - nth ys (i - 1)) / h (i - 1))

/-- The equations, each a row of coefficients and its right side. -/
def splineRows (xs ys : List Rat) (K : Nat) : List (List Rat) :=
  (List.range K).map (fun i => (List.range K).map (splineCoeff xs K i) ++ [splineRhs xs ys K i])

/-- The row's left side less its right side at the point `ms`. -/
def residual (row ms : List Rat) : Rat := (List.zipWith (· * ·) row (ms ++ [-1])).sum

/-- A row whose first coefficient is not 0, and the rows without it. -/
def pickPivot : List (List Rat) → Option (List Rat × List (List Rat))
  | [] => none
  | r :: rs =>
    if nth r 0 == 0 then
      match pickPivot rs with
      | some (p, rest) => some (p, r :: rest)
      | none => none
    else some (r, rs)

/-- The solution of a system of `n` unknowns by elimination, if it finds one. -/
def solve : Nat → List (List Rat) → Option (List Rat)
  | 0, _ => some []
  | n + 1, rows =>
    match pickPivot rows with
    | none => none
    | some (p, rest) =>
      let reduced := rest.map (fun r => List.zipWith (fun a b => a - nth r 0 / nth p 0 * b) r.tail p.tail)
      match solve n reduced with
      | none => none
      | some ms => some (-(residual p.tail ms) / nth p 0 :: ms)

/-- The spline through the points (x_i, y_i): at least four, with rising x_i (R141, 10_state.md R46). The second
derivatives are accepted only when they meet every equation. -/
def spline? (xs ys : List Rat) : Option Curve :=
  let K := xs.length
  if decide (4 ≤ K) && decide (ys.length = K) && decide (xs.Pairwise (· < ·)) then
    match solve K (splineRows xs ys K) with
    | some ms =>
      if ms.length == K && (splineRows xs ys K).all (fun r => residual r ms == 0) then some ⟨xs, ys, ms⟩ else none
    | none => none
  else none

/-- The piece that gives the value at `x`: the first also below x_0 (R141), the last also above the last knot. -/
def Curve.piece (c : Curve) (x : Rat) : Nat :=
  ((c.xs.drop 1).take (c.xs.length - 2)).countP (fun k => k ≤ x)

/-- The cubic of piece i, from its end values and end second derivatives. -/
def Curve.cubic (c : Curve) (i : Nat) (x : Rat) : Rat :=
  let h := knotGap c.xs i
  let l := x - nth c.xs i
  let r := nth c.xs (i + 1) - x
  nth c.ms i * r ^ 3 / (6 * h) + nth c.ms (i + 1) * l ^ 3 / (6 * h)
    + (nth c.ys i / h - nth c.ms i * h / 6) * r + (nth c.ys (i + 1) / h - nth c.ms (i + 1) * h / 6) * l

/-- S(x) (R141). -/
def Curve.eval (c : Curve) (x : Rat) : Rat := c.cubic (c.piece x) x

end Sys2Proof.Machine
end

