-- ==== Sys2Proof/Machine/Synth.lean ====
section
/-! DEFINITION. SYNTH (41_filter_synth.md): the building blocks R131 to R133, the slots R135 to R140, and the command
R130. Every bin is a closed form (R146). -/

namespace Sys2Proof.Machine

/-! ### Bin frequencies (00_scope.md R15) -/

/-- fbin(k) = k*fs/N. -/
def fbin (N : Nat) (fs : Rat) (k : Nat) : Rat := (k : Rat) * fs / (N : Rat)

/-- fsig(k): k*fs/N up to N/2, (k - N)*fs/N above it. -/
def fsig (N : Nat) (fs : Rat) (k : Nat) : Rat :=
  (if 2 * k ≤ N then (k : Rat) else (k : Rat) - (N : Rat)) * fs / (N : Rat)

/-! ### Butterworth responses (R131) -/

/-- t_k = tan(pi*k/N). -/
def tanBin (N k : Nat) : Exact := .tan (ratPi (mkRat k N))

/-- W(f) = tan(pi*f/fs). -/
def warp (fs f : Exact) : Exact := .tan (.div (.mul .pi f) fs)

/-- The pole p_m of the prototype of order n. -/
def butterPole (n m : Nat) : CExact := cis (ratPi (mkRat (2 * m + n + 1 : Nat) (2 * n)))

/-- 1 / P_n(z), for an order n >= 1; R131 gives an order of 0 no response (MODEL'S CHOICE, log 19, log 22: a free value). -/
def butterProto (n : Nat) (z : CExact) : CExact :=
  if n = 0 then cNoValue else cDiv cOne (cProd n (fun m => cSub z (butterPole n m)))

/-- butterLP(fc, n)[k]. -/
def butterLP (N : Nat) (fs fc : Exact) (n k : Nat) : CExact :=
  if 2 * k = N then cZero
  else butterProto n (cDiv (cOfImag (tanBin N k)) (cOfReal (warp fs fc)))

/-- butterHP(fc, n)[k]. -/
def butterHP (N : Nat) (fs fc : Exact) (n k : Nat) : CExact :=
  if k = 0 then cZero
  else if 2 * k = N then cOne
  else butterProto n (cDiv (cOfReal (warp fs fc)) (cOfImag (tanBin N k)))

/-- s_k^2 + W1*W2, a real number. -/
def bandNum (N : Nat) (fs f1 f2 : Exact) (k : Nat) : Exact :=
  .sub (.mul (warp fs f1) (warp fs f2)) (.mul (tanBin N k) (tanBin N k))

/-- (W2 - W1)*s_k. -/
def bandDen (N : Nat) (fs f1 f2 : Exact) (k : Nat) : CExact :=
  cOfImag (.mul (.sub (warp fs f2) (warp fs f1)) (tanBin N k))

/-- butterBP(f1, f2, n)[k]. -/
def butterBP (N : Nat) (fs f1 f2 : Exact) (n k : Nat) : CExact :=
  if k = 0 then cZero
  else if 2 * k = N then cZero
  else butterProto n (cDiv (cOfReal (bandNum N fs f1 f2 k)) (bandDen N fs f1 f2 k))

/-- butterBS(f1, f2, n)[k]; 0 at a bin with s_k^2 + W1*W2 = 0. MODEL'S CHOICE (log 3): what F_AUDL and F_AUDR store at such a
bin is within TOL of 0, not +0.0 to the bit. R134's list of the bins that are exactly +0.0 does not name it, and neither does
that of 90_conflicts.md C3. -/
def butterBS (N : Nat) (fs f1 f2 : Exact) (n k : Nat) : CExact :=
  if k = 0 then cOne
  else if 2 * k = N then cOne
  else
    let num := bandNum N fs f1 f2 k
    let h := butterProto n (cDiv (bandDen N fs f1 f2 k) (cOfReal num))
    ⟨.ifZero num (.rat 0) h.re, .ifZero num (.rat 0) h.im⟩

/-! ### Hilbert and brick-wall responses (R132, R133) -/

/-- HILB[k]. -/
def hilb (N k : Nat) : Rat :=
  if k = 0 || 2 * k == N then 1 else if 2 * k < N then 2 else 0

/-- BRICK(fc)[k]. -/
def brick (N : Nat) (fs fc : Rat) (k : Nat) : Rat := if |fsig N fs k| ≤ fc then 1 else 0

/-! ### The slots -/

/-- An f64 or order word of DP (10_state.md R36). -/
def State.dpF (s : State) (i : Fin 16) : Exact := .val s.dp[i]
def State.dpOrder (s : State) (i : Fin 16) : Nat := (i64 s.dp[i]).toNat

/-- fs in hertz as a number (41_filter_synth.md, "Throughout"). -/
def State.fsRat (s : State) : Rat := mhzRat s.cfsMhz

/-- F_RF (R135). -/
def State.binRf (s : State) (k : Nat) : CExact :=
  cWeigh (hilb s.n k)
    (cTimes (butterBP s.n s.fs (s.dpF 4) (s.dpF 5) (s.dpOrder 6) k) (butterHP s.n s.fs (s.dpF 12) (s.dpOrder 13) k))

/-- F_SYNC (R136). -/
def State.binSync (s : State) (k : Nat) : CExact := butterLP s.n s.fs (s.dpF 7) (s.dpOrder 8) k

/-- The fine-sync centre fcfs in hertz (R137). -/
def State.fsyncHz (s : State) : Exact :=
  .mul (hertz (fsyncCentre s.cflags s.sp).1) (.rat (fsyncCentre s.cflags s.sp).2)

/-- x/2. -/
def half (x : Exact) : Exact := .div x (.rat 2)

/-- butterBP of a width in hertz around a centre (R137, R138): 0 at DC and Nyquist. MODEL'S CHOICE (log 22, log 28): for a
width that is not positive the other bins are free values, since R131's edges are then in no order and with a width of 0 it
divides by 0. -/
def State.bandAround (s : State) (centre : Exact) (width : F64) (n k : Nat) : CExact :=
  if k = 0 then cZero
  else if 2 * k = s.n then cZero
  else if 0 < f64Scaled width then
    butterBP s.n s.fs (.sub centre (half (.val width))) (.add centre (half (.val width))) n k
  else cNoValue

/-- F_FSYNC (R137). -/
def State.binFsync (s : State) (k : Nat) : CExact :=
  s.bandAround s.fsyncHz s.params.fsyncBwHz s.params.fsyncOrder k

/-- NOTCH (R138). -/
def State.binNotch (s : State) (k : Nat) : CExact :=
  if notchOn s.dp then
    let fsc := hertz s.sp[1]
    let h := half (s.dpF 0)
    butterBS s.n s.fs (.sub fsc h) (.add fsc h) (s.dpOrder 1) k
  else cOne

/-- F_AUDL and F_AUDR, for the carrier word `fa` in MHz (R138). -/
def State.binAudio (s : State) (fa : F64) (k : Nat) : CExact :=
  if cfgAudioOn s.cflags then
    cTimes (cWeigh (hilb s.n k) (s.bandAround (hertz fa) s.dp[14] (s.dpOrder 15) k)) (s.binNotch k)
  else cZero

/-- F_ALPF1 (R139). -/
def State.binAlpf1 (s : State) (k : Nat) : CExact :=
  cOfReal (.rat (brick s.n s.fsRat (s.fsRat / (2 * Config.d1 : Nat)) k))

/-- The amplitude spline SA and the phase spline SP of the ROM's control points (R140), where they are numbers in order
(10_state.md R46, log 16). MODEL'S CHOICE (log 28): f_0 < 0, which R46 does not admit, has its splines as any other. -/
def efmCurves? (r : Rom) : Option (Curve × Curve) :=
  if f64Finite r.efmPhaseFactor && r.efmPoints.all (fun p => f64Finite p.freq && f64Finite p.amp && f64Finite p.phase) then
    let xs := r.efmPoints.map (fun p => f64Rat p.freq)
    match spline? xs (r.efmPoints.map (fun p => f64Rat p.amp)),
          spline? xs (r.efmPoints.map (fun p => f64Rat r.efmPhaseFactor * f64Rat p.phase)) with
    | some sa, some sp => some (sa, sp)
    | _, _ => none
  else none

/-- The last control point's frequency, f_(K-1). -/
def efmLast (r : Rom) : Rat :=
  match r.efmPoints.getLast? with
  | some p => f64Rat p.freq
  | none => 0

/-- F_EFM (R140). -/
def State.binEfm (s : State) (curves : Option (Curve × Curve)) (k : Nat) : CExact :=
  let f := fbin s.n s.fsRat k
  if f ≤ efmLast s.rom then
    match curves with
    | some (sa, sp) =>
      let theta := Exact.rat (sp.eval f)
      cScale (.mul (.rat (sa.eval f)) (.val s.rom.efmScale)) ⟨.cos theta, .neg (.sin theta)⟩
    | none => cNoValue
  else cZero

/-- T[f][k] (R135 to R140); slot 7 is reserved and 0 (10_state.md R42). -/
def State.slotValue (s : State) (f k : Nat) : CExact :=
  match f with
  | 0 => s.binRf k
  | 1 => s.binSync k
  | 2 => s.binFsync k
  | 3 => s.binAudio s.sp[8] k
  | 4 => s.binAudio s.sp[9] k
  | 5 => s.binEfm (efmCurves? s.rom) k
  | 6 => s.binAlpf1 k
  | _ => cZero

/-! ### The command (R130) -/

/-- The words of all eight slots: bins below N by their rules, the bins at and above N and slot 7 zero. -/
def State.slotWords (s : State) : List Word :=
  (List.range 8).flatMap (fun f =>
    putRun .fixed (slotAddr f 0) Config.bufLen (fun k => if k < s.n then s.slotValue f k else cZero))

/-- R130's commit: all slots at once, and BANK_VALID. -/
def effSynth (s : State) : State := (s.storeWords (slotAddr 0 0) s.slotWords).setStatus bitBankValid true

/-- SYNTH (R130). -/
def execSynth (s : State) : Host.Outcome State Fault Refusal :=
  ifConstructed s 0x02 (s.completeOnBlock effSynth)

end Sys2Proof.Machine
end

