-- ==== Sys2Proof/Machine/Block.lean ====
section
/-! DEFINITION. PROCBLK, one RF block (43_block_audio.md R202 to R208, R214), and FINAUD, the second audio stage of a frame
(R210 to R213). -/

namespace Sys2Proof.Machine

/-! ### PROCBLK -/

/-- `cont` of R202: the block is the next in capture order and the video carry is valid. -/
def State.contiguous (s : State) : Bool := s.blkStart == s.nextStart && s.carryOk streamVid

/-- The contiguity check of R202: CARRY_RESTART, and the carries and seeds of a block that does not continue. -/
def effContiguity (s : State) : State :=
  if s.contiguous then s.setStatus bitCarryRestart false
  else { s.setStatus bitCarryRestart true with carryValid := 0, seedValid := 0 }

/-- Effects in the order of the list. -/
def effSeq (effs : List (State → State)) (s : State) : State := effs.foldl (fun t eff => eff t) s

/-- Steps 1 and 2 of R203: the block's spectrum in W1, the analytic video in W2. -/
def stepsSpectrum : List (State → State) :=
  [effReal bufW1 bufSIN, effFft bufW1 bufW1, effCmul bufW2 bufW1 slotRf, effIfft bufW2 bufW2]

/-- Step 3: envelope, phase, unwrap, FM demodulation. -/
def stepsVideo : List (State → State) :=
  [effEnv bufOutEnv bufW2, effPhase bufW3 bufW2, effUnwrap bufOutUphase bufW3 streamVid,
   effFdemod bufW4 bufOutUphase streamVid .none]

/-- Step 4: the sync bands of the demodulated video (R205). -/
def stepsSync : List (State → State) :=
  [effFft bufW5 bufW4,
   effCmul bufW6 bufW5 slotSync, effIfft bufW6 bufW6, effReal bufOutSync bufW6,
   effCmul bufW6 bufW5 slotFsync, effIfft bufW6 bufW6, effReal bufOutFsync bufW6]

/-- Step 7: MTF compensation; R203 makes it before steps 5 and 6 reuse W4. -/
def stepsMtf : List (State → State) := [effMtf bufOutDemod bufW4]

/-- One channel of step 5 (R206). -/
def stepsChannel (slot : Nat) (out : Buf) (st : Stream) (c : Carrier) : List (State → State) :=
  [effCmul bufW2 bufW1 slot, effIfft bufW2 bufW2, effPhase bufW3 bufW2, effUnwrap bufW3 bufW3 st,
   effFdemod bufW4 bufW3 st c, effFft bufW4 bufW4, effCmul bufW4 bufW4 slotAlpf1, effIfft bufW4 bufW4,
   effDecim out bufW4 Config.d1]

/-- AUD_COUNT and AUD_FIRST of a block without analog audio (R203). -/
def effNoAudio (s : State) : State := { s with audCount := 0, audFirst := 0 }

/-- Step 5: both audio channels, or zeros (R206, R208). -/
def stepsAudio (on : Bool) : List (State → State) :=
  if on then
    stepsChannel slotAudl bufOutAudl streamAudl .audioL ++ stepsChannel slotAudr bufOutAudr streamAudr .audioR
  else [effClr bufOutAudl, effClr bufOutAudr, effNoAudio]

/-- Step 6: the EFM stream, or zeros (R207, R208). -/
def stepsEfm (on : Bool) : List (State → State) :=
  if on then [effCmul bufW2 bufW1 slotEfm, effIfft bufOutEfm bufW2] else [effClr bufOutEfm]

/-- NEXT_START, the start of the block whose window begins where this one's ends (R202). -/
def effNextStart (s : State) : State :=
  { s with nextStart := s.blkStart + BitVec.ofNat 64 (s.w1 - s.w0) }

/-- The whole of R203 after its checks. -/
def effProcblk (s : State) : State :=
  effSeq ([effContiguity] ++ stepsSpectrum ++ stepsVideo ++ stepsSync ++ stepsMtf
    ++ stepsAudio (cfgAudioOn s.cflags) ++ stepsEfm (cfgDda s.cflags) ++ [effNextStart]) s

/-- PROCBLK (R203): NotConstructed, NotSynthesized, BlockSizeMismatch (R214), in that order. -/
def execProcblk (s : State) : Host.Outcome State Fault Refusal :=
  ifConstructed s 0x03 (ifBankValid s 0x03
    (if s.blkLen = s.cn then s.completeOnBlock effProcblk
     else errorOutcome s 0x03 .blockSizeMismatch s.blkLen))

/-! ### FINAUD -/

/-- g = AUDIO_MTF_GAIN(MTF_LEVEL) (R213). -/
def audioGain (p : Params) (level : F64) : F64 :=
  match p.audioMtfGain with
  | .default => f64One
  | .other id => Config.audioMtfGain id level

/-- fs1 = fs/D1 as a number (R210). -/
def State.fs1Rat (s : State) : Rat := s.fsRat / (Config.d1 : Nat)

/-- fsigM(k) as an exact result (R211). -/
def State.fsigM (s : State) (M k : Nat) : Exact := .mul s.fs (.rat (fsig M (1 / (Config.d1 : Nat)) k))

/-- A time constant in microseconds as seconds (R212). -/
def seconds (us : F64) : Exact := .mul (.val us) (.rat (mkRat 1 1000000))

/-- DEEMP_M[k] (R212). -/
def State.deemphasis (s : State) (M k : Nat) : CExact :=
  if f64Zero s.dp[2] then cOne
  else
    let omega := Exact.mul (ratPi 2) (s.fsigM M k)
    cDiv ⟨.rat 1, .mul omega (seconds s.dp[3])⟩ ⟨.rat 1, .mul omega (seconds s.dp[2])⟩

/-- BRICK_M(fs1/(2*D2))[k] (R211). -/
def State.stage2Brick (s : State) (M k : Nat) : Rat := brick M s.fs1Rat (s.fs1Rat / (2 * Config.d2 : Nat)) k

/-- Y[k] of R210 for the input at `base`. -/
def State.frameSpectrum (s : State) (base M k : Nat) : CExact :=
  cMul (cScale (.rat (s.stage2Brick M k)) (dft M (fun i => cOfReal (s.operand (base + 8 * i))) k)) (s.deemphasis M k)

/-- `g * Re(y[j*D2])` of R210. -/
def State.frameSample (s : State) (base M j : Nat) : Exact :=
  .mul (.val (audioGain s.params s.mtfLevel)) (idft M (s.frameSpectrum base M) (j * Config.d2)).re

/-- M and C2 of R210. -/
def State.frameLen (s : State) : Nat := s.afLen.toNat
def State.frameOutLen (s : State) : Nat := (s.frameLen + (Config.d2 - 1)) / Config.d2

/-- The words of one channel's output: C2 samples, then zeros (R210). -/
def State.frameWords (s : State) (xin xout : Nat) : List Word :=
  (List.range Config.outFrame).map (fun j =>
    if j < s.frameOutLen then put (.nth s.draws) (xout + 8 * j) (s.frameSample xin s.frameLen j) else 0#64)

/-- R210 after its checks. -/
def effFinaud (s : State) : State :=
  { (s.storeWords afOutL (s.frameWords afInL afOutL)).storeWords afOutR (s.frameWords afInR afOutR) with
    afOutlen := BitVec.ofNat 32 s.frameOutLen
    draws := s.draws + 1 }

/-- FINAUD (R210): NotConstructed, FrameLength, InvalidParameter, in that order. -/
def execFinaud (s : State) : Host.Outcome State Fault Refusal :=
  ifConstructed s 0x04
    (if s.frameLen ≤ Config.maxFrame then
      (if f64Finite s.mtfLevel && f64Finite (audioGain s.params s.mtfLevel) then s.complete effFinaud
       else errorOutcome s 0x04 .invalidParameter 0x110)
     else errorOutcome s 0x04 .frameLength s.afLen)

end Sys2Proof.Machine
end

