-- ==== Sys2Proof/Machine/Control.lean ====
section
/-! DEFINITION. The control commands NOP and RSTCARRY (43_block_audio.md R200, R201). Neither requires CONSTRUCTED. -/

namespace Sys2Proof.Machine

/-- NOP (R200): "sets STATUS.DONE and changes nothing else". -/
def execNop (s : State) : Host.Outcome State Fault Refusal := s.complete id

/-- R201: the valid bits of the masked streams become 0; CARRY_PH, CARRY_TURNS and SEED_U keep their values. -/
def effRstcarry (mask : BitVec 3) (s : State) : State :=
  { s with carryValid := s.carryValid &&& ~~~mask, seedValid := s.seedValid &&& ~~~mask }

/-- RSTCARRY (R201). -/
def execRstcarry (mask : BitVec 3) (s : State) : Host.Outcome State Fault Refusal := s.complete (effRstcarry mask)

end Sys2Proof.Machine
end

