-- ==== Sys2Proof/Machine/Dispatch.lean ====
section
/-! DEFINITION. The meaning of each command: one arm per row of spec/opcode_table.json (30_encoding.md R84). -/

namespace Sys2Proof.Machine

/-- The command `i` executed by the engine (20_memory.md R68), with its checks and its end. -/
def exec (i : Instr) (s : State) : Host.Outcome State Fault Refusal :=
  match i with
  | .nop => Sys2Proof.Machine.execNop s
  | .construct => Sys2Proof.Machine.execConstruct s
  | .synth => Sys2Proof.Machine.execSynth s
  | .procblk => Sys2Proof.Machine.execProcblk s
  | .finaud => Sys2Proof.Machine.execFinaud s
  | .rstcarry mask => Sys2Proof.Machine.execRstcarry mask s
  | .real d a => Sys2Proof.Machine.execReal d a s
  | .fft d a => Sys2Proof.Machine.execFft d a s
  | .ifft d a => Sys2Proof.Machine.execIfft d a s
  | .cmul d a f => Sys2Proof.Machine.execCmul d a f s
  | .env d a => Sys2Proof.Machine.execEnv d a s
  | .phase d a => Sys2Proof.Machine.execPhase d a s
  | .unwrap d a st => Sys2Proof.Machine.execUnwrap d a st s
  | .fdemod d a st c => Sys2Proof.Machine.execFdemod d a st c s
  | .mtf d a => Sys2Proof.Machine.execMtf d a s
  | .decim d a df => Sys2Proof.Machine.execDecim d a df s
  | .copy d a => Sys2Proof.Machine.execCopy d a s
  | .clr d => Sys2Proof.Machine.execClr d s

end Sys2Proof.Machine
end

