-- ==== Sys2Proof/Machine/Bus.lean ====
section
/-! DEFINITION. The host's side: the address map (20_memory.md R61), the registers as the host reads and writes them
(10_state.md R23 to R39), the coefficient ROM's layout (R66), and the two host accesses with what BUSY does to them
(R62 to R71, 70_reset_and_hazards.md R270). -/

namespace Sys2Proof.Machine

/-! ### The address map -/

/-- What an offset belongs to (20_memory.md R61). -/
inductive Target where
  /-- The register range. -/
  | register
  /-- A sample buffer or an audio frame memory: host read-write. -/
  | ram
  /-- A filter slot: host read-only. -/
  | slot
  /-- The coefficient ROM: read-only. -/
  | rom
  | unmapped
deriving DecidableEq, Repr

/-- The address map (20_memory.md R61). -/
def targetOf (addr : Nat) : Target :=
  if addr < 0x1000 then .register
  else if addr < 0x01000000 then .unmapped
  else if addr < 0x02000000 then .ram
  else if addr < 0x02800000 then .slot
  else if addr < afInL then .unmapped
  else if addr < afOutL then .ram
  else if addr < afOutL + 8 * Config.outFrame then .ram
  else if addr < afOutR then .unmapped
  else if addr < afOutR + 8 * Config.outFrame then .ram
  else if addr < romBase then .unmapped
  else if addr < romBase + 0x1000 then .rom
  else .unmapped

/-- An access that the bus answers with an error: not 64 bits wide, not at a multiple of 8, or unmapped (20_memory.md
R63). -/
def badAccess (bytes addr : Nat) : Bool := bytes != 8 || addr % 8 != 0 || targetOf addr == .unmapped

/-! ### Registers -/

/-- Entry `i` of a run of registers. -/
def regEntry (ws : List Word) (i : Nat) : Word := ws.getD i 0#64

/-- The register at an offset, as the host reads it (10_state.md R23 to R38); CMD and every unassigned offset read 0. -/
def regRead (s : State) (off : Nat) : Word :=
  if off = 0x000 then Config.idValue
  else if off = 0x008 then s.status.setWidth 64
  else if off = 0x010 then s.errcode
  else if off = 0x020 then s.irqen.setWidth 64
  else if off = 0x028 then s.cfg.setWidth 64
  else if off = 0x030 then s.fsMhz
  else if off = 0x038 then s.nreg.setWidth 64
  else if off = 0x040 then s.blockcut.setWidth 64
  else if off = 0x048 then s.blockcutEnd.setWidth 64
  else if off = 0x050 then s.ovrMask.setWidth 64
  else if 0x060 ≤ off && off ≤ 0x0E0 then regEntry s.ovr.toList ((off - 0x060) / 8)
  else if off = 0x0E8 then s.blkStart
  else if off = 0x0F0 then s.blkLen.setWidth 64
  else if off = 0x0F8 then s.afLen.setWidth 64
  else if off = 0x100 then s.mtfLevel
  else if off = 0x108 then s.nextStart
  else if off = 0x110 then s.win
  else if off = 0x118 then s.audCount.setWidth 64
  else if off = 0x120 then s.audFirst
  else if off = 0x128 then s.afOutlen.setWidth 64
  else if off = 0x130 then s.carryValid.setWidth 64
  else if off = 0x140 || off = 0x150 || off = 0x160 then regEntry s.carryPh.toList ((off - 0x140) / 16)
  else if off = 0x148 || off = 0x158 || off = 0x168 then regEntry s.carryTurns.toList ((off - 0x148) / 16)
  else if off = 0x170 then s.seedValid.setWidth 64
  else if off = 0x178 || off = 0x180 || off = 0x188 then regEntry s.seedU.toList ((off - 0x178) / 8)
  else if 0x200 ≤ off && off ≤ 0x278 then regEntry s.dp.toList ((off - 0x200) / 8)
  else if 0x280 ≤ off && off ≤ 0x318 then regEntry s.sp.toList ((off - 0x280) / 8)
  else if off = 0x320 then s.deempAdj
  else if off = 0x328 then s.cn.setWidth 64
  else if off = 0x330 then s.cfsMhz
  else if off = 0x338 then s.cflags.setWidth 64
  else 0#64

/-- ISSUING A COMMAND (10_state.md R26): the word is latched and BUSY becomes 1. -/
def State.issue (s : State) (w : Word32) : State := { s.setStatus bitBusy true with cmd := w }

/-- A host write to a register while BUSY = 0, or to STATUS or IRQEN at any time: RW registers store their implemented
bits, STATUS clears its W1C bits, CMD issues a command, and every other write is ignored (10_state.md R23 to R39). -/
def regWrite (s : State) (off : Nat) (v : Word) : State :=
  if off = 0x008 then { s with status := s.status &&& ~~~(v.setWidth 7 &&& statusW1C) }
  else if off = 0x018 then s.issue (v.setWidth 32)
  else if off = 0x020 then { s with irqen := v.setWidth 2 }
  else if off = 0x028 then { s with cfg := v.setWidth 32 &&& cfgMask }
  else if off = 0x030 then { s with fsMhz := v }
  else if off = 0x038 then { s with nreg := v.setWidth 32 }
  else if off = 0x040 then { s with blockcut := v.setWidth 32 }
  else if off = 0x048 then { s with blockcutEnd := v.setWidth 32 }
  else if off = 0x050 then { s with ovrMask := v.setWidth 17 }
  else if 0x060 ≤ off && off ≤ 0x0E0 then { s with ovr := s.ovr.setIfInBounds ((off - 0x060) / 8) v }
  else if off = 0x0E8 then { s with blkStart := v }
  else if off = 0x0F0 then { s with blkLen := v.setWidth 32 }
  else if off = 0x0F8 then { s with afLen := v.setWidth 32 }
  else if off = 0x100 then { s with mtfLevel := v }
  else s

/-! ### The coefficient ROM (20_memory.md R66) -/

/-- Word `j` of the EFM control points from 0x320, three words a point; 0 after the last of the K points. -/
def efmWord (pts : List EfmPoint) (j : Nat) : Word :=
  match pts[j / 3]? with
  | some p => if j % 3 = 0 then p.freq else if j % 3 = 1 then p.amp else p.phase
  | none => 0#64

/-- A base StandardParameters table as the ROM shows it: entry 5 reads 0. -/
def stdEntry (t : Vector Word 16) (i : Nat) : Word := if i = 5 then 0#64 else regEntry t.toList i

/-- The ROM word at an offset from 0x0400_0000 (20_memory.md R66); the rest reads 0. -/
def romRead (r : Rom) (off : Nat) : Word :=
  if off < 0x080 then stdEntry r.stdNtsc (off / 8)
  else if off < 0x100 then stdEntry r.stdPal ((off - 0x080) / 8)
  else if off < 0x180 then regEntry r.decNtsc.toList ((off - 0x100) / 8)
  else if off < 0x200 then regEntry r.decNtscLow.toList ((off - 0x180) / 8)
  else if off < 0x280 then regEntry r.decPal.toList ((off - 0x200) / 8)
  else if off < 0x300 then regEntry r.decPalLow.toList ((off - 0x280) / 8)
  else if off = 0x300 then BitVec.ofNat 64 r.efmCount
  else if off = 0x308 then r.efmScale
  else if off = 0x310 then r.efmPhaseFactor
  else if off < 0x320 then 0#64
  else efmWord r.efmPoints ((off - 0x320) / 8)

/-! ### What the running command writes (10_state.md R47, 20_memory.md R69) -/

/-- The running command will end with an error. Nothing that it reads can change while BUSY = 1 (20_memory.md R69), so the
state says; ERR is cleared first because only an error sets it (60_exceptions.md R233). -/
def State.fails (s : State) (i : Instr) : Bool :=
  match exec i (s.setStatus bitErr false) with
  | .next t => t.err
  | .fault _ => false
  | .refused _ => false

/-- The registers of a stream's carry and seed. -/
def streamRegs (st : Stream) : List Nat := [0x130, 0x170, carryPhAddr st, carryTurnsAddr st, seedUAddr st]

/-- The register offsets, other than STATUS, that a command writes when it ends without an error (10_state.md R47). -/
def writtenRegs (audio : Bool) : Instr → List Nat
  | .nop => []
  | .construct =>
    [0x110, 0x328, 0x330, 0x338, 0x320, 0x130, 0x170, 0x108] ++ (List.range 16).map dpAddr ++ (List.range 20).map spAddr
  | .synth => []
  | .procblk =>
    [0x108, 0x118, 0x120] ++ streamRegs streamVid
      ++ (if audio then streamRegs streamAudl ++ streamRegs streamAudr else [])
  | .finaud => [0x128]
  | .rstcarry _ => [0x130, 0x170]
  | .real _ _ => []
  | .fft _ _ => []
  | .ifft _ _ => []
  | .cmul _ _ _ => []
  | .env _ _ => []
  | .phase _ _ => []
  | .unwrap _ _ st => match streamOf? st with
                      | some k => streamRegs k
                      | none => []
  | .fdemod _ _ _ _ => []
  | .mtf _ _ => []
  | .decim _ _ _ => [0x118, 0x120]
  | .copy _ _ => []
  | .clr _ => []

/-- The sample buffers that a command writes when it ends without an error (10_state.md R47; PROCBLK those of
43_block_audio.md R203). -/
def writtenBufs : Instr → List Buf
  | .nop => []
  | .construct => []
  | .synth => []
  | .procblk =>
    [bufW1, bufW2, bufW3, bufW4, bufW5, bufW6, bufOutEnv, bufOutUphase, bufOutDemod, bufOutSync, bufOutFsync,
     bufOutAudl, bufOutAudr, bufOutEfm]
  | .finaud => []
  | .rstcarry _ => []
  | .real d _ => [d]
  | .fft d _ => [d]
  | .ifft d _ => [d]
  | .cmul d _ _ => [d]
  | .env d _ => [d]
  | .phase d _ => [d]
  | .unwrap d _ _ => [d]
  | .fdemod d _ _ _ => [d]
  | .mtf d _ => [d]
  | .decim d _ _ => [d]
  | .copy d _ => [d]
  | .clr d => [d]

/-- The offset lies in elements 0..n-1 of buffer `b`. -/
def inBuf (b : Buf) (n addr : Nat) : Bool := decide (bufAddr b 0 ≤ addr) && decide (addr < bufAddr b n)

/-- The offset lies in the audio output frames. -/
def inAudioOut (addr : Nat) : Bool :=
  (decide (afOutL ≤ addr) && decide (addr < afOutL + 8 * Config.outFrame))
    || (decide (afOutR ≤ addr) && decide (addr < afOutR + 8 * Config.outFrame))

/-- The command writes the word at the offset, another one than STATUS (10_state.md R47): ERRCODE when it ends with an
error, and then nothing else; what its row says when it ends without one. -/
def State.writes (s : State) (i : Instr) (addr : Nat) : Bool :=
  if s.fails i then addr == 0x010
  else (writtenRegs (cfgAudioOn s.cflags) i).contains addr
    || (writtenBufs i).any (fun b => inBuf b s.n addr)
    || (i == .synth && targetOf addr == .slot)
    || (i == .finaud && inAudioOut addr)

/-- A read of the word at the offset races with the running command (20_memory.md R69); an illegal word writes only
ERRCODE. STATUS races bit by bit (`State.racingStatus`). -/
def State.races (s : State) (addr : Nat) : Bool :=
  s.busy && (match decode s.cmd with
             | .ok i => s.writes i addr
             | .error _ => addr == 0x010)

/-- The bits of STATUS that the running command writes (10_state.md R47), other than BUSY and DONE, which R70 makes the
host's means to wait: ERR by every command, CONSTRUCTED by CONSTRUCT, BANK_VALID by CONSTRUCT and SYNTH, CARRY_RESTART by
PROCBLK, these where it ends without an error (log 10). -/
def State.racingStatus (s : State) : BitVec 7 :=
  if s.busy then
    match decode s.cmd with
    | .ok i =>
      if s.fails i then 0x08#7
      else if i = .construct then 0x0E#7
      else if i = .synth then 0x0C#7
      else if i = .procblk then 0x28#7
      else 0x08#7
    | .error _ => 0x08#7
  else 0x00#7

/-! ### The two host accesses -/

/-- A read whose value the spec leaves open: a draw (20_memory.md R69, 70_reset_and_hazards.md R262). -/
def State.drawReply (s : State) (addr : Nat) : State :=
  { s with reply := .data (Config.unspecified (.nth s.draws) addr), draws := s.draws + 1 }

/-- A read of STATUS while BUSY = 1: the racing bits are a draw, the others their value (20_memory.md R69, R70, log 10). -/
def State.statusReply (s : State) : State :=
  let drawn := (Config.unspecified (.nth s.draws) 0x008).setWidth 7
  { s with
    reply := .data (((s.status &&& ~~~s.racingStatus) ||| (drawn &&& s.racingStatus)).setWidth 64)
    draws := s.draws + 1 }

/-- A host read (20_memory.md R62 to R65, R69): it changes nothing but the answer (and the model's draw counter). -/
def hostRead (bytes addr : Nat) (s : State) : State :=
  if badAccess bytes addr then { s with reply := .busError }
  else if s.races addr then s.drawReply addr
  else if s.busy && addr == 0x008 then s.statusReply
  else
    match targetOf addr with
    | .register => { s with reply := .data (regRead s addr) }
    | .rom => { s with reply := .data (romRead s.rom (addr - romBase)) }
    | _ =>
      match Memory.word? s.mem addr with
      | some v => { s with reply := .data v }
      | none => s.drawReply addr

/-- A host write (20_memory.md R62 to R65, R69, 70_reset_and_hazards.md R270; log 12, log 18). -/
def hostWrite (bytes addr : Nat) (v : Word) (s : State) : State :=
  if badAccess bytes addr then { s with reply := .busError }
  else if s.busy && !(addr == 0x008 || addr == 0x020) then { s.setStatus bitWrBusy true with reply := .ok }
  else
    match targetOf addr with
    | .register => { regWrite s addr v with reply := .ok }
    | .ram => { s.storeWords addr [v] with reply := .ok }
    | _ => { s with reply := .ok }

/-- The reset (70_reset_and_hazards.md R260 to R263): the running command is abandoned. The ROM and the parameters are
constants; the events still to come and the draw counter are the model's own (log 15). -/
def applyReset (s : State) : State :=
  { State.reset with rom := s.rom, params := s.params, inputs := s.inputs, draws := s.draws }

end Sys2Proof.Machine
end

