-- ==== Sys2Proof/Machine/Engine.lean ====
section
/-! DEFINITION. The command engine's turn: the running command's word is decoded and executed as one atomic step
(20_memory.md R68, 60_exceptions.md R234). -/

namespace Sys2Proof.Machine

/-- The running command. An illegal word raises IllegalCommand with its OPC and the word itself, and nothing else is
checked (30_encoding.md R85, 60_exceptions.md R232, R234). -/
def runCommand (s : State) : Host.Outcome State Fault Refusal :=
  match decode s.cmd with
  | .ok i => exec i s
  | .error _ => errorOutcome s (fieldOpc s.cmd) .illegalCommand s.cmd

/-- The engine's turn: with BUSY = 0 it is idle and waits for a CMD write (70_reset_and_hazards.md R264, log 11). -/
def engineTurn (s : State) : Host.Outcome State Fault Refusal := if s.busy then runCommand s else .next s

/-- One event (20_memory.md R71). -/
def runInput (i : Input) (s : State) : Host.Outcome State Fault Refusal :=
  match i with
  | .read bytes addr => .next (hostRead bytes addr.toNat s)
  | .write bytes addr v => .next (hostWrite bytes addr.toNat v s)
  | .engine => engineTurn s
  | .reset => .next (applyReset s)

/-- The next event; when none is left the engine has its turn, for "a busy engine eventually completes"
(70_reset_and_hazards.md R277, log 1). -/
def runNext (s : State) : Host.Outcome State Fault Refusal :=
  match s.inputs with
  | [] => engineTurn s
  | i :: rest => runInput i { s with inputs := rest }

/-- The state in which the engine is executing the command word `w`, and its turn comes next (log 1). -/
def State.fetchState (s : State) (w : Word32) : State := { s.issue w with inputs := .engine :: s.inputs }

end Sys2Proof.Machine
end

