-- ==== Sys2Proof/Machine/Step.lean ====
section
/-! DEFINITION. One step of the machine: the next event of the single interleaving of host accesses and commands
(20_memory.md R71). -/

namespace Sys2Proof.Machine

/-- One step: the next event of `State.inputs`, or the engine's turn when there is none. -/
def step (s : State) : Host.Outcome State Fault Refusal := runNext s

/-- The state whose very next step runs the command whose low `nbits` bits are those of `w`, the others 0: a host has
written the word to CMD, and the engine's turn comes next. LDFB fetches nothing (20_memory.md R72); log 1 says how a
program comes to run from `State.reset`. -/
def State.withFetchWord (s : State) (nbits w : Nat) : State := s.fetchState (BitVec.ofNat 32 (w % 2 ^ nbits))

end Sys2Proof.Machine
end

