-- ==== Sys2Proof/Machine/Denote.lean ====
section
/-! DEFINITION. Which real or complex number an exact result is (00_scope.md R12, R13), and what it means that an
implementation matches the exact results within a tolerance. Used by statements only: no step evaluates a real number. -/

namespace Sys2Proof.Machine

/-- The real number of a binary64 word; 0 for one that is no number. -/
noncomputable def f64Real (x : F64) : ℝ := if f64Finite x then (f64Scaled x : ℝ) / 2 ^ 1074 else 0

/-- The real number that an exact result is. -/
noncomputable def denote : Exact → ℝ
  | .val x => f64Real x
  | .noValue _ => 0
  | .zero => 0
  | .rat q => (q : ℝ)
  | .pi => Real.pi
  | .neg a => -denote a
  | .add a b => denote a + denote b
  | .sub a b => denote a - denote b
  | .mul a b => denote a * denote b
  | .div a b => denote a / denote b
  | .sqrt a => Real.sqrt (denote a)
  | .sin a => Real.sin (denote a)
  | .cos a => Real.cos (denote a)
  | .tan a => Real.tan (denote a)
  | .arg x y => Complex.arg ⟨denote x, denote y⟩
  | .ifZero c t e => if denote c = 0 then denote t else denote e

/-- The complex number that a complex exact result is. -/
noncomputable def cDenote (z : CExact) : ℂ := ⟨denote z.re, denote z.im⟩

/-- The implementation matches every exact result within `tol`, a bound that may depend on the result: the OPEN
parameter TOL (00_scope.md R8, R13, log 2). What it stores is a finite number by its type. -/
def Conforms (tol : ℝ → ℝ) : Prop :=
  ∀ (d : Draw) (site : Nat) (e : Exact), hasValue e = true →
    |f64Real (finiteWord (Config.realise d site e)) - denote e| ≤ tol (denote e)

end Sys2Proof.Machine
end

