-- ==== Sys2Proof/Safety.lean ====
section
/-! DEFINITION. The terms of the statements: the invariant that every step keeps, what an ended command leaves, the frames
of the commands, what it means that memory holds a number, and CONSTRUCT's conditions as the spec's prose gives them. -/

namespace Sys2Proof.Machine

/-! ### The invariant -/

/-- Every byte from `lo` up to `hi` has a value. -/
def WrittenRange (m : List Host.Cell) (lo hi : Nat) : Prop :=
  ∀ addr, lo ≤ addr → addr < hi → (Memory.byte? m addr).isSome = true

/-- What holds in every state that the machine can be in. -/
structure Inv (s : State) : Prop where
  /-- Memory is in its canonical form. -/
  memory : Memory.wf s.mem = true
  /-- Only memory that exists holds bytes (20_memory.md R61). -/
  mapped : ∀ c ∈ s.mem, targetOf c.1 = .ram ∨ targetOf c.1 = .slot
  /-- BANK_VALID implies CONSTRUCTED: only SYNTH sets it and only after a CONSTRUCT (41_filter_synth.md R130). -/
  bank : s.bankValid = true → s.constructed = true
  /-- A valid bank is whole: every byte of every slot is written (41_filter_synth.md R130). -/
  bankWhole : s.bankValid = true → WrittenRange s.mem (slotAddr 0 0) (slotAddr 8 0)
  /-- The block length and the window in effect are those a CONSTRUCT accepts (40_parameter_model.md R103, R104). -/
  geometry : s.constructed = true → s.geometryOk = true
  /-- FS_MHZ in effect is a positive number (40_parameter_model.md R101). -/
  rate : s.constructed = true → f64Finite s.cfsMhz = true ∧ 0 < f64Scaled s.cfsMhz
  /-- The standard in effect is NTSC or PAL (40_parameter_model.md R102). -/
  standard : s.constructed = true → (cfgStdsel s.cflags).toNat ≤ 1
  /-- No audio is decoded from a capture declared to have none (40_parameter_model.md R107). -/
  declared : s.constructed = true → cfgDda s.cflags = true ∨ cfgAudioOn s.cflags = true → cfgHasAudio s.cflags = true
  /-- The parameters in effect pass the final range check (40_parameter_model.md R119). -/
  ranges : s.constructed = true → ∀ j, j < 8 → rangeRowOk s.params s.rom s.cflags (mhzRat s.cfsMhz) s.sp s.dp j = true
  /-- The reserved bits of CFG and CFLAGS read 0 (10_state.md R28, R32). -/
  reserved : s.cfg &&& ~~~cfgMask = 0#32 ∧ s.cflags &&& ~~~cfgMask = 0#32
  /-- ERRCODE bits 31:16 read 0 (10_state.md R25). -/
  errReserved : s.errcode.extractLsb' 16 16 = 0#16
  /-- No code above 9 is produced (60_exceptions.md R231). -/
  errCodes : (s.errcode.extractLsb' 0 8).toNat ≤ 9
  /-- ERR is set only by an error, which leaves its code (60_exceptions.md R233). -/
  errMeans : s.err = true → s.errcode.extractLsb' 0 8 ≠ 0#8
  /-- A carry is valid only after a CONSTRUCT, and a seed only with its stream's carry (42_datapath.md R167). -/
  carries : (s.carryValid ≠ 0#3 → s.constructed = true) ∧ s.seedValid &&& ~~~s.carryValid = 0#3
  /-- AUD_COUNT counts elements of one buffer, AF_OUTLEN elements of one output frame (10_state.md R38, R44). -/
  counts : s.audCount.toNat ≤ Config.bufLen ∧ s.afOutlen.toNat ≤ Config.outFrame

/-! ### How a command ends -/

/-- STATUS after a command that ended without an error: DONE is 1, BUSY is 0 (20_memory.md R70). -/
def endStatus (st : BitVec 7) : BitVec 7 := (st ||| 0x40#7) &&& 0x7E#7

/-- STATUS after a command that ended with an error: ERR and DONE are 1, BUSY is 0 (60_exceptions.md R233). -/
def errorStatus (st : BitVec 7) : BitVec 7 := (st ||| 0x48#7) &&& 0x7E#7

/-- The whole state after `raise E(info)` (60_exceptions.md R233). -/
def errorState (s : State) (opc code : BitVec 8) (info : Word32) : State :=
  { s with status := errorStatus s.status, errcode := info ++ 0#16 ++ opc ++ code }

/-- The commands that require CONSTRUCTED = 1: all but NOP, CONSTRUCT and RSTCARRY (60_exceptions.md R231, code 5). -/
def needsConstruct : Instr → Bool
  | .nop => false
  | .construct => false
  | .synth => true
  | .procblk => true
  | .finaud => true
  | .rstcarry _ => false
  | .real _ _ => true
  | .fft _ _ => true
  | .ifft _ _ => true
  | .cmul _ _ _ => true
  | .env _ _ => true
  | .phase _ _ => true
  | .unwrap _ _ _ => true
  | .fdemod _ _ _ _ => true
  | .mtf _ _ => true
  | .decim _ _ _ => true
  | .copy _ _ => true
  | .clr _ => true

/-- NotConstructed is what the command answers before a CONSTRUCT (42_datapath.md R160). -/
def NotConstructedRaised (i : Instr) (s : State) : Prop :=
  s.constructed = false → exec i s = .next (errorState s (opcodeOf i) 5#8 0#32)

/-! ### What memory holds -/

/-- The word at `addr` is the one stored for the exact result `e` at the moment `d` (00_scope.md R13, log 2). -/
def Stored (d : Draw) (m : List Host.Cell) (addr : Nat) (e : Exact) : Prop := Memory.word? m addr = some (put d addr e)

/-- The two words at `addr` are those stored for the complex result `z`. -/
def StoredComplex (d : Draw) (m : List Host.Cell) (addr : Nat) (z : CExact) : Prop :=
  Stored d m addr z.re ∧ Stored d m (addr + 8) z.im

/-- The word at `addr` is a finite number, `x`. -/
def HoldsReal (m : List Host.Cell) (addr : Nat) (x : ℝ) : Prop :=
  ∃ w, Memory.word? m addr = some w ∧ f64Finite w = true ∧ f64Real w = x

/-- The two words at `addr` are finite numbers, the parts of `z`. -/
def HoldsComplex (m : List Host.Cell) (addr : Nat) (z : ℂ) : Prop := HoldsReal m addr z.re ∧ HoldsReal m (addr + 8) z.im

/-- The two words at `addr` are +0.0, what 41_filter_synth.md R134 says of a zero bin (of a zero that another rule writes:
log 3). -/
def HoldsZero (m : List Host.Cell) (addr : Nat) : Prop :=
  Memory.word? m addr = some 0#64 ∧ Memory.word? m (addr + 8) = some 0#64

/-- The word is a finite number that matches the exact number `x` within the tolerance (00_scope.md R13). -/
def Matches (tol : ℝ → ℝ) (w : F64) (x : ℝ) : Prop := f64Finite w = true ∧ |f64Real w - x| ≤ tol x

/-- The word at `addr` matches the exact number `x` within the tolerance. -/
def Near (tol : ℝ → ℝ) (m : List Host.Cell) (addr : Nat) (x : ℝ) : Prop :=
  ∃ w, Memory.word? m addr = some w ∧ Matches tol w x

/-- The two words at `addr` match the parts of `z` within the tolerance. -/
def NearComplex (tol : ℝ → ℝ) (m : List Host.Cell) (addr : Nat) (z : ℂ) : Prop :=
  Near tol m addr z.re ∧ Near tol m (addr + 8) z.im

/-- A tolerance that the implementation meets: the OPEN parameter TOL (00_scope.md R8, R13). -/
def Tolerance (tol : ℝ → ℝ) : Prop := (∀ x, 0 ≤ tol x) ∧ Conforms tol

/-! ### Frames -/

/-- Every byte outside `lo` up to `hi` reads in `t` as it does in `s`. -/
def SameOutside (s t : State) (lo hi : Nat) : Prop :=
  ∀ addr, addr < lo ∨ hi ≤ addr → Memory.byte? t.mem addr = Memory.byte? s.mem addr

/-- Every byte but those of elements 0..N-1 of buffer `d` reads in `t` as it does in `s` (10_state.md R40). -/
def OnlyBlock (s t : State) (d : Buf) : Prop := SameOutside s t (bufAddr d 0) (bufAddr d s.n)

/-- `t` is `s` but for STATUS, which is that of a command ended without an error, the bytes of memory, and the model's draw
counter: the frame of the datapath commands that write no other register (10_state.md R47, 42_datapath.md R160). -/
def OnlyMemory (s t : State) : Prop := t = { s with status := endStatus s.status, mem := t.mem, draws := t.draws }

/-- Elements 0..N-1 of buffer `d` are stored for the results `f n`, at this state's moment, and no other byte changes. -/
def BlockStored (s t : State) (d : Buf) (f : Nat → CExact) : Prop :=
  (∀ n, n < s.n → StoredComplex (.nth s.draws) t.mem (bufAddr d n) (f n)) ∧ OnlyBlock s t d

/-- A datapath command without further effects: after the check of R160 it answers a next state with the results `f` in
the buffer `d`, and nothing else changed. -/
def WritesBlock (i : Instr) (s : State) (d : Buf) (f : Nat → CExact) : Prop :=
  NotConstructedRaised i s ∧
  (s.constructed = true → s.geometryOk = true →
    ∃ t, exec i s = .next t ∧ OnlyMemory s t ∧ BlockStored s t d f)

/-- A real number x as x + j*0, whose imaginary part is stored as +0.0 (42_datapath.md R161). -/
def realElem (x : Exact) : CExact := ⟨x, .rat 0⟩

/-- `x` in the valid window, else 0 (00_scope.md R18, 42_datapath.md R167 to R169). -/
def windowElem (s : State) (x : Nat → Exact) (n : Nat) : CExact :=
  if s.w0 ≤ n ∧ n < s.w1 then realElem (x n) else realElem (.rat 0)

/-! ### Command words (30_encoding.md R84 to R86) -/

/-- The bits of D, A, F and IMM that a command uses, by OPC; none for an OPC that is not in the map (R83, R84). -/
def usedBits (opc : BitVec 8) : Option Word32 :=
  match opc.toNat with
  | 0x00 => some 0x00000000#32
  | 0x01 => some 0x00000000#32
  | 0x02 => some 0x00000000#32
  | 0x03 => some 0x00000000#32
  | 0x04 => some 0x00000000#32
  | 0x05 => some 0x00000007#32
  | 0x10 => some 0x00FF0000#32
  | 0x11 => some 0x00FF0000#32
  | 0x12 => some 0x00FF0000#32
  | 0x13 => some 0x00FFF000#32
  | 0x14 => some 0x00FF0000#32
  | 0x15 => some 0x00FF0000#32
  | 0x16 => some 0x00FF0003#32
  | 0x17 => some 0x00FF000F#32
  | 0x18 => some 0x00FF0000#32
  | 0x19 => some 0x00FF0FFF#32
  | 0x1A => some 0x00FF0000#32
  | 0x1B => some 0x00F00000#32
  | _ => none

/-- The word is illegal (R85): its OPC is unassigned, or a bit that its command does not use is not 0. -/
def IllegalWord (w : Word32) : Prop :=
  match usedBits (w.extractLsb' 24 8) with
  | none => True
  | some used => w &&& 0x00FFFFFF#32 &&& ~~~used ≠ 0#32

/-- The out-of-range field value of a command, if it has one (R82, R83, 60_exceptions.md R232). -/
def outOfRange : Instr → Option Word32
  | .nop => none
  | .construct => none
  | .synth => none
  | .procblk => none
  | .finaud => none
  | .rstcarry _ => none
  | .real _ _ => none
  | .fft _ _ => none
  | .ifft _ _ => none
  | .cmul _ _ f => if 7 ≤ f.toNat then some (f.setWidth 32) else none
  | .env _ _ => none
  | .phase _ _ => none
  | .unwrap _ _ st => if st = 3#2 then some 3#32 else none
  | .fdemod _ _ st c => if st = 3#2 ∨ c = 3#2 then some 3#32 else none
  | .mtf _ _ => none
  | .decim _ _ df => if df = 0#12 then some 0#32 else none
  | .copy _ _ => none
  | .clr _ => none

/-! ### CONSTRUCT's conditions (40_parameter_model.md R101) -/

/-- N = 2^k with LOG2_NMIN <= k <= LOG2_NMAX (R103). -/
def BlockLengthOk (n : Nat) : Prop := ∃ k, 4 ≤ k ∧ k ≤ 16 ∧ n = 2 ^ k

/-- FS_MHZ is a positive number (R101). -/
def RateOk (x : F64) : Prop := f64Finite x = true ∧ 0 < f64Real x

/-- 1 <= W0 < W1 <= N with W0 = BLOCKCUT and W1 = N - BLOCKCUT_END, an integer (R101, R104). -/
def WindowOk (s : State) : Prop :=
  1 ≤ s.blockcut.toNat ∧ (s.blockcut.toNat : Int) < (s.nreg.toNat : Int) - s.blockcutEnd.toNat

/-- The domain of override i (R108). -/
def InDomain (i : Nat) (v : Word) : Prop :=
  match i with
  | 0 => f64Finite v = true ∧ 0 ≤ f64Real v
  | 1 => 0 ≤ i64 v ∧ i64 v ≤ 16
  | 2 => f64Finite v = true ∧ 0 < f64Real v
  | 3 => f64Finite v = true ∧ 0 ≤ f64Real v
  | 4 => f64Finite v = true ∧ 0 < f64Real v
  | 5 => f64Finite v = true ∧ 0 < f64Real v
  | 6 => 1 ≤ i64 v ∧ i64 v ≤ 16
  | 7 => f64Finite v = true ∧ 0 < f64Real v
  | 8 => 1 ≤ i64 v ∧ i64 v ≤ 16
  | 9 => f64Finite v = true
  | 10 => f64Finite v = true
  | 11 => f64Finite v = true ∧ 0 < f64Real v
  | 12 => f64Finite v = true ∧ 0 < f64Real v
  | 13 => 1 ≤ i64 v ∧ i64 v ≤ 16
  | 14 => f64Finite v = true ∧ 0 < f64Real v
  | 15 => 1 ≤ i64 v ∧ i64 v ≤ 16
  | 16 => f64Finite v = true
  | _ => True

/-- Override i, if it is present, lies in its domain (R108). -/
def OverrideOk (s : State) (i : Fin 17) : Prop := s.ovrMask.getLsbD i = true → InDomain i s.ovr[i]

/-- A frequency word in MHz as hertz (R120). -/
noncomputable def hzReal (mhz : F64) : ℝ := f64Real mhz * 1000000

/-- The band from `lo` to `hi` lies between 0 and fs/2. -/
def InBand (fs lo hi : ℝ) : Prop := 0 < lo ∧ hi < fs / 2

/-- The fine-sync centre in hertz (41_filter_synth.md R137). -/
noncomputable def fsyncHzReal (cfg : Word32) (sp : Vector Word 20) : ℝ :=
  if cfgStdsel cfg = 0#8 then 7 / 2 * hzReal sp[1] else hzReal sp[2]

/-- Row j of the final range check (R119), for fs in hertz; every value compared is a number. -/
def RangeRow (p : Params) (r : Rom) (cfg : Word32) (fs : ℝ) (sp : Vector Word 20) (dp : Vector Word 16) (j : Nat) : Prop :=
  match j with
  | 0 => f64Finite dp[4] = true ∧ f64Finite dp[5] = true ∧ f64Real dp[4] < f64Real dp[5]
      ∧ InBand fs (f64Real dp[4]) (f64Real dp[5])
  | 1 => f64Finite dp[12] = true ∧ InBand fs (f64Real dp[12]) (f64Real dp[12])
  | 2 => f64Finite dp[7] = true ∧ InBand fs (f64Real dp[7]) (f64Real dp[7])
  | 3 => f64Finite (if cfgStdsel cfg = 0#8 then sp[1] else sp[2]) = true ∧ f64Finite p.fsyncBwHz = true
      ∧ InBand fs (fsyncHzReal cfg sp - f64Real p.fsyncBwHz / 2) (fsyncHzReal cfg sp + f64Real p.fsyncBwHz / 2)
  | 4 => cfgAaLevel cfg ≠ 0#16 → f64Finite sp[8] = true ∧ f64Finite sp[9] = true ∧ f64Finite dp[14] = true
      ∧ InBand fs (hzReal sp[8] - f64Real dp[14] / 2) (hzReal sp[8] + f64Real dp[14] / 2)
      ∧ InBand fs (hzReal sp[9] - f64Real dp[14] / 2) (hzReal sp[9] + f64Real dp[14] / 2)
  | 5 => cfgAaLevel cfg ≠ 0#16 → notchOn dp = true → f64Finite sp[1] = true ∧ f64Finite dp[0] = true
      ∧ InBand fs (hzReal sp[1] - f64Real dp[0] / 2) (hzReal sp[1] + f64Real dp[0] / 2)
  | 6 => f64Finite (mtfPair p dp).1 = true ∧ f64Finite (mtfPair p dp).2 = true
  | 7 => ∃ q, r.efmPoints.getLast? = some q ∧ f64Finite q.freq = true ∧ f64Real q.freq < fs / 2
  | _ => True

/-- Row j of the final range check, of the values that a CONSTRUCT in this state derives (R119). -/
def RangeOk (s : State) (j : Nat) : Prop := RangeRow s.params s.rom s.cfg (hzReal s.fsMhz) s.newSp s.dpWords j

/-- The checks of R101's pseudocode before the overrides. -/
structure BasicsPass (s : State) : Prop where
  standard : (cfgStdsel s.cfg).toNat ≤ 1
  blockLength : BlockLengthOk s.nreg.toNat
  rate : RateOk s.fsMhz
  digital : cfgDda s.cfg = true → cfgHasAudio s.cfg = true
  analog : cfgAaLevel s.cfg ≠ 0#16 → cfgHasAudio s.cfg = true
  window : WindowOk s

/-- Every check of R101's pseudocode passes. -/
structure ConstructPasses (s : State) : Prop where
  basics : BasicsPass s
  overrides : ∀ i, OverrideOk s i
  ranges : ∀ j, j < 8 → RangeOk s j

/-- The base table of the standard that CFG selects (R102). -/
def stdRom (s : State) : Vector Word 16 := if cfgStdsel s.cfg = 0#8 then s.rom.stdNtsc else s.rom.stdPal

/-- The decoder table that CFG selects (R105). -/
def decRom (s : State) : Vector Word 16 :=
  if cfgStdsel s.cfg = 0#8 then (if cfgLowband s.cfg then s.rom.decNtscLow else s.rom.decNtsc)
  else (if cfgLowband s.cfg then s.rom.decPalLow else s.rom.decPal)

/-! ### Filter responses (41_filter_synth.md R131 to R139) -/

/-- t_k = tan(pi*k/N). -/
noncomputable def tanReal (N k : ℕ) : ℝ := Real.tan (Real.pi * k / N)

/-- W(f) = tan(pi*f/fs). -/
noncomputable def warpReal (fs f : ℝ) : ℝ := Real.tan (Real.pi * f / fs)

/-- 1 / P_n(z), with P_n(z) the product of z - p_m and p_m = exp(j*pi*(2m + n + 1)/(2n)). -/
noncomputable def prototype (n : ℕ) (z : ℂ) : ℂ :=
  1 / ∏ m ∈ Finset.range n, (z - Complex.exp (Complex.I * (Real.pi * (2 * m + n + 1) / (2 * n))))

/-- butterLP(fc, n)[k]. -/
noncomputable def lowPass (N : ℕ) (fs fc : ℝ) (n k : ℕ) : ℂ :=
  if 2 * k = N then 0 else prototype n (Complex.I * tanReal N k / warpReal fs fc)

/-- butterHP(fc, n)[k]. -/
noncomputable def highPass (N : ℕ) (fs fc : ℝ) (n k : ℕ) : ℂ :=
  if k = 0 then 0 else if 2 * k = N then 1 else prototype n (warpReal fs fc / (Complex.I * tanReal N k))

/-- butterBP(f1, f2, n)[k]. -/
noncomputable def bandPass (N : ℕ) (fs f1 f2 : ℝ) (n k : ℕ) : ℂ :=
  if k = 0 ∨ 2 * k = N then 0
  else prototype n (((Complex.I * tanReal N k) ^ 2 + warpReal fs f1 * warpReal fs f2)
    / ((warpReal fs f2 - warpReal fs f1) * (Complex.I * tanReal N k)))

/-- butterBS(f1, f2, n)[k]. -/
noncomputable def bandStop (N : ℕ) (fs f1 f2 : ℝ) (n k : ℕ) : ℂ :=
  if k = 0 ∨ 2 * k = N then 1
  else if (Complex.I * tanReal N k) ^ 2 + warpReal fs f1 * warpReal fs f2 = 0 then 0
  else prototype n ((warpReal fs f2 - warpReal fs f1) * (Complex.I * tanReal N k)
    / ((Complex.I * tanReal N k) ^ 2 + warpReal fs f1 * warpReal fs f2))

/-- HILB[k] (R132). -/
def hilbert (N k : ℕ) : ℕ := if k = 0 ∨ 2 * k = N then 1 else if 2 * k < N then 2 else 0

/-- fsig(k) in hertz (00_scope.md R15). -/
noncomputable def fsigReal (N : ℕ) (fs : ℝ) (k : ℕ) : ℝ := if 2 * k ≤ N then k * fs / N else ((k : ℝ) - N) * fs / N

/-- BRICK(fc)[k] (R133). -/
noncomputable def brickReal (N : ℕ) (fs fc : ℝ) (k : ℕ) : ℝ := if |fsigReal N fs k| ≤ fc then 1 else 0

/-- fs in hertz. -/
noncomputable def State.fsReal (s : State) : ℝ := hzReal s.cfsMhz

/-- NOTCH[k] (R138). -/
noncomputable def notchResponse (s : State) (k : ℕ) : ℂ :=
  if notchOn s.dp then
    bandStop s.n s.fsReal (hzReal s.sp[1] - f64Real s.dp[0] / 2) (hzReal s.sp[1] + f64Real s.dp[0] / 2) (s.dpOrder 1) k
  else 1

/-- The audio response around the carrier `fa` in hertz (R138). -/
noncomputable def audioResponse (s : State) (fa : ℝ) (k : ℕ) : ℂ :=
  if cfgAaLevel s.cflags = 0#16 then 0
  else hilbert s.n k
    * bandPass s.n s.fsReal (fa - f64Real s.dp[14] / 2) (fa + f64Real s.dp[14] / 2) (s.dpOrder 15) k * notchResponse s k

/-- T[f][k] of the slots other than F_EFM (R135 to R139). -/
noncomputable def slotResponse (s : State) (f k : ℕ) : ℂ :=
  match f with
  | 0 => hilbert s.n k * bandPass s.n s.fsReal (f64Real s.dp[4]) (f64Real s.dp[5]) (s.dpOrder 6) k
      * highPass s.n s.fsReal (f64Real s.dp[12]) (s.dpOrder 13) k
  | 1 => lowPass s.n s.fsReal (f64Real s.dp[7]) (s.dpOrder 8) k
  | 2 => bandPass s.n s.fsReal (fsyncHzReal s.cflags s.sp - f64Real s.params.fsyncBwHz / 2)
      (fsyncHzReal s.cflags s.sp + f64Real s.params.fsyncBwHz / 2) s.params.fsyncOrder k
  | 3 => audioResponse s (hzReal s.sp[8]) k
  | 4 => audioResponse s (hzReal s.sp[9]) k
  | 6 => brickReal s.n s.fsReal (s.fsReal / (2 * 32)) k
  | _ => 0

/-- The rule of the slot has a response for the parameters in effect: every order is at least 1 (R131) and the width of its
band-pass positive. FSYNC_BW_HZ and FSYNC_ORDER have no range (00_scope.md R8), and 10_state.md R46 alone excludes such a
width or order of a ROM table (log 19, log 22, log 28). -/
def SlotStated (s : State) (f : ℕ) : Prop :=
  match f with
  | 0 => 1 ≤ s.dpOrder 6 ∧ 1 ≤ s.dpOrder 13
  | 1 => 1 ≤ s.dpOrder 8
  | 2 => 1 ≤ s.params.fsyncOrder ∧ (0 : ℝ) < f64Real s.params.fsyncBwHz
  | 3 => cfgAaLevel s.cflags ≠ 0#16 → 1 ≤ s.dpOrder 15 ∧ (0 : ℝ) < f64Real s.dp[14]
  | 4 => cfgAaLevel s.cflags ≠ 0#16 → 1 ≤ s.dpOrder 15 ∧ (0 : ℝ) < f64Real s.dp[14]
  | _ => True

/-- T[5][k] (R140), with the amplitude and the phase spline. -/
noncomputable def efmResponse (s : State) (sa sp : Curve) (k : ℕ) : ℂ :=
  let f : ℚ := fbin s.n s.fsRat k
  if f ≤ efmLast s.rom then
    (sa.eval f : ℝ) * f64Real s.rom.efmScale
      * (Real.cos (sp.eval f : ℝ) - Complex.I * Real.sin (sp.eval f : ℝ))
  else 0

/-- DEEMP_M[k] (43_block_audio.md R211, R212). -/
noncomputable def deemphasisResponse (s : State) (M k : ℕ) : ℂ :=
  if f64Real s.dp[2] = 0 then 1
  else (1 + Complex.I * (2 * Real.pi * fsigReal M (s.fsReal / 32) k * (f64Real s.dp[3] / 1000000)))
    / (1 + Complex.I * (2 * Real.pi * fsigReal M (s.fsReal / 32) k * (f64Real s.dp[2] / 1000000)))

/-! ### Transforms and phases over the real numbers -/

/-- DFT_N(x)[k] (00_scope.md R14). -/
noncomputable def dftReal (N : ℕ) (x : ℕ → ℂ) (k : ℕ) : ℂ :=
  ∑ n ∈ Finset.range N, x n * Complex.exp (-(Complex.I * (2 * Real.pi * k * n / N)))

/-- IDFT_N(X)[n] (00_scope.md R14). -/
noncomputable def idftReal (N : ℕ) (X : ℕ → ℂ) (n : ℕ) : ℂ :=
  (1 / N) * ∑ k ∈ Finset.range N, X k * Complex.exp (Complex.I * (2 * Real.pi * k * n / N))

/-- The correction of one step of UNWRAP's loop (42_datapath.md R167). -/
noncomputable def turnStep (delta : ℝ) : ℤ := if delta > Real.pi then -1 else if delta < -Real.pi then 1 else 0

/-- `turns` after the sample W0 + i of UNWRAP's loop. -/
noncomputable def turnsReal (phi : ℕ → ℝ) (w0 : ℕ) (prev : ℝ) (turns : ℤ) : ℕ → ℤ
  | 0 => turns + turnStep (phi w0 - prev)
  | i + 1 => turnsReal phi w0 prev turns i + turnStep (phi (w0 + (i + 1)) - phi (w0 + i))

/-- The value FDEMOD subtracts (42_datapath.md R168). -/
noncomputable def carrierReal (s : State) : Carrier → ℝ
  | .none => 0
  | .audioL => hzReal s.sp[8]
  | .audioR => hzReal s.sp[9]

/-- fi[n] of FDEMOD for a sample of the window (42_datapath.md R168). -/
noncomputable def frequencyReal (s : State) (u : ℕ → ℝ) (st : Stream) (n : ℕ) : ℝ :=
  if n = s.w0 then
    if s.seedOk st then (u s.w0 - f64Real s.seedU[st]) * s.fsReal / (2 * Real.pi)
    else if 2 ≤ s.w1 - s.w0 then (u (s.w0 + 1) - u s.w0) * s.fsReal / (2 * Real.pi)
    else 0
  else (u n - u (n - 1)) * s.fsReal / (2 * Real.pi)

/-! ### PROCBLK (43_block_audio.md R202, R203) -/

/-- The commands of one audio channel: its slot, output buffer, stream and carrier. -/
def channelCommands (slot : BitVec 4) (out : Buf) (st c : BitVec 2) : List Instr :=
  [.cmul bufW2 bufW1 slot, .ifft bufW2 bufW2, .phase bufW3 bufW2, .unwrap bufW3 bufW3 st, .fdemod bufW4 bufW3 st c,
   .fft bufW4 bufW4, .cmul bufW4 bufW4 6#4, .ifft bufW4 bufW4, .decim out bufW4 32#12]

/-- R203's fixed sequence, with and without analog audio (AALEVEL != 0) and the EFM path (DDA = 1). -/
def procblkCommands (audio efm : Bool) : List Instr :=
  [.real bufW1 bufSIN, .fft bufW1 bufW1, .cmul bufW2 bufW1 0#4, .ifft bufW2 bufW2, .env bufOutEnv bufW2,
   .phase bufW3 bufW2, .unwrap bufOutUphase bufW3 0#2, .fdemod bufW4 bufOutUphase 0#2 0#2, .fft bufW5 bufW4,
   .cmul bufW6 bufW5 1#4, .ifft bufW6 bufW6, .real bufOutSync bufW6, .cmul bufW6 bufW5 2#4, .ifft bufW6 bufW6,
   .real bufOutFsync bufW6, .mtf bufOutDemod bufW4]
  ++ (if audio then channelCommands 3#4 bufOutAudl 1#2 1#2 ++ channelCommands 4#4 bufOutAudr 2#2 2#2
      else [.clr bufOutAudl, .clr bufOutAudr])
  ++ (if efm then [.cmul bufW2 bufW1 5#4, .ifft bufOutEfm bufW2] else [.clr bufOutEfm])

/-- `cont` (R202). -/
def Continues (s : State) : Prop := s.blkStart = s.nextStart ∧ s.carryValid.getLsbD 0 = true

/-- PROCBLK's checks pass, in a state whose window CONSTRUCT has left. -/
def ProcblkRuns (s : State) : Prop :=
  s.constructed = true ∧ s.bankValid = true ∧ s.blkLen = s.cn ∧ s.geometryOk = true

/-- `t` is `s` after the contiguity check: CARRY_RESTART, and without contiguity no carry and no seed (R202). -/
def AfterContiguity (s t : State) : Prop :=
  (Continues s → t = { s with status := s.status &&& 0x5F#7 }) ∧
  (¬ Continues s → t = { s with status := s.status ||| 0x20#7, carryValid := 0#3, seedValid := 0#3 })

/-- The buffers PROCBLK writes: all but SIN and W7 (R203). -/
abbrev procblkWrites (b : Buf) : Prop := b ≠ 0#4 ∧ b ≠ 7#4

/-! ### Which command fails, and what it writes (10_state.md R47) -/

/-- A check of the command fails: NotConstructed and BadOperand (60_exceptions.md R234), then those of its own rule. -/
def Fails (s : State) (i : Instr) : Prop :=
  (needsConstruct i = true ∧ s.constructed = false) ∨ (outOfRange i ≠ none) ∨
    match i with
    | .nop => False
    | .construct => ¬ ConstructPasses s
    | .synth => False
    | .procblk => s.bankValid = false ∨ s.blkLen ≠ s.cn
    | .finaud =>
      524288 < s.afLen.toNat ∨ f64Finite s.mtfLevel = false ∨ f64Finite (audioGain s.params s.mtfLevel) = false
    | .rstcarry _ => False
    | .real _ _ => False
    | .fft _ _ => False
    | .ifft _ _ => False
    | .cmul _ _ _ => s.bankValid = false
    | .env _ _ => False
    | .phase _ _ => False
    | .unwrap _ _ _ => False
    | .fdemod _ _ _ _ => False
    | .mtf _ _ => False
    | .decim _ _ _ => False
    | .copy _ _ => False
    | .clr _ => False

/-- The carry and the seed of stream `k`: CARRY_VALID, SEED_VALID, CARRY_PH, CARRY_TURNS, SEED_U. -/
def CarryOrSeed (k : Stream) (addr : ℕ) : Prop :=
  addr = 0x130 ∨ addr = 0x170 ∨ addr = 0x140 + 16 * k ∨ addr = 0x148 + 16 * k ∨ addr = 0x178 + 8 * k

/-- The offset lies in elements 0..N-1 of buffer `b`. -/
def InBlock (s : State) (b : Buf) (addr : ℕ) : Prop := bufAddr b 0 ≤ addr ∧ addr < bufAddr b s.n

/-- The words that a command writes when it ends without an error, other than STATUS: its rows of R47's table. CONSTRUCT
also writes NEXT_START, and PROCBLK the counts without audio too (log 14). -/
def ResultWord (s : State) (i : Instr) (addr : ℕ) : Prop :=
  match i with
  | .nop => False
  | .construct =>
    addr = 0x108 ∨ addr = 0x110 ∨ addr = 0x130 ∨ addr = 0x170 ∨ (0x200 ≤ addr ∧ addr ≤ 0x338)
  | .synth => 0x02000000 ≤ addr ∧ addr < 0x02800000
  | .procblk =>
    addr = 0x108 ∨ addr = 0x118 ∨ addr = 0x120 ∨ CarryOrSeed 0 addr
      ∨ (cfgAaLevel s.cflags ≠ 0#16 ∧ (CarryOrSeed 1 addr ∨ CarryOrSeed 2 addr))
      ∨ ∃ b : Buf, procblkWrites b ∧ InBlock s b addr
  | .finaud =>
    addr = 0x128 ∨ (0x03800000 ≤ addr ∧ addr < 0x03900000) ∨ (0x03C00000 ≤ addr ∧ addr < 0x03D00000)
  | .rstcarry _ => addr = 0x130 ∨ addr = 0x170
  | .real d _ => InBlock s d addr
  | .fft d _ => InBlock s d addr
  | .ifft d _ => InBlock s d addr
  | .cmul d _ _ => InBlock s d addr
  | .env d _ => InBlock s d addr
  | .phase d _ => InBlock s d addr
  | .unwrap d _ st => InBlock s d addr ∨ ∃ k : Stream, st.toNat = k.val ∧ CarryOrSeed k addr
  | .fdemod d _ _ _ => InBlock s d addr
  | .mtf d _ => InBlock s d addr
  | .decim d _ _ => InBlock s d addr ∨ addr = 0x118 ∨ addr = 0x120
  | .copy d _ => InBlock s d addr
  | .clr d => InBlock s d addr

/-- The words, other than STATUS, that the command writes in this state: ERRCODE alone where it ends with an error (R47's row
of ERRCODE, 60_exceptions.md R233), its results where it does not. -/
def WritesWord (s : State) (i : Instr) (addr : ℕ) : Prop :=
  (Fails s i ∧ addr = 0x010) ∨ (¬ Fails s i ∧ ResultWord s i addr)

/-! ### The bus (20_memory.md R61 to R63) -/

/-- The ranges of the address map. -/
def Mapped (addr : Nat) : Prop :=
  addr < 0x1000 ∨ (0x01000000 ≤ addr ∧ addr < 0x02800000) ∨ (0x03000000 ≤ addr ∧ addr < 0x03900000)
    ∨ (0x03C00000 ≤ addr ∧ addr < 0x03D00000) ∨ (0x04000000 ≤ addr ∧ addr < 0x04001000)

/-- The memory that the host may write: the buffers and the audio frames. -/
def HostMemory (addr : Nat) : Prop :=
  (0x01000000 ≤ addr ∧ addr < 0x02000000) ∨ (0x03000000 ≤ addr ∧ addr < 0x03900000)
    ∨ (0x03C00000 ≤ addr ∧ addr < 0x03D00000)

/-- The read-write registers other than STATUS, each with its implemented bits (10_state.md R27 to R30, R37, R38). -/
def writableBits (off : Nat) : Option Word :=
  if off = 0x020 then some 0x3#64
  else if off = 0x028 then some 0xFFFF07FF#64
  else if off = 0x030 then some 0xFFFFFFFFFFFFFFFF#64
  else if off = 0x038 ∨ off = 0x040 ∨ off = 0x048 then some 0xFFFFFFFF#64
  else if off = 0x050 then some 0x1FFFF#64
  else if 0x060 ≤ off ∧ off ≤ 0x0E8 then some 0xFFFFFFFFFFFFFFFF#64
  else if off = 0x0F0 ∨ off = 0x0F8 then some 0xFFFFFFFF#64
  else if off = 0x100 then some 0xFFFFFFFFFFFFFFFF#64
  else none

/-- The register at offset `off` reads `v` (10_state.md R23 to R38): the field that each offset shows, 0 at CMD (R26) and
at every reserved offset (R30, R38). -/
inductive RegisterShows (s : State) : ℕ → Word → Prop
  | id : RegisterShows s 0x000 0x4C44464200000007#64
  | status : RegisterShows s 0x008 (s.status.setWidth 64)
  | errcode : RegisterShows s 0x010 s.errcode
  | cmd : RegisterShows s 0x018 0#64
  | irqen : RegisterShows s 0x020 (s.irqen.setWidth 64)
  | cfg : RegisterShows s 0x028 (s.cfg.setWidth 64)
  | fsMhz : RegisterShows s 0x030 s.fsMhz
  | nreg : RegisterShows s 0x038 (s.nreg.setWidth 64)
  | blockcut : RegisterShows s 0x040 (s.blockcut.setWidth 64)
  | blockcutEnd : RegisterShows s 0x048 (s.blockcutEnd.setWidth 64)
  | ovrMask : RegisterShows s 0x050 (s.ovrMask.setWidth 64)
  | ovr (i : Fin 17) : RegisterShows s (0x060 + 8 * i) s.ovr[i]
  | blkStart : RegisterShows s 0x0E8 s.blkStart
  | blkLen : RegisterShows s 0x0F0 (s.blkLen.setWidth 64)
  | afLen : RegisterShows s 0x0F8 (s.afLen.setWidth 64)
  | mtfLevel : RegisterShows s 0x100 s.mtfLevel
  | nextStart : RegisterShows s 0x108 s.nextStart
  | win : RegisterShows s 0x110 s.win
  | audCount : RegisterShows s 0x118 (s.audCount.setWidth 64)
  | audFirst : RegisterShows s 0x120 s.audFirst
  | afOutlen : RegisterShows s 0x128 (s.afOutlen.setWidth 64)
  | carryValid : RegisterShows s 0x130 (s.carryValid.setWidth 64)
  | carryPh (st : Stream) : RegisterShows s (0x140 + 16 * st) s.carryPh[st]
  | carryTurns (st : Stream) : RegisterShows s (0x148 + 16 * st) s.carryTurns[st]
  | seedValid : RegisterShows s 0x170 (s.seedValid.setWidth 64)
  | seedU (st : Stream) : RegisterShows s (0x178 + 8 * st) s.seedU[st]
  | dp (i : Fin 16) : RegisterShows s (0x200 + 8 * i) s.dp[i]
  | sp (i : Fin 20) : RegisterShows s (0x280 + 8 * i) s.sp[i]
  | deempAdj : RegisterShows s 0x320 s.deempAdj
  | cn : RegisterShows s 0x328 (s.cn.setWidth 64)
  | cfsMhz : RegisterShows s 0x330 s.cfsMhz
  | cflags : RegisterShows s 0x338 (s.cflags.setWidth 64)
  | reserved (off : ℕ) (h : off = 0x058 ∨ off = 0x138 ∨ (0x190 ≤ off ∧ off ≤ 0x1F8) ∨ (0x340 ≤ off ∧ off ≤ 0xFF8)) :
      RegisterShows s off 0#64

/-- The coefficient ROM's word at offset `off` is `v` (20_memory.md R66): entry 5 of the two base tables and everything
that the layout does not assign read 0. -/
inductive RomShows (r : Rom) : ℕ → Word → Prop
  | stdNtsc (i : Fin 16) (h : i ≠ 5) : RomShows r (0x000 + 8 * i) r.stdNtsc[i]
  | stdPal (i : Fin 16) (h : i ≠ 5) : RomShows r (0x080 + 8 * i) r.stdPal[i]
  | linePeriodNtsc : RomShows r 0x028 0#64
  | linePeriodPal : RomShows r 0x0A8 0#64
  | decNtsc (i : Fin 16) : RomShows r (0x100 + 8 * i) r.decNtsc[i]
  | decNtscLow (i : Fin 16) : RomShows r (0x180 + 8 * i) r.decNtscLow[i]
  | decPal (i : Fin 16) : RomShows r (0x200 + 8 * i) r.decPal[i]
  | decPalLow (i : Fin 16) : RomShows r (0x280 + 8 * i) r.decPalLow[i]
  | count : RomShows r 0x300 (BitVec.ofNat 64 r.efmPoints.length)
  | scale : RomShows r 0x308 r.efmScale
  | phaseFactor : RomShows r 0x310 r.efmPhaseFactor
  | freq (i : ℕ) (h : i < r.efmPoints.length) : RomShows r (0x320 + 24 * i) r.efmPoints[i].freq
  | amp (i : ℕ) (h : i < r.efmPoints.length) : RomShows r (0x328 + 24 * i) r.efmPoints[i].amp
  | phase (i : ℕ) (h : i < r.efmPoints.length) : RomShows r (0x330 + 24 * i) r.efmPoints[i].phase
  | reserved (off : ℕ) (h : off = 0x318 ∨ (0x320 + 24 * r.efmPoints.length ≤ off ∧ off ≤ 0xFF8)) : RomShows r off 0#64

/-! ### The events of a step -/

/-- The engine has the next turn and is executing the command `i` (20_memory.md R68). -/
def Executing (s : State) (i : Instr) : Prop :=
  s.busy = true ∧ decode s.cmd = .ok i ∧ (s.inputs = [] ∨ s.inputs.head? = some .engine)

/-- The next event is a reset (70_reset_and_hazards.md R260). -/
def Resetting (s : State) : Prop := s.inputs.head? = some .reset

/-- The next event is the host write of `v` at `addr`, 64 bits wide, before the events `rest`. -/
def Writing (s : State) (addr : BitVec 32) (v : Word) (rest : List Input) : Prop := s.inputs = .write 8 addr v :: rest

/-- The next event is a 64-bit host read at `addr`, before the events `rest`. -/
def Reading (s : State) (addr : BitVec 32) (rest : List Input) : Prop := s.inputs = .read 8 addr :: rest

/-- The configuration registers replaced: the shadows of 10_state.md R28 to R30. -/
def State.withShadows (s : State) (cfg : Word32) (fsMhz : F64) (nreg cut cutEnd : Word32) (mask : BitVec 17)
    (ovr : Vector Word 17) : State :=
  { s with cfg := cfg, fsMhz := fsMhz, nreg := nreg, blockcut := cut, blockcutEnd := cutEnd, ovrMask := mask, ovr := ovr }

/-- Commands executed one after the other, each in the state that the one before leaves (20_memory.md R68). -/
def execAll : List Instr → State → Host.Outcome State Fault Refusal
  | [], s => .next s
  | i :: is, s =>
    match exec i s with
    | .next t => execAll is t
    | .fault r => .fault r
    | .refused r => .refused r

end Sys2Proof.Machine
end

