-- ==== Sys2Proof/Certificates/Slice0/Obligations.lean ====
section
/-! DEFINITION. The statements for the provers: what the numbered rules of spec/ say that the commands, the engine and the
bus do. The terms are those of Sys2Proof/Safety.lean. -/

section Statements

open Sys2Proof Sys2Proof.Machine

/-! ### Command words -/

/-- 30_encoding.md R84, R90: the decoder reads back every command that the encoder writes, every field at every value. -/
def Obligations.DecodeOfEncode : Prop := ∀ i : Instr, decode (encode i) = .ok i

/-- 30_encoding.md R84, R90: a word that decodes is the one the encoder writes, so that no two words are one command. -/
def Obligations.EncodeOfDecode : Prop := ∀ (w : Word32) (i : Instr), decode w = .ok i → encode i = w

/-- 30_encoding.md R90: the encoding formula, and the worked encodings, which also decode. -/
def Obligations.WorkedEncodings : Prop :=
  (∀ (opc : BitVec 8) (d a : Buf) (f : BitVec 4) (imm : BitVec 12),
    (commandWord opc d a f imm).toNat = opc.toNat <<< 24 ||| d.toNat <<< 20 ||| a.toNat <<< 16 ||| f.toNat <<< 12 ||| imm.toNat)
  ∧ (encode (.fft bufW1 bufSIN) = 0x11100000#32 ∧ decode 0x11100000#32 = .ok (.fft 1 0))
  ∧ (encode (.ifft bufW2 bufW2) = 0x12220000#32 ∧ decode 0x12220000#32 = .ok (.ifft 2 2))
  ∧ (encode (.unwrap bufOutUphase bufW3 0) = 0x16930000#32 ∧ decode 0x16930000#32 = .ok (.unwrap 9 3 0))
  ∧ (encode (.fdemod bufW4 bufW3 1 1) = 0x17430005#32 ∧ decode 0x17430005#32 = .ok (.fdemod 4 3 1 1))
  ∧ (encode (.decim bufOutAudl bufW4 32) = 0x19D40020#32 ∧ decode 0x19D40020#32 = .ok (.decim 13 4 32))
  ∧ (encode (.rstcarry 7) = 0x05000007#32 ∧ decode 0x05000007#32 = .ok (.rstcarry 7))
  ∧ (encode .procblk = 0x03000000#32 ∧ decode 0x03000000#32 = .ok .procblk)

/-- 30_encoding.md R85: a word is refused by the decoder exactly when it is illegal, and then the engine raises
IllegalCommand (code 7, the word as INFO) with no other effect. -/
def Obligations.IllegalWords : Prop :=
  ∀ w : Word32, ((∃ r, decode w = .error r) ↔ IllegalWord w) ∧
    (IllegalWord w → ∀ s : State, s.cmd = w → s.busy = true →
      engineTurn s = .next (errorState s (w.extractLsb' 24 8) 7#8 w))

/-- 60_exceptions.md R234, 30_encoding.md R82, R83: the first checks of every command: NotConstructed where it applies, then
BadOperand with the out-of-range field value, whatever else is wrong; nothing else changes. A command is well formed exactly
when it has no such field. -/
def Obligations.FirstChecks : Prop :=
  ∀ i : Instr, (WellFormed i = true ↔ outOfRange i = none) ∧
    ∀ s : State, (needsConstruct i = true → s.constructed = false →
        exec i s = .next (errorState s (opcodeOf i) 5#8 0#32)) ∧
      (s.constructed = true → ∀ info, outOfRange i = some info →
        exec i s = .next (errorState s (opcodeOf i) 8#8 info))

/-! ### The step -/

/-- 20_memory.md R68: the busy engine's turn executes the latched command, from the state with that event gone. -/
def Obligations.StepRunsDecodedCommand : Prop :=
  ∀ (s : State) (i : Instr), s.busy = true → decode s.cmd = .ok i →
    (s.inputs = [] → step s = exec i s) ∧
    (∀ rest, s.inputs = .engine :: rest → step s = exec i { s with inputs := rest })

/-- 70_reset_and_hazards.md R264, 60_exceptions.md R244: with BUSY = 0 the engine's turn changes nothing, and with no event
left the machine stays as it is. -/
def Obligations.IdleEngineHoldsState : Prop :=
  ∀ s : State, s.busy = false →
    (s.inputs = [] → step s = .next s) ∧
    (∀ rest, s.inputs = .engine :: rest → step s = .next { s with inputs := rest })

/-- 10_state.md R26, 20_memory.md R65: an idle engine's CMD write latches bits 31:0 and sets BUSY; a busy one's is dropped
and sets WRBUSY; CMD reads 0. That a dropped write is answered without a bus error is the model's choice (log 12). -/
def Obligations.CommandIssue : Prop :=
  ∀ (s : State) (v : Word) (rest : List Input),
    (Writing s 0x018#32 v rest → s.busy = false →
      step s = .next { s with inputs := rest, reply := .ok, status := s.status ||| 0x01#7, cmd := v.setWidth 32 }) ∧
    (Writing s 0x018#32 v rest → s.busy = true →
      step s = .next { s with inputs := rest, reply := .ok, status := s.status ||| 0x10#7 }) ∧
    (Reading s 0x018#32 rest → step s = .next { s with inputs := rest, reply := .data 0#64 })

/-! ### Reset -/

/-- 70_reset_and_hazards.md R261: every register reads 0 after reset but ID, at power-on and by a reset event. -/
def Obligations.ResetRegisters : Prop :=
  (∀ off, regRead State.reset off = if off = 0 then 0x4C44464200000007#64 else 0#64) ∧
  (State.reset.busy = false ∧ State.reset.constructed = false ∧ State.reset.bankValid = false ∧ State.reset.err = false
    ∧ State.reset.done = false ∧ State.reset.irq = false ∧ (∀ st, State.reset.carryOk st = false)
    ∧ cfgStdsel State.reset.cfg = 0#8 ∧ cfgLowband State.reset.cfg = false ∧ cfgDda State.reset.cfg = false
    ∧ cfgHasAudio State.reset.cfg = false ∧ cfgAaLevel State.reset.cfg = 0#16) ∧
  (∀ s, Resetting s → ∃ t, step s = .next t ∧
    ∀ off, regRead t off = if off = 0 then 0x4C44464200000007#64 else 0#64)

/-- 70_reset_and_hazards.md R260, R262, R263: a reset, during a command too, leaves no byte of memory with a value, the
engine idle and the ROM as it was; the model's own fields (log 1, log 15) are the remaining ones of `t`. -/
def Obligations.ResetAbandonsCommand : Prop :=
  (∀ addr, Memory.byte? State.reset.mem addr = none) ∧
  ∀ (s : State) (rest : List Input), s.inputs = .reset :: rest →
    ∃ t, step s = .next t ∧ (∀ addr, Memory.byte? t.mem addr = none) ∧ t.busy = false ∧ t.rom = s.rom ∧
      t.params = s.params ∧ t.inputs = rest

/-- The invariant holds right after reset. -/
def Obligations.ResetInvariant : Prop := Inv State.reset

/-! ### The invariant -/

/-- Every step, of the host, of the engine or a reset, from every state, keeps the invariant. -/
def Obligations.StepKeepsInvariant : Prop := ∀ s t : State, Inv s → step s = .next t → Inv t

/-- 70_reset_and_hazards.md R277, 60_exceptions.md R230: from every state of the invariant every step answers a next state:
no command stops the machine. -/
def Obligations.StepAnswersNext : Prop := ∀ s : State, Inv s → ∃ t, step s = .next t

/-! ### Control commands -/

/-- 43_block_audio.md R200: NOP sets DONE and changes nothing else, before a CONSTRUCT too; so does writing 0 to CMD. -/
def Obligations.NopOnlySetsDone : Prop :=
  (∀ s : State, exec .nop s = .next { s with status := endStatus s.status }) ∧
  ∀ (s : State) (rest : List Input), Writing s 0x018#32 0#64 (.engine :: rest) → s.busy = false →
    ∃ t, step s = .next t ∧
      step t = .next { s with status := endStatus s.status, inputs := rest, reply := .ok, cmd := 0#32 }

/-- 43_block_audio.md R201: RSTCARRY clears the carry and seed valid bits of the streams in its mask, before a CONSTRUCT too;
a following UNWRAP of such a stream starts from turns = 0. -/
def Obligations.RstcarryClearsMaskedStreams : Prop :=
  ∀ (mask : BitVec 3) (s : State), ∃ t, exec (.rstcarry mask) s = .next t ∧
    t = { s with status := endStatus s.status, carryValid := t.carryValid, seedValid := t.seedValid } ∧
    ∀ st : Fin 3, t.carryOk st = (s.carryOk st && !mask.getLsbD st) ∧ t.seedOk st = (s.seedOk st && !mask.getLsbD st)
      ∧ (mask.getLsbD st = true → t.unwrapTurns0 st = 0)

/-! ### CONSTRUCT -/

/-- 40_parameter_model.md R101, R104: a CONSTRUCT whose checks pass commits the parameters in effect, clears BANK_VALID and
the carries, and changes nothing else. -/
def Obligations.ConstructCommits : Prop :=
  ∀ s : State, ConstructPasses s → ∃ t, exec .construct s = .next t ∧
    t = { s with status := endStatus ((s.status ||| 0x02#7) &&& 0x7B#7), sp := t.sp, dp := t.dp, deempAdj := t.deempAdj,
                 win := t.win, cn := s.nreg, cfsMhz := s.fsMhz, cflags := s.cfg, carryValid := 0#3, seedValid := 0#3,
                 nextStart := 0#64 } ∧
    t.w0 = s.blockcut.toNat ∧ (t.w1 : Int) = (s.nreg.toNat : Int) - s.blockcutEnd.toNat ∧
    t.deempAdj = (if s.ovrMask.getLsbD 16 then s.ovr[16] else 0x3FF0000000000000#64)

/-- 40_parameter_model.md R105, R106, R109, R110, R111: the DecoderParameters a CONSTRUCT leaves. The table's DEEMP_HIGH is a
number (10_state.md R46); the rounding of the product is that of log 8. -/
def Obligations.ConstructDecoderParameters : Prop :=
  ∀ s t : State, ConstructPasses s → exec .construct s = .next t →
    (∀ i : Fin 16, i ≠ 2 → i ≠ 3 → t.dp[i] = if s.ovrMask.getLsbD i then s.ovr[i.val] else (decRom s)[i]) ∧
    t.dp[2] = f64Mul (if s.ovrMask.getLsbD 2 then s.ovr[2] else 0#64) t.deempAdj ∧
    (f64Finite (decRom s)[3] = true →
      t.dp[3] = f64Mul (if s.ovrMask.getLsbD 3 then s.ovr[3]
                        else if s.params.deempHighAbsent = .clear then 0#64 else (decRom s)[3]) t.deempAdj)

/-- 40_parameter_model.md R111: the product is the binary64 nearest to the exact one (log 8). -/
def Obligations.ProductIsNearest : Prop :=
  ∀ x y z : F64, f64Finite x = true → f64Finite y = true → f64Finite (f64Mul x y) = true → f64Finite z = true →
    |f64Real (f64Mul x y) - f64Real x * f64Real y| ≤ |f64Real z - f64Real x * f64Real y|

/-- 40_parameter_model.md R112 to R117: the StandardParameters a CONSTRUCT leaves: the ROM's fields, and the derived ones
from them, LINE_LEN and PILOT_LINE_LEN exactly: LINE_LEN is 910 for NTSC with every colour-subcarrier frequency, and
PILOT_LINE_LEN is the default floor, or the OPEN function of the other words (log 9). Counts that i64 cannot hold are
log 7's. -/
def Obligations.ConstructStandardParameters : Prop :=
  ∀ (tol : ℝ → ℝ) (s t : State), Tolerance tol → ConstructPasses s → exec .construct s = .next t →
    (∀ i : Fin 16, i ≠ 5 → t.sp[i.val] = (stdRom s)[i]) ∧
    (f64Finite (stdRom s)[0] = true → f64Finite (stdRom s)[1] = true → f64Finite (stdRom s)[3] = true →
      let fsc := f64Real (stdRom s)[1]
      let line := if cfgStdsel s.cfg = 0#8 then fsc / (455 / 2) else f64Real (stdRom s)[0] * f64Real (stdRom s)[3] / 1000000
      Matches tol t.sp[19] line ∧
      Matches tol t.sp[18] (4 * fsc) ∧
      (cfgStdsel s.cfg = 0#8 → fsc ≠ 0 → t.sp[16] = 910#64) ∧
      (line ≠ 0 → Matches tol t.sp[5] (1 / line) ∧
        (-(2 ^ 63) ≤ ⌊1 / line * 4 * fsc⌋ → ⌊1 / line * 4 * fsc⌋ < 2 ^ 63 → i64 t.sp[16] = ⌊1 / line * 4 * fsc⌋) ∧
        (s.params.pilotLineLen = .default → f64Finite (stdRom s)[2] = true →
          let pilot := ⌊1 / line * 4 * f64Real (stdRom s)[2]⌋
          (-(2 ^ 63) ≤ pilot ∧ pilot < 2 ^ 63 → i64 t.sp[17] = pilot)))) ∧
    (∀ id, s.params.pilotLineLen = .other id → t.sp[17] = Config.pilotLineLen id (t.sp.set 17 0#64))

/-- 40_parameter_model.md R101, R102, R103, R107: the first check that fails raises its error and changes nothing else. -/
def Obligations.ConstructFirstErrors : Prop :=
  ∀ s : State,
    (¬ (cfgStdsel s.cfg).toNat ≤ 1 →
      exec .construct s = .next (errorState s 1#8 1#8 ((cfgStdsel s.cfg).setWidth 32))) ∧
    ((cfgStdsel s.cfg).toNat ≤ 1 →
      (¬ BlockLengthOk s.nreg.toNat → exec .construct s = .next (errorState s 1#8 2#8 0x100#32)) ∧
      (BlockLengthOk s.nreg.toNat →
        (¬ RateOk s.fsMhz → exec .construct s = .next (errorState s 1#8 2#8 0x101#32)) ∧
        (RateOk s.fsMhz →
          (cfgDda s.cfg = true ∧ cfgHasAudio s.cfg = false →
            exec .construct s = .next (errorState s 1#8 3#8 1#32)) ∧
          (cfgDda s.cfg = false ∧ cfgAaLevel s.cfg ≠ 0#16 ∧ cfgHasAudio s.cfg = false →
            exec .construct s = .next (errorState s 1#8 3#8 2#32)) ∧
          ((cfgDda s.cfg = true ∨ cfgAaLevel s.cfg ≠ 0#16 → cfgHasAudio s.cfg = true) → ¬ WindowOk s →
            exec .construct s = .next (errorState s 1#8 2#8 0x102#32)))))

/-- 40_parameter_model.md R108, R119: with the checks before them passed, the first override outside its domain raises
InvalidParameter with its index, then the first row of the final range check that fails with 0x20 + j; nothing else changes.
That a row with a word that is no number fails, and that rows compare exact numbers, is log 25; that orders are signed is
log 19. -/
def Obligations.ConstructParameterErrors : Prop :=
  ∀ s : State, BasicsPass s →
    (∀ i : Fin 17, ¬ OverrideOk s i → (∀ j, j < i → OverrideOk s j) →
      exec .construct s = .next (errorState s 1#8 2#8 (BitVec.ofNat 32 i))) ∧
    (∀ j, (∀ i, OverrideOk s i) → j < 8 → ¬ RangeOk s j → (∀ l, l < j → RangeOk s l) →
      exec .construct s = .next (errorState s 1#8 2#8 (0x20#32 + BitVec.ofNat 32 j)))

/-! ### SYNTH -/

/-- 41_filter_synth.md R130: SYNTH stores every bin of slots 0 to 6 by its rule, zeros in the other bins and in slot 7, sets
BANK_VALID and changes nothing else. R130 writes 0 there: that the word is +0.0 is log 3. -/
def Obligations.SynthFillsBank : Prop :=
  ∀ s : State, NotConstructedRaised .synth s ∧
    (s.constructed = true → s.geometryOk = true →
      ∃ t, exec .synth s = .next t ∧ t = { s with status := endStatus (s.status ||| 0x04#7), mem := t.mem } ∧
        SameOutside s t 0x02000000 0x02800000 ∧
        ∀ f k, f < 8 → k < 65536 →
          (f < 7 → k < s.n → StoredComplex .fixed t.mem (slotAddr f k) (s.slotValue f k)) ∧
          (f = 7 ∨ s.n ≤ k →
            Memory.word? t.mem (slotAddr f k) = some 0#64 ∧ Memory.word? t.mem (slotAddr f k + 8) = some 0#64))

/-- 41_filter_synth.md R144: the slots are a function of CN, CFS_MHZ, SP, DP, CFLAGS, the ROM and the parameters alone. -/
def Obligations.SynthIsDeterministic : Prop :=
  ∀ s s' t t' : State, s.constructed = true → s'.constructed = true → s.cn = s'.cn → s.cfsMhz = s'.cfsMhz →
    s.sp = s'.sp → s.dp = s'.dp → s.cflags = s'.cflags → s.rom = s'.rom → s.params = s'.params →
    exec .synth s = .next t → exec .synth s' = .next t' →
    ∀ addr, 0x02000000 ≤ addr → addr < 0x02800000 → Memory.byte? t.mem addr = Memory.byte? t'.mem addr

/-- 41_filter_synth.md R131: the four Butterworth responses of every order n >= 1 are the closed forms at every bin. -/
def Obligations.ButterworthResponses : Prop :=
  ∀ (N n k : ℕ) (fs f1 f2 : Exact), 1 ≤ n →
    cDenote (butterLP N fs f1 n k) = lowPass N (denote fs) (denote f1) n k ∧
    cDenote (butterHP N fs f1 n k) = highPass N (denote fs) (denote f1) n k ∧
    cDenote (butterBP N fs f1 f2 n k) = bandPass N (denote fs) (denote f1) (denote f2) n k ∧
    cDenote (butterBS N fs f1 f2 n k) = bandStop N (denote fs) (denote f1) (denote f2) n k

/-- 41_filter_synth.md R135 to R139: the response of every slot but F_EFM, in every state whose parameters pass the final
range check (`Inv`) and whose orders and widths are those R131 gives a response for (`SlotStated`; the bins that would need
another are free values: the model's choice, log 19, log 22, log 28). -/
def Obligations.SlotResponses : Prop :=
  ∀ (s : State) (f k : ℕ), Inv s → s.constructed = true → f < 7 → f ≠ 5 → k < s.n →
    SlotStated s f →
    hasValue (s.slotValue f k).re = true ∧ hasValue (s.slotValue f k).im = true ∧
      cDenote (s.slotValue f k) = slotResponse s f k

/-- 41_filter_synth.md R134: after a SYNTH the bins that a slot's rule defines as 0 hold +0.0 in both halves: the
negative-frequency bins of the analytic slots, the bins of F_ALPF1 outside its band, the band-pass bins at DC and Nyquist
(F_RF, F_FSYNC, F_AUDL, F_AUDR), the low-pass bin at Nyquist, every bin of F_AUDL and F_AUDR without analog audio, and the
bins of F_EFM above the last control point. That R138's 0 without audio is such a zero is log 3. -/
def Obligations.ZeroBinsAreZero : Prop :=
  ∀ (s t : State) (f k : ℕ), Inv s → s.constructed = true → exec .synth s = .next t → k < s.n →
    (s.n < 2 * k ∧ (f = 0 ∨ f = 3 ∨ f = 4)) ∨ (f = 6 ∧ s.fsReal / 64 < |fsigReal s.n s.fsReal k|) ∨
      ((k = 0 ∨ 2 * k = s.n) ∧ (f = 0 ∨ f = 2 ∨ f = 3 ∨ f = 4)) ∨ (2 * k = s.n ∧ f = 1) ∨
      (cfgAaLevel s.cflags = 0#16 ∧ (f = 3 ∨ f = 4)) ∨
      (f = 5 ∧ efmLast s.rom < fbin s.n s.fsRat k) →
    Memory.word? t.mem (slotAddr f k) = some 0#64 ∧ Memory.word? t.mem (slotAddr f k + 8) = some 0#64

/-- 41_filter_synth.md R140, R142: the EFM bins from the amplitude and the phase spline; at a control point they are
`A_i * EFM_SCALE * (cos(F*P_i) - j*sin(F*P_i))` with F = EFM_PHASE_FACTOR, of magnitude |A_i * EFM_SCALE|. With a finite
EFM_SCALE both halves have a value, so that what SYNTH stores matches it (StoredWithinTolerance). A ROM of finite words whose
control points rise strictly in frequency (10_state.md R46) has both splines. -/
def Obligations.EfmEqualizer : Prop :=
  (∀ (s : State) (sa sp : Curve) (k : ℕ), efmCurves? s.rom = some (sa, sp) →
    cDenote (s.binEfm (efmCurves? s.rom) k) = efmResponse s sa sp k ∧
    (f64Finite s.rom.efmScale = true → hasValue (s.binEfm (efmCurves? s.rom) k).re = true ∧
      hasValue (s.binEfm (efmCurves? s.rom) k).im = true) ∧
    ∀ p ∈ s.rom.efmPoints, f64Rat p.freq = fbin s.n s.fsRat k →
      let theta := f64Real s.rom.efmPhaseFactor * f64Real p.phase
      cDenote (s.binEfm (efmCurves? s.rom) k)
        = f64Real p.amp * f64Real s.rom.efmScale * (Real.cos theta - Complex.I * Real.sin theta) ∧
      ‖cDenote (s.binEfm (efmCurves? s.rom) k)‖ = |f64Real p.amp * f64Real s.rom.efmScale|) ∧
  ∀ r : Rom, f64Finite r.efmPhaseFactor = true →
    (∀ p ∈ r.efmPoints, f64Finite p.freq = true ∧ f64Finite p.amp = true ∧ f64Finite p.phase = true) →
    (r.efmPoints.map (fun p => f64Rat p.freq)).Pairwise (· < ·) → ∃ sa sp, efmCurves? r = some (sa, sp)

/-- 41_filter_synth.md R141: for every list of at least four strictly rising knots (10_state.md R46) with their values
`spline?` answers; and what it answers is a cubic on each piece, passes through the points, is twice continuously
differentiable, and meets the not-a-knot conditions; below the first knot it is the first cubic. -/
def Obligations.SplineIsNotAKnot : Prop :=
  (∀ xs ys : List ℚ, 4 ≤ xs.length → ys.length = xs.length → xs.Pairwise (· < ·) → ∃ c, spline? xs ys = some c) ∧
  ∀ (xs ys : List ℚ) (c : Curve), spline? xs ys = some c →
    let K := xs.length
    let x := fun i => xs.getD i 0
    ∃ P : ℕ → Polynomial ℚ,
      (∀ i, i + 1 < K → (P i).natDegree ≤ 3 ∧ (P i).eval (x i) = ys.getD i 0 ∧ (P i).eval (x (i + 1)) = ys.getD (i + 1) 0) ∧
      (∀ i z, i + 1 < K → x i ≤ z → z < x (i + 1) → c.eval z = (P i).eval z) ∧
      (∀ z, z < x 0 → c.eval z = (P 0).eval z) ∧ c.eval (x (K - 1)) = ys.getD (K - 1) 0 ∧
      (∀ i, i + 2 < K → (P i).derivative.eval (x (i + 1)) = (P (i + 1)).derivative.eval (x (i + 1)) ∧
        (P i).derivative.derivative.eval (x (i + 1)) = (P (i + 1)).derivative.derivative.eval (x (i + 1))) ∧
      (P 0).derivative.derivative.derivative.eval (x 1) = (P 1).derivative.derivative.derivative.eval (x 1) ∧
      (P (K - 3)).derivative.derivative.derivative.eval (x (K - 2))
        = (P (K - 2)).derivative.derivative.derivative.eval (x (K - 2))

/-! ### Datapath commands -/

/-- 42_datapath.md R161, R162, R163, R165, R166: REAL, FFT, IFFT, ENV and PHASE complete whenever CONSTRUCTED = 1, leave in
elements 0..N-1 of the destination the results of the source's elements as they stood before, and change nothing else. A
block of zeros is transformed to zeros, and the modulus and the angle of 0 are 0; that the inverse transform of zeros is
zeros is log 3. -/
def Obligations.BlockCommandsWriteResults : Prop :=
  (∀ (d a : Buf) (s : State),
    WritesBlock (.real d a) s d (fun n => realElem (s.bufRe a n)) ∧
    WritesBlock (.fft d a) s d (fun k => if s.zeroBlock a then ⟨.zero, .zero⟩ else dft s.n (s.bufElem a) k) ∧
    WritesBlock (.ifft d a) s d (fun n => if s.zeroBlock a then ⟨.zero, .zero⟩ else idft s.n (s.bufElem a) n) ∧
    WritesBlock (.env d a) s d (fun n => realElem (
      if cIsZero (s.bufElem a n) then .zero
      else .sqrt (.add (.mul (s.bufRe a n) (s.bufRe a n)) (.mul (s.bufIm a n) (s.bufIm a n))))) ∧
    WritesBlock (.phase d a) s d (fun n => realElem (
      if cIsZero (s.bufElem a n) then .zero else .arg (s.bufRe a n) (s.bufIm a n)))) ∧
  ∀ (a : Buf) (s : State),
    (∀ n, cIsZero (s.bufElem a n) = true ↔ HoldsComplex s.mem (bufAddr a n) 0) ∧
    (s.zeroBlock a = true ↔ ∀ n, n < s.n → HoldsComplex s.mem (bufAddr a n) 0)

/-- 42_datapath.md R162, R163, 00_scope.md R13, R14: with every element of the source a finite number, FFT and IFFT leave the
DFT and the inverse DFT within the tolerance; and IFFT after FFT returns the data up to the tolerance: the inverse DFT of
what FFT stored lies no further from the data than the mean of what FFT's words are off. -/
def Obligations.TransformsWithinTolerance : Prop :=
  ∀ (tol : ℝ → ℝ) (d a : Buf) (s : State) (x : ℕ → ℂ), Tolerance tol → s.constructed = true → s.geometryOk = true →
    (∀ n, n < s.n → HoldsComplex s.mem (bufAddr a n) (x n)) →
    (∃ t, exec (.fft d a) s = .next t ∧ ∀ k, k < s.n → NearComplex tol t.mem (bufAddr d k) (dftReal s.n x k)) ∧
    (∃ t, exec (.ifft d a) s = .next t ∧ ∀ n, n < s.n → NearComplex tol t.mem (bufAddr d n) (idftReal s.n x n)) ∧
    (∃ t u z, exec (.fft d a) s = .next t ∧ exec (.ifft d d) t = .next u ∧
      (∀ k, k < s.n → HoldsComplex t.mem (bufAddr d k) (z k) ∧
        |(z k).re - (dftReal s.n x k).re| ≤ tol (dftReal s.n x k).re ∧
        |(z k).im - (dftReal s.n x k).im| ≤ tol (dftReal s.n x k).im) ∧
      ∀ n, n < s.n → NearComplex tol u.mem (bufAddr d n) (idftReal s.n z n) ∧
        ‖idftReal s.n z n - x n‖ ≤ (1 / s.n) * ∑ k ∈ Finset.range s.n, ‖z k - dftReal s.n x k‖)

/-- 00_scope.md R14, 42_datapath.md R163: IDFT_N(DFT_N(x)) = x, for the exact results that the commands store. -/
def Obligations.InverseTransform : Prop :=
  ∀ (N : ℕ) (x : ℕ → CExact) (n : ℕ), n < N → cDenote (idft N (dft N x) n) = cDenote (x n)

/-- 42_datapath.md R164: CMUL's checks in order, and the product of every element with its bin, exactly 0 where the bin is 0
and the element a finite number, and where the bin is a number and the source a block of zeros (log 3). -/
def Obligations.CmulMultipliesBySlot : Prop :=
  ∀ (d a : Buf) (f : BitVec 4) (s : State), NotConstructedRaised (.cmul d a f) s ∧
    (s.constructed = true → 7 ≤ f.toNat →
      exec (.cmul d a f) s = .next (errorState s 0x13#8 8#8 (f.setWidth 32))) ∧
    (s.constructed = true → f.toNat < 7 → s.bankValid = false →
      exec (.cmul d a f) s = .next (errorState s 0x13#8 6#8 0#32)) ∧
    (s.constructed = true → f.toNat < 7 → s.bankValid = true → s.geometryOk = true →
      ∃ t, exec (.cmul d a f) s = .next t ∧ OnlyMemory s t ∧
        BlockStored s t d (fun k =>
          let ar := s.bufRe a k
          let ai := s.bufIm a k
          let fr := s.operand (slotAddr f.toNat k)
          let fi := s.operand (slotAddr f.toNat k + 8)
          if (cIsZero ⟨fr, fi⟩ && cHasValue ⟨ar, ai⟩) || (s.zeroBlock a && cHasValue ⟨fr, fi⟩) then ⟨.zero, .zero⟩
          else ⟨.sub (.mul ar fr) (.mul ai fi), .add (.mul ar fi) (.mul ai fr)⟩))

/-- 42_datapath.md R162, R164, R165, R166 and 43_block_audio.md R203: exact zeros, of either sign. FFT and IFFT of a block of
zeros, CMUL of a number with a bin that is 0 and of a block of zeros with bins that are numbers, ENV and PHASE of 0, and
PROCBLK of a block of zeros that restarts its carries or continues with a carry of 0: OUT_ENV and the phase are 0 everywhere,
and so is the demodulated frequency, which W4 still holds without analog audio; the MTF output is O. That the inverse
transform of zeros, the product, the unwrapped phase and the frequency of a block of zeros are exact is DEDUCED from R203
(log 3). -/
def Obligations.ExactZeros : Prop :=
  (∀ (d a : Buf) (s : State), s.constructed = true → s.geometryOk = true →
    (∀ n, n < s.n → HoldsComplex s.mem (bufAddr a n) 0) →
    (∃ t, exec (.fft d a) s = .next t ∧ ∀ k, k < s.n → HoldsComplex t.mem (bufAddr d k) 0) ∧
    (∃ t, exec (.ifft d a) s = .next t ∧ ∀ n, n < s.n → HoldsComplex t.mem (bufAddr d n) 0)) ∧
  (∀ (d a : Buf) (f : BitVec 4) (s : State) (k : ℕ) (x y : ℂ), s.constructed = true → f.toNat < 7 → s.bankValid = true →
    s.geometryOk = true → k < s.n → HoldsComplex s.mem (bufAddr a k) x → HoldsComplex s.mem (slotAddr f.toNat k) y →
    y = 0 ∨ (∀ n, n < s.n → HoldsComplex s.mem (bufAddr a n) 0) →
    ∃ t, exec (.cmul d a f) s = .next t ∧ HoldsComplex t.mem (bufAddr d k) 0) ∧
  (∀ (d a : Buf) (s : State) (n : ℕ), s.constructed = true → s.geometryOk = true → n < s.n →
    HoldsComplex s.mem (bufAddr a n) 0 →
    (∃ t, exec (.env d a) s = .next t ∧ HoldsComplex t.mem (bufAddr d n) 0) ∧
    (∃ t, exec (.phase d a) s = .next t ∧ HoldsComplex t.mem (bufAddr d n) 0)) ∧
  (∀ (tol : ℝ → ℝ) (s : State), Tolerance tol → Inv s → ProcblkRuns s →
    ¬ Continues s ∨ (f64Zero s.carryPh[(0 : Stream)] = true ∧ s.carryTurns[(0 : Stream)] = 0#64) →
    (∀ n, n < s.n → HoldsReal s.mem (bufAddr bufSIN n) 0) →
    (∀ k, k < s.n → ∃ z, HoldsComplex s.mem (slotAddr 0 k) z) →
    ∃ t, exec .procblk s = .next t ∧
      ∀ n, n < s.n → HoldsComplex t.mem (bufAddr bufOutEnv n) 0 ∧ HoldsComplex t.mem (bufAddr bufOutUphase n) 0 ∧
        (cfgAaLevel s.cflags = 0#16 →
          HoldsComplex t.mem (bufAddr bufW3 n) 0 ∧ HoldsComplex t.mem (bufAddr bufW4 n) 0) ∧
        (s.w0 ≤ n → n < s.w1 → Near tol t.mem (bufAddr bufOutDemod n) (f64Real (mtfPair s.params s.dp).2)))

/-- 42_datapath.md R165, R166, 00_scope.md R13: of a finite element ENV leaves the modulus and PHASE the angle in (-pi, pi],
0 for 0, within the tolerance. -/
def Obligations.EnvAndPhaseWithinTolerance : Prop :=
  ∀ (tol : ℝ → ℝ) (d a : Buf) (s : State) (n : ℕ) (z : ℂ), Tolerance tol → s.constructed = true → s.geometryOk = true →
    n < s.n → HoldsComplex s.mem (bufAddr a n) z →
    (∃ t, exec (.env d a) s = .next t ∧ NearComplex tol t.mem (bufAddr d n) (Real.sqrt (z.re ^ 2 + z.im ^ 2) : ℝ)) ∧
    (∃ t theta, exec (.phase d a) s = .next t ∧ NearComplex tol t.mem (bufAddr d n) (theta : ℝ) ∧
      -Real.pi < theta ∧ theta ≤ Real.pi ∧ z = ‖z‖ * Complex.exp (Complex.I * theta) ∧ (z = 0 → theta = 0))

/-- 42_datapath.md R167: UNWRAP completes for every stream 0 to 2, writes its destination, its stream's carry and seed, and
nothing else; 3 raises BadOperand. In a block of zeros a phase without turns is an exact 0 (log 3). -/
def Obligations.UnwrapFrame : Prop :=
  ∀ (d a : Buf) (st : BitVec 2) (s : State), NotConstructedRaised (.unwrap d a st) s ∧
    (s.constructed = true → st = 3#2 → exec (.unwrap d a st) s = .next (errorState s 0x16#8 8#8 3#32)) ∧
    (s.constructed = true → s.geometryOk = true → ∀ k : Stream, st.toNat = k.val →
      ∃ t, exec (.unwrap d a st) s = .next t ∧
        t = { s with status := endStatus s.status, mem := t.mem, draws := t.draws, carryValid := t.carryValid,
                     carryPh := t.carryPh, carryTurns := t.carryTurns, seedValid := t.seedValid, seedU := t.seedU } ∧
        BlockStored s t d (windowElem s (fun n =>
          if s.zeroBlock a = true ∧ isZero (s.bufRe a n) = true ∧ s.turnsAt a k n = 0 then .zero
          else .add (s.bufRe a n) (.mul (.rat ((2 * s.turnsAt a k n : ℤ) : ℚ)) .pi))) ∧
        t.carryOk k = true ∧ t.seedOk k = s.carryOk k ∧
        (∀ l : Stream, l ≠ k → t.carryOk l = s.carryOk l ∧ t.carryPh[l] = s.carryPh[l] ∧ t.carryTurns[l] = s.carryTurns[l]
          ∧ t.seedOk l = s.seedOk l ∧ t.seedU[l] = s.seedU[l]))

/-- 42_datapath.md R167, 00_scope.md R13: on finite phases UNWRAP is its pseudocode over the real numbers: the turns counted,
the phases within the tolerance, the carry and the seed left. That the turns are counted exactly, against the real number pi,
is DEDUCED (log 17). -/
def Obligations.UnwrapFollowsPseudocode : Prop :=
  ∀ (tol : ℝ → ℝ) (d a : Buf) (st : BitVec 2) (k : Stream) (s : State) (phi : ℕ → ℝ), Tolerance tol →
    s.constructed = true → s.geometryOk = true → st.toNat = k.val →
    (∀ n, s.w0 ≤ n → n < s.w1 → HoldsReal s.mem (bufAddr a n) (phi n)) →
    (s.carryOk k = true → f64Finite s.carryPh[k] = true) →
    let prev := if s.carryOk k then f64Real s.carryPh[k] else phi s.w0
    let turns0 := if s.carryOk k then i64 s.carryTurns[k] else 0
    let turns := turnsReal phi s.w0 prev turns0
    ∃ t, exec (.unwrap d a st) s = .next t ∧
      (∀ i, s.w0 + i < s.w1 → NearComplex tol t.mem (bufAddr d (s.w0 + i)) (phi (s.w0 + i) + 2 * Real.pi * turns i : ℝ)) ∧
      (∀ n, n < s.n → n < s.w0 ∨ s.w1 ≤ n →
        Memory.word? t.mem (bufAddr d n) = some 0#64 ∧ Memory.word? t.mem (bufAddr d n + 8) = some 0#64) ∧
      Memory.word? s.mem (bufAddr a (s.w1 - 1)) = some t.carryPh[k] ∧
      (-(2 ^ 63) ≤ turns (s.w1 - 1 - s.w0) → turns (s.w1 - 1 - s.w0) < 2 ^ 63 →
        i64 t.carryTurns[k] = turns (s.w1 - 1 - s.w0)) ∧
      (s.carryOk k = true → Matches tol t.seedU[k] (prev + 2 * Real.pi * turns0)) ∧
      (s.carryOk k = false → t.seedU[k] = 0#64)

/-- 42_datapath.md R168: FDEMOD's checks, its result in and outside the window, and its frame: no carry and no seed. -/
def Obligations.FdemodWritesFrequency : Prop :=
  ∀ (d a : Buf) (st c : BitVec 2) (s : State), NotConstructedRaised (.fdemod d a st c) s ∧
    (s.constructed = true → st = 3#2 ∨ c = 3#2 → exec (.fdemod d a st c) s = .next (errorState s 0x17#8 8#8 3#32)) ∧
    (s.constructed = true → s.geometryOk = true → st ≠ 3#2 → c ≠ 3#2 →
      ∃ t k car, streamOf? st = some k ∧ carrierOf? c = some car ∧ exec (.fdemod d a st c) s = .next t ∧ OnlyMemory s t ∧
        BlockStored s t d (windowElem s (fun n => s.lessCarrier (s.demodulated a k n) car)))

/-- 42_datapath.md R168, 00_scope.md R13: on finite phases, and a finite seed where one is used, the frequency in hertz less
the carrier, within the tolerance. -/
def Obligations.FdemodWithinTolerance : Prop :=
  ∀ (tol : ℝ → ℝ) (d a : Buf) (st c : BitVec 2) (k : Stream) (car : Carrier) (s : State) (u : ℕ → ℝ), Tolerance tol →
    Inv s → s.constructed = true → st.toNat = k.val → carrierOf? c = some car →
    (car = .audioL → f64Finite s.sp[8] = true) → (car = .audioR → f64Finite s.sp[9] = true) →
    (∀ n, s.w0 ≤ n → n < s.w1 → HoldsReal s.mem (bufAddr a n) (u n)) →
    (s.seedOk k = true → f64Finite s.seedU[k] = true) →
    ∃ t, exec (.fdemod d a st c) s = .next t ∧
      ∀ n, n < s.n → NearComplex tol t.mem (bufAddr d n)
        ((if s.w0 ≤ n ∧ n < s.w1 then frequencyReal s u k n - carrierReal s car else 0 : ℝ))

/-- 42_datapath.md R169: the gain and offset of MTF_SCALAR, the default's or the OPEN function's of MTF_MULT, MTF_POLEDIST and
MTF_FREQ (log 9), in the window; with the default and MTF_MULT = 1 the window is copied. -/
def Obligations.MtfScalesWindow : Prop :=
  ∀ (d a : Buf) (s : State),
    WritesBlock (.mtf d a) s d (windowElem s (fun n => s.mtfApply (s.bufRe a n))) ∧
    (∀ (x : Exact) (g o : F64), mtfPair s.params s.dp = (g, o) → f64Finite g = true → f64Finite o = true →
      denote (s.mtfApply x) = denote x * f64Real g + f64Real o ∧ hasValue (s.mtfApply x) = hasValue x) ∧
    (s.params.mtfScalar = .default → mtfPair s.params s.dp = (s.dp[9], 0#64)) ∧
    (∀ id, s.params.mtfScalar = .other id → mtfPair s.params s.dp = Config.mtfScalar id s.dp[9] s.dp[10] s.dp[11]) ∧
    (s.params.mtfScalar = .default → s.dp[9] = 0x3FF0000000000000#64 → s.constructed = true → s.geometryOk = true →
      ∃ t, exec (.mtf d a) s = .next t ∧ ∀ n x, s.w0 ≤ n → n < s.w1 →
        Memory.word? s.mem (bufAddr a n) = some x → f64Finite x = true → Memory.word? t.mem (bufAddr d n) = some x)

/-- 42_datapath.md R170: DECIM keeps the samples of the window whose global index is a multiple of DF, zeros after them, and
says how many and where the first lies; DF = 0 raises BadOperand. -/
def Obligations.DecimKeepsMultiples : Prop :=
  ∀ (d a : Buf) (df : BitVec 12) (s : State), NotConstructedRaised (.decim d a df) s ∧
    (s.constructed = true → df = 0#12 → exec (.decim d a df) s = .next (errorState s 0x19#8 8#8 0#32)) ∧
    (s.constructed = true → s.geometryOk = true → df ≠ 0#12 →
      let idx := (List.range' s.w0 (s.w1 - s.w0)).filter (fun i => decide (df.toNat ∣ s.blkStart.toNat + i))
      ∃ t, exec (.decim d a df) s = .next t ∧
        t = { s with status := endStatus s.status, mem := t.mem, draws := t.draws, audCount := t.audCount,
                     audFirst := t.audFirst } ∧
        t.audCount.toNat = idx.length ∧
        (∀ i, idx.head? = some i → t.audFirst.toNat = (s.blkStart.toNat + i) % 2 ^ 64) ∧
        (idx = [] → t.audFirst = 0#64) ∧
        BlockStored s t d (fun j => if h : j < idx.length then realElem (s.bufRe a idx[j]) else realElem (.rat 0)))

/-- 42_datapath.md R170: the samples that consecutive contiguous blocks keep are together every multiple of DF, in order,
with none missing and none twice. -/
def Obligations.DecimStreamsConcatenate : Prop :=
  ∀ (s s' : State) (df : ℕ), s'.w0 = s.w0 → s'.w1 = s.w1 → s.w0 ≤ s.w1 →
    s'.blkStart.toNat = s.blkStart.toNat + (s.w1 - s.w0) →
    (s.decimIndex df).map (fun i => s.blkStart.toNat + i) ++ (s'.decimIndex df).map (fun i => s'.blkStart.toNat + i)
      = (List.range' (s.blkStart.toNat + s.w0) (2 * (s.w1 - s.w0))).filter (fun g => decide (df ∣ g))

/-- 42_datapath.md R171, R172: COPY moves elements 0..N-1 word for word where they are numbers, and changes memory not at all
when D = A (log 23); CLR writes 0. That a number keeps its word and that the 0 is +0.0 is log 3; a word moved that is no
number or was never written is free (log 4, log 5). -/
def Obligations.CopyAndClear : Prop :=
  ∀ (d a : Buf) (s : State),
    (d ≠ a → WritesBlock (.copy d a) s d (s.bufElem a)) ∧
    (d = a → NotConstructedRaised (.copy d a) s ∧ (s.constructed = true → s.geometryOk = true →
      exec (.copy d a) s = .next { s with status := endStatus s.status })) ∧
    WritesBlock (.clr d) s d (fun _ => realElem (.rat 0))

/-- 00_scope.md R13, 42_datapath.md R160: a word stored for a result computed from numbers matches it within the tolerance; a
result that is a stored number keeps that word; a zero that a rule writes is +0.0, one that a rule says of what it computes is
a zero of either sign (log 3). -/
def Obligations.StoredWithinTolerance : Prop :=
  ∀ (tol : ℝ → ℝ) (d : Draw) (m : List Host.Cell) (addr : ℕ) (e : Exact), Tolerance tol → Stored d m addr e →
    (hasValue e = true → Near tol m addr (denote e)) ∧
    (∀ x, e = .val x → f64Finite x = true → Memory.word? m addr = some x) ∧
    (∀ q : ℚ, e = .rat q → q = 0 → Memory.word? m addr = some 0#64) ∧
    (e = .zero → HoldsReal m addr 0)

/-! ### PROCBLK -/

/-- 43_block_audio.md R203, R214: PROCBLK's checks in order; each leaves everything else as it was, and with all of them
passed none of its commands can fail. -/
def Obligations.ProcblkChecks : Prop :=
  ∀ s : State, NotConstructedRaised .procblk s ∧
    (s.constructed = true → s.bankValid = false → exec .procblk s = .next (errorState s 3#8 6#8 0#32)) ∧
    (s.constructed = true → s.bankValid = true → s.blkLen ≠ s.cn →
      exec .procblk s = .next (errorState s 3#8 4#8 s.blkLen)) ∧
    (ProcblkRuns s → ∃ t, exec .procblk s = .next t ∧ t.errcode = s.errcode ∧ t.err = s.err)

/-- 43_block_audio.md R203: PROCBLK leaves what its commands leave when they are executed one after the other from the state
after the contiguity check, with AUD_COUNT and AUD_FIRST 0 when no audio is decoded, and then NEXT_START. -/
def Obligations.ProcblkIsItsCommands : Prop :=
  ∀ s r : State, ProcblkRuns s → AfterContiguity s r →
    ∃ u, execAll (procblkCommands (decide (cfgAaLevel s.cflags ≠ 0#16)) (cfgDda s.cflags)) r = .next u ∧
      exec .procblk s = .next { u with
        audCount := if cfgAaLevel s.cflags = 0#16 then 0#32 else u.audCount
        audFirst := if cfgAaLevel s.cflags = 0#16 then 0#64 else u.audFirst
        nextStart := s.blkStart + BitVec.ofNat 64 (s.w1 - s.w0) }

/-- 43_block_audio.md R202, R203, 10_state.md R47: CARRY_RESTART, NEXT_START and the video carry after a PROCBLK, and its
frame: no register but those of R203, no byte but those of elements 0..N-1 of the buffers other than SIN and W7. -/
def Obligations.ProcblkFrame : Prop :=
  ∀ s : State, ProcblkRuns s → ∃ t, exec .procblk s = .next t ∧
    t = { s with status := t.status, mem := t.mem, draws := t.draws, carryValid := t.carryValid, carryPh := t.carryPh,
                 carryTurns := t.carryTurns, seedValid := t.seedValid, seedU := t.seedU, audCount := t.audCount,
                 audFirst := t.audFirst, nextStart := t.nextStart } ∧
    (Continues s → t.status = endStatus (s.status &&& 0x5F#7) ∧ t.seedOk 0 = true) ∧
    (¬ Continues s → t.status = endStatus (s.status ||| 0x20#7) ∧ t.seedOk 0 = false) ∧
    t.carryOk 0 = true ∧ t.nextStart.toNat = (s.blkStart.toNat + (s.w1 - s.w0)) % 2 ^ 64 ∧
    (cfgAaLevel s.cflags = 0#16 → ¬ Continues s → t.carryValid = 1#3 ∧ t.seedValid = 0#3) ∧
    ∀ addr, (∀ b, procblkWrites b → ¬ (bufAddr b 0 ≤ addr ∧ addr < bufAddr b s.n)) →
      Memory.byte? t.mem addr = Memory.byte? s.mem addr

/-! ### FINAUD -/

/-- 43_block_audio.md R210, R213: FINAUD's checks in order, its output words, AF_OUTLEN, and its frame; the gain is 1.0 by
default, or the OPEN function's of MTF_LEVEL (log 9). R210 writes 0 past the samples: that the word is +0.0 is log 3. -/
def Obligations.FinaudWritesFrames : Prop :=
  (∀ (p : Params) (level : F64), (p.audioMtfGain = .default → audioGain p level = 0x3FF0000000000000#64) ∧
    ∀ id, p.audioMtfGain = .other id → audioGain p level = Config.audioMtfGain id level) ∧
  ∀ s : State, NotConstructedRaised .finaud s ∧
    (s.constructed = true → 524288 < s.afLen.toNat → exec .finaud s = .next (errorState s 4#8 9#8 s.afLen)) ∧
    (s.constructed = true → s.afLen.toNat ≤ 524288 →
      f64Finite s.mtfLevel = false ∨ f64Finite (audioGain s.params s.mtfLevel) = false →
      exec .finaud s = .next (errorState s 4#8 2#8 0x110#32)) ∧
    (s.constructed = true → s.afLen.toNat ≤ 524288 → f64Finite s.mtfLevel = true →
      f64Finite (audioGain s.params s.mtfLevel) = true →
      ∃ t, exec .finaud s = .next t ∧
        t = { s with status := endStatus s.status, mem := t.mem, draws := t.draws, afOutlen := t.afOutlen } ∧
        t.afOutlen.toNat = (s.afLen.toNat + 3) / 4 ∧
        (∀ j, j < 131072 →
          (4 * j < s.afLen.toNat →
            Stored (.nth s.draws) t.mem (0x03800000 + 8 * j) (s.frameSample 0x03000000 s.afLen.toNat j) ∧
            Stored (.nth s.draws) t.mem (0x03C00000 + 8 * j) (s.frameSample 0x03400000 s.afLen.toNat j)) ∧
          (s.afLen.toNat ≤ 4 * j → Memory.word? t.mem (0x03800000 + 8 * j) = some 0#64 ∧
            Memory.word? t.mem (0x03C00000 + 8 * j) = some 0#64)) ∧
        ∀ addr, ¬ (0x03800000 ≤ addr ∧ addr < 0x03900000) → ¬ (0x03C00000 ≤ addr ∧ addr < 0x03D00000) →
          Memory.byte? t.mem addr = Memory.byte? s.mem addr)

/-- 43_block_audio.md R210, R211, R212, 00_scope.md R13: on a frame of finite samples FINAUD leaves in each channel every
fourth sample of the inverse transform of spectrum times brick wall times de-emphasis, times the gain, within the
tolerance. -/
def Obligations.FinaudWithinTolerance : Prop :=
  ∀ (tol : ℝ → ℝ) (s : State) (l r : ℕ → ℝ), Tolerance tol → Inv s → s.constructed = true → s.afLen.toNat ≤ 524288 →
    f64Finite s.mtfLevel = true → f64Finite (audioGain s.params s.mtfLevel) = true →
    f64Finite s.dp[2] = true → f64Finite s.dp[3] = true →
    (∀ i, i < s.afLen.toNat → HoldsReal s.mem (0x03000000 + 8 * i) (l i) ∧ HoldsReal s.mem (0x03400000 + 8 * i) (r i)) →
    let M := s.afLen.toNat
    let spectrum := fun (x : ℕ → ℝ) (k : ℕ) => dftReal M (fun i => x i) k
      * brickReal M (s.fsReal / 32) (s.fsReal / 32 / 8) k * deemphasisResponse s M k
    let out := fun (x : ℕ → ℝ) (j : ℕ) =>
      f64Real (audioGain s.params s.mtfLevel) * (idftReal M (spectrum x) (4 * j)).re
    ∃ t, exec .finaud s = .next t ∧ ∀ j, 4 * j < M →
      Near tol t.mem (0x03800000 + 8 * j) (out l j) ∧ Near tol t.mem (0x03C00000 + 8 * j) (out r j)

/-! ### The host's accesses -/

/-- 20_memory.md R65: a read, of any width at any address, changes nothing but the model's own fields: the event is gone, the
answer is there (log 1, log 2). With the engine idle it answers, at every register offset, the field of 10_state.md R23 to R38
that the offset shows, in the coefficient ROM the word of R66's layout, with 4 <= K <= 64, and in a buffer, a slot or an audio
frame the word that is written there. -/
def Obligations.ReadsHaveNoEffect : Prop :=
  (∀ (s : State) (bytes : ℕ) (addr : BitVec 32) (rest : List Input), s.inputs = .read bytes addr :: rest →
    ∃ t, step s = .next t ∧ t = { s with inputs := rest, reply := t.reply, draws := t.draws }) ∧
  (∀ (s : State) (addr : BitVec 32) (v : Word) (rest : List Input), s.busy = false → addr.toNat % 8 = 0 →
    Reading s addr rest → RegisterShows s addr.toNat v → step s = .next { s with inputs := rest, reply := .data v }) ∧
  (∀ (s : State) (addr : BitVec 32) (off : ℕ) (v : Word) (rest : List Input), s.busy = false → addr.toNat % 8 = 0 →
    addr.toNat = 0x04000000 + off → Reading s addr rest → RomShows s.rom off v →
    step s = .next { s with inputs := rest, reply := .data v }) ∧
  (∀ (s : State) (addr : BitVec 32) (v : Word) (rest : List Input), s.busy = false → addr.toNat % 8 = 0 →
    HostMemory addr.toNat ∨ (0x02000000 ≤ addr.toNat ∧ addr.toNat < 0x02800000) → Reading s addr rest →
    Memory.word? s.mem addr.toNat = some v → step s = .next { s with inputs := rest, reply := .data v }) ∧
  ∀ r : Rom, 4 ≤ r.efmPoints.length ∧ r.efmPoints.length ≤ 64

/-- 20_memory.md R61, R63: an access that is not 64 bits wide, not at a multiple of 8, or at an unmapped address is answered
with a bus error, changes nothing and returns no data; every other access is not. The model's choices: no WRBUSY for such a
write while BUSY = 1 (log 18), and no bus error for a dropped one (log 12). -/
def Obligations.BusErrors : Prop :=
  ∀ (s : State) (bytes : ℕ) (addr : BitVec 32) (v : Word) (rest : List Input),
    s.inputs = .read bytes addr :: rest ∨ s.inputs = .write bytes addr v :: rest →
    (bytes ≠ 8 ∨ addr.toNat % 8 ≠ 0 ∨ ¬ Mapped addr.toNat →
      step s = .next { s with inputs := rest, reply := .busError }) ∧
    (bytes = 8 → addr.toNat % 8 = 0 → Mapped addr.toNat → ∃ t, step s = .next t ∧ t.reply ≠ .busError)

/-- 20_memory.md R62, R64: with the engine idle, a word written to a buffer or a frame is stored in little-endian bytes, no
other byte changes, and a read returns it. -/
def Obligations.WordsReadBack : Prop :=
  ∀ (s : State) (addr : BitVec 32) (v : Word) (rest : List Input), s.busy = false → addr.toNat % 8 = 0 →
    HostMemory addr.toNat → Writing s addr v rest →
    ∃ t, step s = .next t ∧ t = { s with inputs := rest, reply := .ok, mem := t.mem } ∧
      (∀ i, i < 8 → Memory.byte? t.mem (addr.toNat + i) = some (v.extractLsb' (8 * i) 8)) ∧
      SameOutside s t addr.toNat (addr.toNat + 8) ∧
      ∀ rest', Reading t addr rest' → step t = .next { t with inputs := rest', reply := .data v }

/-- 20_memory.md R69, 70_reset_and_hazards.md R270: while BUSY = 1 a write to any mapped word but STATUS and IRQEN is dropped
and sets WRBUSY; one to IRQEN takes effect (one to STATUS: StatusAndInterrupt). The model's choices: a dropped write is
answered without a bus error (log 12), and misaligned or unmapped writes are left to R63 (log 18). -/
def Obligations.BusyWrites : Prop :=
  ∀ (s : State) (addr : BitVec 32) (v : Word) (rest : List Input), s.busy = true → addr.toNat % 8 = 0 →
    Mapped addr.toNat → Writing s addr v rest →
    (addr ≠ 0x008#32 → addr ≠ 0x020#32 →
      step s = .next { s with inputs := rest, reply := .ok, status := s.status ||| 0x10#7 }) ∧
    (addr = 0x020#32 → step s = .next { s with inputs := rest, reply := .ok, irqen := v.setWidth 2 })

/-- 10_state.md R24, 60_exceptions.md R240: a write to STATUS, while BUSY = 1 too, clears those of ERR, WRBUSY and DONE that it
writes as 1 and changes nothing else; IRQ is high exactly while an enabled one of DONE and ERR is 1. -/
def Obligations.StatusAndInterrupt : Prop :=
  ∀ s : State,
    (s.irq = true ↔ (s.status.getLsbD 6 = true ∧ s.irqen.getLsbD 0 = true) ∨
      (s.status.getLsbD 3 = true ∧ s.irqen.getLsbD 1 = true)) ∧
    ∀ (v : Word) (rest : List Input), Writing s 0x008#32 v rest →
      ∃ t, step s = .next t ∧ t = { s with inputs := rest, reply := .ok, status := t.status } ∧
        ∀ i, t.status.getLsbD i
          = (s.status.getLsbD i && !(v.getLsbD i && (decide (i = 3) || decide (i = 4) || decide (i = 6))))

/-- 10_state.md R27 to R30, R37 to R39: with the engine idle, a write to a read-write register changes that register alone,
and a read returns the implemented bits of what was written. -/
def Obligations.RegistersHoldWrites : Prop :=
  ∀ (s : State) (addr : BitVec 32) (v mask : Word) (rest : List Input), s.busy = false → addr.toNat % 8 = 0 →
    writableBits addr.toNat = some mask → Writing s addr v rest →
    ∃ t, step s = .next t ∧ (∀ off, off % 8 = 0 → off ≠ addr.toNat → regRead t off = regRead s off) ∧
      t.mem = s.mem ∧ ∀ rest', Reading t addr rest' → step t = .next { t with inputs := rest', reply := .data (v &&& mask) }

/-- 20_memory.md R61, 10_state.md R39: with the engine idle, a write to a filter slot, to the ROM, or to a register that is
read-only or unassigned is ignored without an error. -/
def Obligations.ReadOnlyWritesIgnored : Prop :=
  ∀ (s : State) (addr : BitVec 32) (v : Word) (rest : List Input), s.busy = false → addr.toNat % 8 = 0 →
    (0x02000000 ≤ addr.toNat ∧ addr.toNat < 0x02800000) ∨ (0x04000000 ≤ addr.toNat ∧ addr.toNat < 0x04001000) ∨
      (addr.toNat < 0x1000 ∧ writableBits addr.toNat = none ∧ addr ≠ 0x008#32 ∧ addr ≠ 0x018#32) →
    Writing s addr v rest → step s = .next { s with inputs := rest, reply := .ok }

/-- 20_memory.md R69, R70: while BUSY = 1 a read of a register, a ROM word or a written memory word that the running command
does not write (`WritesWord`, 10_state.md R47's table; log 14) returns its value. STATUS returns its value but for the bits
that the command writes: ERR (10_state.md R47 gives it to every command), and where the command ends without an error
CONSTRUCTED, BANK_VALID and CARRY_RESTART of the commands that have them; that the race is of bits, and never of BUSY, WRBUSY
and DONE, is log 10. -/
def Obligations.BusyReads : Prop :=
  ∀ (s : State) (addr : BitVec 32) (i : Instr) (rest : List Input), s.busy = true → decode s.cmd = .ok i →
    addr.toNat % 8 = 0 → Reading s addr rest →
    (addr = 0x008#32 → ∃ x : BitVec 7,
      step s = .next { s with inputs := rest, reply := .data (x.setWidth 64), draws := s.draws + 1 } ∧
      (∀ b, b = 0 ∨ b = 4 ∨ b = 6 → x.getLsbD b = s.status.getLsbD b) ∧
      (Fails s i ∨ i ≠ .construct → x.getLsbD 1 = s.status.getLsbD 1) ∧
      (Fails s i ∨ (i ≠ .construct ∧ i ≠ .synth) → x.getLsbD 2 = s.status.getLsbD 2) ∧
      (Fails s i ∨ i ≠ .procblk → x.getLsbD 5 = s.status.getLsbD 5)) ∧
    (¬ WritesWord s i addr.toNat → addr ≠ 0x008#32 →
      (addr.toNat < 0x1000 → step s = .next { s with inputs := rest, reply := .data (regRead s addr.toNat) }) ∧
      (0x04000000 ≤ addr.toNat → addr.toNat < 0x04001000 →
        step s = .next { s with inputs := rest, reply := .data (romRead s.rom (addr.toNat - 0x04000000)) }) ∧
      (∀ v, HostMemory addr.toNat ∨ (0x02000000 ≤ addr.toNat ∧ addr.toNat < 0x02800000) →
        Memory.word? s.mem addr.toNat = some v → step s = .next { s with inputs := rest, reply := .data v }))

/-! ### The whole machine -/

/-- 60_exceptions.md R230, R233, 20_memory.md R70: every command that answers a next state leaves BUSY = 0 and DONE = 1; it
either raised one error of its own opcode and changed nothing else, where one of its checks fails (`Fails`), or left ERR and
ERRCODE as they were, where none does. -/
def Obligations.CommandsCompleteOrRaise : Prop :=
  ∀ (i : Instr) (s t : State), exec i s = .next t → t.busy = false ∧ t.done = true ∧
    (Fails s i →
      ∃ code info, 1 ≤ code.toNat ∧ code.toNat ≤ 9 ∧ t = errorState s (opcodeOf i) code info) ∧
    (¬ Fails s i → t.errcode = s.errcode ∧ t.err = s.err)

/-- 10_state.md R47: no command writes state that the table gives to others. NEXT_START is also CONSTRUCT's, and AUD_COUNT and
AUD_FIRST are PROCBLK's without audio (40_parameter_model.md R101, 43_block_audio.md R203; log 14). -/
def Obligations.WritersOfState : Prop :=
  ∀ (i : Instr) (s t : State), exec i s = .next t →
    (t.cfg = s.cfg ∧ t.fsMhz = s.fsMhz ∧ t.nreg = s.nreg ∧ t.blockcut = s.blockcut ∧ t.blockcutEnd = s.blockcutEnd ∧
      t.ovrMask = s.ovrMask ∧ t.ovr = s.ovr ∧ t.blkStart = s.blkStart ∧ t.blkLen = s.blkLen ∧ t.afLen = s.afLen ∧
      t.mtfLevel = s.mtfLevel ∧ t.irqen = s.irqen ∧ t.rom = s.rom) ∧
    (i ≠ .construct → t.constructed = s.constructed ∧ t.win = s.win ∧ t.cn = s.cn ∧ t.cfsMhz = s.cfsMhz ∧
      t.cflags = s.cflags ∧ t.sp = s.sp ∧ t.dp = s.dp ∧ t.deempAdj = s.deempAdj) ∧
    (i ≠ .construct → i ≠ .synth → t.bankValid = s.bankValid) ∧
    ((∀ d a st, i ≠ .unwrap d a st) → i ≠ .procblk →
      (t.carryPh = s.carryPh ∧ t.carryTurns = s.carryTurns ∧ t.seedU = s.seedU) ∧
      (i ≠ .construct → (∀ m, i ≠ .rstcarry m) → t.carryValid = s.carryValid ∧ t.seedValid = s.seedValid)) ∧
    (i ≠ .procblk → t.carryRestart = s.carryRestart ∧ (i ≠ .construct → t.nextStart = s.nextStart)) ∧
    ((∀ d a df, i ≠ .decim d a df) → i ≠ .procblk → t.audCount = s.audCount ∧ t.audFirst = s.audFirst) ∧
    (i ≠ .finaud → t.afOutlen = s.afOutlen) ∧
    ∀ addr, (0x02000000 ≤ addr ∧ addr < 0x03000000 ∧ i ≠ .synth) ∨ (0x03000000 ≤ addr ∧ addr < 0x03800000) ∨
        (0x03800000 ≤ addr ∧ i ≠ .finaud) ∨
        (∃ b : Buf, b ∉ writtenBufs i ∧ bufAddr b 0 ≤ addr ∧ addr < bufAddr b 65536) →
      Memory.byte? t.mem addr = Memory.byte? s.mem addr

/-- 41_filter_synth.md R145, 40_parameter_model.md R102, 70_reset_and_hazards.md R262: from every state of the invariant, a
step that changes a byte of a filter slot executes SYNTH or is a reset, one that changes the parameters in effect executes
CONSTRUCT or is a reset, and none changes the ROM. -/
def Obligations.OnlyOwnersChange : Prop :=
  ∀ s t : State, Inv s → step s = .next t →
    (∀ addr, 0x02000000 ≤ addr → addr < 0x02800000 → Memory.byte? t.mem addr ≠ Memory.byte? s.mem addr →
      Executing s .synth ∨ Resetting s) ∧
    (¬ (t.sp = s.sp ∧ t.dp = s.dp ∧ t.deempAdj = s.deempAdj ∧ t.win = s.win ∧ t.cn = s.cn ∧ t.cfsMhz = s.cfsMhz ∧
        t.cflags = s.cflags) → Executing s .construct ∨ Resetting s) ∧
    t.rom = s.rom

/-- 10_state.md R32, 70_reset_and_hazards.md R271: every command but CONSTRUCT does the same whatever the configuration
registers hold. -/
def Obligations.ShadowsDoNotMatter : Prop :=
  ∀ (i : Instr) (s : State) (cfg : Word32) (fsMhz : F64) (nreg cut cutEnd : Word32) (mask : BitVec 17)
    (ovr : Vector Word 17), i ≠ .construct →
    exec i (s.withShadows cfg fsMhz nreg cut cutEnd mask ovr) =
      match exec i s with
      | .next t => .next (t.withShadows cfg fsMhz nreg cut cutEnd mask ovr)
      | .fault r => .fault r
      | .refused r => .refused r

end Statements
end

