-- ==== Sys2Proof/Laws/State.lean ====
section
/-! SUPPORT. What each update of the state does to each field, and to the values read from a state. Every lemma of the
first part is true by unfolding. -/

namespace Sys2Proof.Laws

open Sys2Proof.Machine

variable (s : State)

/-! ### Flags -/

/-- A bit of a register with one flag set or cleared. -/
theorem getLsbD_setFlag {n : Nat} (st : BitVec n) (i j : Nat) (b : Bool) (hi : i < n) :
    (setFlag n st i b).getLsbD j = if j = i then b else st.getLsbD j := by
  have hm : (BitVec.ofNat n (2 ^ i)).getLsbD j = decide (j = i) := by
    rw [BitVec.getLsbD_ofNat, Nat.testBit_two_pow]
    by_cases h : j = i
    · simp [h, hi]
    · simp [h, Ne.symm h]
  generalize hx : BitVec.ofNat n (2 ^ i) = m at hm
  simp only [setFlag, hx]
  by_cases h : j = i
  · cases b <;> simp only [Bool.false_eq_true, if_false, if_true, BitVec.getLsbD_or, BitVec.getLsbD_and, BitVec.getLsbD_not,
      hm] <;> simp [h]
  · by_cases hj : j < n
    · cases b <;> simp only [Bool.false_eq_true, if_false, if_true, BitVec.getLsbD_or, BitVec.getLsbD_and,
        BitVec.getLsbD_not, hm] <;> simp [h, hj]
    · cases b <;> simp [h, BitVec.getLsbD_of_ge _ j (Nat.le_of_not_lt hj)]

/-! ### State.setStatus -/

@[simp] theorem setStatus_status (i : Nat) (b : Bool) : (s.setStatus i b).status = setFlag 7 s.status i b := rfl
@[simp] theorem setStatus_errcode (i : Nat) (b : Bool) : (s.setStatus i b).errcode = s.errcode := rfl
@[simp] theorem setStatus_irqen (i : Nat) (b : Bool) : (s.setStatus i b).irqen = s.irqen := rfl
@[simp] theorem setStatus_cfg (i : Nat) (b : Bool) : (s.setStatus i b).cfg = s.cfg := rfl
@[simp] theorem setStatus_fsMhz (i : Nat) (b : Bool) : (s.setStatus i b).fsMhz = s.fsMhz := rfl
@[simp] theorem setStatus_nreg (i : Nat) (b : Bool) : (s.setStatus i b).nreg = s.nreg := rfl
@[simp] theorem setStatus_blockcut (i : Nat) (b : Bool) : (s.setStatus i b).blockcut = s.blockcut := rfl
@[simp] theorem setStatus_blockcutEnd (i : Nat) (b : Bool) : (s.setStatus i b).blockcutEnd = s.blockcutEnd := rfl
@[simp] theorem setStatus_ovrMask (i : Nat) (b : Bool) : (s.setStatus i b).ovrMask = s.ovrMask := rfl
@[simp] theorem setStatus_ovr (i : Nat) (b : Bool) : (s.setStatus i b).ovr = s.ovr := rfl
@[simp] theorem setStatus_blkStart (i : Nat) (b : Bool) : (s.setStatus i b).blkStart = s.blkStart := rfl
@[simp] theorem setStatus_blkLen (i : Nat) (b : Bool) : (s.setStatus i b).blkLen = s.blkLen := rfl
@[simp] theorem setStatus_afLen (i : Nat) (b : Bool) : (s.setStatus i b).afLen = s.afLen := rfl
@[simp] theorem setStatus_mtfLevel (i : Nat) (b : Bool) : (s.setStatus i b).mtfLevel = s.mtfLevel := rfl
@[simp] theorem setStatus_nextStart (i : Nat) (b : Bool) : (s.setStatus i b).nextStart = s.nextStart := rfl
@[simp] theorem setStatus_win (i : Nat) (b : Bool) : (s.setStatus i b).win = s.win := rfl
@[simp] theorem setStatus_audCount (i : Nat) (b : Bool) : (s.setStatus i b).audCount = s.audCount := rfl
@[simp] theorem setStatus_audFirst (i : Nat) (b : Bool) : (s.setStatus i b).audFirst = s.audFirst := rfl
@[simp] theorem setStatus_afOutlen (i : Nat) (b : Bool) : (s.setStatus i b).afOutlen = s.afOutlen := rfl
@[simp] theorem setStatus_carryValid (i : Nat) (b : Bool) : (s.setStatus i b).carryValid = s.carryValid := rfl
@[simp] theorem setStatus_carryPh (i : Nat) (b : Bool) : (s.setStatus i b).carryPh = s.carryPh := rfl
@[simp] theorem setStatus_carryTurns (i : Nat) (b : Bool) : (s.setStatus i b).carryTurns = s.carryTurns := rfl
@[simp] theorem setStatus_seedValid (i : Nat) (b : Bool) : (s.setStatus i b).seedValid = s.seedValid := rfl
@[simp] theorem setStatus_seedU (i : Nat) (b : Bool) : (s.setStatus i b).seedU = s.seedU := rfl
@[simp] theorem setStatus_dp (i : Nat) (b : Bool) : (s.setStatus i b).dp = s.dp := rfl
@[simp] theorem setStatus_sp (i : Nat) (b : Bool) : (s.setStatus i b).sp = s.sp := rfl
@[simp] theorem setStatus_deempAdj (i : Nat) (b : Bool) : (s.setStatus i b).deempAdj = s.deempAdj := rfl
@[simp] theorem setStatus_cn (i : Nat) (b : Bool) : (s.setStatus i b).cn = s.cn := rfl
@[simp] theorem setStatus_cfsMhz (i : Nat) (b : Bool) : (s.setStatus i b).cfsMhz = s.cfsMhz := rfl
@[simp] theorem setStatus_cflags (i : Nat) (b : Bool) : (s.setStatus i b).cflags = s.cflags := rfl
@[simp] theorem setStatus_mem (i : Nat) (b : Bool) : (s.setStatus i b).mem = s.mem := rfl
@[simp] theorem setStatus_rom (i : Nat) (b : Bool) : (s.setStatus i b).rom = s.rom := rfl
@[simp] theorem setStatus_params (i : Nat) (b : Bool) : (s.setStatus i b).params = s.params := rfl
@[simp] theorem setStatus_cmd (i : Nat) (b : Bool) : (s.setStatus i b).cmd = s.cmd := rfl
@[simp] theorem setStatus_inputs (i : Nat) (b : Bool) : (s.setStatus i b).inputs = s.inputs := rfl
@[simp] theorem setStatus_reply (i : Nat) (b : Bool) : (s.setStatus i b).reply = s.reply := rfl
@[simp] theorem setStatus_draws (i : Nat) (b : Bool) : (s.setStatus i b).draws = s.draws := rfl

/-! ### State.finish -/

@[simp] theorem finish_errcode : s.finish.errcode = s.errcode := rfl
@[simp] theorem finish_irqen : s.finish.irqen = s.irqen := rfl
@[simp] theorem finish_cfg : s.finish.cfg = s.cfg := rfl
@[simp] theorem finish_fsMhz : s.finish.fsMhz = s.fsMhz := rfl
@[simp] theorem finish_nreg : s.finish.nreg = s.nreg := rfl
@[simp] theorem finish_blockcut : s.finish.blockcut = s.blockcut := rfl
@[simp] theorem finish_blockcutEnd : s.finish.blockcutEnd = s.blockcutEnd := rfl
@[simp] theorem finish_ovrMask : s.finish.ovrMask = s.ovrMask := rfl
@[simp] theorem finish_ovr : s.finish.ovr = s.ovr := rfl
@[simp] theorem finish_blkStart : s.finish.blkStart = s.blkStart := rfl
@[simp] theorem finish_blkLen : s.finish.blkLen = s.blkLen := rfl
@[simp] theorem finish_afLen : s.finish.afLen = s.afLen := rfl
@[simp] theorem finish_mtfLevel : s.finish.mtfLevel = s.mtfLevel := rfl
@[simp] theorem finish_nextStart : s.finish.nextStart = s.nextStart := rfl
@[simp] theorem finish_win : s.finish.win = s.win := rfl
@[simp] theorem finish_audCount : s.finish.audCount = s.audCount := rfl
@[simp] theorem finish_audFirst : s.finish.audFirst = s.audFirst := rfl
@[simp] theorem finish_afOutlen : s.finish.afOutlen = s.afOutlen := rfl
@[simp] theorem finish_carryValid : s.finish.carryValid = s.carryValid := rfl
@[simp] theorem finish_carryPh : s.finish.carryPh = s.carryPh := rfl
@[simp] theorem finish_carryTurns : s.finish.carryTurns = s.carryTurns := rfl
@[simp] theorem finish_seedValid : s.finish.seedValid = s.seedValid := rfl
@[simp] theorem finish_seedU : s.finish.seedU = s.seedU := rfl
@[simp] theorem finish_dp : s.finish.dp = s.dp := rfl
@[simp] theorem finish_sp : s.finish.sp = s.sp := rfl
@[simp] theorem finish_deempAdj : s.finish.deempAdj = s.deempAdj := rfl
@[simp] theorem finish_cn : s.finish.cn = s.cn := rfl
@[simp] theorem finish_cfsMhz : s.finish.cfsMhz = s.cfsMhz := rfl
@[simp] theorem finish_cflags : s.finish.cflags = s.cflags := rfl
@[simp] theorem finish_mem : s.finish.mem = s.mem := rfl
@[simp] theorem finish_rom : s.finish.rom = s.rom := rfl
@[simp] theorem finish_params : s.finish.params = s.params := rfl
@[simp] theorem finish_cmd : s.finish.cmd = s.cmd := rfl
@[simp] theorem finish_inputs : s.finish.inputs = s.inputs := rfl
@[simp] theorem finish_reply : s.finish.reply = s.reply := rfl
@[simp] theorem finish_draws : s.finish.draws = s.draws := rfl

/-! ### State.raise -/

@[simp] theorem raise_errcode (opc : BitVec 8) (e : ErrKind) (info : Word32) :
    (s.raise opc e info).errcode = errWord opc e info :=
    rfl
@[simp] theorem raise_irqen (opc : BitVec 8) (e : ErrKind) (info : Word32) : (s.raise opc e info).irqen = s.irqen :=
    rfl
@[simp] theorem raise_cfg (opc : BitVec 8) (e : ErrKind) (info : Word32) : (s.raise opc e info).cfg = s.cfg := rfl
@[simp] theorem raise_fsMhz (opc : BitVec 8) (e : ErrKind) (info : Word32) : (s.raise opc e info).fsMhz = s.fsMhz :=
    rfl
@[simp] theorem raise_nreg (opc : BitVec 8) (e : ErrKind) (info : Word32) : (s.raise opc e info).nreg = s.nreg := rfl
@[simp] theorem raise_blockcut (opc : BitVec 8) (e : ErrKind) (info : Word32) :
    (s.raise opc e info).blockcut = s.blockcut :=
    rfl
@[simp] theorem raise_blockcutEnd (opc : BitVec 8) (e : ErrKind) (info : Word32) :
    (s.raise opc e info).blockcutEnd = s.blockcutEnd :=
    rfl
@[simp] theorem raise_ovrMask (opc : BitVec 8) (e : ErrKind) (info : Word32) :
    (s.raise opc e info).ovrMask = s.ovrMask :=
    rfl
@[simp] theorem raise_ovr (opc : BitVec 8) (e : ErrKind) (info : Word32) : (s.raise opc e info).ovr = s.ovr := rfl
@[simp] theorem raise_blkStart (opc : BitVec 8) (e : ErrKind) (info : Word32) :
    (s.raise opc e info).blkStart = s.blkStart :=
    rfl
@[simp] theorem raise_blkLen (opc : BitVec 8) (e : ErrKind) (info : Word32) :
    (s.raise opc e info).blkLen = s.blkLen :=
    rfl
@[simp] theorem raise_afLen (opc : BitVec 8) (e : ErrKind) (info : Word32) : (s.raise opc e info).afLen = s.afLen :=
    rfl
@[simp] theorem raise_mtfLevel (opc : BitVec 8) (e : ErrKind) (info : Word32) :
    (s.raise opc e info).mtfLevel = s.mtfLevel :=
    rfl
@[simp] theorem raise_nextStart (opc : BitVec 8) (e : ErrKind) (info : Word32) :
    (s.raise opc e info).nextStart = s.nextStart :=
    rfl
@[simp] theorem raise_win (opc : BitVec 8) (e : ErrKind) (info : Word32) : (s.raise opc e info).win = s.win := rfl
@[simp] theorem raise_audCount (opc : BitVec 8) (e : ErrKind) (info : Word32) :
    (s.raise opc e info).audCount = s.audCount :=
    rfl
@[simp] theorem raise_audFirst (opc : BitVec 8) (e : ErrKind) (info : Word32) :
    (s.raise opc e info).audFirst = s.audFirst :=
    rfl
@[simp] theorem raise_afOutlen (opc : BitVec 8) (e : ErrKind) (info : Word32) :
    (s.raise opc e info).afOutlen = s.afOutlen :=
    rfl
@[simp] theorem raise_carryValid (opc : BitVec 8) (e : ErrKind) (info : Word32) :
    (s.raise opc e info).carryValid = s.carryValid :=
    rfl
@[simp] theorem raise_carryPh (opc : BitVec 8) (e : ErrKind) (info : Word32) :
    (s.raise opc e info).carryPh = s.carryPh :=
    rfl
@[simp] theorem raise_carryTurns (opc : BitVec 8) (e : ErrKind) (info : Word32) :
    (s.raise opc e info).carryTurns = s.carryTurns :=
    rfl
@[simp] theorem raise_seedValid (opc : BitVec 8) (e : ErrKind) (info : Word32) :
    (s.raise opc e info).seedValid = s.seedValid :=
    rfl
@[simp] theorem raise_seedU (opc : BitVec 8) (e : ErrKind) (info : Word32) : (s.raise opc e info).seedU = s.seedU :=
    rfl
@[simp] theorem raise_dp (opc : BitVec 8) (e : ErrKind) (info : Word32) : (s.raise opc e info).dp = s.dp := rfl
@[simp] theorem raise_sp (opc : BitVec 8) (e : ErrKind) (info : Word32) : (s.raise opc e info).sp = s.sp := rfl
@[simp] theorem raise_deempAdj (opc : BitVec 8) (e : ErrKind) (info : Word32) :
    (s.raise opc e info).deempAdj = s.deempAdj :=
    rfl
@[simp] theorem raise_cn (opc : BitVec 8) (e : ErrKind) (info : Word32) : (s.raise opc e info).cn = s.cn := rfl
@[simp] theorem raise_cfsMhz (opc : BitVec 8) (e : ErrKind) (info : Word32) :
    (s.raise opc e info).cfsMhz = s.cfsMhz :=
    rfl
@[simp] theorem raise_cflags (opc : BitVec 8) (e : ErrKind) (info : Word32) :
    (s.raise opc e info).cflags = s.cflags :=
    rfl
@[simp] theorem raise_mem (opc : BitVec 8) (e : ErrKind) (info : Word32) : (s.raise opc e info).mem = s.mem := rfl
@[simp] theorem raise_rom (opc : BitVec 8) (e : ErrKind) (info : Word32) : (s.raise opc e info).rom = s.rom := rfl
@[simp] theorem raise_params (opc : BitVec 8) (e : ErrKind) (info : Word32) :
    (s.raise opc e info).params = s.params :=
    rfl
@[simp] theorem raise_cmd (opc : BitVec 8) (e : ErrKind) (info : Word32) : (s.raise opc e info).cmd = s.cmd := rfl
@[simp] theorem raise_inputs (opc : BitVec 8) (e : ErrKind) (info : Word32) :
    (s.raise opc e info).inputs = s.inputs :=
    rfl
@[simp] theorem raise_reply (opc : BitVec 8) (e : ErrKind) (info : Word32) : (s.raise opc e info).reply = s.reply :=
    rfl
@[simp] theorem raise_draws (opc : BitVec 8) (e : ErrKind) (info : Word32) : (s.raise opc e info).draws = s.draws :=
    rfl

/-! ### State.storeWords -/

@[simp] theorem storeWords_status (base : Nat) (vs : List Word) : (s.storeWords base vs).status = s.status := rfl
@[simp] theorem storeWords_errcode (base : Nat) (vs : List Word) : (s.storeWords base vs).errcode = s.errcode := rfl
@[simp] theorem storeWords_irqen (base : Nat) (vs : List Word) : (s.storeWords base vs).irqen = s.irqen := rfl
@[simp] theorem storeWords_cfg (base : Nat) (vs : List Word) : (s.storeWords base vs).cfg = s.cfg := rfl
@[simp] theorem storeWords_fsMhz (base : Nat) (vs : List Word) : (s.storeWords base vs).fsMhz = s.fsMhz := rfl
@[simp] theorem storeWords_nreg (base : Nat) (vs : List Word) : (s.storeWords base vs).nreg = s.nreg := rfl
@[simp] theorem storeWords_blockcut (base : Nat) (vs : List Word) : (s.storeWords base vs).blockcut = s.blockcut :=
    rfl
@[simp] theorem storeWords_blockcutEnd (base : Nat) (vs : List Word) :
    (s.storeWords base vs).blockcutEnd = s.blockcutEnd :=
    rfl
@[simp] theorem storeWords_ovrMask (base : Nat) (vs : List Word) : (s.storeWords base vs).ovrMask = s.ovrMask := rfl
@[simp] theorem storeWords_ovr (base : Nat) (vs : List Word) : (s.storeWords base vs).ovr = s.ovr := rfl
@[simp] theorem storeWords_blkStart (base : Nat) (vs : List Word) : (s.storeWords base vs).blkStart = s.blkStart :=
    rfl
@[simp] theorem storeWords_blkLen (base : Nat) (vs : List Word) : (s.storeWords base vs).blkLen = s.blkLen := rfl
@[simp] theorem storeWords_afLen (base : Nat) (vs : List Word) : (s.storeWords base vs).afLen = s.afLen := rfl
@[simp] theorem storeWords_mtfLevel (base : Nat) (vs : List Word) : (s.storeWords base vs).mtfLevel = s.mtfLevel :=
    rfl
@[simp] theorem storeWords_nextStart (base : Nat) (vs : List Word) : (s.storeWords base vs).nextStart = s.nextStart :=
    rfl
@[simp] theorem storeWords_win (base : Nat) (vs : List Word) : (s.storeWords base vs).win = s.win := rfl
@[simp] theorem storeWords_audCount (base : Nat) (vs : List Word) : (s.storeWords base vs).audCount = s.audCount :=
    rfl
@[simp] theorem storeWords_audFirst (base : Nat) (vs : List Word) : (s.storeWords base vs).audFirst = s.audFirst :=
    rfl
@[simp] theorem storeWords_afOutlen (base : Nat) (vs : List Word) : (s.storeWords base vs).afOutlen = s.afOutlen :=
    rfl
@[simp] theorem storeWords_carryValid (base : Nat) (vs : List Word) :
    (s.storeWords base vs).carryValid = s.carryValid :=
    rfl
@[simp] theorem storeWords_carryPh (base : Nat) (vs : List Word) : (s.storeWords base vs).carryPh = s.carryPh := rfl
@[simp] theorem storeWords_carryTurns (base : Nat) (vs : List Word) :
    (s.storeWords base vs).carryTurns = s.carryTurns :=
    rfl
@[simp] theorem storeWords_seedValid (base : Nat) (vs : List Word) : (s.storeWords base vs).seedValid = s.seedValid :=
    rfl
@[simp] theorem storeWords_seedU (base : Nat) (vs : List Word) : (s.storeWords base vs).seedU = s.seedU := rfl
@[simp] theorem storeWords_dp (base : Nat) (vs : List Word) : (s.storeWords base vs).dp = s.dp := rfl
@[simp] theorem storeWords_sp (base : Nat) (vs : List Word) : (s.storeWords base vs).sp = s.sp := rfl
@[simp] theorem storeWords_deempAdj (base : Nat) (vs : List Word) : (s.storeWords base vs).deempAdj = s.deempAdj :=
    rfl
@[simp] theorem storeWords_cn (base : Nat) (vs : List Word) : (s.storeWords base vs).cn = s.cn := rfl
@[simp] theorem storeWords_cfsMhz (base : Nat) (vs : List Word) : (s.storeWords base vs).cfsMhz = s.cfsMhz := rfl
@[simp] theorem storeWords_cflags (base : Nat) (vs : List Word) : (s.storeWords base vs).cflags = s.cflags := rfl
@[simp] theorem storeWords_mem (base : Nat) (vs : List Word) :
    (s.storeWords base vs).mem = Memory.store s.mem base (wordsBytes vs) :=
    rfl
@[simp] theorem storeWords_rom (base : Nat) (vs : List Word) : (s.storeWords base vs).rom = s.rom := rfl
@[simp] theorem storeWords_params (base : Nat) (vs : List Word) : (s.storeWords base vs).params = s.params := rfl
@[simp] theorem storeWords_cmd (base : Nat) (vs : List Word) : (s.storeWords base vs).cmd = s.cmd := rfl
@[simp] theorem storeWords_inputs (base : Nat) (vs : List Word) : (s.storeWords base vs).inputs = s.inputs := rfl
@[simp] theorem storeWords_reply (base : Nat) (vs : List Word) : (s.storeWords base vs).reply = s.reply := rfl
@[simp] theorem storeWords_draws (base : Nat) (vs : List Word) : (s.storeWords base vs).draws = s.draws := rfl

/-! ### State.writeBuf -/

@[simp] theorem writeBuf_status (d : Buf) (f : Nat → CExact) : (s.writeBuf d f).status = s.status := rfl
@[simp] theorem writeBuf_errcode (d : Buf) (f : Nat → CExact) : (s.writeBuf d f).errcode = s.errcode := rfl
@[simp] theorem writeBuf_irqen (d : Buf) (f : Nat → CExact) : (s.writeBuf d f).irqen = s.irqen := rfl
@[simp] theorem writeBuf_cfg (d : Buf) (f : Nat → CExact) : (s.writeBuf d f).cfg = s.cfg := rfl
@[simp] theorem writeBuf_fsMhz (d : Buf) (f : Nat → CExact) : (s.writeBuf d f).fsMhz = s.fsMhz := rfl
@[simp] theorem writeBuf_nreg (d : Buf) (f : Nat → CExact) : (s.writeBuf d f).nreg = s.nreg := rfl
@[simp] theorem writeBuf_blockcut (d : Buf) (f : Nat → CExact) : (s.writeBuf d f).blockcut = s.blockcut := rfl
@[simp] theorem writeBuf_blockcutEnd (d : Buf) (f : Nat → CExact) : (s.writeBuf d f).blockcutEnd = s.blockcutEnd :=
    rfl
@[simp] theorem writeBuf_ovrMask (d : Buf) (f : Nat → CExact) : (s.writeBuf d f).ovrMask = s.ovrMask := rfl
@[simp] theorem writeBuf_ovr (d : Buf) (f : Nat → CExact) : (s.writeBuf d f).ovr = s.ovr := rfl
@[simp] theorem writeBuf_blkStart (d : Buf) (f : Nat → CExact) : (s.writeBuf d f).blkStart = s.blkStart := rfl
@[simp] theorem writeBuf_blkLen (d : Buf) (f : Nat → CExact) : (s.writeBuf d f).blkLen = s.blkLen := rfl
@[simp] theorem writeBuf_afLen (d : Buf) (f : Nat → CExact) : (s.writeBuf d f).afLen = s.afLen := rfl
@[simp] theorem writeBuf_mtfLevel (d : Buf) (f : Nat → CExact) : (s.writeBuf d f).mtfLevel = s.mtfLevel := rfl
@[simp] theorem writeBuf_nextStart (d : Buf) (f : Nat → CExact) : (s.writeBuf d f).nextStart = s.nextStart := rfl
@[simp] theorem writeBuf_win (d : Buf) (f : Nat → CExact) : (s.writeBuf d f).win = s.win := rfl
@[simp] theorem writeBuf_audCount (d : Buf) (f : Nat → CExact) : (s.writeBuf d f).audCount = s.audCount := rfl
@[simp] theorem writeBuf_audFirst (d : Buf) (f : Nat → CExact) : (s.writeBuf d f).audFirst = s.audFirst := rfl
@[simp] theorem writeBuf_afOutlen (d : Buf) (f : Nat → CExact) : (s.writeBuf d f).afOutlen = s.afOutlen := rfl
@[simp] theorem writeBuf_carryValid (d : Buf) (f : Nat → CExact) : (s.writeBuf d f).carryValid = s.carryValid := rfl
@[simp] theorem writeBuf_carryPh (d : Buf) (f : Nat → CExact) : (s.writeBuf d f).carryPh = s.carryPh := rfl
@[simp] theorem writeBuf_carryTurns (d : Buf) (f : Nat → CExact) : (s.writeBuf d f).carryTurns = s.carryTurns := rfl
@[simp] theorem writeBuf_seedValid (d : Buf) (f : Nat → CExact) : (s.writeBuf d f).seedValid = s.seedValid := rfl
@[simp] theorem writeBuf_seedU (d : Buf) (f : Nat → CExact) : (s.writeBuf d f).seedU = s.seedU := rfl
@[simp] theorem writeBuf_dp (d : Buf) (f : Nat → CExact) : (s.writeBuf d f).dp = s.dp := rfl
@[simp] theorem writeBuf_sp (d : Buf) (f : Nat → CExact) : (s.writeBuf d f).sp = s.sp := rfl
@[simp] theorem writeBuf_deempAdj (d : Buf) (f : Nat → CExact) : (s.writeBuf d f).deempAdj = s.deempAdj := rfl
@[simp] theorem writeBuf_cn (d : Buf) (f : Nat → CExact) : (s.writeBuf d f).cn = s.cn := rfl
@[simp] theorem writeBuf_cfsMhz (d : Buf) (f : Nat → CExact) : (s.writeBuf d f).cfsMhz = s.cfsMhz := rfl
@[simp] theorem writeBuf_cflags (d : Buf) (f : Nat → CExact) : (s.writeBuf d f).cflags = s.cflags := rfl
@[simp] theorem writeBuf_mem (d : Buf) (f : Nat → CExact) :
    (s.writeBuf d f).mem = Memory.store s.mem (bufAddr d 0) (wordsBytes (putRun (.nth s.draws) (bufAddr d 0) s.n f)) :=
    rfl
@[simp] theorem writeBuf_rom (d : Buf) (f : Nat → CExact) : (s.writeBuf d f).rom = s.rom := rfl
@[simp] theorem writeBuf_params (d : Buf) (f : Nat → CExact) : (s.writeBuf d f).params = s.params := rfl
@[simp] theorem writeBuf_cmd (d : Buf) (f : Nat → CExact) : (s.writeBuf d f).cmd = s.cmd := rfl
@[simp] theorem writeBuf_inputs (d : Buf) (f : Nat → CExact) : (s.writeBuf d f).inputs = s.inputs := rfl
@[simp] theorem writeBuf_reply (d : Buf) (f : Nat → CExact) : (s.writeBuf d f).reply = s.reply := rfl
@[simp] theorem writeBuf_draws (d : Buf) (f : Nat → CExact) : (s.writeBuf d f).draws = s.draws + 1 := rfl

/-! ### State.issue -/

@[simp] theorem issue_status (w : Word32) : (s.issue w).status = setFlag 7 s.status bitBusy true := rfl
@[simp] theorem issue_errcode (w : Word32) : (s.issue w).errcode = s.errcode := rfl
@[simp] theorem issue_irqen (w : Word32) : (s.issue w).irqen = s.irqen := rfl
@[simp] theorem issue_cfg (w : Word32) : (s.issue w).cfg = s.cfg := rfl
@[simp] theorem issue_fsMhz (w : Word32) : (s.issue w).fsMhz = s.fsMhz := rfl
@[simp] theorem issue_nreg (w : Word32) : (s.issue w).nreg = s.nreg := rfl
@[simp] theorem issue_blockcut (w : Word32) : (s.issue w).blockcut = s.blockcut := rfl
@[simp] theorem issue_blockcutEnd (w : Word32) : (s.issue w).blockcutEnd = s.blockcutEnd := rfl
@[simp] theorem issue_ovrMask (w : Word32) : (s.issue w).ovrMask = s.ovrMask := rfl
@[simp] theorem issue_ovr (w : Word32) : (s.issue w).ovr = s.ovr := rfl
@[simp] theorem issue_blkStart (w : Word32) : (s.issue w).blkStart = s.blkStart := rfl
@[simp] theorem issue_blkLen (w : Word32) : (s.issue w).blkLen = s.blkLen := rfl
@[simp] theorem issue_afLen (w : Word32) : (s.issue w).afLen = s.afLen := rfl
@[simp] theorem issue_mtfLevel (w : Word32) : (s.issue w).mtfLevel = s.mtfLevel := rfl
@[simp] theorem issue_nextStart (w : Word32) : (s.issue w).nextStart = s.nextStart := rfl
@[simp] theorem issue_win (w : Word32) : (s.issue w).win = s.win := rfl
@[simp] theorem issue_audCount (w : Word32) : (s.issue w).audCount = s.audCount := rfl
@[simp] theorem issue_audFirst (w : Word32) : (s.issue w).audFirst = s.audFirst := rfl
@[simp] theorem issue_afOutlen (w : Word32) : (s.issue w).afOutlen = s.afOutlen := rfl
@[simp] theorem issue_carryValid (w : Word32) : (s.issue w).carryValid = s.carryValid := rfl
@[simp] theorem issue_carryPh (w : Word32) : (s.issue w).carryPh = s.carryPh := rfl
@[simp] theorem issue_carryTurns (w : Word32) : (s.issue w).carryTurns = s.carryTurns := rfl
@[simp] theorem issue_seedValid (w : Word32) : (s.issue w).seedValid = s.seedValid := rfl
@[simp] theorem issue_seedU (w : Word32) : (s.issue w).seedU = s.seedU := rfl
@[simp] theorem issue_dp (w : Word32) : (s.issue w).dp = s.dp := rfl
@[simp] theorem issue_sp (w : Word32) : (s.issue w).sp = s.sp := rfl
@[simp] theorem issue_deempAdj (w : Word32) : (s.issue w).deempAdj = s.deempAdj := rfl
@[simp] theorem issue_cn (w : Word32) : (s.issue w).cn = s.cn := rfl
@[simp] theorem issue_cfsMhz (w : Word32) : (s.issue w).cfsMhz = s.cfsMhz := rfl
@[simp] theorem issue_cflags (w : Word32) : (s.issue w).cflags = s.cflags := rfl
@[simp] theorem issue_mem (w : Word32) : (s.issue w).mem = s.mem := rfl
@[simp] theorem issue_rom (w : Word32) : (s.issue w).rom = s.rom := rfl
@[simp] theorem issue_params (w : Word32) : (s.issue w).params = s.params := rfl
@[simp] theorem issue_cmd (w : Word32) : (s.issue w).cmd = w := rfl
@[simp] theorem issue_inputs (w : Word32) : (s.issue w).inputs = s.inputs := rfl
@[simp] theorem issue_reply (w : Word32) : (s.issue w).reply = s.reply := rfl
@[simp] theorem issue_draws (w : Word32) : (s.issue w).draws = s.draws := rfl

/-! ### State.drawReply -/

@[simp] theorem drawReply_status (addr : Nat) : (s.drawReply addr).status = s.status := rfl
@[simp] theorem drawReply_errcode (addr : Nat) : (s.drawReply addr).errcode = s.errcode := rfl
@[simp] theorem drawReply_irqen (addr : Nat) : (s.drawReply addr).irqen = s.irqen := rfl
@[simp] theorem drawReply_cfg (addr : Nat) : (s.drawReply addr).cfg = s.cfg := rfl
@[simp] theorem drawReply_fsMhz (addr : Nat) : (s.drawReply addr).fsMhz = s.fsMhz := rfl
@[simp] theorem drawReply_nreg (addr : Nat) : (s.drawReply addr).nreg = s.nreg := rfl
@[simp] theorem drawReply_blockcut (addr : Nat) : (s.drawReply addr).blockcut = s.blockcut := rfl
@[simp] theorem drawReply_blockcutEnd (addr : Nat) : (s.drawReply addr).blockcutEnd = s.blockcutEnd := rfl
@[simp] theorem drawReply_ovrMask (addr : Nat) : (s.drawReply addr).ovrMask = s.ovrMask := rfl
@[simp] theorem drawReply_ovr (addr : Nat) : (s.drawReply addr).ovr = s.ovr := rfl
@[simp] theorem drawReply_blkStart (addr : Nat) : (s.drawReply addr).blkStart = s.blkStart := rfl
@[simp] theorem drawReply_blkLen (addr : Nat) : (s.drawReply addr).blkLen = s.blkLen := rfl
@[simp] theorem drawReply_afLen (addr : Nat) : (s.drawReply addr).afLen = s.afLen := rfl
@[simp] theorem drawReply_mtfLevel (addr : Nat) : (s.drawReply addr).mtfLevel = s.mtfLevel := rfl
@[simp] theorem drawReply_nextStart (addr : Nat) : (s.drawReply addr).nextStart = s.nextStart := rfl
@[simp] theorem drawReply_win (addr : Nat) : (s.drawReply addr).win = s.win := rfl
@[simp] theorem drawReply_audCount (addr : Nat) : (s.drawReply addr).audCount = s.audCount := rfl
@[simp] theorem drawReply_audFirst (addr : Nat) : (s.drawReply addr).audFirst = s.audFirst := rfl
@[simp] theorem drawReply_afOutlen (addr : Nat) : (s.drawReply addr).afOutlen = s.afOutlen := rfl
@[simp] theorem drawReply_carryValid (addr : Nat) : (s.drawReply addr).carryValid = s.carryValid := rfl
@[simp] theorem drawReply_carryPh (addr : Nat) : (s.drawReply addr).carryPh = s.carryPh := rfl
@[simp] theorem drawReply_carryTurns (addr : Nat) : (s.drawReply addr).carryTurns = s.carryTurns := rfl
@[simp] theorem drawReply_seedValid (addr : Nat) : (s.drawReply addr).seedValid = s.seedValid := rfl
@[simp] theorem drawReply_seedU (addr : Nat) : (s.drawReply addr).seedU = s.seedU := rfl
@[simp] theorem drawReply_dp (addr : Nat) : (s.drawReply addr).dp = s.dp := rfl
@[simp] theorem drawReply_sp (addr : Nat) : (s.drawReply addr).sp = s.sp := rfl
@[simp] theorem drawReply_deempAdj (addr : Nat) : (s.drawReply addr).deempAdj = s.deempAdj := rfl
@[simp] theorem drawReply_cn (addr : Nat) : (s.drawReply addr).cn = s.cn := rfl
@[simp] theorem drawReply_cfsMhz (addr : Nat) : (s.drawReply addr).cfsMhz = s.cfsMhz := rfl
@[simp] theorem drawReply_cflags (addr : Nat) : (s.drawReply addr).cflags = s.cflags := rfl
@[simp] theorem drawReply_mem (addr : Nat) : (s.drawReply addr).mem = s.mem := rfl
@[simp] theorem drawReply_rom (addr : Nat) : (s.drawReply addr).rom = s.rom := rfl
@[simp] theorem drawReply_params (addr : Nat) : (s.drawReply addr).params = s.params := rfl
@[simp] theorem drawReply_cmd (addr : Nat) : (s.drawReply addr).cmd = s.cmd := rfl
@[simp] theorem drawReply_inputs (addr : Nat) : (s.drawReply addr).inputs = s.inputs := rfl
@[simp] theorem drawReply_reply (addr : Nat) :
    (s.drawReply addr).reply = .data (Config.unspecified (.nth s.draws) addr) :=
    rfl
@[simp] theorem drawReply_draws (addr : Nat) : (s.drawReply addr).draws = s.draws + 1 := rfl

/-! ### STATUS -/

/-- The status of a command that ended. -/
@[simp] theorem finish_status : s.finish.status = endStatus s.status := by
  have : ∀ st : BitVec 7, setFlag 7 (setFlag 7 st bitBusy false) bitDone true = endStatus st := by decide
  exact this s.status

/-- The status of a command that ended with an error. -/
@[simp] theorem raise_status (opc : BitVec 8) (e : ErrKind) (info : Word32) :
    (s.raise opc e info).status = errorStatus s.status := by
  have : ∀ st : BitVec 7,
      setFlag 7 (setFlag 7 (setFlag 7 st bitErr true) bitBusy false) bitDone true = errorStatus st := by decide
  exact this s.status

/-- Taking an error is the whole effect of 60_exceptions.md R233. -/
theorem raise_eq (opc : BitVec 8) (e : ErrKind) (info : Word32) :
    s.raise opc e info = errorState s opc (errCode e) info := by
  have h := raise_status s opc e info
  unfold errorState
  rw [← h]
  rfl

theorem finish_eq : s.finish = { s with status := endStatus s.status } := by
  have h := finish_status s
  rw [← h]
  rfl

@[simp] theorem endStatus_busy (st : BitVec 7) : (endStatus st).getLsbD bitBusy = false := by
  revert st
  decide

@[simp] theorem endStatus_done (st : BitVec 7) : (endStatus st).getLsbD bitDone = true := by
  revert st
  decide

@[simp] theorem endStatus_constructed (st : BitVec 7) :
    (endStatus st).getLsbD bitConstructed = st.getLsbD bitConstructed := by
  revert st
  decide

@[simp] theorem endStatus_bankValid (st : BitVec 7) : (endStatus st).getLsbD bitBankValid = st.getLsbD bitBankValid := by
  revert st
  decide

@[simp] theorem endStatus_err (st : BitVec 7) : (endStatus st).getLsbD bitErr = st.getLsbD bitErr := by
  revert st
  decide

@[simp] theorem errorStatus_constructed (st : BitVec 7) :
    (errorStatus st).getLsbD bitConstructed = st.getLsbD bitConstructed := by
  revert st
  decide

@[simp] theorem errorStatus_bankValid (st : BitVec 7) :
    (errorStatus st).getLsbD bitBankValid = st.getLsbD bitBankValid := by
  revert st
  decide

@[simp] theorem errorStatus_err (st : BitVec 7) : (errorStatus st).getLsbD bitErr = true := by
  revert st
  decide

@[simp] theorem endStatus_endStatus (st : BitVec 7) : endStatus (endStatus st) = endStatus st := by
  revert st
  decide

/-! ### Values read from a state -/

@[simp] theorem finish_constructed : s.finish.constructed = s.constructed := by simp [State.constructed]
@[simp] theorem finish_bankValid : s.finish.bankValid = s.bankValid := by simp [State.bankValid]
@[simp] theorem finish_err : s.finish.err = s.err := by simp [State.err]
@[simp] theorem finish_busy : s.finish.busy = false := by simp [State.busy]
@[simp] theorem finish_done : s.finish.done = true := by simp [State.done]
@[simp] theorem finish_n : s.finish.n = s.n := rfl
@[simp] theorem finish_w0 : s.finish.w0 = s.w0 := rfl
@[simp] theorem finish_w1 : s.finish.w1 = s.w1 := rfl
@[simp] theorem finish_geometryOk : s.finish.geometryOk = s.geometryOk := rfl
@[simp] theorem raise_constructed (opc : BitVec 8) (e : ErrKind) (info : Word32) :
    (s.raise opc e info).constructed = s.constructed := by simp [State.constructed]
@[simp] theorem raise_bankValid (opc : BitVec 8) (e : ErrKind) (info : Word32) :
    (s.raise opc e info).bankValid = s.bankValid := by simp [State.bankValid]
@[simp] theorem raise_err (opc : BitVec 8) (e : ErrKind) (info : Word32) : (s.raise opc e info).err = true := by
  simp [State.err]
@[simp] theorem raise_geometryOk (opc : BitVec 8) (e : ErrKind) (info : Word32) :
    (s.raise opc e info).geometryOk = s.geometryOk := rfl
@[simp] theorem writeBuf_constructed (d : Buf) (f : Nat → CExact) : (s.writeBuf d f).constructed = s.constructed := rfl
@[simp] theorem writeBuf_bankValid (d : Buf) (f : Nat → CExact) : (s.writeBuf d f).bankValid = s.bankValid := rfl
@[simp] theorem writeBuf_n (d : Buf) (f : Nat → CExact) : (s.writeBuf d f).n = s.n := rfl
@[simp] theorem writeBuf_geometryOk (d : Buf) (f : Nat → CExact) : (s.writeBuf d f).geometryOk = s.geometryOk := rfl

end Sys2Proof.Laws
end

