-- ==== Sys2Proof/Laws/Bus.lean ====
section
/-! SUPPORT. The bus: which target an offset belongs to, what each register reads, what a write to each register does, and
which registers an update of one field leaves alone. -/

namespace Sys2Proof.Laws

open Sys2Proof.Machine

/-! ### The address map -/

theorem map_bases : afInL = 0x03000000 ∧ afOutL = 0x03800000 ∧ afOutR = 0x03C00000 ∧ romBase = 0x04000000
    ∧ Config.outFrame = 131072 := ⟨rfl, rfl, rfl, rfl, rfl⟩

theorem targetOf_register {a : Nat} (h : a < 0x1000) : targetOf a = .register := if_pos h

theorem targetOf_ram {a : Nat} (h : HostMemory a) : targetOf a = .ram := by
  unfold HostMemory at h
  obtain ⟨e1, e2, e3, e4, e5⟩ := map_bases
  unfold targetOf
  rw [if_neg (by omega), if_neg (by omega)]
  by_cases h1 : a < 0x02000000
  · rw [if_pos h1]
  rw [if_neg h1, if_neg (by omega), if_neg (by omega)]
  by_cases h2 : a < 0x03800000
  · rw [if_pos (by omega)]
  rw [if_neg (by omega)]
  by_cases h3 : a < 0x03900000
  · rw [if_pos (by omega)]
  rw [if_neg (by omega), if_neg (by omega), if_pos (by omega)]

theorem targetOf_slot {a : Nat} (h1 : 0x02000000 ≤ a) (h2 : a < 0x02800000) : targetOf a = .slot := by
  unfold targetOf
  rw [if_neg (by omega), if_neg (by omega), if_neg (by omega), if_pos h2]

theorem targetOf_rom {a : Nat} (h1 : 0x04000000 ≤ a) (h2 : a < 0x04001000) : targetOf a = .rom := by
  obtain ⟨e1, e2, e3, e4, e5⟩ := map_bases
  unfold targetOf
  iterate 10 rw [if_neg (by omega)]
  exact if_pos (by omega)

theorem targetOf_unmapped {a : Nat} (h : ¬ Mapped a) : targetOf a = .unmapped := by
  unfold Mapped at h
  obtain ⟨e1, e2, e3, e4, e5⟩ := map_bases
  unfold targetOf
  rw [if_neg (by omega)]
  by_cases h1 : a < 0x01000000
  · rw [if_pos h1]
  rw [if_neg h1, if_neg (by omega), if_neg (by omega)]
  by_cases h2 : a < 0x03000000
  · rw [if_pos (by omega)]
  rw [if_neg (by omega), if_neg (by omega), if_neg (by omega)]
  by_cases h3 : a < 0x03C00000
  · rw [if_pos (by omega)]
  rw [if_neg (by omega), if_neg (by omega)]
  by_cases h4 : a < 0x04000000
  · rw [if_pos (by omega)]
  rw [if_neg (by omega), if_neg (by omega)]

/-- The mapped offsets are the registers, the memories the host writes, the slots and the ROM. -/
theorem mapped_cases {a : Nat} (h : Mapped a) : a < 0x1000 ∨ HostMemory a ∨ (0x02000000 ≤ a ∧ a < 0x02800000) ∨
    (0x04000000 ≤ a ∧ a < 0x04001000) := by
  unfold Mapped at h
  unfold HostMemory
  omega

theorem mapped_of_hostMemory {a : Nat} (h : HostMemory a) : Mapped a := by
  unfold HostMemory at h
  unfold Mapped
  omega

theorem targetOf_eq_unmapped_iff (a : Nat) : targetOf a = .unmapped ↔ ¬ Mapped a := by
  refine ⟨fun h hm => ?_, targetOf_unmapped⟩
  rcases mapped_cases hm with h1 | h1 | h1 | h1
  · simp [targetOf_register h1] at h
  · simp [targetOf_ram h1] at h
  · simp [targetOf_slot h1.1 h1.2] at h
  · simp [targetOf_rom h1.1 h1.2] at h

/-- The accesses that the bus answers with an error. -/
theorem badAccess_iff (b a : Nat) : badAccess b a = true ↔ b ≠ 8 ∨ a % 8 ≠ 0 ∨ ¬ Mapped a := by
  simp only [badAccess, Bool.or_eq_true, bne_iff_ne, beq_iff_eq, targetOf_eq_unmapped_iff, or_assoc]

theorem badAccess_false {a : Nat} (h : a % 8 = 0) (hm : Mapped a) : badAccess 8 a = false := by
  rw [← Bool.not_eq_true, badAccess_iff]
  simp [h, hm]

/-! ### What a register reads -/

variable (s : State) (v : Word)

@[simp] theorem regRead_id : regRead s 0x000 = 0x4C44464200000007#64 := rfl
@[simp] theorem regRead_cmd : regRead s 0x018 = 0#64 := rfl
@[simp] theorem regRead_status : regRead s 0x008 = s.status.setWidth 64 := rfl
@[simp] theorem regRead_errcode : regRead s 0x010 = s.errcode := rfl
@[simp] theorem regRead_irqen : regRead s 0x020 = s.irqen.setWidth 64 := rfl
@[simp] theorem regRead_cfg : regRead s 0x028 = s.cfg.setWidth 64 := rfl
@[simp] theorem regRead_fsMhz : regRead s 0x030 = s.fsMhz := rfl
@[simp] theorem regRead_nreg : regRead s 0x038 = s.nreg.setWidth 64 := rfl
@[simp] theorem regRead_blockcut : regRead s 0x040 = s.blockcut.setWidth 64 := rfl
@[simp] theorem regRead_blockcutEnd : regRead s 0x048 = s.blockcutEnd.setWidth 64 := rfl
@[simp] theorem regRead_ovrMask : regRead s 0x050 = s.ovrMask.setWidth 64 := rfl
@[simp] theorem regRead_blkStart : regRead s 0x0E8 = s.blkStart := rfl
@[simp] theorem regRead_blkLen : regRead s 0x0F0 = s.blkLen.setWidth 64 := rfl
@[simp] theorem regRead_afLen : regRead s 0x0F8 = s.afLen.setWidth 64 := rfl
@[simp] theorem regRead_mtfLevel : regRead s 0x100 = s.mtfLevel := rfl
@[simp] theorem regRead_nextStart : regRead s 0x108 = s.nextStart := rfl
@[simp] theorem regRead_win : regRead s 0x110 = s.win := rfl
@[simp] theorem regRead_audCount : regRead s 0x118 = s.audCount.setWidth 64 := rfl
@[simp] theorem regRead_audFirst : regRead s 0x120 = s.audFirst := rfl
@[simp] theorem regRead_afOutlen : regRead s 0x128 = s.afOutlen.setWidth 64 := rfl
@[simp] theorem regRead_carryValid : regRead s 0x130 = s.carryValid.setWidth 64 := rfl
@[simp] theorem regRead_seedValid : regRead s 0x170 = s.seedValid.setWidth 64 := rfl
@[simp] theorem regRead_deempAdj : regRead s 0x320 = s.deempAdj := rfl
@[simp] theorem regRead_cn : regRead s 0x328 = s.cn.setWidth 64 := rfl
@[simp] theorem regRead_cfsMhz : regRead s 0x330 = s.cfsMhz := rfl
@[simp] theorem regRead_cflags : regRead s 0x338 = s.cflags.setWidth 64 := rfl

theorem regRead_ovr (i : Fin 17) : regRead s (0x060 + 8 * i.val) = s.ovr[i] := by
  have h : regRead s (0x060 + 8 * i.val) = regEntry s.ovr.toList i.val := by fin_cases i <;> rfl
  rw [h]
  simp [regEntry]

theorem regRead_dp (i : Fin 16) : regRead s (0x200 + 8 * i.val) = s.dp[i] := by
  have h : regRead s (0x200 + 8 * i.val) = regEntry s.dp.toList i.val := by fin_cases i <;> rfl
  rw [h]
  simp [regEntry]

theorem regRead_sp (i : Fin 20) : regRead s (0x280 + 8 * i.val) = s.sp[i] := by
  have h : regRead s (0x280 + 8 * i.val) = regEntry s.sp.toList i.val := by fin_cases i <;> rfl
  rw [h]
  simp [regEntry]

theorem regRead_carryPh (st : Stream) : regRead s (carryPhAddr st) = s.carryPh[st] := by
  have h : regRead s (carryPhAddr st) = regEntry s.carryPh.toList st.val := by fin_cases st <;> rfl
  rw [h]
  simp [regEntry]

theorem regRead_carryTurns (st : Stream) : regRead s (carryTurnsAddr st) = s.carryTurns[st] := by
  have h : regRead s (carryTurnsAddr st) = regEntry s.carryTurns.toList st.val := by fin_cases st <;> rfl
  rw [h]
  simp [regEntry]

theorem regRead_seedU (st : Stream) : regRead s (seedUAddr st) = s.seedU[st] := by
  have h : regRead s (seedUAddr st) = regEntry s.seedU.toList st.val := by fin_cases st <;> rfl
  rw [h]
  simp [regEntry]

/-! ### What a write to a register does -/

@[simp] theorem regWrite_status : regWrite s 0x008 v = { s with status := s.status &&& ~~~(v.setWidth 7 &&& statusW1C) } := rfl
@[simp] theorem regWrite_cmd : regWrite s 0x018 v = s.issue (v.setWidth 32) := rfl
@[simp] theorem regWrite_irqen : regWrite s 0x020 v = { s with irqen := v.setWidth 2 } := rfl
@[simp] theorem regWrite_cfg : regWrite s 0x028 v = { s with cfg := v.setWidth 32 &&& cfgMask } := rfl
@[simp] theorem regWrite_fsMhz : regWrite s 0x030 v = { s with fsMhz := v } := rfl
@[simp] theorem regWrite_nreg : regWrite s 0x038 v = { s with nreg := v.setWidth 32 } := rfl
@[simp] theorem regWrite_blockcut : regWrite s 0x040 v = { s with blockcut := v.setWidth 32 } := rfl
@[simp] theorem regWrite_blockcutEnd : regWrite s 0x048 v = { s with blockcutEnd := v.setWidth 32 } := rfl
@[simp] theorem regWrite_ovrMask : regWrite s 0x050 v = { s with ovrMask := v.setWidth 17 } := rfl
@[simp] theorem regWrite_blkStart : regWrite s 0x0E8 v = { s with blkStart := v } := rfl
@[simp] theorem regWrite_blkLen : regWrite s 0x0F0 v = { s with blkLen := v.setWidth 32 } := rfl
@[simp] theorem regWrite_afLen : regWrite s 0x0F8 v = { s with afLen := v.setWidth 32 } := rfl
@[simp] theorem regWrite_mtfLevel : regWrite s 0x100 v = { s with mtfLevel := v } := rfl

theorem regWrite_ovr (i : Fin 17) : regWrite s (0x060 + 8 * i.val) v = { s with ovr := s.ovr.set i v } := by
  have h : regWrite s (0x060 + 8 * i.val) v = { s with ovr := s.ovr.setIfInBounds i.val v } := by fin_cases i <;> rfl
  have h' : s.ovr.setIfInBounds i.val v = s.ovr.set i v := by
    apply Vector.ext
    intro j hj
    simp [Vector.getElem_setIfInBounds, Vector.getElem_set]
  rw [h, h']

/-- A write anywhere else in the register range is ignored. -/
theorem regWrite_ignored {off : Nat} (h : writableBits off = none) (h1 : off ≠ 0x008) (h2 : off ≠ 0x018) :
    regWrite s off v = s := by
  have h3 : off ≠ 0x020 := by rintro rfl; simp [writableBits] at h
  have h4 : off ≠ 0x028 := by rintro rfl; simp [writableBits] at h
  have h5 : off ≠ 0x030 := by rintro rfl; simp [writableBits] at h
  have h6 : off ≠ 0x038 := by rintro rfl; simp [writableBits] at h
  have h7 : off ≠ 0x040 := by rintro rfl; simp [writableBits] at h
  have h8 : off ≠ 0x048 := by rintro rfl; simp [writableBits] at h
  have h9 : off ≠ 0x050 := by rintro rfl; simp [writableBits] at h
  have h10 : ¬ (0x060 ≤ off ∧ off ≤ 0x0E8) := by
    intro hc
    unfold writableBits at h
    rw [if_neg (by omega), if_neg (by omega), if_neg (by omega), if_neg (by omega), if_neg (by omega), if_pos hc] at h
    simp at h
  have h11 : off ≠ 0x0F0 := by rintro rfl; simp [writableBits] at h
  have h12 : off ≠ 0x0F8 := by rintro rfl; simp [writableBits] at h
  have h13 : off ≠ 0x100 := by rintro rfl; simp [writableBits] at h
  have h14 : ¬ ((decide (0x060 ≤ off) && decide (off ≤ 0x0E0)) = true) := by simp; omega
  unfold regWrite
  rw [if_neg h1, if_neg h2, if_neg h3, if_neg h4, if_neg h5, if_neg h6, if_neg h7, if_neg h8, if_neg h9, if_neg h14,
    if_neg (by omega), if_neg h11, if_neg h12, if_neg h13]

/-! ### Registers that an update leaves alone -/

/-- What a register reads does not depend on memory, the events, the answer or the draws. -/
theorem regRead_model (m : List Host.Cell) (is : List Input) (r : Reply) (n off : Nat) (c : Word32) :
    regRead { s with mem := m, inputs := is, reply := r, draws := n, cmd := c } off = regRead s off := rfl

theorem regRead_frame_status (x) {off : Nat} (h : off ≠ 0x008) : regRead { s with status := x } off = regRead s off := by
  simp only [regRead, if_neg h]

theorem regRead_frame_errcode (x) {off : Nat} (h : off ≠ 0x010) : regRead { s with errcode := x } off = regRead s off := by
  simp only [regRead, if_neg h]

theorem regRead_frame_irqen (x) {off : Nat} (h : off ≠ 0x020) : regRead { s with irqen := x } off = regRead s off := by
  simp only [regRead, if_neg h]

theorem regRead_frame_cfg (x) {off : Nat} (h : off ≠ 0x028) : regRead { s with cfg := x } off = regRead s off := by
  simp only [regRead, if_neg h]

theorem regRead_frame_fsMhz (x) {off : Nat} (h : off ≠ 0x030) : regRead { s with fsMhz := x } off = regRead s off := by
  simp only [regRead, if_neg h]

theorem regRead_frame_nreg (x) {off : Nat} (h : off ≠ 0x038) : regRead { s with nreg := x } off = regRead s off := by
  simp only [regRead, if_neg h]

theorem regRead_frame_blockcut (x) {off : Nat} (h : off ≠ 0x040) : regRead { s with blockcut := x } off = regRead s off := by
  simp only [regRead, if_neg h]

theorem regRead_frame_blockcutEnd (x) {off : Nat} (h : off ≠ 0x048) : regRead { s with blockcutEnd := x } off = regRead s off := by
  simp only [regRead, if_neg h]

theorem regRead_frame_ovrMask (x) {off : Nat} (h : off ≠ 0x050) : regRead { s with ovrMask := x } off = regRead s off := by
  simp only [regRead, if_neg h]

theorem regRead_frame_blkStart (x) {off : Nat} (h : off ≠ 0x0E8) : regRead { s with blkStart := x } off = regRead s off := by
  simp only [regRead, if_neg h]

theorem regRead_frame_blkLen (x) {off : Nat} (h : off ≠ 0x0F0) : regRead { s with blkLen := x } off = regRead s off := by
  simp only [regRead, if_neg h]

theorem regRead_frame_afLen (x) {off : Nat} (h : off ≠ 0x0F8) : regRead { s with afLen := x } off = regRead s off := by
  simp only [regRead, if_neg h]

theorem regRead_frame_mtfLevel (x) {off : Nat} (h : off ≠ 0x100) : regRead { s with mtfLevel := x } off = regRead s off := by
  simp only [regRead, if_neg h]

theorem regRead_frame_nextStart (x) {off : Nat} (h : off ≠ 0x108) : regRead { s with nextStart := x } off = regRead s off := by
  simp only [regRead, if_neg h]

theorem regRead_frame_win (x) {off : Nat} (h : off ≠ 0x110) : regRead { s with win := x } off = regRead s off := by
  simp only [regRead, if_neg h]

theorem regRead_frame_audCount (x) {off : Nat} (h : off ≠ 0x118) : regRead { s with audCount := x } off = regRead s off := by
  simp only [regRead, if_neg h]

theorem regRead_frame_audFirst (x) {off : Nat} (h : off ≠ 0x120) : regRead { s with audFirst := x } off = regRead s off := by
  simp only [regRead, if_neg h]

theorem regRead_frame_afOutlen (x) {off : Nat} (h : off ≠ 0x128) : regRead { s with afOutlen := x } off = regRead s off := by
  simp only [regRead, if_neg h]

theorem regRead_frame_carryValid (x) {off : Nat} (h : off ≠ 0x130) : regRead { s with carryValid := x } off = regRead s off := by
  simp only [regRead, if_neg h]

theorem regRead_frame_seedValid (x) {off : Nat} (h : off ≠ 0x170) : regRead { s with seedValid := x } off = regRead s off := by
  simp only [regRead, if_neg h]

theorem regRead_frame_deempAdj (x) {off : Nat} (h : off ≠ 0x320) : regRead { s with deempAdj := x } off = regRead s off := by
  simp only [regRead, if_neg h]

theorem regRead_frame_cn (x) {off : Nat} (h : off ≠ 0x328) : regRead { s with cn := x } off = regRead s off := by
  simp only [regRead, if_neg h]

theorem regRead_frame_cfsMhz (x) {off : Nat} (h : off ≠ 0x330) : regRead { s with cfsMhz := x } off = regRead s off := by
  simp only [regRead, if_neg h]

theorem regRead_frame_cflags (x) {off : Nat} (h : off ≠ 0x338) : regRead { s with cflags := x } off = regRead s off := by
  simp only [regRead, if_neg h]

theorem regRead_frame_ovr (i : Fin 17) {off : Nat} (ha : off % 8 = 0) (h : off ≠ 0x060 + 8 * i.val) :
    regRead { s with ovr := s.ovr.set i v } off = regRead s off := by
  by_cases hr : (decide (0x060 ≤ off) && decide (off ≤ 0x0E0)) = true
  · have hr' : 0x060 ≤ off ∧ off ≤ 0x0E0 := by simpa using hr
    obtain ⟨k, hk, rfl⟩ : ∃ k, k < 17 ∧ off = 0x060 + 8 * k := ⟨(off - 0x060) / 8, by omega, by omega⟩
    have hne : i.val ≠ k := by omega
    have h1 := regRead_ovr { s with ovr := s.ovr.set i v } ⟨k, hk⟩
    have h2 := regRead_ovr s ⟨k, hk⟩
    simp only [Fin.getElem_fin] at h1 h2
    rw [h1, h2, Vector.getElem_set_ne _ _ hne]
  · simp only [regRead, if_neg hr]

end Sys2Proof.Laws
end

