-- ==== Sys2Proof/Laws/Memory.lean ====
section
/-! SUPPORT. What the one operation that changes memory does: which byte and which word read back, which are left alone, and
that the canonical form is kept. -/

namespace Sys2Proof.Laws

open Sys2Proof.Machine

/-! ### Cells -/

theorem mem_cellsAt {c : Host.Cell} {bs : List Byte} {base : Nat} (h : c ∈ cellsAt base bs) :
    base ≤ c.1 ∧ c.1 < base + bs.length := by
  induction bs generalizing base with
  | nil => simp [cellsAt] at h
  | cons b bs ih =>
    simp only [cellsAt, List.mem_cons] at h
    rcases h with rfl | h
    · simp
    · have := ih h
      simp only [List.length_cons]
      omega

theorem pairwise_cellsAt (base : Nat) (bs : List Byte) : (cellsAt base bs).Pairwise (fun a b => a.1 < b.1) := by
  induction bs generalizing base with
  | nil => simp [cellsAt]
  | cons b bs ih =>
    simp only [cellsAt, List.pairwise_cons]
    exact ⟨fun c hc => (mem_cellsAt hc).1, ih _⟩

theorem lookup_cellsAt (base addr : Nat) (bs : List Byte) (h : base ≤ addr) :
    (cellsAt base bs).lookup addr = bs[addr - base]? := by
  induction bs generalizing base with
  | nil => simp [cellsAt]
  | cons b bs ih =>
    rw [cellsAt, List.lookup_cons]
    by_cases e : addr = base
    · simp [e]
    · have h1 : (addr == base) = false := by simpa using e
      have h2 : addr - base = addr - (base + 1) + 1 := by omega
      rw [h1, ih (base + 1) (by omega), h2]
      simp

theorem lookup_none_of_forall {m : List Host.Cell} {addr : Nat} (h : ∀ c ∈ m, c.1 ≠ addr) : m.lookup addr = none := by
  rw [List.lookup_eq_none_iff]
  intro c hc
  simpa using (fun e : addr = c.1 => h c hc e.symm)

theorem lookup_filter {m : List Host.Cell} {p : Host.Cell → Bool} {addr : Nat}
    (h : ∀ c : Host.Cell, c.1 = addr → p c = true) : (m.filter p).lookup addr = m.lookup addr := by
  induction m with
  | nil => rfl
  | cons c m ih =>
    obtain ⟨k, v⟩ := c
    by_cases e : addr = k
    · subst e
      simp [h (addr, v) rfl]
    · have h1 : (addr == k) = false := by simpa using e
      by_cases hp : p (k, v) = true
      · simp [hp, List.lookup_cons, h1, ih]
      · simp [hp, List.lookup_cons, h1, ih]

/-! ### Bytes -/

/-- A byte outside the stored run reads as before. -/
theorem byte?_store_outside (m : List Host.Cell) (base : Nat) (bs : List Byte) (addr : Nat)
    (h : addr < base ∨ base + bs.length ≤ addr) :
    Memory.byte? (Memory.store m base bs) addr = Memory.byte? m addr := by
  unfold Memory.byte? Memory.store
  rw [List.lookup_append, List.lookup_append]
  have hc : (cellsAt base bs).lookup addr = none :=
    lookup_none_of_forall (fun c hc => by have := mem_cellsAt hc; omega)
  rw [hc]
  rcases h with h | h
  · rw [lookup_filter (fun c e => by simp [e, h]),
      lookup_none_of_forall (m := m.filter _) (fun c hc => by simp at hc; omega)]
    simp
  · rw [lookup_none_of_forall (m := m.filter (fun c => decide (c.1 < base))) (fun c hc => by simp at hc; omega),
      lookup_filter (fun c e => by simp [e, h])]
    simp

/-- A byte of the stored run reads back. -/
theorem byte?_store_inside (m : List Host.Cell) (base : Nat) (bs : List Byte) (addr : Nat)
    (h1 : base ≤ addr) (h2 : addr < base + bs.length) :
    Memory.byte? (Memory.store m base bs) addr = bs[addr - base]? := by
  unfold Memory.byte? Memory.store
  rw [List.lookup_append, List.lookup_append, lookup_cellsAt base addr bs h1,
    lookup_none_of_forall (m := m.filter (fun c => decide (c.1 < base))) (fun c hc => by simp at hc; omega),
    lookup_none_of_forall (m := m.filter (fun c => decide (base + bs.length ≤ c.1))) (fun c hc => by simp at hc; omega)]
  simp

/-- The canonical form is kept. -/
theorem wf_store (m : List Host.Cell) (base : Nat) (bs : List Byte) (h : Memory.wf m = true) :
    Memory.wf (Memory.store m base bs) = true := by
  unfold Memory.wf Memory.store at *
  simp only [decide_eq_true_eq] at *
  rw [List.pairwise_append, List.pairwise_append]
  refine ⟨⟨h.filter _, pairwise_cellsAt base bs, ?_⟩, h.filter _, ?_⟩
  · intro a ha b hb
    have := mem_cellsAt hb
    simp at ha
    omega
  · intro a ha b hb
    rw [List.mem_append] at ha
    simp at hb
    rcases ha with ha | ha
    · simp at ha
      omega
    · have := mem_cellsAt ha
      omega

/-- A cell of the new memory is an old one or lies in the stored run. -/
theorem mem_store {m : List Host.Cell} {base : Nat} {bs : List Byte} {c : Host.Cell}
    (h : c ∈ Memory.store m base bs) : c ∈ m ∨ (base ≤ c.1 ∧ c.1 < base + bs.length) := by
  unfold Memory.store at h
  rw [List.mem_append, List.mem_append] at h
  rcases h with (h | h) | h
  · exact .inl (List.mem_of_mem_filter h)
  · exact .inr (mem_cellsAt h)
  · exact .inl (List.mem_of_mem_filter h)

/-! ### Words -/

@[simp] theorem wordBytes_length (v : Word) : (wordBytes v).length = 8 := rfl

@[simp] theorem wordsBytes_length (vs : List Word) : (wordsBytes vs).length = 8 * vs.length := by
  induction vs with
  | nil => rfl
  | cons v vs ih => simp only [wordsBytes, List.flatMap_cons, List.length_append, List.length_cons] at *; simp; omega

/-- Byte j of word i of a run. -/
theorem wordsBytes_getElem? (vs : List Word) (i j : Nat) (v : Word) (hv : vs[i]? = some v) (hj : j < 8) :
    (wordsBytes vs)[8 * i + j]? = (wordBytes v)[j]? := by
  induction vs generalizing i with
  | nil => simp at hv
  | cons w vs ih =>
    simp only [wordsBytes, List.flatMap_cons]
    cases i with
    | zero =>
      simp at hv
      subst hv
      rw [List.getElem?_append_left (by simp; omega)]
      simp
    | succ i =>
      rw [List.getElem?_append_right (by simp; omega)]
      simp at hv
      have := ih i hv
      simp only [wordsBytes] at this
      rw [← this]
      congr 1
      simp
      omega

/-- Eight bytes make their word again. -/
theorem word_of_bytes (v : Word) :
    v.extractLsb' 56 8 ++ v.extractLsb' 48 8 ++ v.extractLsb' 40 8 ++ v.extractLsb' 32 8 ++ v.extractLsb' 24 8
      ++ v.extractLsb' 16 8 ++ v.extractLsb' 8 8 ++ v.extractLsb' 0 8 = v := by
  apply BitVec.eq_of_getLsbD_eq
  intro i hi
  simp only [BitVec.getLsbD_append, BitVec.getLsbD_extractLsb']
  repeat' split
  all_goals
    rw [decide_eq_true (by omega), Bool.true_and]
    congr 1
    omega

/-- A word reads from the eight bytes of its value. -/
theorem word?_of_bytes {m : List Host.Cell} {addr : Nat} {v : Word}
    (h : ∀ j, j < 8 → Memory.byte? m (addr + j) = (wordBytes v)[j]?) : Memory.word? m addr = some v := by
  have bytes : ∀ j : Fin 8, Memory.byte? m (addr + j.val) = some (v.extractLsb' (8 * j.val) 8) := fun j =>
    (h j.val j.isLt).trans (by fin_cases j <;> rfl)
  have low : Memory.byte? m addr = some (v.extractLsb' 0 8) := bytes 0
  simp only [Fin.forall_fin_succ, Fin.val_succ, Fin.val_zero, Nat.reduceAdd, Nat.reduceMul] at bytes
  simp only [Memory.word?, low, bytes]
  exact congrArg some (word_of_bytes v)

/-- A word of the stored run reads back. -/
theorem word?_store_inside (m : List Host.Cell) (base : Nat) (vs : List Word) (i : Nat) (v : Word)
    (hv : vs[i]? = some v) : Memory.word? (Memory.store m base (wordsBytes vs)) (base + 8 * i) = some v := by
  have hi : i < vs.length := by
    rw [List.getElem?_eq_some_iff] at hv
    exact hv.1
  refine word?_of_bytes (fun j hj => ?_)
  rw [byte?_store_inside _ _ _ _ (by omega) (by simp; omega), show base + 8 * i + j - base = 8 * i + j by omega,
    wordsBytes_getElem? vs i j v hv hj]

/-- Words whose bytes read alike are alike. -/
theorem word?_congr {m m' : List Host.Cell} {addr : Nat}
    (h : ∀ j, j < 8 → Memory.byte? m' (addr + j) = Memory.byte? m (addr + j)) :
    Memory.word? m' addr = Memory.word? m addr := by
  have low : Memory.byte? m' addr = Memory.byte? m addr := h 0 (by decide)
  simp (discharger := decide) only [Memory.word?, low, h]

/-- A word outside the stored run reads as before. -/
theorem word?_store_outside (m : List Host.Cell) (base : Nat) (bs : List Byte) (addr : Nat)
    (h : addr + 8 ≤ base ∨ base + bs.length ≤ addr) :
    Memory.word? (Memory.store m base bs) addr = Memory.word? m addr :=
  word?_congr (fun j hj => byte?_store_outside m base bs (addr + j) (by omega))

end Sys2Proof.Laws
end

