-- ==== Sys2Proof/Laws/Ops.lean ====
section
/-! SUPPORT. What the shared operations can do, each said once: the words of a run of results, the write of a block, the
checks, and the ways a command can end. -/

namespace Sys2Proof.Laws

open Sys2Proof.Machine

/-! ### Runs of results -/

@[simp] theorem putRun_length (d : Draw) (base count : Nat) (f : Nat → CExact) :
    (putRun d base count f).length = 2 * count := by
  simp [putRun, putComplex, List.length_flatMap]
  omega

/-- Entry 2n + i of a list made of pairs. -/
theorem flatMap_pair_getElem? {α β : Type} (g : α → List β) (l : List α) (hg : ∀ a, (g a).length = 2) (n i : Nat) (a : α)
    (ha : l[n]? = some a) (hi : i < 2) : (l.flatMap g)[2 * n + i]? = (g a)[i]? := by
  induction l generalizing n with
  | nil => simp at ha
  | cons b l ih =>
    simp only [List.flatMap_cons]
    cases n with
    | zero =>
      simp at ha
      subst ha
      rw [List.getElem?_append_left (by rw [hg]; omega)]
      simp
    | succ n =>
      rw [List.getElem?_append_right (by rw [hg]; omega)]
      simp at ha
      rw [← ih n ha, hg]
      congr 1
      omega

theorem putRun_re (d : Draw) (base count : Nat) (f : Nat → CExact) (n : Nat) (h : n < count) :
    (putRun d base count f)[2 * n]? = some (put d (base + 16 * n) (f n).re) := by
  have := flatMap_pair_getElem? (fun n => putComplex d (base + 16 * n) (f n)) (List.range count) (fun _ => rfl) n 0 n
    (by simp [h]) (by omega)
  simpa [putRun, putComplex] using this

theorem putRun_im (d : Draw) (base count : Nat) (f : Nat → CExact) (n : Nat) (h : n < count) :
    (putRun d base count f)[2 * n + 1]? = some (put d (base + 16 * n + 8) (f n).im) := by
  have := flatMap_pair_getElem? (fun n => putComplex d (base + 16 * n) (f n)) (List.range count) (fun _ => rfl) n 1 n
    (by simp [h]) (by omega)
  simpa [putRun, putComplex] using this

/-! ### The write of a block -/

theorem bufAddr_eq (d : Buf) (n : Nat) : bufAddr d n = bufAddr d 0 + 16 * n := by
  simp [bufAddr]

/-- Everything that writing a block does to memory. -/
theorem writeBuf_blockStored (s : State) (d : Buf) (f : Nat → CExact) : BlockStored s (s.writeBuf d f) d f := by
  refine ⟨fun n hn => ⟨?_, ?_⟩, fun addr h => ?_⟩
  · have := word?_store_inside s.mem (bufAddr d 0) (putRun (.nth s.draws) (bufAddr d 0) s.n f) (2 * n) _
      (putRun_re _ _ _ _ n hn)
    simp only [Stored, writeBuf_mem]
    rw [bufAddr_eq d n, show 16 * n = 8 * (2 * n) by omega, this]
    rw [show 16 * n = 8 * (2 * n) by omega]
  · have := word?_store_inside s.mem (bufAddr d 0) (putRun (.nth s.draws) (bufAddr d 0) s.n f) (2 * n + 1) _
      (putRun_im _ _ _ _ n hn)
    simp only [Stored, writeBuf_mem]
    rw [bufAddr_eq d n, show bufAddr d 0 + 16 * n + 8 = bufAddr d 0 + 8 * (2 * n + 1) by omega, this]
    rw [show bufAddr d 0 + 8 * (2 * n + 1) = bufAddr d 0 + 16 * n + 8 by omega]
  · rw [writeBuf_mem, byte?_store_outside]
    rw [bufAddr_eq d s.n] at h
    simp
    omega

/-- Writing a block changes memory and the draw counter only. -/
theorem writeBuf_eq (s : State) (d : Buf) (f : Nat → CExact) :
    s.writeBuf d f = { s with mem := (s.writeBuf d f).mem, draws := s.draws + 1 } := rfl

/-- Writing a block does not read STATUS. -/
theorem writeBuf_finish (s : State) (d : Buf) (f : Nat → CExact) : s.finish.writeBuf d f = (s.writeBuf d f).finish := rfl

/-! ### The checks and the end of a command -/

theorem ifConstructed_true {s : State} (h : s.constructed = true) (opc : BitVec 8)
    (body : Host.Outcome State Fault Refusal) : ifConstructed s opc body = body := by
  simp [ifConstructed, h]

theorem ifConstructed_false {s : State} (h : s.constructed = false) (opc : BitVec 8)
    (body : Host.Outcome State Fault Refusal) : ifConstructed s opc body = .next (errorState s opc 5#8 0#32) := by
  simp [ifConstructed, h, errorOutcome, raise_eq, errCode]

theorem ifBankValid_true {s : State} (h : s.bankValid = true) (opc : BitVec 8)
    (body : Host.Outcome State Fault Refusal) : ifBankValid s opc body = body := by
  simp [ifBankValid, h]

theorem ifBankValid_false {s : State} (h : s.bankValid = false) (opc : BitVec 8)
    (body : Host.Outcome State Fault Refusal) : ifBankValid s opc body = .next (errorState s opc 6#8 0#32) := by
  simp [ifBankValid, h, errorOutcome, raise_eq, errCode]

theorem errorOutcome_eq (s : State) (opc : BitVec 8) (e : ErrKind) (info : Word32) :
    errorOutcome s opc e info = .next (errorState s opc (errCode e) info) := by
  rw [errorOutcome, raise_eq]

theorem completeOnBlock_ok {s : State} (h : s.geometryOk = true) (eff : State → State) :
    s.completeOnBlock eff = .next (eff s).finish := by
  simp [State.completeOnBlock, h, State.complete]

/-- The ways a command's answer can look: an error, the end of an effect (of one that walks buffers only where they exist),
or the fault of a state that no CONSTRUCT leaves. -/
inductive Ends (s : State) (opc : BitVec 8) (walks : Bool) (effs : (State → State) → Prop) :
    Host.Outcome State Fault Refusal → Prop where
  | error (e : ErrKind) (info : Word32) : Ends s opc walks effs (.next (s.raise opc e info))
  | done (eff : State → State) (h : effs eff) (hg : walks = true → s.geometryOk = true) :
    Ends s opc walks effs (.next (eff s).finish)
  | geometry (h : s.geometryOk = false) : Ends s opc walks effs (.fault .geometry)

theorem Ends.next {s t : State} {opc : BitVec 8} {walks : Bool} {effs : (State → State) → Prop}
    (h : Ends s opc walks effs (.next t)) : (∃ e info, t = s.raise opc e info) ∨
      ∃ eff, effs eff ∧ (walks = true → s.geometryOk = true) ∧ t = (eff s).finish := by
  cases h with
  | error e info => exact .inl ⟨e, info, rfl⟩
  | done eff h hg => exact .inr ⟨eff, h, hg, rfl⟩

theorem ends_complete (s : State) (opc : BitVec 8) (eff : State → State) :
    Ends s opc false (· = eff) (s.complete eff) := .done eff rfl (by simp)

theorem ends_completeOnBlock (s : State) (opc : BitVec 8) (eff : State → State) :
    Ends s opc true (· = eff) (s.completeOnBlock eff) := by
  unfold State.completeOnBlock
  split
  · exact .done eff rfl (fun _ => by assumption)
  · exact .geometry (by simp_all)

theorem ends_ifConstructed {s : State} {opc : BitVec 8} {walks : Bool} {effs : (State → State) → Prop}
    {body : Host.Outcome State Fault Refusal} (h : Ends s opc walks effs body) :
    Ends s opc walks effs (ifConstructed s opc body) := by
  unfold ifConstructed
  split
  · exact h
  · exact .error _ _

theorem ends_ifBankValid {s : State} {opc : BitVec 8} {walks : Bool} {effs : (State → State) → Prop}
    {body : Host.Outcome State Fault Refusal} (h : Ends s opc walks effs body) :
    Ends s opc walks effs (ifBankValid s opc body) := by
  unfold ifBankValid
  split
  · exact h
  · exact .error _ _

theorem ends_mono {s : State} {opc : BitVec 8} {walks : Bool} {effs effs' : (State → State) → Prop}
    {r : Host.Outcome State Fault Refusal} (h : Ends s opc walks effs r) (hsub : ∀ eff, effs eff → effs' eff) :
    Ends s opc walks effs' r := by
  cases h with
  | error e info => exact .error e info
  | done eff h hg => exact .done eff (hsub eff h) hg
  | geometry h => exact .geometry h

/-- The effect of a command that has passed its checks. -/
def effectOf (i : Instr) : State → State :=
  match i with
  | .nop => id
  | .construct => effConstruct
  | .synth => effSynth
  | .procblk => effProcblk
  | .finaud => effFinaud
  | .rstcarry mask => effRstcarry mask
  | .real d a => effReal d a
  | .fft d a => effFft d a
  | .ifft d a => effIfft d a
  | .cmul d a f => effCmul d a f.toNat
  | .env d a => effEnv d a
  | .phase d a => effPhase d a
  | .unwrap d a st => match streamOf? st with
                      | some k => effUnwrap d a k
                      | none => id
  | .fdemod d a st c => match streamOf? st, carrierOf? c with
                        | some k, some cr => effFdemod d a k cr
                        | _, _ => id
  | .mtf d a => effMtf d a
  | .decim d a df => effDecim d a df.toNat
  | .copy d a => effCopy d a
  | .clr d => effClr d

/-- The commands whose effect walks buffers. -/
def walksBuffers (i : Instr) : Bool :=
  match i with
  | .nop => false
  | .construct => false
  | .finaud => false
  | .rstcarry _ => false
  | _ => true

/-- UNWRAP's and FDEMOD's effects, by their operands. -/
theorem effectOf_unwrap (d a : Buf) (st : BitVec 2) :
    effectOf (.unwrap d a st) = id ∨ ∃ k, streamOf? st = some k ∧ effectOf (.unwrap d a st) = effUnwrap d a k := by
  cases h : streamOf? st with
  | none => exact .inl (by simp [effectOf, h])
  | some k => exact .inr ⟨k, rfl, by simp [effectOf, h]⟩

theorem effectOf_fdemod (d a : Buf) (st c : BitVec 2) :
    effectOf (.fdemod d a st c) = id ∨ ∃ k cr, effectOf (.fdemod d a st c) = effFdemod d a k cr := by
  cases h : streamOf? st with
  | none => exact .inl (by simp [effectOf, h])
  | some k =>
    cases h' : carrierOf? c with
    | none => exact .inl (by simp [effectOf, h, h'])
    | some cr => exact .inr ⟨k, cr, by simp [effectOf, h, h']⟩

/-- Every answer of every command: an error of its own opcode, the end of its one effect, or the fault of a state that no
CONSTRUCT leaves. -/
theorem exec_ends (i : Instr) (s : State) : Ends s (opcodeOf i) (walksBuffers i) (· = effectOf i) (exec i s) := by
  cases i with
  | nop => exact ends_complete _ _ _
  | construct =>
    simp only [exec, execConstruct]
    split
    · exact .error _ _
    · exact ends_complete _ _ _
  | synth => exact ends_ifConstructed (ends_completeOnBlock _ _ _)
  | procblk =>
    refine ends_ifConstructed (ends_ifBankValid ?_)
    split
    · exact ends_completeOnBlock _ _ _
    · exact .error _ _
  | finaud =>
    refine ends_ifConstructed ?_
    split
    · split
      · exact ends_complete _ _ _
      · exact .error _ _
    · exact .error _ _
  | rstcarry mask => exact ends_complete _ _ _
  | real d a => exact ends_ifConstructed (ends_completeOnBlock _ _ _)
  | fft d a => exact ends_ifConstructed (ends_completeOnBlock _ _ _)
  | ifft d a => exact ends_ifConstructed (ends_completeOnBlock _ _ _)
  | cmul d a f =>
    refine ends_ifConstructed ?_
    split
    · exact ends_ifBankValid (ends_completeOnBlock _ _ _)
    · exact .error _ _
  | env d a => exact ends_ifConstructed (ends_completeOnBlock _ _ _)
  | phase d a => exact ends_ifConstructed (ends_completeOnBlock _ _ _)
  | unwrap d a st =>
    refine ends_ifConstructed ?_
    cases h : streamOf? st with
    | none => exact .error _ _
    | some k => exact ends_mono (ends_completeOnBlock _ _ _) (fun eff e => by simp [effectOf, h, e])
  | fdemod d a st c =>
    refine ends_ifConstructed ?_
    cases h : streamOf? st with
    | none => exact .error _ _
    | some k =>
      cases h' : carrierOf? c with
      | none => exact .error _ _
      | some cr => exact ends_mono (ends_completeOnBlock _ _ _) (fun eff e => by simp [effectOf, h, h', e])
  | mtf d a => exact ends_ifConstructed (ends_completeOnBlock _ _ _)
  | decim d a df =>
    refine ends_ifConstructed ?_
    split
    · exact ends_completeOnBlock _ _ _
    · exact .error _ _
  | copy d a => exact ends_ifConstructed (ends_completeOnBlock _ _ _)
  | clr d => exact ends_ifConstructed (ends_completeOnBlock _ _ _)

/-- What a next state of a command is. -/
theorem exec_next {i : Instr} {s t : State} (h : exec i s = .next t) : (∃ e info, t = s.raise (opcodeOf i) e info) ∨
    ((walksBuffers i = true → s.geometryOk = true) ∧ t = (effectOf i s).finish) := by
  have he := exec_ends i s
  rw [h] at he
  rcases he.next with h | ⟨eff, rfl, hg, h⟩
  · exact .inl h
  · exact .inr ⟨hg, h⟩

end Sys2Proof.Laws
end

