-- ==== Sys2Proof/Laws/Effects.lean ====
section
/-! SUPPORT. The effects of the commands that walk buffers: the one buffer each writes, the effects that PROCBLK is made of,
and what a sequence of them leaves alone. -/

namespace Sys2Proof.Laws

open Sys2Proof.Machine

/-! ### The block in effect -/

/-- What a state that CONSTRUCT has left says of N and of the window (40_parameter_model.md R103, R104). -/
theorem geometryOk_iff (s : State) :
    s.geometryOk = true ↔ legalBlockLength s.n = true ∧ 1 ≤ s.w0 ∧ s.w0 < s.w1 ∧ s.w1 ≤ s.n := by
  unfold State.geometryOk
  simp only [Bool.and_eq_true, decide_eq_true_eq]
  tauto

theorem legalBlockLength_iff (n : Nat) : legalBlockLength n = true ↔ BlockLengthOk n := by
  simp only [legalBlockLength, List.any_eq_true, List.mem_range', Config.log2NMin, Config.log2NMax, BlockLengthOk,
    beq_iff_eq]
  constructor
  · rintro ⟨k, ⟨i, hi, rfl⟩, hk⟩
    exact ⟨4 + 1 * i, by omega, by omega, hk⟩
  · rintro ⟨k, h1, h2, hk⟩
    exact ⟨k, ⟨k - 4, by omega, by omega⟩, hk⟩

theorem blockLength_bounds {n : Nat} (h : BlockLengthOk n) : 16 ≤ n ∧ n ≤ 65536 := by
  obtain ⟨k, h1, h2, rfl⟩ := h
  exact ⟨le_trans (by norm_num) (Nat.pow_le_pow_right (by norm_num) h1),
    le_trans (Nat.pow_le_pow_right (by norm_num) h2) (by norm_num)⟩

theorem geometry_bounds {s : State} (h : s.geometryOk = true) :
    16 ≤ s.n ∧ s.n ≤ 65536 ∧ 1 ≤ s.w0 ∧ s.w0 < s.w1 ∧ s.w1 ≤ s.n := by
  obtain ⟨h1, h2, h3, h4⟩ := (geometryOk_iff s).1 h
  have := blockLength_bounds ((legalBlockLength_iff _).1 h1)
  omega

/-- Where the elements of a buffer lie. -/
theorem bufAddr_range (d : Buf) (n : Nat) (hn : n ≤ 65536) :
    0x01000000 ≤ bufAddr d 0 ∧ bufAddr d 0 ≤ bufAddr d n ∧ bufAddr d n ≤ 0x02000000 := by
  have := d.isLt
  simp only [bufAddr, bufBytes]
  omega

/-- Different buffers share no byte. -/
theorem bufAddr_disjoint {b d : Buf} (h : b ≠ d) {m n : Nat} (hm : m ≤ 65536) (hn : n ≤ 65536) :
    bufAddr b m ≤ bufAddr d 0 ∨ bufAddr d n ≤ bufAddr b 0 := by
  have hne : b.toNat ≠ d.toNat := fun e => h (BitVec.eq_of_toNat_eq e)
  simp only [bufAddr, bufBytes]
  rcases Nat.lt_or_gt_of_ne hne with hlt | hlt
  · left
    have : b.toNat + 1 ≤ d.toNat := hlt
    omega
  · right
    have : d.toNat + 1 ≤ b.toNat := hlt
    omega

/-! ### Effects that write one buffer -/

/-- The effect writes buffer `d` and nothing else. -/
def BlockEffect (d : Buf) (e : State → State) : Prop := ∀ s, ∃ f, e s = s.writeBuf d f

theorem blockEffect_real (d a : Buf) : BlockEffect d (effReal d a) := fun _ => ⟨_, rfl⟩
theorem blockEffect_fft (d a : Buf) : BlockEffect d (effFft d a) := fun _ => ⟨_, rfl⟩
theorem blockEffect_ifft (d a : Buf) : BlockEffect d (effIfft d a) := fun _ => ⟨_, rfl⟩
theorem blockEffect_cmul (d a : Buf) (f : Nat) : BlockEffect d (effCmul d a f) := fun _ => ⟨_, rfl⟩
theorem blockEffect_env (d a : Buf) : BlockEffect d (effEnv d a) := fun _ => ⟨_, rfl⟩
theorem blockEffect_phase (d a : Buf) : BlockEffect d (effPhase d a) := fun _ => ⟨_, rfl⟩
theorem blockEffect_fdemod (d a : Buf) (st : Stream) (c : Carrier) : BlockEffect d (effFdemod d a st c) := fun _ => ⟨_, rfl⟩
theorem blockEffect_mtf (d a : Buf) : BlockEffect d (effMtf d a) := fun _ => ⟨_, rfl⟩
theorem blockEffect_clr (d : Buf) : BlockEffect d (effClr d) := fun _ => ⟨_, rfl⟩

/-! ### PROCBLK -/

/-- The effects that PROCBLK is made of (43_block_audio.md R203). -/
inductive ProcEffect : (State → State) → Prop where
  | block {d : Buf} {e : State → State} (hd : procblkWrites d) (h : BlockEffect d e) : ProcEffect e
  | unwrap (d a : Buf) (st : Stream) (hd : procblkWrites d) : ProcEffect (effUnwrap d a st)
  | decim (d a : Buf) (df : Nat) (hd : procblkWrites d) : ProcEffect (effDecim d a df)
  | noAudio : ProcEffect effNoAudio
  | contiguity : ProcEffect effContiguity
  | nextStart : ProcEffect effNextStart

theorem procEffect_spectrum : ∀ e ∈ stepsSpectrum, ProcEffect e := by
  unfold stepsSpectrum
  simp only [List.forall_mem_cons, List.not_mem_nil, false_imp_iff, implies_true, and_true]
  exact ⟨.block (by decide) (blockEffect_real _ _), .block (by decide) (blockEffect_fft _ _),
    .block (by decide) (blockEffect_cmul _ _ _), .block (by decide) (blockEffect_ifft _ _)⟩

theorem procEffect_video : ∀ e ∈ stepsVideo, ProcEffect e := by
  unfold stepsVideo
  simp only [List.forall_mem_cons, List.not_mem_nil, false_imp_iff, implies_true, and_true]
  exact ⟨.block (by decide) (blockEffect_env _ _), .block (by decide) (blockEffect_phase _ _),
    .unwrap _ _ _ (by decide), .block (by decide) (blockEffect_fdemod _ _ _ _)⟩

theorem procEffect_sync : ∀ e ∈ stepsSync, ProcEffect e := by
  unfold stepsSync
  simp only [List.forall_mem_cons, List.not_mem_nil, false_imp_iff, implies_true, and_true]
  exact ⟨.block (by decide) (blockEffect_fft _ _), .block (by decide) (blockEffect_cmul _ _ _),
    .block (by decide) (blockEffect_ifft _ _), .block (by decide) (blockEffect_real _ _),
    .block (by decide) (blockEffect_cmul _ _ _), .block (by decide) (blockEffect_ifft _ _),
    .block (by decide) (blockEffect_real _ _)⟩

theorem procEffect_mtf : ∀ e ∈ stepsMtf, ProcEffect e := by
  unfold stepsMtf
  simp only [List.forall_mem_cons, List.not_mem_nil, false_imp_iff, implies_true, and_true]
  exact .block (by decide) (blockEffect_mtf _ _)

theorem procEffect_channel (slot : Nat) (out : Buf) (st : Stream) (c : Carrier) (h : procblkWrites out) :
    ∀ e ∈ stepsChannel slot out st c, ProcEffect e := by
  unfold stepsChannel
  simp only [List.forall_mem_cons, List.not_mem_nil, false_imp_iff, implies_true, and_true]
  exact ⟨.block (by decide) (blockEffect_cmul _ _ _), .block (by decide) (blockEffect_ifft _ _),
    .block (by decide) (blockEffect_phase _ _), .unwrap _ _ _ (by decide),
    .block (by decide) (blockEffect_fdemod _ _ _ _), .block (by decide) (blockEffect_fft _ _),
    .block (by decide) (blockEffect_cmul _ _ _), .block (by decide) (blockEffect_ifft _ _), .decim _ _ _ h⟩

theorem procEffect_audio (on : Bool) : ∀ e ∈ stepsAudio on, ProcEffect e := by
  unfold stepsAudio
  split
  · exact List.forall_mem_append.2 ⟨procEffect_channel _ _ _ _ (by decide), procEffect_channel _ _ _ _ (by decide)⟩
  · simp only [List.forall_mem_cons, List.not_mem_nil, false_imp_iff, implies_true, and_true]
    exact ⟨.block (by decide) (blockEffect_clr _), .block (by decide) (blockEffect_clr _), .noAudio⟩

theorem procEffect_efm (on : Bool) : ∀ e ∈ stepsEfm on, ProcEffect e := by
  unfold stepsEfm
  split
  · simp only [List.forall_mem_cons, List.not_mem_nil, false_imp_iff, implies_true, and_true]
    exact ⟨.block (by decide) (blockEffect_cmul _ _ _), .block (by decide) (blockEffect_ifft _ _)⟩
  · simp only [List.forall_mem_cons, List.not_mem_nil, false_imp_iff, implies_true, and_true]
    exact .block (by decide) (blockEffect_clr _)

/-- The effects of PROCBLK between its contiguity check and NEXT_START. -/
def procblkSteps (audio efm : Bool) : List (State → State) :=
  stepsSpectrum ++ stepsVideo ++ stepsSync ++ stepsMtf ++ stepsAudio audio ++ stepsEfm efm

theorem procEffect_steps (audio efm : Bool) : ∀ e ∈ procblkSteps audio efm, ProcEffect e := by
  unfold procblkSteps
  simp only [List.forall_mem_append]
  exact ⟨⟨⟨⟨⟨procEffect_spectrum, procEffect_video⟩, procEffect_sync⟩, procEffect_mtf⟩, procEffect_audio _⟩,
    procEffect_efm _⟩

theorem effSeq_nil (s : State) : effSeq [] s = s := rfl

theorem effSeq_cons (e : State → State) (es : List (State → State)) (s : State) : effSeq (e :: es) s = effSeq es (e s) := rfl

theorem effSeq_append (es fs : List (State → State)) (s : State) : effSeq (es ++ fs) s = effSeq fs (effSeq es s) := by
  simp [effSeq, List.foldl_append]

/-- PROCBLK's effect in three parts. -/
theorem effProcblk_eq (s : State) : effProcblk s =
    effNextStart (effSeq (procblkSteps (cfgAudioOn s.cflags) (cfgDda s.cflags)) (effContiguity s)) := by
  unfold effProcblk procblkSteps
  simp only [List.append_assoc, effSeq_append]
  rfl

/-- A property that every one of PROCBLK's effects keeps is kept by a sequence of them. -/
theorem effSeq_keeps {P : State → Prop} (es : List (State → State)) (he : ∀ e ∈ es, ∀ s, P s → P (e s)) {s : State}
    (h : P s) : P (effSeq es s) := by
  induction es generalizing s with
  | nil => exact h
  | cons e es ih =>
    exact ih (fun e' h' => he e' (List.mem_cons_of_mem _ h')) (he e List.mem_cons_self s h)

/-! ### Frames -/

/-- What PROCBLK's effects leave alone of a state `s`: all but the registers and buffers of 43_block_audio.md R203, and of
STATUS all but CARRY_RESTART. -/
structure ProcFrame (s t : State) : Prop where
  fields : t = { s with status := t.status, mem := t.mem, draws := t.draws, carryValid := t.carryValid,
                        carryPh := t.carryPh, carryTurns := t.carryTurns, seedValid := t.seedValid, seedU := t.seedU,
                        audCount := t.audCount, audFirst := t.audFirst, nextStart := t.nextStart }
  status : ∀ i, i ≠ 5 → t.status.getLsbD i = s.status.getLsbD i
  memory : ∀ addr, (∀ b, procblkWrites b → ¬ (bufAddr b 0 ≤ addr ∧ addr < bufAddr b s.n)) →
    Memory.byte? t.mem addr = Memory.byte? s.mem addr

theorem ProcFrame.refl (s : State) : ProcFrame s s := ⟨rfl, fun _ _ => rfl, fun _ _ => rfl⟩

theorem ProcFrame.n {s t : State} (h : ProcFrame s t) : t.n = s.n := by
  rw [h.fields]
  rfl

theorem ProcFrame.trans {s t u : State} (h1 : ProcFrame s t) (h2 : ProcFrame t u) : ProcFrame s u := by
  refine ⟨?_, fun i hi => (h2.status i hi).trans (h1.status i hi), fun addr h => ?_⟩
  · have e1 := h1.fields
    have e2 := h2.fields
    rw [e1] at e2
    exact e2
  · rw [h2.memory addr (by rw [h1.n]; exact h), h1.memory addr h]

/-- A state whose memory changed only in one of PROCBLK's buffers. -/
theorem ProcFrame.of_block {s t : State} {d : Buf} (hd : procblkWrites d)
    (hf : t = { s with status := t.status, mem := t.mem, draws := t.draws, carryValid := t.carryValid,
                       carryPh := t.carryPh, carryTurns := t.carryTurns, seedValid := t.seedValid, seedU := t.seedU,
                       audCount := t.audCount, audFirst := t.audFirst, nextStart := t.nextStart })
    (hs : t.status = s.status) (hm : OnlyBlock s t d) : ProcFrame s t := by
  refine ⟨hf, fun i _ => by rw [hs], fun addr h => hm addr ?_⟩
  have := h d hd
  omega

theorem procFrame_effect {e : State → State} (h : ProcEffect e) (s : State) : ProcFrame s (e s) := by
  cases h with
  | block hd h =>
    obtain ⟨f, hf⟩ := h s
    rw [hf]
    exact .of_block hd rfl rfl (writeBuf_blockStored s _ f).2
  | unwrap d a st hd => exact .of_block hd rfl rfl (writeBuf_blockStored s d _).2
  | decim d a df hd => exact .of_block hd rfl rfl (writeBuf_blockStored s d _).2
  | noAudio => exact ⟨rfl, fun _ _ => rfl, fun _ _ => rfl⟩
  | nextStart => exact ⟨rfl, fun _ _ => rfl, fun _ _ => rfl⟩
  | contiguity =>
    have hst : ∀ (st : BitVec 7) (b : Bool) (i : Nat), i ≠ 5 →
        (setFlag 7 st bitCarryRestart b).getLsbD i = st.getLsbD i := by
      intro st b i hi
      rw [getLsbD_setFlag _ _ _ _ (by decide), if_neg (show i ≠ bitCarryRestart from hi)]
    unfold effContiguity
    split
    · exact ⟨rfl, hst s.status false, fun _ _ => rfl⟩
    · exact ⟨rfl, hst s.status true, fun _ _ => rfl⟩

theorem procFrame_seq (es : List (State → State)) (he : ∀ e ∈ es, ProcEffect e) (s : State) : ProcFrame s (effSeq es s) :=
  effSeq_keeps es (fun e h t ht => ht.trans (procFrame_effect (he e h) t)) (ProcFrame.refl s)

/-- PROCBLK's whole effect. -/
theorem procFrame_procblk (s : State) : ProcFrame s (effProcblk s) := by
  rw [effProcblk_eq]
  exact ((procFrame_effect .contiguity s).trans (procFrame_seq _ (procEffect_steps _ _) _)).trans
    (procFrame_effect .nextStart _)

end Sys2Proof.Laws
end

