-- ==== Sys2Proof/Laws/Invariant.lean ====
section
/-! SUPPORT. The invariant, kept by each of the operations and effects that a step is made of. -/

namespace Sys2Proof.Machine

open Sys2Proof.Laws

/-! ### Memory -/

/-- A byte that has a value keeps having one. -/
theorem writtenRange_store {m : List Host.Cell} {lo hi base : Nat} {bs : List Byte} (h : WrittenRange m lo hi) :
    WrittenRange (Memory.store m base bs) lo hi := by
  intro a h1 h2
  by_cases hin : base ≤ a ∧ a < base + bs.length
  · rw [byte?_store_inside _ _ _ _ hin.1 hin.2, List.getElem?_eq_getElem (by omega), Option.isSome_some]
  · rw [byte?_store_outside _ _ _ _ (by omega)]
    exact h a h1 h2

/-- Stored bytes have a value. -/
theorem writtenRange_stored (m : List Host.Cell) {lo hi base : Nat} {bs : List Byte} (h1 : base ≤ lo)
    (h2 : hi ≤ base + bs.length) : WrittenRange (Memory.store m base bs) lo hi := by
  intro a h3 h4
  rw [byte?_store_inside _ _ _ _ (by omega) (by omega), List.getElem?_eq_getElem (by omega), Option.isSome_some]

theorem Inv.stored {s : State} (h : Inv s) (base : Nat) (vs : List Word) (k : Nat)
    (hk : ∀ a, base ≤ a → a < base + 8 * vs.length → targetOf a = .ram ∨ targetOf a = .slot) :
    Inv { s with mem := Memory.store s.mem base (wordsBytes vs), draws := k } :=
  { memory := wf_store _ _ _ h.memory
    mapped := by
      intro c hc
      rcases mem_store hc with hc | hc
      · exact h.mapped c hc
      · exact hk c.1 hc.1 (by simpa using hc.2)
    bank := h.bank
    bankWhole := fun hb => writtenRange_store (h.bankWhole hb)
    geometry := h.geometry
    rate := h.rate
    standard := h.standard
    declared := h.declared
    ranges := h.ranges
    reserved := h.reserved
    errReserved := h.errReserved
    errCodes := h.errCodes
    errMeans := h.errMeans
    carries := h.carries
    counts := h.counts }

theorem Inv.writeBuf {s : State} (h : Inv s) (hg : s.geometryOk = true) (d : Buf) (f : Nat → CExact) :
    Inv (s.writeBuf d f) := by
  refine h.stored _ _ _ (fun a h1 h2 => .inl (targetOf_ram (.inl ?_)))
  have hr := bufAddr_range d s.n (geometry_bounds hg).2.1
  have he := bufAddr_eq d s.n
  rw [putRun_length] at h2
  omega

/-! ### STATUS and the model's own fields -/

/-- The invariant reads of STATUS only CONSTRUCTED, BANK_VALID and ERR. -/
theorem Inv.withStatus {s : State} (h : Inv s) (st : BitVec 7) (h1 : st.getLsbD 1 = s.status.getLsbD 1)
    (h2 : st.getLsbD 2 = s.status.getLsbD 2) (h3 : st.getLsbD 3 = true → s.status.getLsbD 3 = true) (is : List Input)
    (r : Reply) (n : Nat) (c : Word32) :
    Inv { s with status := st, inputs := is, reply := r, draws := n, cmd := c } :=
  have hc : ({ s with status := st, inputs := is, reply := r, draws := n, cmd := c } : State).constructed = s.constructed :=
    h1
  have hb : ({ s with status := st, inputs := is, reply := r, draws := n, cmd := c } : State).bankValid = s.bankValid := h2
  { memory := h.memory
    mapped := h.mapped
    bank := by rw [hc, hb]; exact h.bank
    bankWhole := by rw [hb]; exact h.bankWhole
    geometry := by rw [hc]; exact h.geometry
    rate := by rw [hc]; exact h.rate
    standard := by rw [hc]; exact h.standard
    declared := by rw [hc]; exact h.declared
    ranges := by rw [hc]; exact h.ranges
    reserved := h.reserved
    errReserved := h.errReserved
    errCodes := h.errCodes
    errMeans := fun he => h.errMeans (h3 he)
    carries := by rw [hc]; exact h.carries
    counts := h.counts }

theorem Inv.withModel {s : State} (h : Inv s) (is : List Input) (r : Reply) (n : Nat) (c : Word32) :
    Inv { s with inputs := is, reply := r, draws := n, cmd := c } :=
  h.withStatus s.status rfl rfl id is r n c

theorem Inv.finish {s : State} (h : Inv s) : Inv s.finish := by
  have hs : ∀ st : BitVec 7, (endStatus st).getLsbD 1 = st.getLsbD 1 ∧ (endStatus st).getLsbD 2 = st.getLsbD 2 ∧
      ((endStatus st).getLsbD 3 = true → st.getLsbD 3 = true) := by decide
  rw [finish_eq]
  exact h.withStatus (endStatus s.status) (hs s.status).1 (hs s.status).2.1 (hs s.status).2.2 s.inputs s.reply s.draws s.cmd

/-- The fields of ERRCODE's word. -/
theorem errWord_fields (opc : BitVec 8) (e : ErrKind) (info : Word32) :
    (errWord opc e info).extractLsb' 16 16 = 0#16 ∧ (errWord opc e info).extractLsb' 0 8 = errCode e := by
  constructor
  · apply BitVec.eq_of_getLsbD_eq
    intro i hi
    rw [BitVec.getLsbD_extractLsb']
    change (decide (i < 16) && BitVec.getLsbD (info ++ 0#16 ++ opc ++ errCode e : BitVec (32 + 16 + 8 + 8)) (16 + i)) = _
    simp only [BitVec.getLsbD_append, if_neg (show ¬ 16 + i < 8 by omega), if_neg (show ¬ 16 + i - 8 < 8 by omega),
      if_pos (show 16 + i - 8 - 8 < 16 by omega)]
    simp
  · apply BitVec.eq_of_getLsbD_eq
    intro i hi
    rw [BitVec.getLsbD_extractLsb']
    change (decide (i < 8) && BitVec.getLsbD (info ++ 0#16 ++ opc ++ errCode e : BitVec (32 + 16 + 8 + 8)) (0 + i)) = _
    rw [BitVec.getLsbD_append, if_pos (by omega)]
    simp [hi]

theorem Inv.raise {s : State} (h : Inv s) (opc : BitVec 8) (e : ErrKind) (info : Word32) : Inv (s.raise opc e info) :=
  have hc : (s.raise opc e info).constructed = s.constructed := by simp
  have hb : (s.raise opc e info).bankValid = s.bankValid := by simp
  { memory := h.memory
    mapped := h.mapped
    bank := by rw [hc, hb]; exact h.bank
    bankWhole := by rw [hb]; exact h.bankWhole
    geometry := by rw [hc]; exact h.geometry
    rate := by rw [hc]; exact h.rate
    standard := by rw [hc]; exact h.standard
    declared := by rw [hc]; exact h.declared
    ranges := by rw [hc]; exact h.ranges
    reserved := h.reserved
    errReserved := (errWord_fields opc e info).1
    errCodes := by rw [raise_errcode, (errWord_fields opc e info).2]; cases e <;> decide
    errMeans := fun _ => by rw [raise_errcode, (errWord_fields opc e info).2]; cases e <;> decide
    carries := by rw [hc]; exact h.carries
    counts := h.counts }

/-! ### The effects that walk buffers -/

/-- The states in which those effects run: the invariant, after a CONSTRUCT. -/
structure Constructed (s : State) : Prop where
  inv : Inv s
  con : s.constructed = true

theorem Constructed.geometry {s : State} (h : Constructed s) : s.geometryOk = true := h.inv.geometry h.con

theorem Constructed.writeBuf {s : State} (h : Constructed s) (d : Buf) (f : Nat → CExact) : Constructed (s.writeBuf d f) :=
  ⟨h.inv.writeBuf h.geometry d f, h.con⟩

theorem Constructed.block {s : State} (h : Constructed s) {d : Buf} {e : State → State} (he : BlockEffect d e) :
    Constructed (e s) := by
  obtain ⟨f, hf⟩ := he s
  rw [hf]
  exact h.writeBuf d f

theorem Constructed.unwrap {s : State} (h : Constructed s) (d a : Buf) (st : Stream) : Constructed (effUnwrap d a st s) :=
  have hcarry : ∀ (cv sv : BitVec 3) (st : Fin 3), sv &&& ~~~cv = 0#3 →
      setFlag 3 sv st.val (cv.getLsbD st.val) &&& ~~~(setFlag 3 cv st.val true) = 0#3 := by decide
  have hw := h.inv.writeBuf h.geometry d (s.inWindow (fun n => addTurns (s.zeroBlock a) (s.bufRe a n) (s.turnsAt a st n)))
  ⟨{ memory := hw.memory
     mapped := hw.mapped
     bank := hw.bank
     bankWhole := hw.bankWhole
     geometry := hw.geometry
     rate := hw.rate
     standard := hw.standard
     declared := hw.declared
     ranges := hw.ranges
     reserved := hw.reserved
     errReserved := hw.errReserved
     errCodes := hw.errCodes
     errMeans := hw.errMeans
     carries := ⟨fun _ => h.con, hcarry s.carryValid s.seedValid st h.inv.carries.2⟩
     counts := hw.counts }, h.con⟩

theorem decimIndex_length_le {s : State} (df : Nat) (hg : s.geometryOk = true) : (s.decimIndex df).length ≤ 65536 := by
  have := geometry_bounds hg
  unfold State.decimIndex
  refine le_trans (List.length_filter_le _ _) ?_
  simp only [List.length_range']
  omega

/-- The invariant reads of the audio counts only that they are in range, and of NEXT_START nothing. -/
theorem Constructed.withAudio {s : State} (h : Constructed s) (c : Word32) (f n : Word) (hc : c.toNat ≤ 65536) :
    Constructed { s with audCount := c, audFirst := f, nextStart := n } :=
  have hw := h.inv
  ⟨{ memory := hw.memory
     mapped := hw.mapped
     bank := hw.bank
     bankWhole := hw.bankWhole
     geometry := hw.geometry
     rate := hw.rate
     standard := hw.standard
     declared := hw.declared
     ranges := hw.ranges
     reserved := hw.reserved
     errReserved := hw.errReserved
     errCodes := hw.errCodes
     errMeans := hw.errMeans
     carries := hw.carries
     counts := ⟨hc, hw.counts.2⟩ }, h.con⟩

theorem Constructed.decim {s : State} (h : Constructed s) (d a : Buf) (df : Nat) : Constructed (effDecim d a df s) := by
  have hl := decimIndex_length_le df h.geometry
  refine (h.writeBuf d _).withAudio _ _ s.nextStart ?_
  rw [BitVec.toNat_ofNat]
  omega

theorem Constructed.noAudio {s : State} (h : Constructed s) : Constructed (effNoAudio s) :=
  h.withAudio 0#32 0#64 s.nextStart (by simp)

theorem Constructed.nextStart {s : State} (h : Constructed s) : Constructed (effNextStart s) :=
  h.withAudio s.audCount s.audFirst _ h.inv.counts.1

theorem Constructed.contiguity {s : State} (h : Constructed s) : Constructed (effContiguity s) := by
  have hs : ∀ (st : BitVec 7) (b : Bool), (setFlag 7 st bitCarryRestart b).getLsbD 1 = st.getLsbD 1 ∧
      (setFlag 7 st bitCarryRestart b).getLsbD 2 = st.getLsbD 2 ∧
      ((setFlag 7 st bitCarryRestart b).getLsbD 3 = true → st.getLsbD 3 = true) := by decide
  have key : ∀ b, Constructed (s.setStatus bitCarryRestart b) := fun b =>
    ⟨h.inv.withStatus _ (hs s.status b).1 (hs s.status b).2.1 (hs s.status b).2.2 s.inputs s.reply s.draws s.cmd,
      ((hs s.status b).1).trans h.con⟩
  unfold effContiguity
  split
  · exact key false
  · have hw := (key true).inv
    exact ⟨{ memory := hw.memory
             mapped := hw.mapped
             bank := hw.bank
             bankWhole := hw.bankWhole
             geometry := hw.geometry
             rate := hw.rate
             standard := hw.standard
             declared := hw.declared
             ranges := hw.ranges
             reserved := hw.reserved
             errReserved := hw.errReserved
             errCodes := hw.errCodes
             errMeans := hw.errMeans
             carries := ⟨fun hne => absurd rfl hne, by simp⟩
             counts := hw.counts }, (key true).con⟩

theorem Constructed.copy {s : State} (h : Constructed s) (d a : Buf) : Constructed (effCopy d a s) := by
  unfold effCopy
  split
  · exact h
  · exact h.writeBuf _ _

theorem Constructed.procEffect {e : State → State} (h : ProcEffect e) {s : State} (hs : Constructed s) :
    Constructed (e s) := by
  cases h with
  | block _ h => exact hs.block h
  | unwrap => exact hs.unwrap _ _ _
  | decim => exact hs.decim _ _ _
  | noAudio => exact hs.noAudio
  | contiguity => exact hs.contiguity
  | nextStart => exact hs.nextStart

theorem Constructed.procblk {s : State} (h : Constructed s) : Constructed (effProcblk s) := by
  rw [effProcblk_eq]
  exact (effSeq_keeps _ (fun e he _ hs => hs.procEffect (procEffect_steps _ _ e he)) h.contiguity).nextStart

/-! ### CONSTRUCT, SYNTH, FINAUD and RSTCARRY -/

theorem firstFailure_none {cs : List Check} (h : firstFailure cs = none) : ∀ c ∈ cs, c.1 = true := by
  intro c hc
  simp only [firstFailure, Option.map_eq_none_iff, List.find?_eq_none] at h
  simpa using h c hc

theorem newW1_word {s : State} (h : (s.blockcut.toNat : Int) < s.newW1) :
    (BitVec.ofInt 32 s.newW1).toNat = s.newW1.toNat := by
  simp only [State.newW1] at *
  rw [BitVec.toNat_ofInt]
  have := s.nreg.isLt
  omega

/-- The halves of a word put together. -/
theorem word_low (a b : Word32) : (a ++ b : BitVec (32 + 32)).extractLsb' 0 32 = b := by
  apply BitVec.eq_of_getLsbD_eq
  intro i hi
  rw [BitVec.getLsbD_extractLsb', @BitVec.getLsbD_append 32 32, if_pos (by omega)]
  simp [hi]

theorem word_high (a b : Word32) : (a ++ b : BitVec (32 + 32)).extractLsb' 32 32 = a := by
  apply BitVec.eq_of_getLsbD_eq
  intro i hi
  rw [BitVec.getLsbD_extractLsb', @BitVec.getLsbD_append 32 32, if_neg (by omega)]
  simp [hi]

theorem construct_w0 (s : State) : (effConstruct s).w0 = s.blockcut.toNat := congrArg BitVec.toNat (word_low _ _)

theorem construct_w1 (s : State) : (effConstruct s).w1 = (BitVec.ofInt 32 s.newW1).toNat :=
  congrArg BitVec.toNat (word_high _ _)

theorem Inv.construct {s : State} (h : Inv s) (hf : firstFailure s.constructChecks = none) : Inv (effConstruct s) := by
  have hst : ∀ st : BitVec 7, (setFlag 7 (setFlag 7 st bitConstructed true) bitBankValid false).getLsbD 2 = false ∧
      ((setFlag 7 (setFlag 7 st bitConstructed true) bitBankValid false).getLsbD 3 = true → st.getLsbD 3 = true) := by
    decide
  have hc := firstFailure_none hf
  unfold State.constructChecks at hc
  simp only [List.forall_mem_append, List.forall_mem_cons] at hc
  obtain ⟨⟨⟨⟨h1, h2, h3, h4, h5, h6, -⟩, h7⟩, h8⟩, h9⟩ := hc
  have hbv : (effConstruct s).bankValid = false := (hst s.status).1
  simp only [Bool.and_eq_true, decide_eq_true_eq] at h1 h3 h6
  have hw1 := newW1_word h6.1.2
  have hg : (effConstruct s).geometryOk = true := by
    rw [geometryOk_iff, construct_w0, construct_w1, hw1]
    exact ⟨h2, h6.1.1, by omega, by show _ ≤ s.nreg.toNat; omega⟩
  have hd : cfgDda s.cfg = true ∨ cfgAudioOn s.cfg = true → cfgHasAudio s.cfg = true := by
    intro hh
    cases hx : cfgHasAudio s.cfg with
    | true => rfl
    | false => rcases hh with hh | hh <;> simp_all
  simp only [List.forall_mem_map, List.mem_range] at h9
  exact
  { memory := h.memory
    mapped := h.mapped
    bank := by rw [hbv]; simp
    bankWhole := by rw [hbv]; simp
    geometry := fun _ => hg
    rate := fun _ => h3
    standard := fun _ => h1
    declared := fun _ => hd
    ranges := fun _ j hj => h9 j hj
    reserved := ⟨h.reserved.1, h.reserved.1⟩
    errReserved := h.errReserved
    errCodes := h.errCodes
    errMeans := fun he => h.errMeans ((hst s.status).2 he)
    carries := ⟨fun hne => absurd rfl hne, show (0#3 &&& ~~~0#3) = 0#3 by decide⟩
    counts := h.counts }

theorem slotWords_length (s : State) : s.slotWords.length = 1048576 := by
  unfold State.slotWords
  rw [List.length_flatMap]
  simp [Config.bufLen]

theorem Inv.synth {s : State} (h : Constructed s) : Inv (effSynth s) := by
  have hst : ∀ st : BitVec 7, (setFlag 7 st bitBankValid true).getLsbD 1 = st.getLsbD 1 ∧
      ((setFlag 7 st bitBankValid true).getLsbD 3 = true → st.getLsbD 3 = true) := by decide
  have hm := h.inv.stored (slotAddr 0 0) s.slotWords s.draws (fun a h1 h2 => .inr (by
    rw [slotWords_length] at h2
    simp only [slotAddr, bufBytes] at h1 h2
    exact targetOf_slot (by omega) (by omega)))
  have hc : (effSynth s).constructed = s.constructed := (hst s.status).1
  exact
  { memory := hm.memory
    mapped := hm.mapped
    bank := fun _ => by rw [hc]; exact h.con
    bankWhole := fun _ => writtenRange_stored _ (Nat.le_refl _) (by
      rw [wordsBytes_length, slotWords_length]
      simp [slotAddr, bufBytes])
    geometry := fun _ => h.geometry
    rate := fun _ => h.inv.rate h.con
    standard := fun _ => h.inv.standard h.con
    declared := fun _ => h.inv.declared h.con
    ranges := fun _ => h.inv.ranges h.con
    reserved := h.inv.reserved
    errReserved := h.inv.errReserved
    errCodes := h.inv.errCodes
    errMeans := fun he => h.inv.errMeans ((hst s.status).2 he)
    carries := ⟨fun _ => by rw [hc]; exact h.con, h.inv.carries.2⟩
    counts := h.inv.counts }

theorem frameWords_length (s : State) (xin xout : Nat) : (s.frameWords xin xout).length = 131072 := by
  simp [State.frameWords, Config.outFrame]

theorem Inv.finaud {s : State} (h : Inv s) (hM : s.frameLen ≤ Config.maxFrame) : Inv (effFinaud s) := by
  have h1 := h.stored afOutL (s.frameWords afInL afOutL) s.draws (fun a h1 h2 => .inl (targetOf_ram (by
    rw [frameWords_length] at h2
    unfold HostMemory
    unfold afOutL at h1 h2
    omega)))
  have h2 := h1.stored afOutR (s.frameWords afInR afOutR) (s.draws + 1) (fun a h1 h2 => .inl (targetOf_ram (by
    rw [frameWords_length] at h2
    unfold HostMemory
    unfold afOutR at h1 h2
    omega)))
  exact
  { memory := h2.memory
    mapped := h2.mapped
    bank := h2.bank
    bankWhole := h2.bankWhole
    geometry := h2.geometry
    rate := h2.rate
    standard := h2.standard
    declared := h2.declared
    ranges := h2.ranges
    reserved := h2.reserved
    errReserved := h2.errReserved
    errCodes := h2.errCodes
    errMeans := h2.errMeans
    carries := h2.carries
    counts := ⟨h2.counts.1, by
      show (BitVec.ofNat 32 s.frameOutLen).toNat ≤ 131072
      have : s.frameOutLen ≤ 131072 := by
        unfold State.frameOutLen Config.d2
        unfold Config.maxFrame at hM
        omega
      rw [BitVec.toNat_ofNat]
      omega⟩ }

theorem Inv.rstcarry {s : State} (h : Inv s) (m : BitVec 3) : Inv (effRstcarry m s) :=
  have hseed : ∀ (cv sv m : BitVec 3), sv &&& ~~~cv = 0#3 → (sv &&& ~~~m) &&& ~~~(cv &&& ~~~m) = 0#3 := by decide
  have hne : ∀ (cv m : BitVec 3), cv &&& ~~~m ≠ 0#3 → cv ≠ 0#3 := by decide
  { memory := h.memory
    mapped := h.mapped
    bank := h.bank
    bankWhole := h.bankWhole
    geometry := h.geometry
    rate := h.rate
    standard := h.standard
    declared := h.declared
    ranges := h.ranges
    reserved := h.reserved
    errReserved := h.errReserved
    errCodes := h.errCodes
    errMeans := h.errMeans
    carries := ⟨fun hc => h.carries.1 (hne _ _ hc), hseed _ _ _ h.carries.2⟩
    counts := h.counts }

/-! ### The host -/

theorem inv_ite {c : Prop} [Decidable c] {a b : State} (ha : Inv a) (hb : Inv b) : Inv (if c then a else b) := by
  split <;> assumption

/-- Of the registers the host writes, the invariant reads only the reserved bits of CFG. -/
theorem Inv.withHost {s : State} (h : Inv s) (irqen : BitVec 2) (cfg : Word32) (fsMhz : F64)
    (nreg blockcut blockcutEnd : Word32) (ovrMask : BitVec 17) (ovr : Vector Word 17) (blkStart : Word)
    (blkLen afLen : Word32) (mtfLevel : F64) (hc : cfg &&& ~~~cfgMask = 0#32) :
    Inv { s with irqen := irqen, cfg := cfg, fsMhz := fsMhz, nreg := nreg, blockcut := blockcut,
                 blockcutEnd := blockcutEnd, ovrMask := ovrMask, ovr := ovr, blkStart := blkStart, blkLen := blkLen,
                 afLen := afLen, mtfLevel := mtfLevel } :=
  { memory := h.memory
    mapped := h.mapped
    bank := h.bank
    bankWhole := h.bankWhole
    geometry := h.geometry
    rate := h.rate
    standard := h.standard
    declared := h.declared
    ranges := h.ranges
    reserved := ⟨hc, h.reserved.2⟩
    errReserved := h.errReserved
    errCodes := h.errCodes
    errMeans := h.errMeans
    carries := h.carries
    counts := h.counts }

/-- A word of memory lies in one region of the map. -/
theorem hostMemory_word {a b : Nat} (h : HostMemory a) (ha : a % 8 = 0) (h1 : a ≤ b) (h2 : b < a + 8) : HostMemory b := by
  unfold HostMemory at *
  omega

end Sys2Proof.Machine
end

