-- ==== Sys2Proof/Laws/Commands.lean ====
section
/-! SUPPORT. What the effect of each command leaves alone, field by field (10_state.md R47). -/

namespace Sys2Proof.Laws

open Sys2Proof.Machine

/-! ### The shapes of the effects -/

/-- The commands whose effect is more than writing one block. -/
inductive Special : Instr → Prop where
  | construct : Special .construct
  | synth : Special .synth
  | procblk : Special .procblk
  | finaud : Special .finaud
  | rstcarry (m : BitVec 3) : Special (.rstcarry m)
  | unwrap (d a : Buf) (st : BitVec 2) (k : Stream) (h : streamOf? st = some k) : Special (.unwrap d a st)
  | decim (d a : Buf) (df : BitVec 12) : Special (.decim d a df)

/-- The effect of every other command is to write its one buffer, or nothing. -/
theorem effectOf_cases (i : Instr) (s : State) :
    effectOf i s = s ∨ (∃ d f, writtenBufs i = [d] ∧ effectOf i s = s.writeBuf d f) ∨ Special i := by
  cases i with
  | nop => exact .inl rfl
  | construct => exact .inr (.inr .construct)
  | synth => exact .inr (.inr .synth)
  | procblk => exact .inr (.inr .procblk)
  | finaud => exact .inr (.inr .finaud)
  | rstcarry m => exact .inr (.inr (.rstcarry m))
  | unwrap d a st =>
    rcases effectOf_unwrap d a st with h | ⟨k, hk, h⟩
    · exact .inl (by rw [h]; rfl)
    · exact .inr (.inr (.unwrap d a st k hk))
  | fdemod d a st c =>
    rcases effectOf_fdemod d a st c with h | ⟨k, cr, h⟩
    · exact .inl (by rw [h]; rfl)
    · exact .inr (.inl ⟨d, _, rfl, by rw [h]; rfl⟩)
  | decim d a df => exact .inr (.inr (.decim d a df))
  | copy d a =>
    by_cases h : (d == a) = true
    · exact .inl (by simp only [effectOf, effCopy, h, if_true])
    · exact .inr (.inl ⟨d, _, rfl, by simp only [effectOf, effCopy, h]; rfl⟩)
  | real d a => exact .inr (.inl ⟨d, _, rfl, rfl⟩)
  | fft d a => exact .inr (.inl ⟨d, _, rfl, rfl⟩)
  | ifft d a => exact .inr (.inl ⟨d, _, rfl, rfl⟩)
  | cmul d a f => exact .inr (.inl ⟨d, _, rfl, rfl⟩)
  | env d a => exact .inr (.inl ⟨d, _, rfl, rfl⟩)
  | phase d a => exact .inr (.inl ⟨d, _, rfl, rfl⟩)
  | mtf d a => exact .inr (.inl ⟨d, _, rfl, rfl⟩)
  | clr d => exact .inr (.inl ⟨d, _, rfl, rfl⟩)

/-- UNWRAP's effect is a block and its stream's carry and seed. -/
theorem effectOf_unwrap_eq {st : BitVec 2} {k : Stream} (h : streamOf? st = some k) (d a : Buf) (s : State) :
    effectOf (.unwrap d a st) s = effUnwrap d a k s := by
  simp [effectOf, h]

/-- UNWRAP changes no more than its destination and the carries and seeds. -/
theorem effUnwrap_fields (d a : Buf) (k : Stream) (s : State) : ∃ f seedU seedValid carryPh carryTurns carryValid,
    effUnwrap d a k s = { s.writeBuf d f with seedU := seedU, seedValid := seedValid, carryPh := carryPh,
                                              carryTurns := carryTurns, carryValid := carryValid } :=
  ⟨_, _, _, _, _, _, rfl⟩

/-- DECIM changes no more than its destination and the counts. -/
theorem effDecim_fields (d a : Buf) (df : Nat) (s : State) : ∃ f audCount audFirst,
    effDecim d a df s = { s.writeBuf d f with audCount := audCount, audFirst := audFirst } :=
  ⟨_, _, _, rfl⟩

/-! ### Frames by field -/

/-- The registers that only the host writes, and the ROM. -/
structure HostFields (s t : State) : Prop where
  cfg : t.cfg = s.cfg
  fsMhz : t.fsMhz = s.fsMhz
  nreg : t.nreg = s.nreg
  blockcut : t.blockcut = s.blockcut
  blockcutEnd : t.blockcutEnd = s.blockcutEnd
  ovrMask : t.ovrMask = s.ovrMask
  ovr : t.ovr = s.ovr
  blkStart : t.blkStart = s.blkStart
  blkLen : t.blkLen = s.blkLen
  afLen : t.afLen = s.afLen
  mtfLevel : t.mtfLevel = s.mtfLevel
  irqen : t.irqen = s.irqen
  rom : t.rom = s.rom
  params : t.params = s.params

theorem HostFields.refl (s : State) : HostFields s s := ⟨rfl, rfl, rfl, rfl, rfl, rfl, rfl, rfl, rfl, rfl, rfl, rfl, rfl, rfl⟩

theorem hostFields_effectOf (i : Instr) (s : State) : HostFields s (effectOf i s) := by
  rcases effectOf_cases i s with h | ⟨d, f, -, h⟩ | h
  · rw [h]
    exact .refl s
  · rw [h, writeBuf_eq]
    constructor <;> rfl
  · cases h with
    | construct =>
      simp only [effectOf, effConstruct, State.setStatus]
      constructor <;> rfl
    | synth =>
      simp only [effectOf, effSynth, State.storeWords, State.setStatus]
      constructor <;> rfl
    | procblk =>
      rw [effectOf, (procFrame_procblk s).fields]
      constructor <;> rfl
    | finaud =>
      simp only [effectOf, effFinaud, State.storeWords]
      constructor <;> rfl
    | rstcarry m =>
      simp only [effectOf, effRstcarry]
      constructor <;> rfl
    | unwrap d a st k hk =>
      obtain ⟨f, _, _, _, _, _, h⟩ := effUnwrap_fields d a k s
      rw [effectOf_unwrap_eq hk, h, writeBuf_eq]
      constructor <;> rfl
    | decim d a df =>
      obtain ⟨f, _, _, h⟩ := effDecim_fields d a df.toNat s
      rw [effectOf, h, writeBuf_eq]
      constructor <;> rfl

/-- The parameters in effect and CONSTRUCTED. -/
structure ParameterFields (s t : State) : Prop where
  constructed : t.constructed = s.constructed
  win : t.win = s.win
  cn : t.cn = s.cn
  cfsMhz : t.cfsMhz = s.cfsMhz
  cflags : t.cflags = s.cflags
  sp : t.sp = s.sp
  dp : t.dp = s.dp
  deempAdj : t.deempAdj = s.deempAdj

/-- Only CONSTRUCT writes the parameters in effect and CONSTRUCTED. -/
theorem parameterFields_effectOf (i : Instr) (s : State) (hi : i ≠ .construct) : ParameterFields s (effectOf i s) := by
  rcases effectOf_cases i s with h | ⟨d, f, -, h⟩ | h
  · rw [h]
    constructor <;> rfl
  · rw [h, writeBuf_eq]
    constructor <;> rfl
  · cases h with
    | construct => exact absurd rfl hi
    | synth =>
      have hs : (effectOf .synth s).constructed = s.constructed := by
        rw [State.constructed, effectOf, effSynth, setStatus_status, getLsbD_setFlag _ _ _ _ (by decide)]
        rfl
      refine ⟨hs, ?_, ?_, ?_, ?_, ?_, ?_, ?_⟩ <;> simp only [effectOf, effSynth, State.storeWords, State.setStatus]
    | procblk =>
      have hf := procFrame_procblk s
      refine ⟨hf.status 1 (by decide), ?_, ?_, ?_, ?_, ?_, ?_, ?_⟩ <;> rw [effectOf, hf.fields]
    | finaud =>
      simp only [effectOf, effFinaud, State.storeWords]
      constructor <;> rfl
    | rstcarry m =>
      simp only [effectOf, effRstcarry]
      constructor <;> rfl
    | unwrap d a st k hk =>
      obtain ⟨f, _, _, _, _, _, h⟩ := effUnwrap_fields d a k s
      rw [effectOf_unwrap_eq hk, h, writeBuf_eq]
      constructor <;> rfl
    | decim d a df =>
      obtain ⟨f, _, _, h⟩ := effDecim_fields d a df.toNat s
      rw [effectOf, h, writeBuf_eq]
      constructor <;> rfl

/-- Only CONSTRUCT and SYNTH write BANK_VALID. -/
theorem effectOf_bankValid (i : Instr) (s : State) (hi : i ≠ .construct) (hi' : i ≠ .synth) :
    (effectOf i s).bankValid = s.bankValid := by
  rcases effectOf_cases i s with h | ⟨d, f, -, h⟩ | h
  · rw [h]
  · rw [h, writeBuf_eq]
    rfl
  · cases h with
    | construct => exact absurd rfl hi
    | synth => exact absurd rfl hi'
    | procblk => exact (procFrame_procblk s).status 2 (by decide)
    | finaud =>
      simp only [effectOf, effFinaud, State.storeWords]
      rfl
    | rstcarry m =>
      simp only [effectOf, effRstcarry]
      rfl
    | unwrap d a st k hk =>
      obtain ⟨f, _, _, _, _, _, h⟩ := effUnwrap_fields d a k s
      rw [effectOf_unwrap_eq hk, h, writeBuf_eq]
      rfl
    | decim d a df =>
      obtain ⟨f, _, _, h⟩ := effDecim_fields d a df.toNat s
      rw [effectOf, h, writeBuf_eq]
      rfl

/-- No effect writes ERRCODE or ERR: only `raise` does. -/
theorem effectOf_error (i : Instr) (s : State) : (effectOf i s).errcode = s.errcode ∧ (effectOf i s).err = s.err := by
  rcases effectOf_cases i s with h | ⟨d, f, -, h⟩ | h
  · rw [h]
    exact ⟨rfl, rfl⟩
  · rw [h, writeBuf_eq]
    exact ⟨rfl, rfl⟩
  · cases h with
    | construct =>
      constructor
      · simp only [effectOf, effConstruct, State.setStatus]
      · simp only [effectOf, effConstruct, State.err, setStatus_status]
        rw [getLsbD_setFlag _ _ _ _ (by decide), getLsbD_setFlag _ _ _ _ (by decide)]
        rfl
    | synth =>
      constructor
      · simp only [effectOf, effSynth, State.storeWords, State.setStatus]
      · rw [State.err, effectOf, effSynth, setStatus_status, getLsbD_setFlag _ _ _ _ (by decide)]
        rfl
    | procblk =>
      have hf := procFrame_procblk s
      exact ⟨by rw [effectOf, hf.fields], hf.status 3 (by decide)⟩
    | finaud =>
      simp [effectOf, effFinaud, State.storeWords, State.err]
    | rstcarry m =>
      simp [effectOf, effRstcarry, State.err]
    | unwrap d a st k hk =>
      obtain ⟨f, _, _, _, _, _, h⟩ := effUnwrap_fields d a k s
      rw [effectOf_unwrap_eq hk, h, writeBuf_eq]
      exact ⟨rfl, rfl⟩
    | decim d a df =>
      obtain ⟨f, _, _, h⟩ := effDecim_fields d a df.toNat s
      rw [effectOf, h, writeBuf_eq]
      exact ⟨rfl, rfl⟩

/-- The writers of the carries and seeds. -/
theorem effectOf_carries (i : Instr) (s : State) (hu : ∀ d a st, i ≠ .unwrap d a st) (hp : i ≠ .procblk) :
    ((effectOf i s).carryPh = s.carryPh ∧ (effectOf i s).carryTurns = s.carryTurns ∧ (effectOf i s).seedU = s.seedU) ∧
    (i ≠ .construct → (∀ m, i ≠ .rstcarry m) →
      (effectOf i s).carryValid = s.carryValid ∧ (effectOf i s).seedValid = s.seedValid) := by
  rcases effectOf_cases i s with h | ⟨d, f, -, h⟩ | h
  · rw [h]
    exact ⟨⟨rfl, rfl, rfl⟩, fun _ _ => ⟨rfl, rfl⟩⟩
  · rw [h, writeBuf_eq]
    exact ⟨⟨rfl, rfl, rfl⟩, fun _ _ => ⟨rfl, rfl⟩⟩
  · cases h with
    | construct =>
      simp [effectOf, effConstruct, State.setStatus]
    | synth =>
      simp [effectOf, effSynth, State.storeWords, State.setStatus]
    | procblk => exact absurd rfl hp
    | finaud =>
      simp [effectOf, effFinaud, State.storeWords]
    | rstcarry m =>
      simp [effectOf, effRstcarry]
    | unwrap d a st k hk => exact absurd rfl (hu d a st)
    | decim d a df =>
      obtain ⟨f, _, _, h⟩ := effDecim_fields d a df.toNat s
      rw [effectOf, h, writeBuf_eq]
      exact ⟨⟨rfl, rfl, rfl⟩, fun _ _ => ⟨rfl, rfl⟩⟩

/-- The writers of CARRY_RESTART, NEXT_START, AUD_COUNT, AUD_FIRST and AF_OUTLEN. -/
theorem effectOf_audio (i : Instr) (s : State) :
    (i ≠ .procblk → (effectOf i s).carryRestart = s.carryRestart ∧
      (i ≠ .construct → (effectOf i s).nextStart = s.nextStart)) ∧
    ((∀ d a df, i ≠ .decim d a df) → i ≠ .procblk →
      (effectOf i s).audCount = s.audCount ∧ (effectOf i s).audFirst = s.audFirst) ∧
    (i ≠ .finaud → (effectOf i s).afOutlen = s.afOutlen) := by
  rcases effectOf_cases i s with h | ⟨d, f, -, h⟩ | h
  · rw [h]
    exact ⟨fun _ => ⟨rfl, fun _ => rfl⟩, fun _ _ => ⟨rfl, rfl⟩, fun _ => rfl⟩
  · rw [h, writeBuf_eq]
    exact ⟨fun _ => ⟨rfl, fun _ => rfl⟩, fun _ _ => ⟨rfl, rfl⟩, fun _ => rfl⟩
  · cases h with
    | construct =>
      refine ⟨fun _ => ⟨?_, fun h => absurd rfl h⟩, ?_⟩
      · simp only [effectOf, effConstruct, State.carryRestart, setStatus_status]
        rw [getLsbD_setFlag _ _ _ _ (by decide), getLsbD_setFlag _ _ _ _ (by decide)]
        rfl
      · simp [effectOf, effConstruct, State.setStatus]
    | synth =>
      refine ⟨fun _ => ⟨?_, fun _ => ?_⟩, ?_⟩
      · rw [State.carryRestart, effectOf, effSynth, setStatus_status, getLsbD_setFlag _ _ _ _ (by decide)]
        rfl
      · simp only [effectOf, effSynth, State.storeWords, State.setStatus]
      · simp [effectOf, effSynth, State.storeWords, State.setStatus]
    | procblk =>
      refine ⟨fun h => absurd rfl h, fun _ h => absurd rfl h, fun _ => ?_⟩
      rw [effectOf, (procFrame_procblk s).fields]
    | finaud =>
      simp [effectOf, effFinaud, State.storeWords, State.carryRestart]
    | rstcarry m =>
      simp [effectOf, effRstcarry, State.carryRestart]
    | unwrap d a st k hk =>
      obtain ⟨f, _, _, _, _, _, h⟩ := effUnwrap_fields d a k s
      rw [effectOf_unwrap_eq hk, h, writeBuf_eq]
      exact ⟨fun _ => ⟨rfl, fun _ => rfl⟩, fun _ _ => ⟨rfl, rfl⟩, fun _ => rfl⟩
    | decim d a df =>
      refine ⟨?_, fun h => absurd rfl (h d a df), ?_⟩ <;> obtain ⟨f, _, _, h⟩ := effDecim_fields d a df.toNat s <;>
        rw [effectOf, h, writeBuf_eq]
      · exact fun _ => ⟨rfl, fun _ => rfl⟩
      · exact fun _ => rfl

/-- The writers of memory. -/
theorem effectOf_memory (i : Instr) (s : State) (addr : Nat)
    (h1 : i = .synth → addr < 0x02000000 ∨ 0x02800000 ≤ addr)
    (h2 : i = .finaud → ¬ (0x03800000 ≤ addr ∧ addr < 0x03900000) ∧ ¬ (0x03C00000 ≤ addr ∧ addr < 0x03D00000))
    (h3 : ∀ b ∈ writtenBufs i, ¬ (bufAddr b 0 ≤ addr ∧ addr < bufAddr b s.n)) :
    Memory.byte? (effectOf i s).mem addr = Memory.byte? s.mem addr := by
  have hblock : ∀ d f, (¬ (bufAddr d 0 ≤ addr ∧ addr < bufAddr d s.n)) →
      Memory.byte? (s.writeBuf d f).mem addr = Memory.byte? s.mem addr :=
    fun d f h => (writeBuf_blockStored s d f).2 addr (by omega)
  rcases effectOf_cases i s with h | ⟨d, f, hd, h⟩ | h
  · rw [h]
  · rw [h]
    exact hblock d f (h3 d (by simp [hd]))
  · cases h with
    | construct =>
      simp only [effectOf, effConstruct, State.setStatus]
    | synth =>
      have := h1 rfl
      simp only [effectOf, effSynth, State.storeWords, State.setStatus]
      refine byte?_store_outside _ _ _ _ ?_
      rw [wordsBytes_length, slotWords_length]
      simp only [slotAddr, bufBytes]
      omega
    | procblk =>
      refine (procFrame_procblk s).memory addr (fun b hb => h3 b ?_)
      revert hb
      revert b
      decide
    | finaud =>
      have := h2 rfl
      simp only [effectOf, effFinaud, State.storeWords]
      rw [byte?_store_outside, byte?_store_outside] <;> rw [wordsBytes_length, frameWords_length]
      · simp only [afOutL]
        omega
      · simp only [afOutR]
        omega
    | rstcarry m =>
      simp only [effectOf, effRstcarry]
    | unwrap d a st k hk =>
      obtain ⟨f, _, _, _, _, _, h⟩ := effUnwrap_fields d a k s
      rw [effectOf_unwrap_eq hk, h]
      exact hblock d f (h3 d (by simp [writtenBufs]))
    | decim d a df =>
      obtain ⟨f, _, _, h⟩ := effDecim_fields d a df.toNat s
      rw [effectOf, h]
      exact hblock d f (h3 d (by simp [writtenBufs]))

end Sys2Proof.Laws
end

