-- ==== Sys2Proof/Laws/Exact.lean ====
section
/-! SUPPORT. The numbers that exact results are: complex arithmetic, the transforms, exact zeros, and what a stored word is
worth. -/

namespace Sys2Proof.Laws

open Sys2Proof.Machine

/-! ### Binary64 numbers -/

theorem f64Real_of_zero {x : F64} (h : f64Zero x = true) : f64Real x = 0 := by
  have hz : x.extractLsb' 0 63 = 0#63 := by simpa [f64Zero] using h
  have bit : ∀ i, i < 63 → x.getLsbD i = false := fun i hi => by
    have := congrArg (fun y => y.getLsbD i) hz
    simpa [hi] using this
  have he : f64Exp x = 0 := by
    have : x.extractLsb' 52 11 = 0#11 := by
      apply BitVec.eq_of_getLsbD_eq
      intro i hi
      simp only [BitVec.getLsbD_extractLsb', bit (52 + i) (by omega)]
      simp
    simp [f64Exp, this]
  have hf : f64Frac x = 0 := by
    have : x.extractLsb' 0 52 = 0#52 := by
      apply BitVec.eq_of_getLsbD_eq
      intro i hi
      simp only [BitVec.getLsbD_extractLsb', bit (0 + i) (by omega)]
      simp
    simp [f64Frac, this]
  have hs : f64Scaled x = 0 := by simp [f64Scaled, f64Magnitude, he, hf]
  simp [f64Real, hs]

@[simp] theorem f64Real_zero : f64Real 0#64 = 0 := f64Real_of_zero (by decide)

theorem f64Finite_zero : f64Finite 0#64 = true := by decide

theorem f64Real_one : f64Real f64One = 1 := by
  have h1 : f64Finite f64One = true := by decide
  have h2 : f64Scaled f64One = 2 ^ 1074 := by decide +kernel
  simp [f64Real, h1, h2]

/-- A finite word's number as a rational and as a real. -/
theorem f64Real_eq_rat {x : F64} (h : f64Finite x = true) : f64Real x = (f64Rat x : ℝ) := by
  rw [f64Real, if_pos h, f64Rat, Rat.mkRat_eq_div, Rat.cast_div, Rat.cast_intCast, Rat.cast_natCast, Nat.cast_pow, Nat.cast_ofNat]

theorem f64Real_pos_iff {x : F64} (h : f64Finite x = true) : 0 < f64Real x ↔ 0 < f64Scaled x := by
  rw [f64Real, if_pos h]
  constructor
  · intro hp
    by_contra hn
    have : (f64Scaled x : ℝ) ≤ 0 := by exact_mod_cast not_lt.1 hn
    exact absurd hp (not_lt.2 (div_nonpos_of_nonpos_of_nonneg this (by positivity)))
  · intro hp
    have : (0 : ℝ) < (f64Scaled x : ℝ) := by exact_mod_cast hp
    positivity

theorem f64Real_nonneg_iff {x : F64} (h : f64Finite x = true) : 0 ≤ f64Real x ↔ 0 ≤ f64Scaled x := by
  rw [f64Real, if_pos h]
  constructor
  · intro hp
    by_contra hn
    have : (f64Scaled x : ℝ) < 0 := by exact_mod_cast not_le.1 hn
    exact absurd hp (not_le.2 (div_neg_of_neg_of_pos this (by positivity)))
  · intro hp
    have : (0 : ℝ) ≤ (f64Scaled x : ℝ) := by exact_mod_cast hp
    positivity

/-! ### Exact zeros and stored words -/

/-- The pattern of a finite number is one of a number. -/
theorem f64Finite_finiteWord (x : FiniteF64) : f64Finite (finiteWord x) = true := by
  have he : (finiteWord x).extractLsb' 52 11 = BitVec.ofNat 11 x.exponent.val := by
    apply BitVec.eq_of_getLsbD_eq
    intro i hi
    simp only [finiteWord, BitVec.getLsbD_extractLsb', BitVec.getLsbD_append, hi, decide_true, Bool.true_and]
    simp [show 52 + i - 52 = i by omega, hi]
  have := x.exponent.isLt
  simp only [f64Finite, f64Exp, he, BitVec.toNat_ofNat, bne_iff_ne]
  omega

/-- A zero of a sign is a zero. -/
theorem f64Zero_zeroWord (sign : BitVec 1) : f64Zero (zeroWord sign) = true := by
  have : (zeroWord sign).extractLsb' 0 63 = 0#63 := by
    apply BitVec.eq_of_getLsbD_eq
    intro i hi
    simp only [zeroWord, BitVec.getLsbD_extractLsb', BitVec.getLsbD_append, hi, decide_true, Bool.true_and]
    simp [hi]
  simp [f64Zero, this]

/-- +0.0 and -0.0 are the patterns of the number 0. -/
theorem f64Finite_of_zero {x : F64} (h : f64Zero x = true) : f64Finite x = true := by
  have hz : x.extractLsb' 0 63 = 0#63 := by simpa [f64Zero] using h
  have he : x.extractLsb' 52 11 = (x.extractLsb' 0 63).extractLsb' 52 11 := by
    apply BitVec.eq_of_getLsbD_eq
    intro i hi
    simp [hi]
  simp [f64Finite, f64Exp, he, hz]

/-- The patterns of the number 0 are +0.0 and -0.0. -/
theorem f64Zero_iff {x : F64} : f64Zero x = true ↔ f64Finite x = true ∧ f64Real x = 0 := by
  constructor
  · exact fun h => ⟨f64Finite_of_zero h, f64Real_of_zero h⟩
  · rintro ⟨hf, h⟩
    rw [f64Real, if_pos hf] at h
    have hs : f64Scaled x = 0 := by
      have : (2:ℝ)^1074 ≠ 0 := by positivity
      have := (div_eq_zero_iff.1 h).resolve_right this
      exact_mod_cast this
    have hm : f64Magnitude x = 0 := by
      unfold f64Scaled at hs; split at hs <;> omega
    have hfr : f64Frac x = 0 ∧ f64Exp x = 0 := by
      unfold f64Magnitude at hm
      split at hm
      · rename_i h; exact ⟨hm, by simpa using h⟩
      · have : 0 < 2 ^ (f64Exp x - 1) := by positivity
        rcases Nat.mul_eq_zero.1 hm with h | h <;> omega
    unfold f64Frac f64Exp at hfr
    have h1 : x.extractLsb' 0 52 = 0#52 := BitVec.eq_of_toNat_eq hfr.1
    have h2 : x.extractLsb' 52 11 = 0#11 := BitVec.eq_of_toNat_eq hfr.2
    have : x.extractLsb' 0 63 = 0#63 := by
      apply BitVec.eq_of_getLsbD_eq; intro i hi
      rcases Nat.lt_or_ge i 52 with hl | hl
      · have := congrArg (fun y => y.getLsbD i) h1
        simpa [hl, hi] using this
      · have := congrArg (fun y => y.getLsbD (i-52)) h2
        have h3 : i - 52 < 11 := by omega
        have h4 : 52 + (i - 52) = i := by omega
        simpa [hi, h3, h4] using this
    simp [f64Zero, this]

theorem denote_of_isZero {e : Exact} (h : isZero e = true) : denote e = 0 := by
  cases e with
  | val x => exact f64Real_of_zero h
  | zero => rfl
  | rat q => simp [isZero] at h; simp [denote, h]
  | _ => exact absurd h (by simp [isZero])

theorem isZero_rat_zero : isZero (.rat 0) = true := rfl

/-- A word that is a number, stored as it is. -/
theorem put_val {x : F64} (h : f64Finite x = true) (d : Draw) (site : Nat) : put d site (.val x) = x := by simp [put, h]

/-- A zero that a rule writes is stored as +0.0. -/
@[simp] theorem put_rat_zero (d : Draw) (site : Nat) : put d site (.rat 0) = 0#64 := by simp [put]

theorem put_rat {q : ℚ} (h : q ≠ 0) (d : Draw) (site : Nat) :
    put d site (.rat q) = finiteWord (Config.realise d site (.rat q)) := by
  simp [put, h]

/-- What a rule says is exactly 0 is stored as a zero. -/
theorem f64Zero_put_zero (d : Draw) (site : Nat) : f64Zero (put d site .zero) = true := f64Zero_zeroWord _

/-- What is stored for a result computed from numbers is a number. -/
theorem f64Finite_put {e : Exact} (hv : hasValue e = true) (d : Draw) (site : Nat) : f64Finite (put d site e) = true := by
  cases e with
  | val x => rw [put_val hv]; exact hv
  | zero => exact f64Finite_of_zero (f64Zero_put_zero d site)
  | rat q =>
    by_cases hq : q = 0
    · rw [hq, put_rat_zero]; exact f64Finite_zero
    · rw [put_rat hq]; exact f64Finite_finiteWord _
  | _ => simp only [put, hv, if_true]; exact f64Finite_finiteWord _

/-- What is stored for a result computed from numbers matches it. -/
theorem put_matches {tol : ℝ → ℝ} (ht : Tolerance tol) {e : Exact} (hv : hasValue e = true) (d : Draw) (site : Nat) :
    Matches tol (put d site e) (denote e) := by
  refine ⟨f64Finite_put hv d site, ?_⟩
  cases e with
  | val x => rw [put_val hv]; simpa [denote] using ht.1 (f64Real x)
  | zero => rw [f64Real_of_zero (f64Zero_put_zero d site)]; simpa [denote] using ht.1 0
  | rat q =>
    by_cases hq : q = 0
    · rw [hq, put_rat_zero]; simpa [denote] using ht.1 0
    · rw [put_rat hq]; exact ht.2 d site _ hv
  | _ => simp only [put, hv, if_true]; exact ht.2 d site _ hv

/-! ### Complex arithmetic -/

@[simp] theorem cDenote_zero : cDenote cZero = 0 := by
  simp [cDenote, cZero, cOfReal, denote]
  rfl

@[simp] theorem cDenote_vanished : cDenote cVanished = 0 := rfl

@[simp] theorem cDenote_one : cDenote cOne = 1 := by
  apply Complex.ext <;> simp [cDenote, cOne, cOfReal, denote]

theorem cDenote_ofReal (x : Exact) : cDenote (cOfReal x) = (denote x : ℂ) := by
  apply Complex.ext <;> simp [cDenote, cOfReal, denote]

theorem cDenote_ofImag (x : Exact) : cDenote (cOfImag x) = Complex.I * (denote x : ℂ) := by
  apply Complex.ext <;> simp [cDenote, cOfImag, denote]

theorem cDenote_add (z w : CExact) : cDenote (cAdd z w) = cDenote z + cDenote w := by
  apply Complex.ext <;> simp [cDenote, cAdd, denote]

theorem cDenote_sub (z w : CExact) : cDenote (cSub z w) = cDenote z - cDenote w := by
  apply Complex.ext <;> simp [cDenote, cSub, denote]

theorem cDenote_mul (z w : CExact) : cDenote (cMul z w) = cDenote z * cDenote w := by
  apply Complex.ext <;> simp [cDenote, cMul, denote]

theorem cDenote_scale (x : Exact) (z : CExact) : cDenote (cScale x z) = (denote x : ℂ) * cDenote z := by
  apply Complex.ext <;> simp [cDenote, cScale, denote]

theorem cDenote_div (z w : CExact) : cDenote (cDiv z w) = cDenote z / cDenote w := by
  apply Complex.ext
  · simp [cDenote, cDiv, normSq, denote, Complex.div_re, Complex.normSq_apply]
    ring
  · simp [cDenote, cDiv, normSq, denote, Complex.div_im, Complex.normSq_apply]
    ring

theorem cDenote_cis (x : Exact) : cDenote (cis x) = Complex.exp (Complex.I * (denote x : ℂ)) := by
  rw [mul_comm, Complex.exp_mul_I]
  apply Complex.ext <;> simp [cDenote, cis, denote, Complex.cos_ofReal_re, Complex.sin_ofReal_re]

theorem cDenote_of_cIsZero {z : CExact} (h : cIsZero z = true) : cDenote z = 0 := by
  simp only [cIsZero, Bool.and_eq_true] at h
  apply Complex.ext <;> simp [cDenote, denote_of_isZero h.1, denote_of_isZero h.2]

theorem cDenote_times (z w : CExact) : cDenote (cTimes z w) = cDenote z * cDenote w := by
  unfold cTimes
  split
  · rename_i h
    simp only [Bool.or_eq_true, Bool.and_eq_true] at h
    rcases h with h | h <;> simp [cDenote_of_cIsZero h.1]
  · exact cDenote_mul z w

theorem cDenote_weigh (q : ℚ) (z : CExact) : cDenote (cWeigh q z) = (q : ℂ) * cDenote z := by
  unfold cWeigh
  split
  · rename_i h
    rcases (Bool.or_eq_true _ _).mp h with h | h
    · simp [show q = 0 by simpa using h]
    · simp [cDenote_of_cIsZero h]
  · rw [cDenote_scale]
    simp [denote]

theorem denote_modulus (z : CExact) : denote (modulus z) = Real.sqrt (denote z.re * denote z.re + denote z.im * denote z.im) := by
  unfold modulus
  split
  · rename_i h
    simp only [cIsZero, Bool.and_eq_true] at h
    simp [denote, denote_of_isZero h.1, denote_of_isZero h.2]
  · rfl

theorem denote_angle (z : CExact) : denote (angle z) = Complex.arg (cDenote z) := by
  unfold angle
  split
  · rename_i h
    simp [cDenote_of_cIsZero h, denote]
  · rfl

theorem denote_ratPi (q : ℚ) : denote (ratPi q) = (q : ℝ) * Real.pi := rfl

theorem cDenote_sum (N : Nat) (f : Nat → CExact) : cDenote (cSum N f) = ∑ n ∈ Finset.range N, cDenote (f n) := by
  have : ∀ l : List Nat, cDenote (l.foldr (fun n acc => cAdd (f n) acc) cZero) = (l.map (fun n => cDenote (f n))).sum := by
    intro l
    induction l with
    | nil => simp
    | cons a l ih => simp [cDenote_add, ih]
  rw [cSum, this, ← List.sum_toFinset _ List.nodup_range, List.toFinset_range]

theorem cDenote_prod (N : Nat) (f : Nat → CExact) : cDenote (cProd N f) = ∏ n ∈ Finset.range N, cDenote (f n) := by
  have : ∀ l : List Nat, cDenote (l.foldr (fun n acc => cMul (f n) acc) cOne) = (l.map (fun n => cDenote (f n))).prod := by
    intro l
    induction l with
    | nil => simp
    | cons a l ih => simp [cDenote_mul, ih]
  rw [cProd, this, ← List.prod_toFinset _ List.nodup_range, List.toFinset_range]

/-! ### Transforms -/

/-- The exact result of `dft` is the discrete Fourier transform (00_scope.md R14). -/
theorem cDenote_dft (N : Nat) (x : Nat → CExact) (k : Nat) :
    cDenote (dft N x k) = dftReal N (fun n => cDenote (x n)) k := by
  unfold dft dftReal
  rw [cDenote_sum]
  refine Finset.sum_congr rfl (fun n _ => ?_)
  rw [cDenote_mul, cDenote_cis, denote_ratPi, Rat.mkRat_eq_div]
  congr 2
  push_cast
  ring

/-- The exact result of `idft` is the inverse transform (00_scope.md R14). -/
theorem cDenote_idft (N : Nat) (X : Nat → CExact) (n : Nat) :
    cDenote (idft N X n) = idftReal N (fun k => cDenote (X k)) n := by
  unfold idft idftReal
  rw [cDenote_scale, cDenote_sum]
  congr 1
  · simp [denote, Rat.mkRat_eq_div]
  · refine Finset.sum_congr rfl (fun k _ => ?_)
    rw [cDenote_mul, cDenote_cis, denote_ratPi, Rat.mkRat_eq_div]
    congr 2
    push_cast
    ring

/-! ### What a memory word is as an operand -/

theorem operand_of_holds {s : State} {addr : Nat} {x : ℝ} (h : HoldsReal s.mem addr x) :
    hasValue (s.operand addr) = true ∧ denote (s.operand addr) = x := by
  obtain ⟨w, hw, hf, hx⟩ := h
  simp [State.operand, hw, hasValue, denote, hf, hx]

theorem bufElem_of_holds {s : State} {b : Buf} {n : Nat} {z : ℂ} (h : HoldsComplex s.mem (bufAddr b n) z) :
    hasValue (s.bufRe b n) = true ∧ hasValue (s.bufIm b n) = true ∧ cDenote (s.bufElem b n) = z := by
  have h1 := operand_of_holds h.1
  have h2 := operand_of_holds h.2
  exact ⟨h1.1, h2.1, Complex.ext h1.2 h2.2⟩

/-- A word stored for a result matches it, where the result is computed from numbers. -/
theorem near_of_stored {tol : ℝ → ℝ} (ht : Tolerance tol) {d : Draw} {m : List Host.Cell} {addr : Nat} {e : Exact}
    (h : Stored d m addr e) (hv : hasValue e = true) : Near tol m addr (denote e) :=
  ⟨_, h, put_matches ht hv d addr⟩

theorem nearComplex_of_stored {tol : ℝ → ℝ} (ht : Tolerance tol) {d : Draw} {m : List Host.Cell} {addr : Nat}
    {z : CExact} (h : StoredComplex d m addr z) (h1 : hasValue z.re = true) (h2 : hasValue z.im = true) :
    NearComplex tol m addr (cDenote z) :=
  ⟨near_of_stored ht h.1 h1, near_of_stored ht h.2 h2⟩

/-! ### Which results are computed from numbers -/

theorem hasValue_cSum {N : Nat} {f : Nat → CExact}
    (h : ∀ n, n < N → hasValue (f n).re = true ∧ hasValue (f n).im = true) :
    hasValue (cSum N f).re = true ∧ hasValue (cSum N f).im = true := by
  have : ∀ l : List Nat, (∀ n ∈ l, n < N) →
      hasValue (l.foldr (fun n acc => cAdd (f n) acc) cZero).re = true ∧
      hasValue (l.foldr (fun n acc => cAdd (f n) acc) cZero).im = true := by
    intro l
    induction l with
    | nil => intro _; exact ⟨rfl, rfl⟩
    | cons a l ih =>
      intro hl
      have ha := h a (hl a (List.mem_cons_self))
      have hr := ih (fun n hn => hl n (List.mem_cons_of_mem _ hn))
      have two : ∀ {a b : Bool}, a = true → b = true → (a && b) = true := fun ha hb => by rw [ha, hb]; rfl
      exact ⟨two ha.1 hr.1, two ha.2 hr.2⟩
  exact this _ (fun n hn => List.mem_range.1 hn)

theorem hasValue_dft {N : Nat} {x : Nat → CExact} (k : Nat)
    (h : ∀ n, n < N → hasValue (x n).re = true ∧ hasValue (x n).im = true) :
    hasValue (dft N x k).re = true ∧ hasValue (dft N x k).im = true :=
  hasValue_cSum (fun n hn => by simp [cMul, cis, ratPi, hasValue, h n hn])

theorem hasValue_idft {N : Nat} {X : Nat → CExact} (n : Nat)
    (h : ∀ k, k < N → hasValue (X k).re = true ∧ hasValue (X k).im = true) :
    hasValue (idft N X n).re = true ∧ hasValue (idft N X n).im = true := by
  have := hasValue_cSum (N := N) (f := fun k => cMul (X k) (cis (ratPi (mkRat (2 * (k * n : Nat)) N))))
    (fun k hk => by simp [cMul, cis, ratPi, hasValue, h k hk])
  exact this

end Sys2Proof.Laws
end

