-- ==== Sys2Proof/Laws/Construct.lean ====
section
/-! SUPPORT. CONSTRUCT's checks, each as the condition over the real numbers that it decides, and the first failing one. -/

namespace Sys2Proof.Laws

open Sys2Proof.Machine

/-! ### Rational and real bounds -/

theorem ratCast_lt_iff (a b : ℚ) : (a : ℝ) < (b : ℝ) ↔ a < b := Rat.cast_lt

theorem hzReal_eq {x : F64} (h : f64Finite x = true) : hzReal x = (mhzRat x : ℝ) := by
  rw [hzReal, f64Real_eq_rat h, mhzRat]
  push_cast
  rfl

/-- `bandOk` over the real numbers. -/
theorem bandOk_iff (lo hi fs : ℚ) : bandOk lo hi fs = true ↔ InBand (fs : ℝ) (lo : ℝ) (hi : ℝ) := by
  simp only [bandOk, InBand, Bool.and_eq_true, decide_eq_true_eq]
  constructor
  · rintro ⟨h1, h2⟩
    exact ⟨by exact_mod_cast h1, by exact_mod_cast h2⟩
  · rintro ⟨h1, h2⟩
    exact ⟨by exact_mod_cast h1, by exact_mod_cast h2⟩

/-! ### The overrides' domains -/

theorem positive_iff (v : Word) : (f64Finite v && decide (0 < f64Scaled v)) = true ↔ f64Finite v = true ∧ 0 < f64Real v := by
  rw [Bool.and_eq_true, decide_eq_true_eq]
  exact and_congr_right (fun h => (f64Real_pos_iff h).symm)

theorem nonnegative_iff (v : Word) :
    (f64Finite v && decide (0 ≤ f64Scaled v)) = true ↔ f64Finite v = true ∧ 0 ≤ f64Real v := by
  rw [Bool.and_eq_true, decide_eq_true_eq]
  exact and_congr_right (fun h => (f64Real_nonneg_iff h).symm)

theorem orderIn_iff (lo : Int) (v : Word) : orderIn lo v = true ↔ lo ≤ i64 v ∧ i64 v ≤ 16 := by
  unfold orderIn
  rw [Bool.and_eq_true, decide_eq_true_eq, decide_eq_true_eq]
  exact Iff.rfl

theorem domainOk_iff (i : Fin 17) (v : Word) : domainOk i v = true ↔ InDomain i v := by
  fin_cases i <;> simp only [domainOk, InDomain, positive_iff, nonnegative_iff, orderIn_iff]

/-! ### The final range check -/

theorem isPal_eq (cfg : Word32) : isPal cfg = false ↔ cfgStdsel cfg = 0#8 := by
  simp [isPal]

theorem audioOn_iff (cfg : Word32) : cfgAudioOn cfg = true ↔ cfgAaLevel cfg ≠ 0#16 := by
  simp [cfgAudioOn]

/-- The band around a carrier. -/
theorem carrier_bandOk_iff (c h : ℚ) (fs : ℚ) (cr hr : ℝ) (hc : cr = (c : ℝ)) (hh : hr = (h : ℝ)) :
    bandOk (c - h / 2) (c + h / 2) fs = true ↔ InBand (fs : ℝ) (cr - hr / 2) (cr + hr / 2) := by
  rw [bandOk_iff, hc, hh]
  push_cast
  rfl

theorem rangeRow0_iff (p : Params) (r : Rom) (cfg : Word32) (fs : ℚ) (sp : Vector Word 20) (dp : Vector Word 16) :
    rangeRowOk p r cfg fs sp dp 0 = true ↔ RangeRow p r cfg (fs : ℝ) sp dp 0 := by
  simp only [rangeRowOk, RangeRow, Bool.and_eq_true, decide_eq_true_eq, and_assoc]
  refine and_congr_right (fun h4 => and_congr_right (fun h5 => ?_))
  rw [f64Real_eq_rat h4, f64Real_eq_rat h5, Rat.cast_lt, bandOk_iff]

theorem rangeRow1_iff (p : Params) (r : Rom) (cfg : Word32) (fs : ℚ) (sp : Vector Word 20) (dp : Vector Word 16) :
    rangeRowOk p r cfg fs sp dp 1 = true ↔ RangeRow p r cfg (fs : ℝ) sp dp 1 := by
  simp only [rangeRowOk, RangeRow, Bool.and_eq_true]
  refine and_congr_right (fun h => ?_)
  rw [f64Real_eq_rat h, bandOk_iff]

theorem rangeRow2_iff (p : Params) (r : Rom) (cfg : Word32) (fs : ℚ) (sp : Vector Word 20) (dp : Vector Word 16) :
    rangeRowOk p r cfg fs sp dp 2 = true ↔ RangeRow p r cfg (fs : ℝ) sp dp 2 := by
  simp only [rangeRowOk, RangeRow, Bool.and_eq_true]
  refine and_congr_right (fun h => ?_)
  rw [f64Real_eq_rat h, bandOk_iff]

theorem rangeRow3_iff (p : Params) (r : Rom) (cfg : Word32) (fs : ℚ) (sp : Vector Word 20) (dp : Vector Word 16) :
    rangeRowOk p r cfg fs sp dp 3 = true ↔ RangeRow p r cfg (fs : ℝ) sp dp 3 := by
  have hc : (fsyncCentre cfg sp).1 = if cfgStdsel cfg = 0#8 then sp[1] else sp[2] := by
    by_cases h : cfgStdsel cfg = 0#8 <;> simp [fsyncCentre, isPal, h]
  simp only [rangeRowOk, RangeRow, Bool.and_eq_true, and_assoc, hc]
  refine and_congr_right (fun h1 => and_congr_right (fun h2 => ?_))
  refine carrier_bandOk_iff _ _ _ _ _ ?_ (f64Real_eq_rat h2)
  by_cases h : cfgStdsel cfg = 0#8
  · rw [if_pos h] at h1 ⊢
    simp only [fsyncHzReal, h, if_true, hzReal_eq h1, fsyncCentre, isPal, bne_self_eq_false]
    rw [Rat.mkRat_eq_div]
    push_cast
    ring
  · rw [if_neg h] at h1 ⊢
    have hp : (cfgStdsel cfg != 0#8) = true := by simpa using h
    simp only [fsyncHzReal, if_neg h, hzReal_eq h1, fsyncCentre, isPal, hp, if_true]
    push_cast
    ring

theorem rangeRow4_iff (p : Params) (r : Rom) (cfg : Word32) (fs : ℚ) (sp : Vector Word 20) (dp : Vector Word 16) :
    rangeRowOk p r cfg fs sp dp 4 = true ↔ RangeRow p r cfg (fs : ℝ) sp dp 4 := by
  simp only [rangeRowOk, RangeRow, Bool.or_eq_true, Bool.not_eq_true']
  by_cases ha : cfgAaLevel cfg = 0#16
  · simp [cfgAudioOn, ha]
  · have hon : cfgAudioOn cfg = true := (audioOn_iff cfg).2 ha
    simp only [hon, Bool.true_eq_false, false_or, ha, not_false_eq_true, ne_eq, forall_const, Bool.and_eq_true, and_assoc]
    refine and_congr_right (fun h8 => and_congr_right (fun h9 => and_congr_right (fun h14 => ?_)))
    exact and_congr (carrier_bandOk_iff _ _ _ _ _ (hzReal_eq h8) (f64Real_eq_rat h14))
      (carrier_bandOk_iff _ _ _ _ _ (hzReal_eq h9) (f64Real_eq_rat h14))

theorem rangeRow5_iff (p : Params) (r : Rom) (cfg : Word32) (fs : ℚ) (sp : Vector Word 20) (dp : Vector Word 16) :
    rangeRowOk p r cfg fs sp dp 5 = true ↔ RangeRow p r cfg (fs : ℝ) sp dp 5 := by
  simp only [rangeRowOk, RangeRow, Bool.or_eq_true, Bool.not_eq_true', Bool.and_eq_false_iff]
  by_cases ha : cfgAaLevel cfg = 0#16
  · simp [cfgAudioOn, ha]
  · have hon : cfgAudioOn cfg = true := (audioOn_iff cfg).2 ha
    cases hn : notchOn dp with
    | false => simp
    | true =>
      simp only [hon, Bool.true_eq_false, false_or, ha, not_false_eq_true, ne_eq, forall_const, Bool.and_eq_true, and_assoc]
      refine and_congr_right (fun h1 => and_congr_right (fun h0 => ?_))
      exact carrier_bandOk_iff _ _ _ _ _ (hzReal_eq h1) (f64Real_eq_rat h0)

theorem rangeRow7_iff (p : Params) (r : Rom) (cfg : Word32) (fs : ℚ) (sp : Vector Word 20) (dp : Vector Word 16) :
    rangeRowOk p r cfg fs sp dp 7 = true ↔ RangeRow p r cfg (fs : ℝ) sp dp 7 := by
  simp only [rangeRowOk, RangeRow]
  cases hq : r.efmPoints.getLast? with
  | none => simp
  | some q =>
    simp only [Bool.and_eq_true, decide_eq_true_eq, Option.some.injEq, exists_eq_left']
    refine and_congr_right (fun h => ?_)
    rw [f64Real_eq_rat h]
    constructor
    · intro h
      exact_mod_cast h
    · intro h
      exact_mod_cast h

/-- Every row of the final range check is the condition of R119. -/
theorem rangeRowOk_iff (p : Params) (r : Rom) (cfg : Word32) (fs : ℚ) (sp : Vector Word 20) (dp : Vector Word 16) (j : Nat) :
    rangeRowOk p r cfg fs sp dp j = true ↔ RangeRow p r cfg (fs : ℝ) sp dp j := by
  match j with
  | 0 => exact rangeRow0_iff p r cfg fs sp dp
  | 1 => exact rangeRow1_iff p r cfg fs sp dp
  | 2 => exact rangeRow2_iff p r cfg fs sp dp
  | 3 => exact rangeRow3_iff p r cfg fs sp dp
  | 4 => exact rangeRow4_iff p r cfg fs sp dp
  | 5 => exact rangeRow5_iff p r cfg fs sp dp
  | 6 => simp [rangeRowOk, RangeRow]
  | 7 => exact rangeRow7_iff p r cfg fs sp dp
  | n + 8 => simp [rangeRowOk, RangeRow]

/-! ### The list of checks -/

theorem firstFailure_nil : firstFailure [] = none := rfl

theorem firstFailure_pass {c : Check} (h : c.1 = true) (cs : List Check) : firstFailure (c :: cs) = firstFailure cs := by
  simp [firstFailure, h]

theorem firstFailure_fail {c : Check} (h : c.1 = false) (cs : List Check) : firstFailure (c :: cs) = some c.2 := by
  simp [firstFailure, h]

theorem firstFailure_append_pass {cs : List Check} (h : ∀ c ∈ cs, c.1 = true) (ds : List Check) :
    firstFailure (cs ++ ds) = firstFailure ds := by
  induction cs with
  | nil => rfl
  | cons c cs ih =>
    rw [List.cons_append, firstFailure_pass (h c List.mem_cons_self), ih (fun c hc => h c (List.mem_cons_of_mem _ hc))]

/-- The first failing check of a list of checks by number. -/
theorem firstFailure_range {n j : Nat} (f : Nat → Check) (hj : j < n) (hf : (f j).1 = false)
    (hp : ∀ i, i < j → (f i).1 = true) (ds : List Check) :
    firstFailure ((List.range n).map f ++ ds) = some (f j).2 := by
  have hsplit : List.range n = List.range j ++ (j :: List.range' (j + 1) (n - j - 1)) := by
    rw [List.range_eq_range', List.range_eq_range', ← List.range'_succ]
    rw [show List.range' j (n - j - 1 + 1) = List.range' (0 + j) (n - j - 1 + 1) by rw [Nat.zero_add], List.range'_append_1]
    congr 1
    omega
  rw [hsplit, List.map_append, List.append_assoc, firstFailure_append_pass (by simpa using hp), List.map_cons,
    List.cons_append, firstFailure_fail hf]

theorem firstFailure_eq_none {cs : List Check} : firstFailure cs = none ↔ ∀ c ∈ cs, c.1 = true := by
  simp [firstFailure, List.find?_eq_none]

/-- The order of CONSTRUCT's checks. -/
def basicChecks (s : State) : List Check :=
  [(decide ((cfgStdsel s.cfg).toNat ≤ 1), .invalidStandard, (cfgStdsel s.cfg).setWidth 32),
   (legalBlockLength s.nreg.toNat, .invalidParameter, 0x100),
   (f64Finite s.fsMhz && decide (0 < f64Scaled s.fsMhz), .invalidParameter, 0x101),
   (!(cfgDda s.cfg && !cfgHasAudio s.cfg), .inconsistentConfiguration, 1),
   (!(cfgAudioOn s.cfg && !cfgHasAudio s.cfg), .inconsistentConfiguration, 2),
   (decide (1 ≤ s.blockcut.toNat) && decide ((s.blockcut.toNat : Int) < s.newW1) && decide (s.newW1 ≤ s.nreg.toNat),
     .invalidParameter, 0x102)]

def overrideCheck (s : State) (i : Nat) : Check :=
  (!s.overridden i || domainOk i (s.ovrWord i), .invalidParameter, BitVec.ofNat 32 i)

def rangeCheck (s : State) (j : Nat) : Check :=
  (rangeRowOk s.params s.rom s.cfg (mhzRat s.fsMhz) s.newSp s.dpWords j, .invalidParameter, BitVec.ofNat 32 (0x20 + j))

theorem constructChecks_eq (s : State) : s.constructChecks = basicChecks s ++ ((List.range 17).map (overrideCheck s)
    ++ (List.range 8).map (rangeCheck s)) := by
  have h17 : (List.range 17).map (overrideCheck s) = (List.range 16).map (overrideCheck s) ++ [overrideCheck s 16] := by
    rw [List.range_succ, List.map_append]
    rfl
  rw [h17, State.constructChecks, List.append_assoc, List.append_assoc, List.append_assoc]
  rfl

theorem windowCheck_iff (s : State) : (decide (1 ≤ s.blockcut.toNat) && decide ((s.blockcut.toNat : Int) < s.newW1) &&
    decide (s.newW1 ≤ s.nreg.toNat)) = true ↔ WindowOk s := by
  simp only [Bool.and_eq_true, decide_eq_true_eq]
  simp only [State.newW1, WindowOk]
  constructor
  · rintro ⟨⟨h1, h2⟩, h3⟩
    exact ⟨h1, h2⟩
  · rintro ⟨h1, h2⟩
    exact ⟨⟨h1, h2⟩, by omega⟩

theorem basicChecks_iff (s : State) : (∀ c ∈ basicChecks s, c.1 = true) ↔ BasicsPass s := by
  simp only [basicChecks, List.forall_mem_cons, List.not_mem_nil, false_imp_iff, implies_true, and_true, windowCheck_iff,
    legalBlockLength_iff, positive_iff, decide_eq_true_eq]
  constructor
  · rintro ⟨h1, h2, h3, h4, h5, h6⟩
    refine ⟨h1, h2, h3, fun h => ?_, fun h => ?_, h6⟩
    · simpa [h] using h4
    · simpa [(audioOn_iff s.cfg).2 h] using h5
  · intro h
    refine ⟨h.standard, h.blockLength, h.rate, ?_, ?_, h.window⟩
    · cases hd : cfgDda s.cfg with
      | false => simp
      | true => simp [h.digital hd]
    · cases ha : cfgAudioOn s.cfg with
      | false => simp
      | true => simp [h.analog ((audioOn_iff s.cfg).1 ha)]

theorem ovrWord_eq (s : State) (i : Fin 17) : s.ovrWord i = s.ovr[i] := by
  simp [State.ovrWord]

theorem overrideCheck_iff (s : State) (i : Fin 17) : (overrideCheck s i).1 = true ↔ OverrideOk s i := by
  simp only [overrideCheck, OverrideOk, State.overridden, Bool.or_eq_true, Bool.not_eq_true', domainOk_iff, ovrWord_eq]
  cases s.ovrMask.getLsbD i <;> simp

theorem rangeCheck_iff {s : State} (hr : RateOk s.fsMhz) (j : Nat) : (rangeCheck s j).1 = true ↔ RangeOk s j := by
  rw [rangeCheck, rangeRowOk_iff, RangeOk, hzReal_eq hr.1]

/-- CONSTRUCT's checks pass exactly under the conditions of R101. -/
theorem constructChecks_pass_iff (s : State) : firstFailure s.constructChecks = none ↔ ConstructPasses s := by
  rw [firstFailure_eq_none, constructChecks_eq]
  simp only [List.forall_mem_append, List.forall_mem_map, List.mem_range, basicChecks_iff]
  constructor
  · rintro ⟨h1, h2, h3⟩
    exact ⟨h1, fun i => (overrideCheck_iff s i).1 (h2 i i.isLt), fun j hj => (rangeCheck_iff h1.rate j).1 (h3 j hj)⟩
  · rintro ⟨h1, h2, h3⟩
    exact ⟨h1, fun i hi => (overrideCheck_iff s ⟨i, hi⟩).2 (h2 ⟨i, hi⟩),
      fun j hj => (rangeCheck_iff h1.rate j).2 (h3 j hj)⟩

end Sys2Proof.Laws
end

