-- ==== Sys2Proof/Laws/Encoding.lean ====
section
/-! SUPPORT. The fields of a command word: what each reads of a word that was put together, and that the fields make the
word again. -/

namespace Sys2Proof.Laws

/-- Bits of a field of a word put together. -/
theorem getLsbD_commandWord (opc : BitVec 8) (d a : Buf) (f : BitVec 4) (imm : BitVec 12) (i : Nat) :
    (commandWord opc d a f imm).getLsbD i =
      if i < 12 then imm.getLsbD i else if i < 16 then f.getLsbD (i - 12) else if i < 20 then a.getLsbD (i - 16)
      else if i < 24 then d.getLsbD (i - 20) else opc.getLsbD (i - 24) := by
  simp only [commandWord, BitVec.getLsbD_append]
  repeat' split
  all_goals first
    | omega
    | rfl

@[simp] theorem fieldOpc_commandWord (opc : BitVec 8) (d a : Buf) (f : BitVec 4) (imm : BitVec 12) :
    fieldOpc (commandWord opc d a f imm) = opc := by
  apply BitVec.eq_of_getLsbD_eq
  intro i hi
  simp [fieldOpc, getLsbD_commandWord, hi, show ¬ 24 + i < 12 by omega, show ¬ 24 + i < 16 by omega,
    show ¬ 24 + i < 20 by omega]

@[simp] theorem fieldD_commandWord (opc : BitVec 8) (d a : Buf) (f : BitVec 4) (imm : BitVec 12) :
    fieldD (commandWord opc d a f imm) = d := by
  apply BitVec.eq_of_getLsbD_eq
  intro i hi
  simp [fieldD, getLsbD_commandWord, hi, show 20 + i < 24 by omega, show ¬ 20 + i < 12 by omega,
    show ¬ 20 + i < 16 by omega]

@[simp] theorem fieldA_commandWord (opc : BitVec 8) (d a : Buf) (f : BitVec 4) (imm : BitVec 12) :
    fieldA (commandWord opc d a f imm) = a := by
  apply BitVec.eq_of_getLsbD_eq
  intro i hi
  simp [fieldA, getLsbD_commandWord, hi, show 16 + i < 20 by omega, show ¬ 16 + i < 12 by omega]

@[simp] theorem fieldF_commandWord (opc : BitVec 8) (d a : Buf) (f : BitVec 4) (imm : BitVec 12) :
    fieldF (commandWord opc d a f imm) = f := by
  apply BitVec.eq_of_getLsbD_eq
  intro i hi
  simp [fieldF, getLsbD_commandWord, hi, show 12 + i < 16 by omega]

@[simp] theorem fieldImm_commandWord (opc : BitVec 8) (d a : Buf) (f : BitVec 4) (imm : BitVec 12) :
    fieldImm (commandWord opc d a f imm) = imm := by
  apply BitVec.eq_of_getLsbD_eq
  intro i hi
  simp [fieldImm, getLsbD_commandWord, hi]

/-- A word is its five fields. -/
theorem commandWord_fields (w : Word32) : commandWord (fieldOpc w) (fieldD w) (fieldA w) (fieldF w) (fieldImm w) = w := by
  apply BitVec.eq_of_getLsbD_eq
  intro i hi
  rw [getLsbD_commandWord]
  simp only [fieldOpc, fieldD, fieldA, fieldF, fieldImm, BitVec.getLsbD_extractLsb']
  repeat' split
  all_goals
    rw [decide_eq_true (by omega), Bool.true_and]
    congr 1
    omega

/-- The low `k` bits of a field, put back below zeros. -/
@[simp] theorem extract_low_append {n k : Nat} (x : BitVec k) : ((0#n) ++ x).extractLsb' 0 k = x := by
  apply BitVec.eq_of_getLsbD_eq
  intro i hi
  simp [BitVec.getLsbD_append, hi]

end Sys2Proof.Laws
end

