-- ==== Sys2Proof/Laws/Filters.lean ====
section
/-! SUPPORT. The building blocks of the filter slots: the numbers they are, and that they are computed from numbers in every
state whose parameters pass the final range check. -/

namespace Sys2Proof.Laws

open Sys2Proof.Machine

/-! ### The numbers -/

theorem denote_tanBin (N k : ℕ) : denote (tanBin N k) = tanReal N k := by
  unfold tanBin tanReal
  simp only [denote]
  rw [denote_ratPi, Rat.mkRat_eq_div]
  congr 1
  push_cast
  ring

theorem denote_warp (fs f : Exact) : denote (warp fs f) = warpReal (denote fs) (denote f) := rfl

theorem cDenote_butterProto {n : ℕ} (hn : n ≠ 0) (z : CExact) :
    cDenote (butterProto n z) = prototype n (cDenote z) := by
  unfold butterProto prototype
  rw [if_neg hn, cDenote_div, cDenote_one, cDenote_prod]
  congr 1
  refine Finset.prod_congr rfl (fun m _ => ?_)
  rw [cDenote_sub, butterPole, cDenote_cis, denote_ratPi, Rat.mkRat_eq_div]
  congr 3
  push_cast
  ring

/-- s_k^2 + W1*W2 is a real number. -/
theorem denote_bandNum (N : ℕ) (fs f1 f2 : Exact) (k : ℕ) : ((denote (bandNum N fs f1 f2 k) : ℝ) : ℂ)
    = (Complex.I * tanReal N k) ^ 2 + warpReal (denote fs) (denote f1) * warpReal (denote fs) (denote f2) := by
  rw [bandNum]
  simp only [denote, denote_tanBin, denote_warp]
  push_cast
  rw [mul_pow, Complex.I_sq]
  ring

theorem hilb_eq (N k : ℕ) : ((hilb N k : ℚ) : ℝ) = (hilbert N k : ℝ) := by
  unfold hilb hilbert
  by_cases h : k = 0 ∨ 2 * k = N
  · simp [h]
  · simp only [not_or] at h
    simp [h]
    split <;> norm_num

theorem fsRat_eq {s : State} (h : f64Finite s.cfsMhz = true) : (s.fsRat : ℝ) = s.fsReal := by
  simp [State.fsRat, mhzRat, State.fsReal, hzReal, f64Real_eq_rat h]

theorem fsig_eq (N : ℕ) (fs : ℚ) (k : ℕ) : fsigReal N fs k = ((fsig N fs k : ℚ) : ℝ) := by
  unfold fsigReal fsig
  split <;> push_cast <;> rfl

theorem brick_eq (N : ℕ) (fs fc : ℚ) (k : ℕ) : ((brick N fs fc k : ℚ) : ℝ) = brickReal N fs fc k := by
  unfold brick brickReal
  rw [fsig_eq]
  by_cases h : |fsig N fs k| ≤ fc
  · rw [if_pos h, if_pos (by exact_mod_cast h)]
    simp
  · rw [if_neg h, if_neg (by exact_mod_cast h)]
    simp

theorem denote_fs (s : State) : denote s.fs = s.fsReal := by
  simp [State.fs, hertz, denote, State.fsReal, hzReal]

theorem denote_fsyncHz (s : State) : denote s.fsyncHz = fsyncHzReal s.cflags s.sp := by
  unfold State.fsyncHz fsyncHzReal fsyncCentre isPal
  by_cases e : cfgStdsel s.cflags = 0#8
  · simp [e, denote, hertz, hzReal, Rat.mkRat_eq_div]
    ring
  · simp [e, denote, hertz, hzReal]

/-! ### Results computed from numbers -/

/-- Both parts are computed from numbers. -/
def HasNumbers (z : CExact) : Prop := hasValue z.re = true ∧ hasValue z.im = true

theorem hasNumbers_mul {z w : CExact} (h : HasNumbers z) (h' : HasNumbers w) : HasNumbers (cMul z w) := by
  simp [HasNumbers, cMul, hasValue, h.1, h.2, h'.1, h'.2]

theorem hasNumbers_div {z w : CExact} (h : HasNumbers z) (h' : HasNumbers w) : HasNumbers (cDiv z w) := by
  simp [HasNumbers, cDiv, normSq, hasValue, h.1, h.2, h'.1, h'.2]

theorem hasNumbers_zero : HasNumbers cZero := ⟨rfl, rfl⟩

theorem hasNumbers_times {z w : CExact} (h : HasNumbers z) (h' : HasNumbers w) : HasNumbers (cTimes z w) := by
  unfold cTimes
  split
  · exact hasNumbers_zero
  · exact hasNumbers_mul h h'

theorem hasNumbers_scale {q : ℚ} {z : CExact} (h : HasNumbers z) : HasNumbers (cScale (.rat q) z) := by
  simp [HasNumbers, cScale, hasValue, h.1, h.2]

theorem hasNumbers_weigh {q : ℚ} {z : CExact} (h : HasNumbers z) : HasNumbers (cWeigh q z) := by
  unfold cWeigh
  split
  · exact hasNumbers_zero
  · exact hasNumbers_scale h

theorem hasNumbers_prod {N : Nat} {f : Nat → CExact} (h : ∀ n, n < N → HasNumbers (f n)) : HasNumbers (cProd N f) := by
  have : ∀ l : List Nat, (∀ n ∈ l, n < N) → HasNumbers (l.foldr (fun n acc => cMul (f n) acc) cOne) := by
    intro l
    induction l with
    | nil => intro _; exact ⟨rfl, rfl⟩
    | cons a l ih =>
      intro hl
      exact hasNumbers_mul (h a (hl a List.mem_cons_self)) (ih (fun n hn => hl n (List.mem_cons_of_mem _ hn)))
  exact this _ (fun n hn => List.mem_range.1 hn)

theorem hasNumbers_butterProto {n : ℕ} (hn : n ≠ 0) {z : CExact} (h : HasNumbers z) : HasNumbers (butterProto n z) := by
  rw [butterProto, if_neg hn]
  exact hasNumbers_div ⟨rfl, rfl⟩ (hasNumbers_prod (fun m _ => by
    simp [HasNumbers, cSub, butterPole, cis, ratPi, hasValue, h.1, h.2]))

theorem hasNumbers_ofReal {x : Exact} (h : hasValue x = true) : HasNumbers (cOfReal x) := ⟨h, rfl⟩

theorem hasNumbers_ofImag {x : Exact} (h : hasValue x = true) : HasNumbers (cOfImag x) := ⟨rfl, h⟩

theorem hasValue_tanBin (N k : ℕ) : hasValue (tanBin N k) = true := by
  simp [tanBin, ratPi, hasValue]

theorem hasValue_warp {fs f : Exact} (h : hasValue fs = true) (h' : hasValue f = true) : hasValue (warp fs f) = true := by
  simp [warp, hasValue, h, h']

theorem hasNumbers_butterLP (N : ℕ) {fs fc : Exact} {n : ℕ} (k : ℕ) (hn : n ≠ 0)
    (h : hasValue fs = true) (h' : hasValue fc = true) :
    HasNumbers (butterLP N fs fc n k) := by
  unfold butterLP
  split
  · exact ⟨rfl, rfl⟩
  · exact hasNumbers_butterProto hn (hasNumbers_div (hasNumbers_ofImag (hasValue_tanBin N k))
      (hasNumbers_ofReal (hasValue_warp h h')))

theorem hasNumbers_butterHP (N : ℕ) {fs fc : Exact} {n : ℕ} (k : ℕ) (hn : n ≠ 0)
    (h : hasValue fs = true) (h' : hasValue fc = true) :
    HasNumbers (butterHP N fs fc n k) := by
  unfold butterHP
  split
  · exact ⟨rfl, rfl⟩
  · split
    · exact ⟨rfl, rfl⟩
    · exact hasNumbers_butterProto hn (hasNumbers_div (hasNumbers_ofReal (hasValue_warp h h'))
        (hasNumbers_ofImag (hasValue_tanBin N k)))

theorem hasValue_bandNum (N : ℕ) {fs f1 f2 : Exact} (k : ℕ) (h : hasValue fs = true) (h1 : hasValue f1 = true)
    (h2 : hasValue f2 = true) : hasValue (bandNum N fs f1 f2 k) = true := by
  simp [bandNum, hasValue, hasValue_tanBin, hasValue_warp h h1, hasValue_warp h h2]

theorem hasNumbers_bandDen (N : ℕ) {fs f1 f2 : Exact} (k : ℕ) (h : hasValue fs = true) (h1 : hasValue f1 = true)
    (h2 : hasValue f2 = true) : HasNumbers (bandDen N fs f1 f2 k) := by
  simp [HasNumbers, bandDen, cOfImag, hasValue, hasValue_tanBin, hasValue_warp h h1, hasValue_warp h h2]

theorem hasNumbers_butterBP (N : ℕ) {fs f1 f2 : Exact} {n : ℕ} (k : ℕ) (hn : n ≠ 0)
    (h : hasValue fs = true) (h1 : hasValue f1 = true) (h2 : hasValue f2 = true) : HasNumbers (butterBP N fs f1 f2 n k) := by
  unfold butterBP
  split
  · exact ⟨rfl, rfl⟩
  · split
    · exact ⟨rfl, rfl⟩
    · exact hasNumbers_butterProto hn (hasNumbers_div (hasNumbers_ofReal (hasValue_bandNum N k h h1 h2))
        (hasNumbers_bandDen N k h h1 h2))

theorem hasNumbers_butterBS (N : ℕ) {fs f1 f2 : Exact} {n : ℕ} (k : ℕ) (hn : n ≠ 0)
    (h : hasValue fs = true) (h1 : hasValue f1 = true) (h2 : hasValue f2 = true) : HasNumbers (butterBS N fs f1 f2 n k) := by
  unfold butterBS
  split
  · exact ⟨rfl, rfl⟩
  · split
    · exact ⟨rfl, rfl⟩
    · have hb := hasValue_bandNum N k h h1 h2
      have hp := hasNumbers_butterProto hn (hasNumbers_div (hasNumbers_bandDen N k h h1 h2) (hasNumbers_ofReal hb))
      simp [HasNumbers, hasValue, hb, hp.1, hp.2]

/-- The parameters in effect that the filter rules read are numbers. -/
structure FiniteParameters (s : State) : Prop where
  fs : f64Finite s.cfsMhz = true
  rfLow : f64Finite s.dp[4] = true
  rfHigh : f64Finite s.dp[5] = true
  rfCut : f64Finite s.dp[12] = true
  sync : f64Finite s.dp[7] = true
  fsyncBw : f64Finite s.params.fsyncBwHz = true
  fsync : f64Finite (fsyncCentre s.cflags s.sp).1 = true
  audio : cfgAudioOn s.cflags = true → f64Finite s.sp[8] = true ∧ f64Finite s.sp[9] = true ∧ f64Finite s.dp[14] = true
  notch : cfgAudioOn s.cflags = true → notchOn s.dp = true → f64Finite s.sp[1] = true ∧ f64Finite s.dp[0] = true

theorem finiteParameters_of_inv {s : State} (h : Inv s) (hc : s.constructed = true) : FiniteParameters s := by
  have row := h.ranges hc
  have video := row 0 (by decide)
  have cut := row 1 (by decide)
  have sync := row 2 (by decide)
  have fine := row 3 (by decide)
  have audio := row 4 (by decide)
  have notch := row 5 (by decide)
  simp only [rangeRowOk, Bool.and_eq_true, Bool.or_eq_true, Bool.not_eq_true'] at video cut sync fine audio notch
  refine ⟨(h.rate hc).1, video.1.1.1, video.1.1.2, cut.1, sync.1, fine.1.2, fine.1.1, fun ha => ?_, fun ha hn => ?_⟩
  · rcases audio with off | on
    · simp [ha] at off
    · exact ⟨on.1.1.1.1, on.1.1.1.2, on.1.1.2⟩
  · rcases notch with off | on
    · simp [ha, hn] at off
    · exact ⟨on.1.1, on.1.2⟩

theorem hasValue_fs {s : State} (h : f64Finite s.cfsMhz = true) : hasValue s.fs = true := by
  simp [State.fs, hertz, hasValue, h]

end Sys2Proof.Laws
end

