-- ==== Sys2Proof/Laws/PerInstr.lean ====
section
/-! SUPPORT. The family OpcodeField: for each command, that its word carries its opcode. -/

namespace Sys2Proof.Laws

/-- The opcode field of the word that the encoder writes is the command's own (30_encoding.md R84, R90). -/
def OpcodeField.Statement (i : Instr) : Prop := fieldOpc (encode i) = opcodeOf i

theorem OpcodeField.nop : OpcodeField.Statement .nop := fieldOpc_commandWord ..

theorem OpcodeField.construct : OpcodeField.Statement .construct := fieldOpc_commandWord ..

theorem OpcodeField.synth : OpcodeField.Statement .synth := fieldOpc_commandWord ..

theorem OpcodeField.procblk : OpcodeField.Statement .procblk := fieldOpc_commandWord ..

theorem OpcodeField.finaud : OpcodeField.Statement .finaud := fieldOpc_commandWord ..

theorem OpcodeField.rstcarry (mask : BitVec 3) : OpcodeField.Statement (.rstcarry mask) := fieldOpc_commandWord ..

theorem OpcodeField.real (d a : Buf) : OpcodeField.Statement (.real d a) := fieldOpc_commandWord ..

theorem OpcodeField.fft (d a : Buf) : OpcodeField.Statement (.fft d a) := fieldOpc_commandWord ..

theorem OpcodeField.ifft (d a : Buf) : OpcodeField.Statement (.ifft d a) := fieldOpc_commandWord ..

theorem OpcodeField.cmul (d a : Buf) (f : BitVec 4) : OpcodeField.Statement (.cmul d a f) := fieldOpc_commandWord ..

theorem OpcodeField.env (d a : Buf) : OpcodeField.Statement (.env d a) := fieldOpc_commandWord ..

theorem OpcodeField.phase (d a : Buf) : OpcodeField.Statement (.phase d a) := fieldOpc_commandWord ..

theorem OpcodeField.unwrap (d a : Buf) (st : BitVec 2) : OpcodeField.Statement (.unwrap d a st) := fieldOpc_commandWord ..

theorem OpcodeField.fdemod (d a : Buf) (st c : BitVec 2) : OpcodeField.Statement (.fdemod d a st c) := fieldOpc_commandWord ..

theorem OpcodeField.mtf (d a : Buf) : OpcodeField.Statement (.mtf d a) := fieldOpc_commandWord ..

theorem OpcodeField.decim (d a : Buf) (df : BitVec 12) : OpcodeField.Statement (.decim d a df) := fieldOpc_commandWord ..

theorem OpcodeField.copy (d a : Buf) : OpcodeField.Statement (.copy d a) := fieldOpc_commandWord ..

theorem OpcodeField.clr (d : Buf) : OpcodeField.Statement (.clr d) := fieldOpc_commandWord ..

end Sys2Proof.Laws
end

