-- ==== Sys2Proof/Laws/Pi.lean ====
section
/-! SUPPORT. That UNWRAP's threshold is pi (42_datapath.md R167, log 17): the whole number `piScaled` is the floor of
pi * 2^1074, by Machin's formula and the alternating series of the arc tangent. -/

namespace Sys2Proof.Laws

open Sys2Proof.Machine

/-- The first `n` terms of the series of arctan(1/d). -/
def arctanSum (d : Nat) : Nat → ℚ
  | 0 => 0
  | n + 1 => arctanSum d n + mkRat (if n % 2 = 0 then 1 else -1) ((2 * n + 1) * d ^ (2 * n + 1))

theorem arctanSum_eq (d : Nat) (n : Nat) : (arctanSum d n : ℝ)
    = ∑ i ∈ Finset.range n, (-1) ^ i * ((d : ℝ)⁻¹ ^ (2 * i + 1) / ((2 * i + 1 : ℕ) : ℝ)) := by
  induction n with
  | zero => simp [arctanSum]
  | succ n ih =>
    rw [Finset.sum_range_succ, arctanSum, Rat.cast_add, ih, Rat.mkRat_eq_div]
    congr 1
    have hs : (((if n % 2 = 0 then (1 : ℤ) else -1 : ℤ) : ℚ) : ℝ) = (-1) ^ n := by
      by_cases h : n % 2 = 0
      · rw [if_pos h, (Nat.even_iff.2 h).neg_one_pow]
        simp
      · rw [if_neg h, (Nat.odd_iff.2 (by omega)).neg_one_pow]
        simp
    rw [Rat.cast_div, hs]
    push_cast
    rw [div_eq_mul_inv, mul_inv, inv_pow]
    ring

theorem arctan_bounds (d : Nat) (hd : 2 ≤ d) (k : Nat) :
    (arctanSum d (2 * k) : ℝ) ≤ Real.arctan (d : ℝ)⁻¹ ∧ Real.arctan (d : ℝ)⁻¹ ≤ arctanSum d (2 * k + 1) := by
  have hd' : (2 : ℝ) ≤ d := by exact_mod_cast hd
  have hpos : (0 : ℝ) < (d : ℝ)⁻¹ := by positivity
  have hlt : (d : ℝ)⁻¹ < 1 := inv_lt_one_of_one_lt₀ (by linarith)
  have hs := (Real.hasSum_arctan (x := (d : ℝ)⁻¹) (by rw [Real.norm_of_nonneg hpos.le]; exact hlt)).tendsto_sum_nat
  have ht : Filter.Tendsto (fun n => ∑ i ∈ Finset.range n, (-1) ^ i * ((d : ℝ)⁻¹ ^ (2 * i + 1) / ((2 * i + 1 : ℕ) : ℝ)))
      Filter.atTop (nhds (Real.arctan (d : ℝ)⁻¹)) := by
    refine hs.congr (fun n => Finset.sum_congr rfl (fun i _ => ?_))
    ring
  have ha : Antitone (fun i : ℕ => (d : ℝ)⁻¹ ^ (2 * i + 1) / ((2 * i + 1 : ℕ) : ℝ)) := by
    refine antitone_nat_of_succ_le (fun n => ?_)
    have h1 : (d : ℝ)⁻¹ ^ (2 * (n + 1) + 1) ≤ (d : ℝ)⁻¹ ^ (2 * n + 1) :=
      pow_le_pow_of_le_one hpos.le hlt.le (by omega)
    have h2 : ((2 * n + 1 : ℕ) : ℝ) ≤ ((2 * (n + 1) + 1 : ℕ) : ℝ) := by
      exact_mod_cast (show 2 * n + 1 ≤ 2 * (n + 1) + 1 by omega)
    have h3 : (0 : ℝ) < ((2 * n + 1 : ℕ) : ℝ) := by
      exact_mod_cast (show 0 < 2 * n + 1 by omega)
    exact div_le_div₀ (by positivity) h1 h3 h2
  rw [arctanSum_eq, arctanSum_eq]
  exact ⟨ha.alternating_series_le_tendsto ht k, ha.tendsto_le_alternating_series ht k⟩

theorem piScaled_lower : (piScaled : ℚ) < (16 * arctanSum 5 250 - 4 * arctanSum 239 73) * 2 ^ 1074 := by decide +kernel

theorem piScaled_upper : (16 * arctanSum 5 251 - 4 * arctanSum 239 72) * 2 ^ 1074 < (piScaled : ℚ) + 1 := by decide +kernel

/-- `piScaled` is the floor of pi * 2^1074, and not pi * 2^1074 itself. -/
theorem piScaled_bounds : (piScaled : ℝ) < Real.pi * 2 ^ 1074 ∧ Real.pi * 2 ^ 1074 < (piScaled : ℝ) + 1 := by
  have hm := Real.four_mul_arctan_inv_5_sub_arctan_inv_239
  obtain ⟨h1, h2⟩ := arctan_bounds 5 (by norm_num) 125
  obtain ⟨h3, h4⟩ := arctan_bounds 239 (by norm_num) 36
  have hl : ((piScaled : ℚ) : ℝ) < ((16 * arctanSum 5 250 - 4 * arctanSum 239 73) * 2 ^ 1074 : ℚ) :=
    Rat.cast_lt.2 piScaled_lower
  have hu : (((16 * arctanSum 5 251 - 4 * arctanSum 239 72) * 2 ^ 1074 : ℚ) : ℝ) < ((piScaled : ℚ) + 1 : ℚ) :=
    Rat.cast_lt.2 piScaled_upper
  push_cast at hl hu h1 h2 h3 h4
  have hp : Real.pi = 16 * Real.arctan 5⁻¹ - 4 * Real.arctan 239⁻¹ := by linarith
  have h2pos : (0 : ℝ) < 2 ^ 1074 := by positivity
  constructor
  · refine lt_of_lt_of_le hl (mul_le_mul_of_nonneg_right ?_ h2pos.le)
    rw [hp]
    linarith
  · refine lt_of_le_of_lt (mul_le_mul_of_nonneg_right ?_ h2pos.le) hu
    rw [hp]
    linarith

/-- A difference of binary64 numbers, in units of 2^-1074, is above pi exactly when it is above `piScaled`. -/
theorem scaled_gt_pi_iff (z : ℤ) : (z : ℝ) / 2 ^ 1074 > Real.pi ↔ z > piScaled := by
  have h2pos : (0 : ℝ) < 2 ^ 1074 := by positivity
  rw [gt_iff_lt, lt_div_iff₀ h2pos]
  constructor
  · intro h
    have : (piScaled : ℝ) < (z : ℝ) := piScaled_bounds.1.trans h
    exact_mod_cast this
  · intro h
    have : ((piScaled + 1 : ℤ) : ℝ) ≤ (z : ℝ) := by
      exact_mod_cast (show piScaled + 1 ≤ z from h)
    push_cast at this
    exact piScaled_bounds.2.trans_le this

end Sys2Proof.Laws
end

