-- ==== Sys2Proof/Laws/Races.lean ====
section
/-! SUPPORT. When the running command will end with an error and which words it then writes, and that a race does not depend
on the events to come. -/

namespace Sys2Proof.Laws

open Sys2Proof.Machine

/-! ### Which commands fail -/

/-- ERR in what a command answers. -/
def errBit (o : Host.Outcome State Fault Refusal) : Bool :=
  match o with
  | .next t => t.err
  | .fault _ => false
  | .refused _ => false

theorem errBit_error (s : State) (opc : BitVec 8) (e : ErrKind) (info : Word32) :
    errBit (errorOutcome s opc e info) = true := by
  simp only [errBit, errorOutcome, State.raise, State.finish, State.setStatus, State.err]
  rw [getLsbD_setFlag _ _ _ _ (by decide), getLsbD_setFlag _ _ _ _ (by decide), getLsbD_setFlag _ _ _ _ (by decide)]
  rfl

theorem errBit_ifConstructed (s : State) (opc : BitVec 8) (body : Host.Outcome State Fault Refusal) :
    errBit (ifConstructed s opc body) = (!s.constructed || errBit body) := by
  unfold ifConstructed
  split
  · simp_all
  · simp_all [errBit_error]

theorem errBit_ifBankValid (s : State) (opc : BitVec 8) (body : Host.Outcome State Fault Refusal) :
    errBit (ifBankValid s opc body) = (!s.bankValid || errBit body) := by
  unfold ifBankValid
  split
  · simp_all
  · simp_all [errBit_error]

theorem err_finish (s : State) : s.finish.err = s.err := by
  simp only [State.finish, State.setStatus, State.err]
  rw [getLsbD_setFlag _ _ _ _ (by decide), getLsbD_setFlag _ _ _ _ (by decide)]
  rfl

/-- A command whose checks pass leaves ERR as it was. -/
theorem errBit_complete (i : Instr) {s : State} (h : s.err = false) : errBit (s.complete (effectOf i)) = false := by
  rw [State.complete, errBit, err_finish, (effectOf_error i s).2, h]

theorem errBit_completeOnBlock (i : Instr) {s : State} (h : s.err = false) :
    errBit (s.completeOnBlock (effectOf i)) = false := by
  unfold State.completeOnBlock
  split
  · exact errBit_complete i h
  · rfl

/-- The checks of each command, as the condition that one of them fails. -/
def commandFails (s : State) : Instr → Bool
  | .nop => false
  | .construct => (firstFailure s.constructChecks).isSome
  | .synth => !s.constructed
  | .procblk => !s.constructed || (!s.bankValid || decide (s.blkLen ≠ s.cn))
  | .finaud =>
    !s.constructed || (!decide (s.frameLen ≤ Config.maxFrame)
      || !(f64Finite s.mtfLevel && f64Finite (audioGain s.params s.mtfLevel)))
  | .rstcarry _ => false
  | .real _ _ => !s.constructed
  | .fft _ _ => !s.constructed
  | .ifft _ _ => !s.constructed
  | .cmul _ _ f => !s.constructed || (!slotInRange f || !s.bankValid)
  | .env _ _ => !s.constructed
  | .phase _ _ => !s.constructed
  | .unwrap _ _ st => !s.constructed || (streamOf? st).isNone
  | .fdemod _ _ st c => !s.constructed || ((streamOf? st).isNone || (carrierOf? c).isNone)
  | .mtf _ _ => !s.constructed
  | .decim _ _ df => !s.constructed || !factorInRange df
  | .copy _ _ => !s.constructed
  | .clr _ => !s.constructed

/-- In a state with ERR clear a command sets ERR exactly when one of its checks fails. -/
theorem errBit_exec (i : Instr) {s : State} (h : s.err = false) : errBit (exec i s) = commandFails s i := by
  have walks : ∀ (j : Instr) (opc : BitVec 8),
      errBit (ifConstructed s opc (s.completeOnBlock (effectOf j))) = !s.constructed := fun j opc => by
    rw [errBit_ifConstructed, errBit_completeOnBlock j h, Bool.or_false]
  cases i with
  | nop => exact errBit_complete .nop h
  | construct =>
    simp only [exec, execConstruct, commandFails]
    split
    · rename_i hf
      rw [hf, errBit_error]
      rfl
    · rename_i hf
      rw [hf]
      exact errBit_complete .construct h
  | synth => exact walks .synth _
  | procblk =>
    simp only [exec, execProcblk, commandFails, errBit_ifConstructed, errBit_ifBankValid]
    congr 2
    split
    · rename_i hb
      rw [show effProcblk = effectOf .procblk from rfl, errBit_completeOnBlock .procblk h]
      simp [hb]
    · rename_i hb
      simp [errBit_error, hb]
  | finaud =>
    simp only [exec, execFinaud, commandFails, errBit_ifConstructed]
    congr 1
    split
    · rename_i hl
      split
      · rename_i hm
        rw [show s.complete effFinaud = s.complete (effectOf .finaud) from rfl, errBit_complete .finaud h]
        simp [hl, hm]
      · rename_i hm
        simp [errBit_error, hl, Bool.eq_false_iff.2 hm]
    · rename_i hl
      simp [errBit_error, hl]
  | rstcarry mask => exact errBit_complete (.rstcarry mask) h
  | real d a => exact walks (.real d a) _
  | fft d a => exact walks (.fft d a) _
  | ifft d a => exact walks (.ifft d a) _
  | cmul d a f =>
    simp only [exec, execCmul, commandFails, errBit_ifConstructed]
    congr 1
    split
    · rename_i hf
      rw [errBit_ifBankValid, show effCmul d a f.toNat = effectOf (.cmul d a f) from rfl,
        errBit_completeOnBlock (.cmul d a f) h, hf]
      simp
    · rename_i hf
      simp [errBit_error, hf]
  | env d a => exact walks (.env d a) _
  | phase d a => exact walks (.phase d a) _
  | unwrap d a st =>
    simp only [exec, execUnwrap, commandFails, errBit_ifConstructed]
    congr 1
    cases hs : streamOf? st with
    | none => exact errBit_error _ _ _ _
    | some k =>
      have he : effUnwrap d a k = effectOf (.unwrap d a st) := by funext t; exact (effectOf_unwrap_eq hs d a t).symm
      exact (congrArg (fun e => errBit (s.completeOnBlock e)) he).trans (errBit_completeOnBlock (.unwrap d a st) h)
  | fdemod d a st c =>
    simp only [exec, execFdemod, commandFails, errBit_ifConstructed]
    congr 1
    cases hs : streamOf? st with
    | none => exact errBit_error _ _ _ _
    | some k =>
      cases hc : carrierOf? c with
      | none => exact errBit_error _ _ _ _
      | some cr =>
        have he : effFdemod d a k cr = effectOf (.fdemod d a st c) := by funext t; simp [effectOf, hs, hc]
        exact (congrArg (fun e => errBit (s.completeOnBlock e)) he).trans (errBit_completeOnBlock (.fdemod d a st c) h)
  | mtf d a => exact walks (.mtf d a) _
  | decim d a df =>
    simp only [exec, execDecim, commandFails, errBit_ifConstructed]
    congr 1
    split
    · rename_i hf
      rw [show effDecim d a df.toNat = effectOf (.decim d a df) from rfl, errBit_completeOnBlock (.decim d a df) h, hf]
      rfl
    · rename_i hf
      simp [errBit_error, hf]
  | copy d a => exact walks (.copy d a) _
  | clr d => exact walks (.clr d) _

/-- `State.fails` is that one of the command's checks fails. -/
theorem fails_eq (s : State) (i : Instr) : s.fails i = commandFails s i := by
  have hs : ∀ j, j ≠ bitErr → (s.setStatus bitErr false).status.getLsbD j = s.status.getLsbD j := fun j hj => by
    rw [setStatus_status, getLsbD_setFlag _ _ _ _ (by decide), if_neg hj]
  have he : (s.setStatus bitErr false).err = false := by
    rw [State.err, setStatus_status, getLsbD_setFlag _ _ _ _ (by decide), if_pos rfl]
  have hc : (s.setStatus bitErr false).constructed = s.constructed := hs _ (by decide)
  have hb : (s.setStatus bitErr false).bankValid = s.bankValid := hs _ (by decide)
  refine (errBit_exec i he).trans ?_
  cases i <;> simp only [commandFails, hc, hb] <;> rfl

/-! ### The words a command writes, and R47's table -/

theorem streamOf?_isNone (st : BitVec 2) : (streamOf? st).isNone = decide (st = 3#2) := by
  revert st; decide
theorem carrierOf?_isNone (c : BitVec 2) : (carrierOf? c).isNone = decide (c = 3#2) := by
  revert c; decide

theorem slotInRange_iff (f : BitVec 4) : slotInRange f = true ↔ ¬ 7 ≤ f.toNat := by
  revert f; decide
theorem factorInRange_iff (df : BitVec 12) : factorInRange df = true ↔ df ≠ 0#12 := by
  unfold factorInRange
  simp [bne_iff_ne, BitVec.toNat_eq]

theorem toNat_of_streamOf? {st : BitVec 2} {k : Machine.Stream} (h : streamOf? st = some k) : st.toNat = k.val := by
  revert k st; decide

theorem slot_range {a : ℕ} (h : targetOf a = .slot) : 0x02000000 ≤ a ∧ a < 0x02800000 := by
  by_contra hn
  by_cases hm : Mapped a
  · rcases mapped_cases hm with h' | h' | h' | h'
    · simp [targetOf_register h'] at h
    · simp [targetOf_ram h'] at h
    · exact hn h'
    · simp [targetOf_rom h'.1 h'.2] at h
  · simp [targetOf_unmapped hm] at h

/-- `State.fails` is `Fails`. -/
theorem fails_iff (s : State) (i : Instr) : s.fails i = true ↔ Fails s i := by
  rw [fails_eq]
  cases i with
  | construct =>
    have : (firstFailure s.constructChecks).isSome = true ↔ ¬ ConstructPasses s := by
      rw [← constructChecks_pass_iff, Option.isSome_iff_ne_none]
    simp [commandFails, Fails, needsConstruct, outOfRange, this]
  | cmul d a f =>
    simp only [commandFails, Fails, needsConstruct, outOfRange, Bool.or_eq_true, Bool.not_eq_true', true_and]
    rw [← Bool.not_eq_true (slotInRange f), slotInRange_iff, not_not]
    by_cases h : 7 ≤ f.toNat <;> simp [h]
  | unwrap d a st =>
    simp [commandFails, Fails, needsConstruct, outOfRange, streamOf?_isNone]
  | fdemod d a st c =>
    simp only [commandFails, Fails, needsConstruct, outOfRange, streamOf?_isNone, carrierOf?_isNone]
    by_cases h : st = 3#2 ∨ c = 3#2 <;> simp [h]
  | decim d a df =>
    simp only [commandFails, Fails, needsConstruct, outOfRange, Bool.or_eq_true, Bool.not_eq_true', true_and]
    rw [← Bool.not_eq_true (factorInRange df), factorInRange_iff, not_not]
    by_cases h : df = 0#12 <;> simp [h]
  | finaud =>
    have hl : decide (s.frameLen ≤ Config.maxFrame) = !decide (524288 < s.afLen.toNat) := by
      unfold State.frameLen Config.maxFrame
      by_cases h : 524288 < s.afLen.toNat <;> simp [h]; omega
    simp [commandFails, Fails, needsConstruct, outOfRange, hl]
  | _ => simp [commandFails, Fails, needsConstruct, outOfRange]

theorem inBuf_iff (s : State) (b : Buf) (addr : ℕ) : inBuf b s.n addr = true ↔ InBlock s b addr := by
  simp [inBuf, InBlock]

theorem carryOrSeed_of_mem {k : Stream} {addr : ℕ} (h : addr ∈ streamRegs k) : CarryOrSeed k addr := by
  simpa [streamRegs, CarryOrSeed, carryPhAddr, carryTurnsAddr, seedUAddr] using h

/-- The words that the model takes a command to write are words that R47's table gives it. -/
theorem writesWord_of_writes {s : State} {i : Instr} {addr : ℕ} (h : s.writes i addr = true) : WritesWord s i addr := by
  unfold State.writes at h
  split at h
  · rename_i hf
    exact .inl ⟨(fails_iff s i).1 hf, by simpa using h⟩
  · rename_i hf
    refine .inr ⟨fun hF => hf ((fails_iff s i).2 hF), ?_⟩
    simp only [Bool.or_eq_true] at h
    cases i with
    | construct =>
      simp [writtenRegs, writtenBufs, dpAddr, spAddr] at h
      simp only [ResultWord]
      rcases h with h | h | h | h | h | h | h | h | ⟨a, ha, rfl⟩ | ⟨a, ha, rfl⟩ <;> omega
    | procblk =>
      simp only [ResultWord]
      rcases h with ((h | h) | h) | h
      · by_cases ha : cfgAudioOn s.cflags = true
        · have ha' := (audioOn_iff _).1 ha
          simp only [writtenRegs, ha, if_true, List.contains_iff_mem, List.mem_append] at h
          rcases h with (h | h) | h | h
          · simp at h; omega
          · exact .inr (.inr (.inr (.inl (carryOrSeed_of_mem h))))
          · exact .inr (.inr (.inr (.inr (.inl ⟨ha', .inl (carryOrSeed_of_mem h)⟩))))
          · exact .inr (.inr (.inr (.inr (.inl ⟨ha', .inr (carryOrSeed_of_mem h)⟩))))
        · simp only [writtenRegs, ha, List.contains_iff_mem, List.mem_append] at h
          rcases h with (h | h) | h
          · simp at h; omega
          · exact .inr (.inr (.inr (.inl (carryOrSeed_of_mem h))))
          · simp at h
      · have hw : ∀ b ∈ writtenBufs .procblk, procblkWrites b := by decide
        obtain ⟨b, hb, h⟩ := List.any_eq_true.1 h
        exact .inr (.inr (.inr (.inr (.inr ⟨b, hw b hb, (inBuf_iff s b addr).1 h⟩))))
      · simp at h
      · simp at h
    | synth =>
      simp [writtenRegs, writtenBufs] at h
      simp only [ResultWord]
      exact slot_range h
    | finaud =>
      simp [writtenRegs, writtenBufs, inAudioOut, map_bases, Config.outFrame] at h
      simp only [ResultWord]
      omega
    | unwrap d a st =>
      simp only [ResultWord]
      simp [writtenRegs, writtenBufs, inBuf_iff] at h
      rcases h with h | h
      · cases hs : streamOf? st with
        | none => simp [hs] at h
        | some k =>
          rw [hs] at h
          exact .inr ⟨k, toNat_of_streamOf? hs, carryOrSeed_of_mem h⟩
      · exact .inl h
    | decim d a df => 
      simp [writtenRegs, writtenBufs, inBuf_iff] at h
      simp only [ResultWord]
      tauto
    | _ => 
      simp [writtenRegs, writtenBufs, inBuf_iff] at h
      try exact h

/-! ### Races and the events to come -/

theorem fails_inputs (s : State) (is : List Input) (i : Instr) : ({ s with inputs := is } : State).fails i = s.fails i := by
  rw [fails_eq, fails_eq]
  cases i <;> rfl

theorem writes_inputs (s : State) (is : List Input) (i : Instr) (a : Nat) :
    ({ s with inputs := is } : State).writes i a = s.writes i a := by
  unfold State.writes
  rw [fails_inputs]
  rfl

theorem races_inputs (s : State) (is : List Input) (a : Nat) : ({ s with inputs := is } : State).races a = s.races a := by
  unfold State.races
  simp only [writes_inputs]
  rfl

theorem racingStatus_inputs (s : State) (is : List Input) :
    ({ s with inputs := is } : State).racingStatus = s.racingStatus := by
  unfold State.racingStatus
  simp only [fails_inputs]
  rfl

/-- STATUS races bit by bit, so no command writes its whole word. -/
theorem writes_status (s : State) (i : Instr) : s.writes i 0x008 = false := by
  have hb : ∀ b : Buf, inBuf b s.n 0x008 = false := fun b => by
    simp [inBuf, bufAddr, bufBytes]
    omega
  have hr : ∀ audio, (writtenRegs audio i).contains 0x008 = false := fun audio => by
    cases i with
    | unwrap d a st =>
      cases hs : streamOf? st with
      | none => simp [writtenRegs, hs]
      | some k =>
        have : ∀ k : Machine.Stream, (streamRegs k).contains 0x008 = false := by decide
        simpa only [writtenRegs, hs] using this k
    | procblk => cases audio <;> decide
    | construct => cases audio <;> decide
    | _ => simp [writtenRegs]
  unfold State.writes
  split
  · rfl
  · rw [hr, show (writtenBufs i).any (fun b => inBuf b s.n 0x008) = false from by simp [hb],
      show targetOf 0x008 = .register from rfl, show inAudioOut 0x008 = false from by decide]
    simp

theorem races_status (s : State) : s.races 0x008 = false := by
  unfold State.races
  split
  · rw [writes_status, Bool.and_false]
  · simp

end Sys2Proof.Laws
end

