-- ==== Sys2Proof/Laws/Spline.lean ====
section
/-! SUPPORT. What `spline?` answers: its equations hold, each piece is a polynomial whose value and derivatives are known,
and which piece gives the value at a number. -/

namespace Sys2Proof.Laws

open Sys2Proof.Machine

/-! ### The equations -/

theorem residual_splineRow (xs ys ms : List ℚ) (K i : ℕ) (hl : ms.length = K) :
    Machine.residual ((List.range K).map (splineCoeff xs K i) ++ [splineRhs xs ys K i]) ms
      = ∑ j ∈ Finset.range K, splineCoeff xs K i j * nth ms j - splineRhs xs ys K i := by
  unfold Machine.residual
  rw [List.zipWith_append (by simp [hl]), List.sum_append]
  have hz : List.zipWith (fun x1 x2 => x1 * x2) (List.map (splineCoeff xs K i) (List.range K)) ms
      = (List.range K).map (fun j => splineCoeff xs K i j * nth ms j) := by
    apply List.ext_getElem?
    intro j
    simp only [List.getElem?_zipWith, List.getElem?_map]
    by_cases hj : j < K
    · have hj' : j < ms.length := by omega
      simp [hj, List.getElem?_eq_getElem hj', nth, List.getD_eq_getElem?_getD]
    · have h2 : ms[j]? = none := by
        simp
        omega
      simp [hj, h2]
  rw [hz, ← List.sum_toFinset _ List.nodup_range, List.toFinset_range]
  simp
  ring

/-- What an answer of `spline?` says of its points and of its second derivatives at the knots. -/
theorem spline_facts {xs ys : List ℚ} {c : Curve} (h : spline? xs ys = some c) :
    c.xs = xs ∧ c.ys = ys ∧ 4 ≤ xs.length ∧ ys.length = xs.length ∧ xs.Pairwise (· < ·) ∧
    (∀ i, i < xs.length → ∑ j ∈ Finset.range xs.length, splineCoeff xs xs.length i j * nth c.ms j
      = splineRhs xs ys xs.length i) := by
  unfold spline? at h
  simp only at h
  split at h
  · rename_i hc
    simp only [Bool.and_eq_true, decide_eq_true_eq] at hc
    split at h
    · rename_i ms hs
      split at h
      · rename_i hv
        simp only [Bool.and_eq_true, beq_iff_eq, List.all_eq_true] at hv
        cases h
        refine ⟨rfl, rfl, hc.1.1, hc.1.2, hc.2, fun i hi => ?_⟩
        have := hv.2 _ (List.mem_map.2 ⟨i, List.mem_range.2 hi, rfl⟩)
        rw [residual_splineRow _ _ _ _ _ hv.1] at this
        linarith
      · cases h
    · cases h
  · cases h

/-- A sum over a range of a function that is 0 but at three places. -/
theorem sum_three (K a b c : ℕ) (g : ℕ → ℚ) (ha : a < K) (hb : b < K) (hc : c < K) (hab : a ≠ b) (hac : a ≠ c)
    (hbc : b ≠ c) (hz : ∀ j, j < K → j ≠ a → j ≠ b → j ≠ c → g j = 0) :
    ∑ j ∈ Finset.range K, g j = g a + g b + g c := by
  rw [← Finset.sum_subset (s₁ := {a, b, c})]
  · rw [Finset.sum_insert (by simp [hab, hac]), Finset.sum_insert (by simp [hbc]), Finset.sum_singleton]
    ring
  · intro j hj
    simp at hj
    simp
    rcases hj with rfl | rfl | rfl <;> assumption
  · intro j hj hn
    simp at hj hn
    exact hz j hj hn.1 hn.2.1 hn.2.2

/-- The knots rise. -/
theorem nth_lt {xs : List ℚ} (hp : xs.Pairwise (· < ·)) {i j : ℕ} (hij : i < j) (hj : j < xs.length) :
    nth xs i < nth xs j := by
  have := List.pairwise_iff_getElem.1 hp i j (by omega) hj hij
  simpa [nth, List.getD_eq_getElem?_getD, List.getElem?_eq_getElem (show i < xs.length by omega),
    List.getElem?_eq_getElem hj] using this

theorem knotGap_pos {xs : List ℚ} (hp : xs.Pairwise (· < ·)) {i : ℕ} (hi : i + 1 < xs.length) : 0 < knotGap xs i := by
  have := nth_lt hp (show i < i + 1 by omega) hi
  unfold knotGap
  linarith

theorem nth_succ (xs : List ℚ) (i : ℕ) : nth xs (i + 1) = nth xs i + knotGap xs i := by
  unfold knotGap
  ring

/-- The equation of an inner knot. -/
theorem spline_inner {xs ys : List ℚ} {c : Curve} (h : spline? xs ys = some c) {i : ℕ} (hi : i + 2 < xs.length) :
    knotGap xs i * nth c.ms i + 2 * (knotGap xs i + knotGap xs (i + 1)) * nth c.ms (i + 1)
        + knotGap xs (i + 1) * nth c.ms (i + 2)
      = 6 * ((nth ys (i + 2) - nth ys (i + 1)) / knotGap xs (i + 1) - (nth ys (i + 1) - nth ys i) / knotGap xs i) := by
  obtain ⟨-, -, hK, -, -, he⟩ := spline_facts h
  have e := he (i + 1) (by omega)
  have h1 : ¬ (i + 1 = 0) := by omega
  have h2 : ¬ (i + 1 + 1 = xs.length) := by omega
  rw [sum_three _ i (i + 1) (i + 2) _ (by omega) (by omega) hi (by omega) (by omega) (by omega)] at e
  · simp only [splineCoeff, splineRhs, h1, h2, if_false, if_true, Nat.add_sub_cancel, decide_false, Bool.false_or,
      beq_iff_eq, show ¬ (i + 1 + 1 = i + 1) by omega, show ¬ (i + 2 + 1 = i + 1) by omega,
      show i + 2 = i + 1 + 1 from rfl] at e
    exact e
  · intro j hj h3 h4 h5
    simp only [splineCoeff, h1, h2, if_false]
    rw [if_neg (by omega), if_neg (by omega), if_neg (by omega)]
    ring

/-- The equation at the first end. -/
theorem spline_first {xs ys : List ℚ} {c : Curve} (h : spline? xs ys = some c) :
    -knotGap xs 1 * nth c.ms 0 + (knotGap xs 0 + knotGap xs 1) * nth c.ms 1 + -knotGap xs 0 * nth c.ms 2 = 0 := by
  obtain ⟨-, -, hK, -, -, he⟩ := spline_facts h
  have e := he 0 (by omega)
  rw [sum_three _ 0 1 2 _ (by omega) (by omega) (by omega) (by omega) (by omega) (by omega)] at e
  · simpa [splineCoeff, splineRhs] using e
  · intro j hj h3 h4 h5
    simp [splineCoeff, h3, h4, h5]

/-- The equation at the last end. -/
theorem spline_last {xs ys : List ℚ} {c : Curve} (h : spline? xs ys = some c) {K : ℕ} (hK : xs.length = K + 3) :
    -knotGap xs (K + 1) * nth c.ms K + (knotGap xs K + knotGap xs (K + 1)) * nth c.ms (K + 1)
      + -knotGap xs K * nth c.ms (K + 2) = 0 := by
  obtain ⟨-, -, hK4, -, -, he⟩ := spline_facts h
  have e := he (K + 2) (by omega)
  rw [hK] at e
  rw [sum_three _ K (K + 1) (K + 2) _ (by omega) (by omega) (by omega) (by omega) (by omega) (by omega)] at e
  · simpa [splineCoeff, splineRhs] using e
  · intro j hj h3 h4 h5
    simp [splineCoeff, h3, h4, h5]

/-! ### The pieces as polynomials -/

/-- The cubic of piece i as a polynomial. -/
noncomputable def cubicPoly (c : Curve) (i : ℕ) : Polynomial ℚ :=
  Polynomial.C (nth c.ms i / (6 * knotGap c.xs i)) * (Polynomial.C (nth c.xs (i + 1)) - Polynomial.X) ^ 3
    + Polynomial.C (nth c.ms (i + 1) / (6 * knotGap c.xs i)) * (Polynomial.X - Polynomial.C (nth c.xs i)) ^ 3
    + Polynomial.C (nth c.ys i / knotGap c.xs i - nth c.ms i * knotGap c.xs i / 6)
      * (Polynomial.C (nth c.xs (i + 1)) - Polynomial.X)
    + Polynomial.C (nth c.ys (i + 1) / knotGap c.xs i - nth c.ms (i + 1) * knotGap c.xs i / 6)
      * (Polynomial.X - Polynomial.C (nth c.xs i))

theorem cubicPoly_eval (c : Curve) (i : ℕ) (z : ℚ) : (cubicPoly c i).eval z = c.cubic i z := by
  simp [cubicPoly, Curve.cubic]
  ring

theorem cubicPoly_natDegree (c : Curve) (i : ℕ) : (cubicPoly c i).natDegree ≤ 3 := by
  unfold cubicPoly
  have h1 : (Polynomial.C (nth c.xs (i + 1)) - Polynomial.X : Polynomial ℚ).natDegree ≤ 1 := by
    refine (Polynomial.natDegree_sub_le _ _).trans ?_
    simp
  have h2 : (Polynomial.X - Polynomial.C (nth c.xs i) : Polynomial ℚ).natDegree ≤ 1 := by
    refine (Polynomial.natDegree_sub_le _ _).trans ?_
    simp
  have p3 : ∀ (a : ℚ) (p : Polynomial ℚ), p.natDegree ≤ 1 → (Polynomial.C a * p ^ 3).natDegree ≤ 3 := fun a p hp =>
    (Polynomial.natDegree_C_mul_le a _).trans ((Polynomial.natDegree_pow_le_of_le 3 hp).trans (by norm_num))
  have p1 : ∀ (a : ℚ) (p : Polynomial ℚ), p.natDegree ≤ 1 → (Polynomial.C a * p).natDegree ≤ 3 := fun a p hp =>
    (Polynomial.natDegree_C_mul_le a _).trans (hp.trans (by norm_num))
  exact Polynomial.natDegree_add_le_of_degree_le (Polynomial.natDegree_add_le_of_degree_le
    (Polynomial.natDegree_add_le_of_degree_le (p3 _ _ h1) (p3 _ _ h2)) (p1 _ _ h1)) (p1 _ _ h2)

theorem cubicPoly_derivative (c : Curve) (i : ℕ) (z : ℚ) : (cubicPoly c i).derivative.eval z =
    -(nth c.ms i / (6 * knotGap c.xs i)) * (3 * (nth c.xs (i + 1) - z) ^ 2)
      + nth c.ms (i + 1) / (6 * knotGap c.xs i) * (3 * (z - nth c.xs i) ^ 2)
      - (nth c.ys i / knotGap c.xs i - nth c.ms i * knotGap c.xs i / 6)
      + (nth c.ys (i + 1) / knotGap c.xs i - nth c.ms (i + 1) * knotGap c.xs i / 6) := by
  simp [cubicPoly, Polynomial.derivative_pow]
  ring

theorem cubicPoly_derivative2 (c : Curve) (i : ℕ) (z : ℚ) : (cubicPoly c i).derivative.derivative.eval z =
    nth c.ms i / knotGap c.xs i * (nth c.xs (i + 1) - z) + nth c.ms (i + 1) / knotGap c.xs i * (z - nth c.xs i) := by
  simp [cubicPoly, Polynomial.derivative_pow]
  ring

theorem cubicPoly_derivative3 (c : Curve) (i : ℕ) (z : ℚ) : (cubicPoly c i).derivative.derivative.derivative.eval z =
    (nth c.ms (i + 1) - nth c.ms i) / knotGap c.xs i := by
  simp [cubicPoly, Polynomial.derivative_pow]
  ring

/-- A piece meets its end values. -/
theorem cubic_left (c : Curve) (i : ℕ) (h : knotGap c.xs i ≠ 0) : c.cubic i (nth c.xs i) = nth c.ys i := by
  simp only [Curve.cubic, nth_succ]
  field_simp
  ring

theorem cubic_right (c : Curve) (i : ℕ) (h : knotGap c.xs i ≠ 0) : c.cubic i (nth c.xs (i + 1)) = nth c.ys (i + 1) := by
  simp only [Curve.cubic, nth_succ]
  field_simp
  ring

/-! ### The piece at a number -/

theorem nth_getElem {xs : List ℚ} {i : ℕ} (h : i < xs.length) : nth xs i = xs[i] := by
  simp [nth, List.getD_eq_getElem?_getD, List.getElem?_eq_getElem h]

theorem nth_le_of_le {xs : List ℚ} (hp : xs.Pairwise (· < ·)) {i j : ℕ} (hij : i ≤ j) (hj : j < xs.length) :
    nth xs i ≤ nth xs j := by
  rcases Nat.eq_or_lt_of_le hij with rfl | h
  · exact le_refl _
  · exact (nth_lt hp h hj).le

/-- The piece i gives the value from x_i (the first from below every knot) up to x_(i+1) (the last without an end). -/
theorem piece_eq {c : Curve} {z : ℚ} {i : ℕ} (hp : c.xs.Pairwise (· < ·)) (hi : i + 1 < c.xs.length)
    (h1 : i = 0 ∨ nth c.xs i ≤ z) (h2 : i + 2 = c.xs.length ∨ z < nth c.xs (i + 1)) : c.piece z = i := by
  unfold Curve.piece
  have hsplit : (c.xs.drop 1).take (c.xs.length - 2)
      = (c.xs.drop 1).take i ++ ((c.xs.drop 1).drop i).take (c.xs.length - 2 - i) := by
    have := List.take_add (l := c.xs.drop 1) (i := i) (j := c.xs.length - 2 - i)
    rwa [show i + (c.xs.length - 2 - i) = c.xs.length - 2 by omega] at this
  rw [hsplit, List.countP_append]
  have a1 : ((c.xs.drop 1).take i).countP (fun k => decide (k ≤ z)) = i := by
    have hl : ((c.xs.drop 1).take i).length = i := by
      simp
      omega
    conv_rhs => rw [← hl]
    rw [List.countP_eq_length]
    intro a ha
    rw [List.mem_take_iff_getElem] at ha
    obtain ⟨j, hj, rfl⟩ := ha
    simp at hj
    rcases h1 with h1 | h1
    · omega
    · rw [List.getElem_drop, decide_eq_true_eq, ← nth_getElem]
      exact (nth_le_of_le hp (by omega) (by omega)).trans h1
  have a2 : (((c.xs.drop 1).drop i).take (c.xs.length - 2 - i)).countP (fun k => decide (k ≤ z)) = 0 := by
    rw [List.countP_eq_zero]
    intro a ha
    rw [List.mem_take_iff_getElem] at ha
    obtain ⟨j, hj, rfl⟩ := ha
    simp at hj
    rcases h2 with h2 | h2
    · omega
    · rw [List.getElem_drop, List.getElem_drop, decide_eq_true_eq, not_le, ← nth_getElem]
      exact h2.trans_le (nth_le_of_le hp (by omega) (by omega))
  rw [a1, a2, Nat.add_zero]

end Sys2Proof.Laws
end

