-- ==== Sys2Proof/Laws/Step.lean ====
section
/-! SUPPORT. One lemma for each event of a step: what the step then is. -/

namespace Sys2Proof.Laws

open Sys2Proof.Machine

variable {s : State} {addr : BitVec 32} {v : Word} {rest : List Input}

theorem step_idle (h : s.inputs = []) : step s = engineTurn s := by
  simp [step, runNext, h]

theorem step_engine (h : s.inputs = .engine :: rest) : step s = engineTurn { s with inputs := rest } := by
  simp [step, runNext, h, runInput]

theorem step_reset (h : s.inputs = .reset :: rest) : step s = .next (applyReset { s with inputs := rest }) := by
  simp [step, runNext, h, runInput]

theorem step_read {bytes : Nat} (h : s.inputs = .read bytes addr :: rest) :
    step s = .next (hostRead bytes addr.toNat { s with inputs := rest }) := by
  simp [step, runNext, h, runInput]

theorem step_write {bytes : Nat} (h : s.inputs = .write bytes addr v :: rest) :
    step s = .next (hostWrite bytes addr.toNat v { s with inputs := rest }) := by
  simp [step, runNext, h, runInput]

/-! ### The engine's turn -/

theorem engineTurn_ok {i : Instr} (hb : s.busy = true) (hd : decode s.cmd = .ok i) : engineTurn s = exec i s := by
  simp [engineTurn, hb, runCommand, hd]

theorem engineTurn_error {r : Illegal} (hb : s.busy = true) (hd : decode s.cmd = .error r) :
    engineTurn s = .next (errorState s (fieldOpc s.cmd) 7#8 s.cmd) := by
  simp [engineTurn, hb, runCommand, hd, errorOutcome_eq, errCode]

theorem engineTurn_idle (hb : s.busy = false) : engineTurn s = .next s := by
  simp [engineTurn, hb]

/-! ### Host writes -/

/-- A write while BUSY = 1 to anything but STATUS and IRQEN. -/
theorem hostWrite_busy {a : Nat} (ha : a % 8 = 0) (hm : Mapped a) (hb : s.busy = true) (h1 : a ≠ 0x008) (h2 : a ≠ 0x020) :
    hostWrite 8 a v s = { s with status := setFlag 7 s.status bitWrBusy true, reply := .ok } := by
  simp [hostWrite, badAccess_false ha hm, hb, h1, h2, State.setStatus]

/-- A write that reaches a register. -/
theorem hostWrite_register {a : Nat} (ha : a % 8 = 0) (hr : a < 0x1000) (hb : s.busy = false ∨ a = 0x008 ∨ a = 0x020) :
    hostWrite 8 a v s = { regWrite s a v with reply := .ok } := by
  have hm : Mapped a := .inl hr
  have hbad := badAccess_false ha hm
  have hc : (s.busy && !(a == 0x008 || a == 0x020)) = false := by
    rcases hb with hb | rfl | rfl <;> simp_all
  unfold hostWrite
  rw [hbad, hc, targetOf_register hr]
  rfl

/-- A write that reaches memory. -/
theorem hostWrite_memory {a : Nat} (ha : a % 8 = 0) (hm : HostMemory a) (hb : s.busy = false) :
    hostWrite 8 a v s = { s with mem := Memory.store s.mem a (wordsBytes [v]), reply := .ok } := by
  simp [hostWrite, badAccess_false ha (mapped_of_hostMemory hm), hb, targetOf_ram hm, State.storeWords]

/-- A write to the slots or to the ROM. -/
theorem hostWrite_readOnly {a : Nat} (ha : a % 8 = 0) (hb : s.busy = false)
    (h : (0x02000000 ≤ a ∧ a < 0x02800000) ∨ (0x04000000 ≤ a ∧ a < 0x04001000)) :
    hostWrite 8 a v s = { s with reply := .ok } := by
  have hm : Mapped a := by
    unfold Mapped
    omega
  rcases h with h | h
  · simp [hostWrite, badAccess_false ha hm, hb, targetOf_slot h.1 h.2]
  · simp [hostWrite, badAccess_false ha hm, hb, targetOf_rom h.1 h.2]

/-! ### Host reads -/

theorem races_idle {a : Nat} (hb : s.busy = false) : s.races a = false := by
  simp [State.races, hb]

theorem races_ok {a : Nat} {i : Instr} (hb : s.busy = true) (hd : decode s.cmd = .ok i) :
    s.races a = s.writes i a := by
  simp [State.races, hb, hd]

theorem hostRead_register {a : Nat} (ha : a % 8 = 0) (hr : a < 0x1000) (h : s.races a = false)
    (hs : s.busy = false ∨ a ≠ 0x008) : hostRead 8 a s = { s with reply := .data (regRead s a) } := by
  have hc : (s.busy && a == 0x008) = false := by
    rcases hs with hs | hs
    · simp [hs]
    · simp [hs]
  unfold hostRead
  rw [badAccess_false ha (.inl hr), h, hc, targetOf_register hr]
  rfl

/-- A read of STATUS while BUSY = 1. -/
theorem hostRead_status (hb : s.busy = true) (h : s.races 0x008 = false) : hostRead 8 0x008 s = s.statusReply := by
  unfold hostRead
  rw [badAccess_false (by decide) (.inl (by decide)), h, hb]
  rfl

theorem hostRead_rom {a : Nat} (ha : a % 8 = 0) (h1 : 0x04000000 ≤ a) (h2 : a < 0x04001000) (h : s.races a = false) :
    hostRead 8 a s = { s with reply := .data (romRead s.rom (a - 0x04000000)) } := by
  have hm : Mapped a := by
    unfold Mapped
    omega
  have hn : a ≠ 0x008 := by omega
  simp [hostRead, badAccess_false ha hm, h, targetOf_rom h1 h2, romBase, hn]

theorem hostRead_memory {a : Nat} {w : Word} (ha : a % 8 = 0)
    (hm : HostMemory a ∨ (0x02000000 ≤ a ∧ a < 0x02800000)) (h : s.races a = false)
    (hw : Memory.word? s.mem a = some w) : hostRead 8 a s = { s with reply := .data w } := by
  have hn : a ≠ 0x008 := by
    unfold HostMemory at hm
    omega
  rcases hm with hm | hm
  · simp [hostRead, badAccess_false ha (mapped_of_hostMemory hm), h, targetOf_ram hm, hw, hn]
  · have hm' : Mapped a := by
      unfold Mapped
      omega
    simp [hostRead, badAccess_false ha hm', h, targetOf_slot hm.1 hm.2, hw, hn]

/-- A read changes nothing but the answer and the draw counter. -/
theorem hostRead_eq (bytes a : Nat) :
    hostRead bytes a s = { s with reply := (hostRead bytes a s).reply, draws := (hostRead bytes a s).draws } := by
  unfold hostRead
  repeat' split
  all_goals rfl

/-! ### Whole steps of the host -/

theorem step_writeBusy (h : Writing s addr v rest) (ha : addr.toNat % 8 = 0) (hm : Mapped addr.toNat)
    (hb : s.busy = true) (h1 : addr.toNat ≠ 0x008) (h2 : addr.toNat ≠ 0x020) :
    step s = .next { s with inputs := rest, status := setFlag 7 s.status bitWrBusy true, reply := .ok } := by
  rw [step_write h]
  exact congrArg _ (hostWrite_busy (s := { s with inputs := rest }) ha hm hb h1 h2)

theorem step_writeRegister (h : Writing s addr v rest) (ha : addr.toNat % 8 = 0) (hr : addr.toNat < 0x1000)
    (hb : s.busy = false ∨ addr.toNat = 0x008 ∨ addr.toNat = 0x020) :
    step s = .next { regWrite { s with inputs := rest } addr.toNat v with reply := .ok } := by
  rw [step_write h]
  exact congrArg _ (hostWrite_register (s := { s with inputs := rest }) ha hr hb)

theorem step_writeMemory (h : Writing s addr v rest) (ha : addr.toNat % 8 = 0) (hm : HostMemory addr.toNat)
    (hb : s.busy = false) :
    step s = .next { s with inputs := rest, mem := Memory.store s.mem addr.toNat (wordsBytes [v]), reply := .ok } := by
  rw [step_write h]
  exact congrArg _ (hostWrite_memory (s := { s with inputs := rest }) ha hm hb)

theorem step_writeReadOnly (h : Writing s addr v rest) (ha : addr.toNat % 8 = 0) (hb : s.busy = false)
    (hr : (0x02000000 ≤ addr.toNat ∧ addr.toNat < 0x02800000) ∨ (0x04000000 ≤ addr.toNat ∧ addr.toNat < 0x04001000)) :
    step s = .next { s with inputs := rest, reply := .ok } := by
  rw [step_write h]
  exact congrArg _ (hostWrite_readOnly (s := { s with inputs := rest }) ha hb hr)

theorem step_readRegister (h : Reading s addr rest) (ha : addr.toNat % 8 = 0) (hr : addr.toNat < 0x1000)
    (hx : s.races addr.toNat = false) (hs : s.busy = false ∨ addr.toNat ≠ 0x008) :
    step s = .next { s with inputs := rest, reply := .data (regRead s addr.toNat) } := by
  rw [step_read h]
  exact congrArg _ (hostRead_register (s := { s with inputs := rest }) ha hr (by rw [races_inputs]; exact hx) hs)

theorem step_readRom (h : Reading s addr rest) (ha : addr.toNat % 8 = 0) (h1 : 0x04000000 ≤ addr.toNat)
    (h2 : addr.toNat < 0x04001000) (hx : s.races addr.toNat = false) :
    step s = .next { s with inputs := rest, reply := .data (romRead s.rom (addr.toNat - 0x04000000)) } := by
  rw [step_read h]
  exact congrArg _ (hostRead_rom (s := { s with inputs := rest }) ha h1 h2 (by rw [races_inputs]; exact hx))

theorem step_readMemory {w : Word} (h : Reading s addr rest) (ha : addr.toNat % 8 = 0)
    (hm : HostMemory addr.toNat ∨ (0x02000000 ≤ addr.toNat ∧ addr.toNat < 0x02800000)) (hx : s.races addr.toNat = false)
    (hw : Memory.word? s.mem addr.toNat = some w) :
    step s = .next { s with inputs := rest, reply := .data w } := by
  rw [step_read h]
  exact congrArg _ (hostRead_memory (s := { s with inputs := rest }) ha hm (by rw [races_inputs]; exact hx) hw)

end Sys2Proof.Laws
end

