-- ==== Sys2Proof/Laws/Unwrap.lean ====
section
/-! SUPPORT. UNWRAP's loop over finite phases: the turns the model counts are those counted over the real numbers
(42_datapath.md R167). -/

namespace Sys2Proof.Laws

open Sys2Proof.Machine

/-- The difference of two numbers, in units of 2^-1074. -/
theorem f64Real_sub {x y : F64} (hx : f64Finite x = true) (hy : f64Finite y = true) :
    f64Real x - f64Real y = ((f64Scaled x - f64Scaled y : ℤ) : ℝ) / 2 ^ 1074 := by
  rw [f64Real, f64Real, if_pos hx, if_pos hy]
  push_cast
  rw [sub_div]

/-- One correction of the loop. -/
theorem turnCorrection_eq (dr : Draw) (site : Nat) {p q : F64} (hp : f64Finite p = true) (hq : f64Finite q = true) :
    turnCorrection dr site (.val p) (.val q) = turnStep (f64Real q - f64Real p) := by
  have h1 : f64Real q - f64Real p > Real.pi ↔ f64Scaled q - f64Scaled p > piScaled := by
    rw [f64Real_sub hq hp, scaled_gt_pi_iff]
  have h2 : f64Real q - f64Real p < -Real.pi ↔ f64Scaled p - f64Scaled q > piScaled := by
    rw [← scaled_gt_pi_iff, ← f64Real_sub hp hq]
    constructor <;> intro h <;> linarith
  unfold turnCorrection turnStep
  simp only [hp, hq, Bool.and_self, if_true, gt_iff_lt] at *
  by_cases c1 : piScaled < f64Scaled q - f64Scaled p
  · rw [if_pos c1, if_pos (h1.2 c1)]
  · rw [if_neg c1, if_neg (fun h => c1 (h1.1 h))]
    by_cases c2 : piScaled < f64Scaled p - f64Scaled q
    · rw [if_pos c2, if_pos (h2.2 c2)]
    · rw [if_neg c2, if_neg (fun h => c2 (h2.1 h))]

/-- An operand that is a number. -/
theorem operand_val_of_holds {s : State} {addr : Nat} {x : ℝ} (h : HoldsReal s.mem addr x) :
    ∃ w, s.operand addr = .val w ∧ f64Finite w = true ∧ f64Real w = x := by
  obtain ⟨w, hw, hf, hx⟩ := h
  exact ⟨w, by simp [State.operand, hw], hf, hx⟩

/-- The whole loop. -/
theorem unwrapTurns_eq (dr : Draw) (phi : Nat → Exact) (phiR : ℕ → ℝ) (w0 : Nat) (prev : F64) (turns : Int) (i : Nat)
    (hprev : f64Finite prev = true)
    (hphi : ∀ j, j ≤ i → ∃ w, phi (w0 + j) = .val w ∧ f64Finite w = true ∧ f64Real w = phiR (w0 + j)) :
    unwrapTurns dr phi w0 (.val prev) turns i = turnsReal phiR w0 (f64Real prev) turns i := by
  induction i with
  | zero =>
    obtain ⟨w, hw, hf, hx⟩ := hphi 0 (Nat.le_refl 0)
    rw [Nat.add_zero] at hw hx
    rw [unwrapTurns, turnsReal, hw, turnCorrection_eq _ _ hprev hf, hx]
  | succ i ih =>
    obtain ⟨w, hw, hf, hx⟩ := hphi i (by omega)
    obtain ⟨w', hw', hf', hx'⟩ := hphi (i + 1) (Nat.le_refl _)
    rw [unwrapTurns, turnsReal, ih (fun j hj => hphi j (by omega)), hw, hw', turnCorrection_eq _ _ hf hf', hx, hx']

end Sys2Proof.Laws
end

