-- ==== Sys2Proof/Tests/Slice0.lean ====
section
/-! SUPPORT. Tests: the vectors of spec/95_test_vectors.md that Lean's kernel can evaluate, written out from that file and
never from the model's answers, and for every obligation with hypotheses a state that meets them. -/

namespace Sys2Proof.Tests

open Sys2Proof Sys2Proof.Machine Sys2Proof.Laws

-- one theorem at a time: each evaluation in the kernel takes memory and a thread of its own
set_option Elab.async false

/-! ### Operand ranges (30_encoding.md R82, R83, R86) -/

theorem test_wellFormed_refuses_slot : WellFormed (.cmul 2 1 7) = false ∧ WellFormed (.cmul 2 1 15) = false := by decide
theorem test_wellFormed_refuses_unwrap_stream : WellFormed (.unwrap 9 3 3) = false := by decide
theorem test_wellFormed_refuses_fdemod_stream : WellFormed (.fdemod 4 3 3 0) = false := by decide
theorem test_wellFormed_refuses_carrier : WellFormed (.fdemod 4 3 0 3) = false := by decide
theorem test_wellFormed_refuses_factor : WellFormed (.decim 6 5 0) = false := by decide
theorem test_wellFormed_accepts : WellFormed (.cmul 2 1 6) = true ∧ WellFormed (.unwrap 9 3 2) = true ∧
    WellFormed (.fdemod 4 3 2 2) = true ∧ WellFormed (.decim 6 5 1) = true ∧ WellFormed (.decim 6 5 4095) = true ∧
    WellFormed (.rstcarry 7) = true := by decide

/-! ### Decoding: the legal encodings of spec/95_test_vectors.md 2.1, one for each command -/

theorem test_decode_nop : decode 0x00000000#32 = .ok .nop := by decide
theorem test_decode_construct : decode 0x01000000#32 = .ok .construct := by decide
theorem test_decode_synth : decode 0x02000000#32 = .ok .synth := by decide
theorem test_decode_procblk : decode 0x03000000#32 = .ok .procblk := by decide
theorem test_decode_finaud : decode 0x04000000#32 = .ok .finaud := by decide
theorem test_decode_rstcarry : decode 0x05000007#32 = .ok (.rstcarry 7) := by decide
theorem test_decode_real : decode 0x10100000#32 = .ok (.real bufW1 bufSIN) := by decide
theorem test_decode_fft : decode 0x11100000#32 = .ok (.fft bufW1 bufSIN) := by decide
theorem test_decode_ifft : decode 0x12220000#32 = .ok (.ifft bufW2 bufW2) := by decide
theorem test_decode_cmul : decode 0x13210000#32 = .ok (.cmul bufW2 bufW1 0) := by decide
theorem test_decode_cmul_fsync : decode 0x13652000#32 = .ok (.cmul bufW6 bufW5 2) := by decide
theorem test_decode_env : decode 0x14820000#32 = .ok (.env bufOutEnv bufW2) := by decide
theorem test_decode_phase : decode 0x15320000#32 = .ok (.phase bufW3 bufW2) := by decide
theorem test_decode_unwrap : decode 0x16930000#32 = .ok (.unwrap bufOutUphase bufW3 0) := by decide
theorem test_decode_fdemod : decode 0x17490000#32 = .ok (.fdemod bufW4 bufOutUphase 0 0) := by decide
theorem test_decode_fdemod_left : decode 0x17430005#32 = .ok (.fdemod bufW4 bufW3 1 1) := by decide
theorem test_decode_fdemod_right : decode 0x1743000A#32 = .ok (.fdemod bufW4 bufW3 2 2) := by decide
/-- 30_encoding.md R83: S is IMM[1:0] and CSEL is IMM[3:2], in a word where they differ. -/
theorem test_decode_fdemod_fields : decode 0x17430006#32 = .ok (.fdemod bufW4 bufW3 2 1) := by decide
theorem test_decode_mtf : decode 0x18A40000#32 = .ok (.mtf bufOutDemod bufW4) := by decide
theorem test_decode_decim : decode 0x19D40020#32 = .ok (.decim bufOutAudl bufW4 32) := by decide
theorem test_decode_decim_factor : decode 0x19650FFF#32 = .ok (.decim bufW6 bufW5 4095) := by decide
theorem test_decode_copy : decode 0x1A700000#32 = .ok (.copy bufW7 bufSIN) := by decide
theorem test_decode_clr : decode 0x1BF00000#32 = .ok (.clr bufOutEfm) := by decide

/-- The decoder refuses the word. -/
def refuses (w : Word32) : Bool := !(decode w).toBool

/-- The illegal words of spec/95_test_vectors.md 2.1. -/
theorem test_decode_illegal : [0x00000001#32, 0x06000000#32, 0x0F000000#32, 0x1C000000#32, 0xFFFFFFFF#32, 0x05000008#32,
    0x02100000#32, 0x10101000#32, 0x13210001#32, 0x16430004#32, 0x17430010#32, 0x1B210000#32, 0x19657004#32].all refuses
    = true := by decide +kernel

/-- The host's question, of spec/95_test_vectors.md 2.1's word of DECIM. -/
theorem test_decodeTableWord : decodeTableWord 32 0x19D40020 = some (.decim 13 4 32) ∧
    decodeTableWord 32 0x06000000 = none := by decide

/-- Assembler lines of spec/95_test_vectors.md 2.1 and the pseudo-instructions of 30_encoding.md R89. -/
theorem test_assembler : assembleWords "FDEMOD" ["W4", "W3", "AUDR", "CAR_R"] = some [0x1743000A#32] ∧
    assembleWords "DECIM" ["W6", "W5", "0xfff"] = some [0x19650FFF#32] ∧
    assembleWords "CMUL" ["W6", "W5", "F_FSYNC"] = some [0x13652000#32] ∧
    assembleWords "RSTALL" [] = some [0x05000007#32] ∧
    assembleWords "FILTER" ["W2", "W1", "F0"] = some [0x11210000#32, 0x13220000#32, 0x12220000#32] ∧
    assembleWords "DECIM" ["W6", "W5", "4096"] = none := by decide +kernel

/-! ### The instance TI and the configuration BC of spec/95_test_vectors.md 0 -/

/-- TI's four EFM control points. -/
def tiPoints : List EfmPoint := [⟨0#64, 0x3FF0000000000000#64, 0#64⟩,
  ⟨0x412312D000000000#64, 0x3FF8000000000000#64, 0x3FE0000000000000#64⟩,
  ⟨0x413312D000000000#64, 0x4000000000000000#64, 0x3FF0000000000000#64⟩,
  ⟨0x413C9C3800000000#64, 0x3FF0000000000000#64, 0x4000000000000000#64⟩]

/-- TI's coefficient ROM; its PAL decoder tables, which no vector uses, are those of NTSC. -/
def tiRom : Rom where
  stdNtsc := #v[0x403DF853E2556B28#64, 0x400CA2E8BA2E8BA3#64, 0#64, 0x4080680000000000#64, 0x4070680000000000#64, 0#64,
    0x415EE62800000000#64, 0x40C7700000000000#64, 0x400268BA2E8BA2E9#64, 0x4006800000000000#64, 0x4012CCCCCCCCCCCD#64,
    0x4002666666666666#64, 0x403B19999999999A#64, 6#64, 0x4090000000000000#64, 4#64]
  stdPal := #v[0x4039000000000000#64, 0x4011BC068DB8BAC7#64, 0x400E000000000000#64, 0x4083880000000000#64,
    0x4073880000000000#64, 0#64, 0x415B159800000000#64, 0x40BF400000000000#64, 0x3FE5E00000000000#64,
    0x3FF1100000000000#64, 0x4012CCCCCCCCCCCD#64, 0x4002CCCCCCCCCCCD#64, 0x403B4CCCCCCCCCCD#64, 5#64,
    0x4090000000000000#64, 8#64]
  decNtsc := #v[0#64, 0#64, 0x4052C00000000000#64, 0x4039000000000000#64, 0x414AB3F000000000#64, 0x4169BFCC00000000#64,
    1#64, 0x411E848000000000#64, 1#64, 0x3FF0000000000000#64, 0x3FE6666666666666#64, 0x4166E36000000000#64,
    0x412E848000000000#64, 1#64, 0x41024F8000000000#64, 2#64]
  decNtscLow := #v[0x40C3880000000000#64, 1#64, 0x4054000000000000#64, 0x403E000000000000#64, 0x4146E36000000000#64,
    0x4168CBA800000000#64, 2#64, 0x41186A0000000000#64, 2#64, 0x3FECCCCCCCCCCCCD#64, 0x3FE3333333333333#64,
    0x4164FB1800000000#64, 0x411E848000000000#64, 2#64, 0x40F86A0000000000#64, 3#64]
  decPal := #v[0#64, 0#64, 0x4052C00000000000#64, 0x4039000000000000#64, 0x414AB3F000000000#64, 0x4169BFCC00000000#64,
    1#64, 0x411E848000000000#64, 1#64, 0x3FF0000000000000#64, 0x3FE6666666666666#64, 0x4166E36000000000#64,
    0x412E848000000000#64, 1#64, 0x41024F8000000000#64, 2#64]
  decPalLow := #v[0x40C3880000000000#64, 1#64, 0x4054000000000000#64, 0x403E000000000000#64, 0x4146E36000000000#64,
    0x4168CBA800000000#64, 2#64, 0x41186A0000000000#64, 2#64, 0x3FECCCCCCCCCCCCD#64, 0x3FE3333333333333#64,
    0x4164FB1800000000#64, 0x411E848000000000#64, 2#64, 0x40F86A0000000000#64, 3#64]
  efmScale := 0x3FE0000000000000#64
  efmPhaseFactor := 0x3FE0000000000000#64
  efmTable := Vector.ofFn (fun i => tiPoints.getD i ⟨0#64, 0#64, 0#64⟩)
  efmExtra := 0

/-- TI's other parameters. -/
def tiParams : Params where
  mtfScalar := .default
  audioMtfGain := .default
  pilotLineLen := .default
  deempHighAbsent := .keep
  fsyncBwHz := 0x413E848000000000#64
  fsyncOrder := 1

/-- The state after reset for TI. -/
def tiReset : State := { State.reset with rom := tiRom, params := tiParams }

/-- `tiReset` with BC written. -/
def blank : State := { tiReset with fsMhz := 0x4044000000000000#64, nreg := 16#32, blockcut := 2#32, blockcutEnd := 2#32 }

/-- What a step or a command leaves, when it answers a next state. -/
def after (s : State) (o : Host.Outcome State Fault Refusal) : State :=
  match o with
  | .next t => t
  | .fault _ => s
  | .refused _ => s

/-- The engine's turn with the command word `w`. -/
def run (w : Word32) (s : State) : State := after s (engineTurn (s.issue w))

/-- A host write and a host read of 64 bits. -/
def host (addr : Nat) (v : Word) (s : State) : State := hostWrite 8 addr v s
def readWord (addr : Nat) (s : State) : Reply := (hostRead 8 addr s).reply

/-- BC after a successful CONSTRUCT. -/
def built : State := run 0x01000000#32 blank

/-- Elements 0 to 15 of buffer `b` replaced: the reals of `xs`, imaginary parts `y`. -/
def withBuf (b : Buf) (xs : List Word) (y : Word) (s : State) : State :=
  s.storeWords (bufAddr b 0) (xs.flatMap (fun x => [x, y]))

/-- The real and imaginary words of the named elements of a buffer. -/
def elems (b : Buf) (ns : List Nat) (s : State) : List (Option Word) :=
  ns.flatMap (fun n => [Memory.word? s.mem (bufAddr b n), Memory.word? s.mem (bufAddr b n + 8)])

/-- 1.0, 2.0, 3.0 and -3.0. -/
def one : Word := 0x3FF0000000000000#64
def two : Word := 0x4000000000000000#64
def three : Word := 0x4008000000000000#64
def minusThree : Word := 0xC008000000000000#64

/-! ### Errors of the decoder and of the operand ranges (spec/95_test_vectors.md 2.1) -/

theorem test_illegal_errcode : (run 0x06000000#32 tiReset).errcode = 0x0600000000000607#64 ∧
    (run 0xFFFFFFFF#32 built).errcode = 0xFFFFFFFF0000FF07#64 ∧
    (run 0x05000008#32 tiReset).errcode = 0x0500000800000507#64 := by decide +kernel
theorem test_badOperand_errcode : (run 0x13217000#32 built).errcode = 0x0000000700001308#64 ∧
    (run 0x1321F000#32 built).errcode = 0x0000000F00001308#64 ∧ (run 0x16430003#32 built).errcode = 0x0000000300001608#64 ∧
    (run 0x17430003#32 built).errcode = 0x0000000300001708#64 ∧ (run 0x1743000C#32 built).errcode = 0x0000000300001708#64 ∧
    (run 0x19650000#32 built).errcode = 0x0000000000001908#64 := by decide +kernel
theorem test_notConstructed_errcode : (run 0x13217000#32 tiReset).errcode = 0x0000000000001305#64 ∧
    (run 0x16430003#32 tiReset).errcode = 0x0000000000001605#64 ∧ (run 0x1743000C#32 tiReset).errcode = 0x0000000000001705#64 ∧
    (run 0x19650000#32 tiReset).errcode = 0x0000000000001905#64 ∧ (run 0x02000000#32 tiReset).errcode = 0x0000000000000205#64 :=
  by decide +kernel

/-! ### Control commands (spec/95_test_vectors.md 2.8) -/

theorem test_nop : (run 0#32 { tiReset with status := 0x02#7 }).status = 0x42#7 ∧
    (run 0#32 { tiReset with status := 0x42#7 }).status = 0x42#7 := by decide +kernel
theorem test_rstcarry : let t := run 0x05000001#32 { tiReset with carryValid := 7#3, seedValid := 7#3 }
    t.carryValid = 6#3 ∧ t.seedValid = 6#3 := by decide +kernel

/-! ### CONSTRUCT (spec/95_test_vectors.md 1.2 E1, E2 and 2.2) -/

theorem test_construct : built.status = 0x42#7 ∧ built.win = 0x0000000E00000002#64 ∧ built.cn = 16#32 ∧
    built.cfsMhz = 0x4044000000000000#64 ∧ built.dp[2] = 0#64 ∧ built.dp[3] = 0x4039000000000000#64 ∧
    built.dp[14] = 0x41024F8000000000#64 ∧ built.deempAdj = one ∧ built.sp[16] = 910#64 ∧ built.sp[17] = 0#64 ∧
    built.errcode = 0#64 := by decide +kernel
/-- E1 for PAL and the largest block of 2.2; E2 case b: `fl(75 * 0.1)` = 7.5 and `fl(25 * 0.1)` = 2.5. -/
theorem test_construct_pal_and_deemphasis :
    (run 0x01000000#32 { blank with cfg := 1#32 }).sp[16] = 1135#64 ∧
    (run 0x01000000#32 { blank with cfg := 1#32 }).sp[17] = 960#64 ∧
    (run 0x01000000#32 { blank with nreg := 65536#32, blockcut := 1024#32, blockcutEnd := 0#32 }).win = 0x0001000000000400#64 ∧
    (let t := run 0x01000000#32 { blank with
        ovrMask := 0x10004#17, ovr := (blank.ovr.set 2 0x4052C00000000000#64).set 16 0x3FB999999999999A#64 }
     t.dp[2] = 0x401E000000000000#64 ∧ t.dp[3] = 0x4004000000000000#64) := by decide +kernel

/-- ERRCODE after a CONSTRUCT from BC with one change. -/
def constructError (s : State) : Word := (run 0x01000000#32 s).errcode

theorem test_construct_basic_errors : constructError { blank with cfg := 2#32, nreg := 3#32 } = 0x0000000200000101#64 ∧
    constructError { blank with nreg := 8#32 } = 0x0000010000000102#64 ∧
    constructError { blank with nreg := 24#32 } = 0x0000010000000102#64 ∧
    constructError { blank with nreg := 131072#32 } = 0x0000010000000102#64 ∧
    constructError { blank with fsMhz := 0x7FF8000000000000#64 } = 0x0000010100000102#64 ∧
    constructError { blank with cfg := 0x00010200#32 } = 0x0000000100000103#64 ∧
    constructError { blank with cfg := 0x00010000#32 } = 0x0000000200000103#64 ∧
    constructError { blank with blockcut := 8#32, blockcutEnd := 8#32 } = 0x0000010200000102#64 ∧
    constructError { blank with blockcutEnd := 17#32 } = 0x0000010200000102#64 := by decide +kernel
theorem test_construct_parameter_errors :
    constructError { blank with ovrMask := 0x4000#17, ovr := blank.ovr.set 14 0xBFF0000000000000#64 } = 0x0000000E00000102#64 ∧
    constructError { blank with ovrMask := 0x0040#17, ovr := blank.ovr.set 6 17#64 } = 0x0000000600000102#64 ∧
    constructError { blank with ovrMask := 0x0041#17, ovr := blank.ovr.set 0 0xBFF0000000000000#64 } = 0x0000000000000102#64 ∧
    constructError { blank with ovrMask := 0x0020#17, ovr := blank.ovr.set 5 0x417312D000000000#64 } = 0x0000002000000102#64 ∧
    constructError { blank with fsMhz := 0x403B0CCCCCCCCCCD#64 } = 0x0000002300000102#64 ∧
    constructError { blank with cfg := 0x00010400#32, ovrMask := 3#17, ovr := (blank.ovr.set 0 0x415E848000000000#64).set 1 1#64 }
      = 0x0000002500000102#64 ∧
    constructError { blank with cfg := 0x00000400#32, ovrMask := 3#17, ovr := (blank.ovr.set 0 0x415E848000000000#64).set 1 1#64 }
      = 0#64 := by decide +kernel

/-! ### Datapath commands (spec/95_test_vectors.md 2.4 to 2.8), on words that no rounding touches -/

/-- Sixteen elements 0. -/
def zeros : List Word := List.replicate 16 0#64

/-- SIN[0] = 3 - 2j and 0 otherwise: W1[0] = 3 + 0j and 0 otherwise. -/
theorem test_real : elems 1 [0, 15]
    (run 0x10100000#32 (built.storeWords (bufAddr 0 0) ([three, 0xC000000000000000#64] ++ List.replicate 30 0#64)))
    = [some three, some 0#64, some 0#64, some 0#64] := by decide +kernel
/-- A block of zeros transforms to zeros (42_datapath.md R162); element 16 is not touched (10_state.md R40). -/
theorem test_fft : State.fftElem (withBuf 0 zeros 0#64 built) 0 15 = cVanished ∧
    elems 1 [16] (run 0x11100000#32 (withBuf 0 zeros 0#64 built)) = [none, none] := by decide +kernel
theorem test_ifft : State.ifftElem (withBuf 2 zeros 0x8000000000000000#64 built) 2 3 = cVanished ∧
    elems 2 [16] (run 0x12220000#32 (withBuf 2 zeros 0#64 built)) = [none, none] := by decide +kernel
/-- A number times a bin that is exactly 0 is exactly 0 (42_datapath.md R164), a number 0 times another bin is a product; 2.5's
word before a SYNTH. -/
theorem test_cmul : (run 0x13210000#32 built).errcode = 0x0000000000001306#64 ∧
    (let s := (withBuf 1 [one, 0#64] two built).storeWords (slotAddr 0 0) [0#64, 0#64, one, one]
     s.cmulElem 1 0 0 = cVanished ∧
     s.cmulElem 1 0 1 = ⟨.sub (.mul (.val 0#64) (.val one)) (.mul (.val two) (.val one)),
       .add (.mul (.val 0#64) (.val one)) (.mul (.val two) (.val one))⟩) := by decide +kernel
/-- 2.6: ENV and PHASE of 0 are 0, and their imaginary parts the 0 that the rules write. -/
theorem test_env : modulus (State.bufElem (withBuf 2 zeros 0#64 built) 2 1) = .zero ∧
    (elems 8 [1] (run 0x14820000#32 (withBuf 2 zeros 0#64 built))).getLast? = some (some 0#64) := by decide +kernel
theorem test_phase : angle (State.bufElem (withBuf 2 zeros 0#64 built) 2 1) = .zero ∧
    (elems 3 [1] (run 0x15320000#32 (withBuf 2 zeros 0#64 built))).getLast? = some (some 0#64) := by decide +kernel
/-- U1 of 2.7, with phi[0] and phi[1] unwritten: they are not read. -/
theorem test_unwrap_u1 : let t := run 0x16430000#32 (built.storeWords (bufAddr 3 2)
      ((List.replicate 6 [three, 0#64, minusThree, 0#64]).flatten))
    t.carryPh[0] = minusThree ∧ t.carryTurns[0] = 1#64 ∧ t.carryValid = 1#3 ∧ t.seedValid = 0#3 ∧ t.seedU[0] = 0#64 ∧
      elems 4 [1] t = [some 0#64, some 0#64] := by decide +kernel
/-- U3 of 2.7, and U2's step of the binary64 pi, which is not corrected. -/
theorem test_unwrap_u2_u3 :
    (let t := run 0x16430000#32 (withBuf 3 (List.replicate 16 minusThree) 0#64
      { built with carryValid := 1#3, carryPh := #v[three, 0#64, 0#64], carryTurns := #v[5#64, 0#64, 0#64] })
     t.carryTurns[0] = 6#64 ∧ t.seedValid = 1#3 ∧ t.carryPh[0] = minusThree) ∧
    (run 0x16430000#32 (withBuf 3 ([0#64, 0#64, 0#64] ++ List.replicate 13 0x400921FB54442D18#64) 0#64 built)).carryTurns[0]
      = 0#64 := by decide +kernel
/-- F5 of 2.7: the one sample of a window of one, without a seed, is 0. -/
theorem test_fdemod : let t := run 0x17540000#32 (withBuf 4 (List.replicate 16 one) 0#64
      (run 0x01000000#32 { blank with blockcut := 15#32, blockcutEnd := 0#32 }))
    t.win = 0x000000100000000F#64 ∧ elems 5 [14, 15] t = List.replicate 4 (some 0#64) ∧ t.carryValid = 0#3 := by
  decide +kernel
/-- 2.8: MTF with the default function and MTF_MULT = 1 copies the window. -/
theorem test_mtf : elems 10 [1, 2, 13, 14] (run 0x18A40000#32 (withBuf 4 (List.replicate 16 two) 0#64 built)) =
    [some 0#64, some 0#64, some two, some 0#64, some two, some 0#64, some 0#64, some 0#64] := by decide +kernel
/-- 100.0 to 115.0. -/
def hundreds : List Word :=
  [0x4059000000000000#64, 0x4059400000000000#64, 0x4059800000000000#64, 0x4059C00000000000#64, 0x405A000000000000#64,
   0x405A400000000000#64, 0x405A800000000000#64, 0x405AC00000000000#64, 0x405B000000000000#64, 0x405B400000000000#64,
   0x405B800000000000#64, 0x405BC00000000000#64, 0x405C000000000000#64, 0x405C400000000000#64, 0x405C800000000000#64,
   0x405CC00000000000#64]
/-- The first row of 2.8's DECIM table: window (1, 16), S = 5, DF = 4 keep samples 3, 7, 11 and 15. -/
theorem test_decim : let t := run 0x19650004#32 (withBuf 5 hundreds 0#64 { built with win := 0x0000001000000001#64, blkStart := 5#64 })
    t.audCount = 4#32 ∧ t.audFirst = 8#64 ∧
    elems 6 [0, 3, 4] t = [some 0x4059C00000000000#64, some 0#64, some 0x405CC00000000000#64, some 0#64, some 0#64, some 0#64] :=
  by decide +kernel
/-- Its rows of S = 2^64 - 1 and of no sample picked. -/
theorem test_decim_wrap :
    (let t := run 0x19650002#32 (withBuf 5 hundreds 0#64 { built with blkStart := 0xFFFFFFFFFFFFFFFF#64 })
     t.audCount = 6#32 ∧ t.audFirst = 2#64 ∧ elems 6 [0] t = [some 0x4059C00000000000#64, some 0#64]) ∧
    (let t := run 0x19650FFF#32 (withBuf 5 hundreds 0#64 built)
     t.audCount = 0#32 ∧ t.audFirst = 0#64) := by decide +kernel
theorem test_copy : elems 7 [0, 15, 16] (run 0x1A700000#32 (withBuf 0 hundreds one built)) =
    [some 0x4059000000000000#64, some one, some 0x405CC00000000000#64, some one, none, none] := by decide +kernel
theorem test_clr : elems 1 [0, 15, 16] (run 0x1B100000#32 (withBuf 1 (List.replicate 17 one) one built)) =
    [some 0#64, some 0#64, some 0#64, some 0#64, some one, some one] := by decide +kernel

/-! ### SYNTH (spec/95_test_vectors.md 2.3): the values of bins, whose bank is too long to evaluate -/

/-- Bins 0, 8 and 9 of F_RF, 8 of F_SYNC and 0 of F_FSYNC are exactly 0; F_ALPF1 is (1, 0, ..., 0); no audio, no audio slots;
F_EFM is 0 from bin 1. -/
theorem test_synth_bins : (∀ fk ∈ [(0, 0), (0, 8), (0, 9), (1, 8), (2, 0), (3, 1), (4, 1), (5, 1), (6, 1), (6, 15), (7, 0)],
      put .fixed 0 (built.slotValue fk.1 fk.2).re = 0#64 ∧ put .fixed 8 (built.slotValue fk.1 fk.2).im = 0#64) ∧
    built.slotValue 6 0 = cOne := by decide +kernel
/-- A band-pass of no width, of a negative one and of order 0 has no stated bins but those at DC and Nyquist (log 22). -/
theorem test_synth_unstated : built.bandAround built.fsyncHz 0#64 1 3 = cNoValue ∧
    built.bandAround built.fsyncHz 0xC184000000000000#64 1 3 = cNoValue ∧ butterProto 0 cOne = cNoValue ∧
    built.bandAround built.fsyncHz 0#64 1 8 = cZero := by decide +kernel
/-- The values of TI's amplitude and phase splines at the control points. -/
def efmValues : Option (List Rat) := (efmCurves? tiRom).map (fun c =>
  [c.1.eval 0, c.1.eval 625000, c.1.eval 1250000, c.1.eval 1875000, c.2.eval 1250000, c.2.eval 1875000])
/-- E3: with N = 128 the control points lie on bins 0, 2, 4 and 6; bin 7 is 0. -/
theorem test_efm : efmValues = some [1, 3 / 2, 2, 1, 1 / 2, 1] ∧
    fbin 128 built.fsRat 6 = 1875000 ∧ State.binEfm { built with cn := 128#32 } (efmCurves? tiRom) 7 = cZero := by
  decide +kernel

/-! ### PROCBLK and FINAUD (spec/95_test_vectors.md 2.9, 2.10) -/

theorem test_procblk_errors : (run 0x03000000#32 tiReset).errcode = 0x0000000000000305#64 ∧
    (run 0x03000000#32 built).errcode = 0x0000000000000306#64 ∧
    (run 0x03000000#32 (host 0x0F0 15#64 { built with status := 0x06#7 })).errcode = 0x0000000F00000304#64 := by decide +kernel
theorem test_finaud_errors : (run 0x04000000#32 tiReset).errcode = 0x0000000000000405#64 ∧
    (run 0x04000000#32 (host 0x0F8 0x80001#64 built)).errcode = 0x0008000100000409#64 ∧
    (run 0x04000000#32 (host 0x100 0x7FF8000000000000#64 built)).errcode = 0x0000011000000402#64 := by decide +kernel

/-! ### The bus (spec/95_test_vectors.md 2.11) -/

theorem test_bus_registers : readWord 0x000 tiReset = .data 0x4C44464200000007#64 ∧ readWord 0x018 tiReset = .data 0#64 ∧
    readWord 0xF00 tiReset = .data 0#64 ∧ readWord 0x000 (host 0x000 0#64 tiReset) = .data 0x4C44464200000007#64 ∧
    (host 0x008 0x48#64 { tiReset with status := 0x4E#7 }).status = 0x06#7 ∧
    (host 0x008 0x27#64 { tiReset with status := 0x06#7 }).status = 0x06#7 ∧
    (host 0x0F0 0x100000010#64 tiReset).blkLen = 16#32 := by decide +kernel
theorem test_bus_errors : readWord 0x004 tiReset = .busError ∧ (hostRead 4 0x008 tiReset).reply = .busError ∧
    readWord 0x05000000 tiReset = .busError ∧ readWord 0x04000100 tiReset = .data 0#64 ∧ readWord 0x04000300 tiReset = .data 4#64 ∧
    (host 0x02000000 one tiReset).mem = [] ∧ readWord 0x03900000 tiReset = .busError := by decide +kernel
/-- 20_memory.md R66: the last control point's words, and RsvdZ after it. -/
theorem test_bus_rom : readWord 0x04000368 tiReset = .data 0x413C9C3800000000#64 ∧ readWord 0x04000370 tiReset = .data one ∧
    readWord 0x04000378 tiReset = .data two ∧ readWord 0x04000380 tiReset = .data 0#64 ∧
    readWord 0x04000FF8 tiReset = .data 0#64 ∧ readWord 0x04000028 tiReset = .data 0#64 := by decide +kernel
/-- 20_memory.md R69, 10_state.md R47: ERRCODE races where the running command ends with an error, its results where it does
not. -/
theorem test_bus_races : (blank.issue 0x01000000#32).races 0x110 = true ∧ (blank.issue 0x01000000#32).races 0x010 = false ∧
    (State.issue { blank with nreg := 3#32 } 0x01000000#32).races 0x110 = false ∧
    (State.issue { blank with nreg := 3#32 } 0x01000000#32).races 0x010 = true ∧
    (tiReset.issue 0xFF000000#32).races 0x010 = true ∧ (blank.issue 0x01000000#32).racingStatus = 0x0E#7 ∧
    (State.issue { blank with nreg := 3#32 } 0x01000000#32).racingStatus = 0x08#7 ∧
    readWord 0x108 (blank.issue 0x05000001#32) = .data 0#64 := by decide +kernel
theorem test_bus_busy : (host 0x018 0x01000000#64 (tiReset.issue 0#32)).status = 0x11#7 ∧
    (host 0x018 0x01000000#64 (tiReset.issue 0#32)).cmd = 0#32 ∧ (host 0x020 1#64 (tiReset.issue 0#32)).irqen = 1#2 ∧
    (run 0#32 (host 0x020 1#64 tiReset)).irq = true ∧ (host 0x008 0x40#64 (run 0#32 (host 0x020 1#64 tiReset))).irq = false ∧
    (run 0xFF000000#32 (host 0x020 2#64 tiReset)).irq = true := by decide +kernel
/-- 20_memory.md R62: the least significant byte first. -/
theorem test_bus_bytes : (host 0x01000008 0x0807060504030201#64 tiReset).mem =
    [(0x01000008, 1#8), (0x01000009, 2#8), (0x0100000A, 3#8), (0x0100000B, 4#8), (0x0100000C, 5#8), (0x0100000D, 6#8),
     (0x0100000E, 7#8), (0x0100000F, 8#8)] := by decide +kernel
/-- The next step after `withFetchWord` runs the command. -/
theorem test_withFetchWord : (after blank (step (blank.withFetchWord 32 0x01000000))).status = 0x42#7 ∧
    (after blank (step (State.reset.withFetchWord 32 0x13217000))).errcode = 0x0000000000001305#64 := by decide +kernel

/-! ### Witnesses: the states that the hypotheses of the obligations are met by -/

/-- `blank` with the CONSTRUCT issued. -/
def issued : State := blank.issue 0x01000000#32

theorem inv_issued : Inv issued where
  memory := by decide
  mapped := fun c h => absurd h List.not_mem_nil
  bank := by decide +kernel
  bankWhole := fun h => absurd h (by decide +kernel)
  geometry := fun h => absurd h (by decide +kernel)
  rate := fun h => absurd h (by decide +kernel)
  standard := fun h => absurd h (by decide +kernel)
  declared := fun h => absurd h (by decide +kernel)
  ranges := fun h => absurd h (by decide +kernel)
  reserved := by decide +kernel
  errReserved := by decide +kernel
  errCodes := by decide +kernel
  errMeans := by decide +kernel
  carries := by decide +kernel
  counts := by decide +kernel

theorem checks_issued : firstFailure issued.constructChecks = none := by decide +kernel

theorem exec_construct_of_pass {s : State} (h : firstFailure s.constructChecks = none) :
    exec .construct s = .next (effConstruct s).finish := by
  simp only [exec, execConstruct, h, State.complete]

theorem run_of_exec {w : Word32} {i : Instr} {s t : State} (hw : decode w = .ok i) (h : exec i (s.issue w) = .next t)
    (hb : (s.issue w).busy = true) : run w s = t := by
  have hc : (s.issue w).cmd = w := rfl
  simp only [run, engineTurn, hb, if_true, runCommand, hc, hw, h, after]

theorem built_eq : built = (effConstruct issued).finish :=
  run_of_exec test_decode_construct (exec_construct_of_pass checks_issued) (by decide +kernel)

theorem inv_built : Inv built := by rw [built_eq]; exact (inv_issued.construct checks_issued).finish

theorem constructed_built : built.constructed = true ∧ built.geometryOk = true ∧ built.bankValid = false := by decide +kernel

/-- `built` after a SYNTH. -/
def banked : State := (effSynth built).finish

theorem inv_banked : Inv banked := (Inv.synth ⟨inv_built, constructed_built.1⟩).finish

theorem constructed_banked : banked.constructed = true ∧ banked.geometryOk = true ∧ banked.bankValid = true := by
  decide +kernel

theorem exec_synth_of_ok {s : State} (hc : s.constructed = true) (hg : s.geometryOk = true) :
    exec .synth s = .next (effSynth s).finish := by
  simp only [exec, execSynth, ifConstructed_true hc, completeOnBlock_ok hg]

theorem exec_synth_built : exec .synth built = .next banked := exec_synth_of_ok constructed_built.1 constructed_built.2.1

/-- `built` with a block of zeros in SIN. -/
def zeroed : State := withBuf 0 zeros 0#64 built

theorem inv_zerosBuf {s : State} (h : Inv s) : Inv (withBuf 0 zeros 0#64 s) :=
  h.stored _ _ s.draws (fun a h1 h2 => by
    have h : 8 * (zeros.flatMap (fun x => [x, 0#64])).length = 256 := by decide
    rw [h] at h2
    have hb : bufAddr 0 0 = 0x01000000 := by decide
    rw [hb] at h1 h2
    exact .inl (targetOf_ram (.inl (by omega))))

theorem inv_zeroed : Inv zeroed := inv_zerosBuf inv_built

theorem constructed_zeroed : zeroed.constructed = true ∧ zeroed.geometryOk = true ∧ zeroed.n = 16 ∧ zeroed.w0 = 2 ∧
    zeroed.w1 = 14 := by decide +kernel

theorem words_zeroed (n : Nat) (h : n < 16) :
    Memory.word? zeroed.mem (bufAddr 0 n) = some 0#64 ∧ Memory.word? zeroed.mem (bufAddr 0 n + 8) = some 0#64 := by
  have hl : zeros.flatMap (fun x => [x, 0#64]) = List.replicate 32 0#64 := by decide
  have hm : zeroed.mem = Memory.store built.mem (bufAddr 0 0) (wordsBytes (zeros.flatMap (fun x => [x, 0#64]))) := rfl
  rw [hm, hl, bufAddr_eq 0 n]
  refine ⟨?_, ?_⟩
  · exact (congrArg _ (by omega)).trans (word?_store_inside _ _ _ (2 * n) _ (by rw [List.getElem?_replicate, if_pos (by omega)]))
  · exact (congrArg _ (by omega)).trans (word?_store_inside _ _ _ (2 * n + 1) _ (by rw [List.getElem?_replicate, if_pos (by omega)]))

theorem holds_zeroed (n : Nat) (h : n < 16) : HoldsReal zeroed.mem (bufAddr 0 n) 0 ∧ HoldsComplex zeroed.mem (bufAddr 0 n) 0 :=
  ⟨⟨_, (words_zeroed n h).1, by decide, f64Real_zero⟩, ⟨_, (words_zeroed n h).1, by decide, f64Real_zero⟩,
    ⟨_, (words_zeroed n h).2, by decide, f64Real_zero⟩⟩

/-! A tolerance that every implementation meets. -/

theorem abs_f64Real_le (x : F64) : |f64Real x| ≤ 2 ^ 1024 := by
  unfold f64Real
  split
  · rename_i hf
    have he : f64Exp x ≤ 2046 := by
      have h1 : f64Exp x < 2048 := (x.extractLsb' 52 11).isLt
      have h2 : f64Exp x ≠ 2047 := by simpa [f64Finite] using hf
      omega
    have hfr : f64Frac x < 2 ^ 52 := (x.extractLsb' 0 52).isLt
    have hm : f64Magnitude x ≤ 2 ^ (1024 + 1074) := by
      unfold f64Magnitude
      split
      · exact (le_of_lt hfr).trans (pow_le_pow_right₀ one_le_two (by norm_num : 52 ≤ 1024 + 1074))
      · rw [show 1024 + 1074 = 53 + 2045 by norm_num, Nat.pow_add]
        exact Nat.mul_le_mul (by omega) (pow_le_pow_right₀ one_le_two (Nat.sub_le_of_le_add (by omega)))
    have hs : |(f64Scaled x : ℝ)| = (f64Magnitude x : ℝ) := by
      unfold f64Scaled; split <;> simp
    rw [abs_div, hs, abs_of_pos (by positivity : (0 : ℝ) < 2 ^ 1074), div_le_iff₀ (by positivity)]
    rw [← pow_add]
    exact_mod_cast hm
  · simp

theorem tolerance_wide : Tolerance (fun x => 2 ^ 1024 + |x|) :=
  ⟨fun x => by positivity, fun d site e _ =>
    (abs_sub _ _).trans (add_le_add (abs_f64Real_le _) le_rfl)⟩

/-! ### Witnesses: command words, the step, reset, control commands -/

theorem witness_EncodeOfDecode : decode 0x11100000#32 = .ok (.fft bufW1 bufSIN) := by decide

/-- An unassigned OPC and the least reserved bit, each in a busy engine. -/
theorem witness_IllegalWords : (IllegalWord 0x06000000#32 ∧ (tiReset.issue 0x06000000#32).cmd = 0x06000000#32 ∧
      (tiReset.issue 0x06000000#32).busy = true) ∧
    IllegalWord 0x00000001#32 ∧ (tiReset.issue 0x00000001#32).busy = true := by
  refine ⟨⟨trivial, rfl, by decide +kernel⟩, ?_, by decide +kernel⟩
  show (0x00000001#32 : Word32) &&& 0x00FFFFFF#32 &&& ~~~0x00000000#32 ≠ 0#32
  decide

theorem witness_FirstChecks : (needsConstruct .synth = true ∧ tiReset.constructed = false) ∧
    built.constructed = true ∧ outOfRange (.cmul 2 1 7) = some 7#32 ∧ outOfRange (.cmul 2 1 15) = some 15#32 ∧
    outOfRange (.unwrap 4 3 3) = some 3#32 ∧ outOfRange (.fdemod 4 3 3 0) = some 3#32 ∧
    outOfRange (.fdemod 4 3 0 3) = some 3#32 ∧ outOfRange (.decim 6 5 0) = some 0#32 := by decide +kernel

theorem witness_StepRunsDecodedCommand : issued.busy = true ∧ decode issued.cmd = .ok .construct ∧ issued.inputs = [] ∧
    ({ issued with inputs := [.engine, .reset] } : State).inputs = .engine :: [.reset] :=
  ⟨by decide +kernel, by decide, rfl, rfl⟩

theorem witness_IdleEngineHoldsState : tiReset.busy = false ∧ tiReset.inputs = [] ∧
    ({ tiReset with inputs := [.engine] } : State).inputs = .engine :: [] := ⟨by decide +kernel, rfl, rfl⟩

theorem witness_CommandIssue :
    (Writing { tiReset with inputs := [.write 8 0x018#32 0#64] } 0x018#32 0#64 [] ∧ tiReset.busy = false) ∧
    (Writing { issued with inputs := [.write 8 0x018#32 0#64] } 0x018#32 0#64 [] ∧ issued.busy = true) ∧
    Reading { tiReset with inputs := [.read 8 0x018#32] } 0x018#32 [] :=
  ⟨⟨rfl, by decide +kernel⟩, ⟨rfl, by decide +kernel⟩, rfl⟩

theorem witness_ResetRegisters : Resetting { issued with inputs := [.reset] } := rfl

theorem witness_ResetAbandonsCommand : issued.busy = true ∧
    ({ issued with inputs := [.reset, .engine] } : State).inputs = .reset :: [.engine] := ⟨by decide +kernel, rfl⟩

/-- A step runs the CONSTRUCT of `issued`. -/
theorem step_issued : step issued = .next built := by
  rw [built_eq, ← exec_construct_of_pass checks_issued]
  exact (step_idle rfl).trans (engineTurn_ok (by decide +kernel) test_decode_construct)

theorem witness_StepKeepsInvariant : Inv issued ∧ step issued = .next built := ⟨inv_issued, step_issued⟩

theorem witness_StepAnswersNext : Inv issued ∧ Inv built ∧ Inv banked := ⟨inv_issued, inv_built, inv_banked⟩

theorem witness_NopOnlySetsDone :
    Writing { tiReset with inputs := [.write 8 0x018#32 0#64, .engine] } 0x018#32 0#64 (.engine :: []) ∧
      tiReset.busy = false := ⟨rfl, by decide +kernel⟩

theorem witness_RstcarryClearsMaskedStreams : (1#3).getLsbD 0 = true ∧ (4#3).getLsbD 2 = true := by decide

/-! ### Witnesses: CONSTRUCT -/

theorem witness_ConstructCommits : ConstructPasses blank := (constructChecks_pass_iff blank).1 (by decide +kernel)

theorem witness_ConstructDecoderParameters : ConstructPasses issued ∧ exec .construct issued = .next built ∧
    f64Finite (decRom issued)[3] = true :=
  ⟨(constructChecks_pass_iff issued).1 checks_issued, (exec_construct_of_pass checks_issued).trans (congrArg _ built_eq.symm),
    by decide +kernel⟩

theorem witness_ProductIsNearest : f64Finite two = true ∧ f64Finite three = true ∧ f64Finite (f64Mul two three) = true ∧
    f64Finite one = true := by decide +kernel

theorem fsc_pos : (0 : ℝ) < f64Real (stdRom issued)[1] :=
  (f64Real_pos_iff (by decide +kernel)).2 (by decide +kernel)

/-- `issued` with an OPEN PILOT_LINELEN. -/
def piloted : State := { issued with params := { tiParams with pilotLineLen := .other 3 } }

theorem checks_piloted : firstFailure piloted.constructChecks = none := by decide +kernel

/-- The OPEN form of PILOT_LINELEN. -/
theorem witness_ConstructStandardParameters_open : Tolerance (fun x => 2 ^ 1024 + |x|) ∧ ConstructPasses piloted ∧
    exec .construct piloted = .next (effConstruct piloted).finish ∧ piloted.params.pilotLineLen = .other 3 :=
  ⟨tolerance_wide, (constructChecks_pass_iff piloted).1 checks_piloted, exec_construct_of_pass checks_piloted, rfl⟩

/-- A line frequency, a line length, and the default PILOT_LINELEN. -/
theorem witness_ConstructStandardParameters : Tolerance (fun x => 2 ^ 1024 + |x|) ∧ ConstructPasses issued ∧
    exec .construct issued = .next built ∧ f64Finite (stdRom issued)[0] = true ∧ f64Finite (stdRom issued)[1] = true ∧
    f64Finite (stdRom issued)[3] = true ∧ cfgStdsel issued.cfg = 0#8 ∧ f64Real (stdRom issued)[1] ≠ 0 ∧
    f64Real (stdRom issued)[1] / (455 / 2) ≠ 0 ∧
    -(2 ^ 63) ≤ ⌊1 / (f64Real (stdRom issued)[1] / (455 / 2)) * 4 * f64Real (stdRom issued)[1]⌋ ∧
    ⌊1 / (f64Real (stdRom issued)[1] / (455 / 2)) * 4 * f64Real (stdRom issued)[1]⌋ < 2 ^ 63 ∧
    issued.params.pilotLineLen = .default ∧ f64Finite (stdRom issued)[2] = true ∧
    -(2 ^ 63) ≤ ⌊1 / (f64Real (stdRom issued)[1] / (455 / 2)) * 4 * f64Real (stdRom issued)[2]⌋ ∧
    ⌊1 / (f64Real (stdRom issued)[1] / (455 / 2)) * 4 * f64Real (stdRom issued)[2]⌋ < 2 ^ 63 := by
  have h := fsc_pos
  have hp : f64Real (stdRom issued)[2] = 0 := by
    rw [show (stdRom issued)[2] = 0#64 from by decide +kernel]
    exact f64Real_zero
  have hf : 1 / (f64Real (stdRom issued)[1] / (455 / 2)) * 4 * f64Real (stdRom issued)[1] = ((910 : ℤ) : ℝ) := by
    have h' := h.ne'
    field_simp
    norm_num
  refine ⟨tolerance_wide, witness_ConstructDecoderParameters.1, witness_ConstructDecoderParameters.2.1, by decide +kernel,
    by decide +kernel, by decide +kernel, by decide +kernel, h.ne', by positivity, ?_⟩
  simp only [hf, hp, Int.floor_intCast, mul_zero, Int.floor_zero]
  exact ⟨by norm_num, by norm_num, rfl, by decide +kernel, by norm_num, by norm_num⟩

/-- One state for each check, all the checks before it passed: STDSEL 2, N below the legal range (and N above it), an infinite
rate, DDA and AALEVEL without HAS_AUDIO, and an empty window. -/
theorem witness_ConstructFirstErrors :
    ¬ (cfgStdsel ({ blank with cfg := 2#32 } : State).cfg).toNat ≤ 1 ∧
    (let s := { blank with nreg := 8#32 }
     (cfgStdsel s.cfg).toNat ≤ 1 ∧ ¬ BlockLengthOk s.nreg.toNat ∧ ¬ BlockLengthOk (131072#32).toNat) ∧
    (let s := { blank with fsMhz := 0x7FF0000000000000#64 }
     (cfgStdsel s.cfg).toNat ≤ 1 ∧ BlockLengthOk s.nreg.toNat ∧ ¬ RateOk s.fsMhz) ∧
    (let s := { blank with cfg := 0x200#32 }
     (cfgStdsel s.cfg).toNat ≤ 1 ∧ BlockLengthOk s.nreg.toNat ∧ RateOk s.fsMhz ∧ cfgDda s.cfg = true ∧
       cfgHasAudio s.cfg = false) ∧
    (let s := { blank with cfg := 0x10000#32 }
     (cfgStdsel s.cfg).toNat ≤ 1 ∧ BlockLengthOk s.nreg.toNat ∧ RateOk s.fsMhz ∧ cfgDda s.cfg = false ∧
       cfgAaLevel s.cfg ≠ 0#16 ∧ cfgHasAudio s.cfg = false) ∧
    (let s := { blank with blockcut := 8#32, blockcutEnd := 8#32 }
     (cfgStdsel s.cfg).toNat ≤ 1 ∧ BlockLengthOk s.nreg.toNat ∧ RateOk s.fsMhz ∧
       (cfgDda s.cfg = true ∨ cfgAaLevel s.cfg ≠ 0#16 → cfgHasAudio s.cfg = true) ∧ ¬ WindowOk s) := by
  have hn : BlockLengthOk blank.nreg.toNat := witness_ConstructCommits.basics.blockLength
  have hr : RateOk blank.fsMhz := witness_ConstructCommits.basics.rate
  refine ⟨by decide +kernel, ⟨by decide +kernel, ?_, ?_⟩, ⟨by decide +kernel, hn, fun h => absurd h.1 (by decide +kernel)⟩,
    ⟨by decide +kernel, hn, hr, by decide +kernel, by decide +kernel⟩,
    ⟨by decide +kernel, hn, hr, by decide +kernel, by decide +kernel, by decide +kernel⟩,
    by decide +kernel, hn, hr, by decide +kernel, fun h => absurd h.2 (by decide +kernel)⟩
  · rw [← legalBlockLength_iff]; decide +kernel
  · rw [← legalBlockLength_iff]; decide +kernel

/-- The override AUDIO_FILTERWIDTH = -1.0, the first outside its domain, and VBPF_HIGH = fs/2, the first row of the final
range check. -/
theorem witness_ConstructParameterErrors :
    (let s := { blank with ovrMask := 0x4000#17, ovr := blank.ovr.set 14 0xBFF0000000000000#64 }
     BasicsPass s ∧ ¬ OverrideOk s 14 ∧ ∀ j, j < 14 → OverrideOk s j) ∧
    (let s := { blank with ovrMask := 0x0020#17, ovr := blank.ovr.set 5 0x417312D000000000#64 }
     BasicsPass s ∧ (∀ i, OverrideOk s i) ∧ ¬ RangeOk s 0 ∧ ∀ l, l < 0 → RangeOk s l) := by
  have hb : ∀ (m : BitVec 17) (o : Vector Word 17), BasicsPass { blank with ovrMask := m, ovr := o } := fun m o =>
    ⟨witness_ConstructCommits.basics.standard, witness_ConstructCommits.basics.blockLength,
      witness_ConstructCommits.basics.rate, witness_ConstructCommits.basics.digital, witness_ConstructCommits.basics.analog,
      witness_ConstructCommits.basics.window⟩
  refine ⟨⟨hb _ _, ?_, ?_⟩, hb _ _, ?_, ?_, fun l h => absurd h (Nat.not_lt_zero l)⟩
  · rw [← overrideCheck_iff]; decide +kernel
  · intro j hj
    rw [← overrideCheck_iff]
    revert j; decide +kernel
  · intro i
    rw [← overrideCheck_iff]
    revert i; decide +kernel
  · rw [← rangeCheck_iff (hb _ _).rate]; decide +kernel

/-! ### Witnesses: SYNTH -/

theorem witness_SynthFillsBank : tiReset.constructed = false ∧ built.constructed = true ∧ built.geometryOk = true ∧
    15 < built.n := by decide +kernel

/-- A buffer's words are no other part of the state. -/
theorem withBuf_frame (b : Buf) (xs : List Word) (y : Word) (s : State) : (withBuf b xs y s).cn = s.cn ∧
    (withBuf b xs y s).cfsMhz = s.cfsMhz ∧ (withBuf b xs y s).sp = s.sp ∧ (withBuf b xs y s).dp = s.dp ∧
    (withBuf b xs y s).cflags = s.cflags ∧ (withBuf b xs y s).rom = s.rom ∧ (withBuf b xs y s).params = s.params :=
  ⟨rfl, rfl, rfl, rfl, rfl, rfl, rfl⟩

/-- Two states that differ in a buffer. -/
theorem witness_SynthIsDeterministic : (zeroed.constructed = true ∧ built.constructed = true) ∧
    (zeroed.cn = built.cn ∧ zeroed.cfsMhz = built.cfsMhz ∧ zeroed.sp = built.sp ∧ zeroed.dp = built.dp ∧
      zeroed.cflags = built.cflags ∧ zeroed.rom = built.rom ∧ zeroed.params = built.params) ∧
    exec .synth zeroed = .next (effSynth zeroed).finish ∧ exec .synth built = .next banked :=
  ⟨⟨constructed_zeroed.1, constructed_built.1⟩, withBuf_frame _ _ _ _,
    exec_synth_of_ok constructed_zeroed.1 constructed_zeroed.2.1, exec_synth_built⟩

/-- Every slot, and bins 0 and 15. -/
theorem witness_SlotResponses : Inv built ∧ built.constructed = true ∧ 0 < built.n ∧ 15 < built.n ∧
    ∀ f, f < 7 → SlotStated built f := by
  refine ⟨inv_built, constructed_built.1, by decide +kernel, by decide +kernel, fun f hf => ?_⟩
  have off : cfgAaLevel built.cflags = 0#16 := by decide +kernel
  interval_cases f
  · exact ⟨by decide +kernel, by decide +kernel⟩
  · show 1 ≤ built.dpOrder 8
    decide +kernel
  · exact ⟨by decide +kernel, (f64Real_pos_iff (by decide +kernel)).2 (by decide +kernel)⟩
  · exact fun h => absurd off h
  · exact fun h => absurd off h
  · trivial
  · trivial

/-- The state with analog audio in effect. -/
def audible (s : State) : State := { s with cflags := 0x00010400#32 }

theorem audible_dp (s : State) : (audible s).dp = s.dp ∧ (audible s).dpOrder 15 = s.dpOrder 15 := ⟨rfl, rfl⟩

/-- With analog audio its two slots have a response too. -/
theorem witness_SlotResponses_audio : cfgAaLevel (audible built).cflags ≠ 0#16 ∧ SlotStated (audible built) 3 ∧
    SlotStated (audible built) 4 := by
  have h : 1 ≤ built.dpOrder 15 ∧ (0 : ℝ) < f64Real built.dp[14] :=
    ⟨by decide +kernel, (f64Real_pos_iff (by decide +kernel)).2 (by decide +kernel)⟩
  rw [← (audible_dp built).1, ← (audible_dp built).2] at h
  exact ⟨by decide +kernel, fun _ => h, fun _ => h⟩

theorem witness_ButterworthResponses : 1 ≤ 1 ∧ 1 ≤ 16 := by decide

theorem fsReal_built : built.fsReal = 40000000 := by
  have hf : f64Finite built.cfsMhz = true := by decide +kernel
  have h : mhzRat built.cfsMhz = 40000000 := by decide +kernel
  show hzReal built.cfsMhz = 40000000
  rw [hzReal_eq hf, h]
  norm_num

/-- A bin for each of the six cases: above N/2, outside the band of F_ALPF1, DC and Nyquist of a band-pass, Nyquist of the
low-pass, no analog audio, and above the last control point. -/
theorem witness_ZeroBinsAreZero : Inv built ∧ built.constructed = true ∧ exec .synth built = .next banked ∧
    (15 < built.n ∧ built.n < 2 * 9) ∧ built.fsReal / 64 < |fsigReal built.n built.fsReal 1| ∧ 2 * 8 = built.n ∧
    cfgAaLevel built.cflags = 0#16 ∧ efmLast built.rom < fbin built.n built.fsRat 1 := by
  have hn : built.n = 16 := by decide +kernel
  refine ⟨inv_built, constructed_built.1, exec_synth_built, by decide +kernel, ?_, by decide +kernel, by decide +kernel,
    by decide +kernel⟩
  rw [fsReal_built, hn]
  norm_num [fsigReal]

/-- A control point on a bin, and an admitted ROM. -/
theorem witness_EfmEqualizer : (efmCurves? built.rom).isSome = true ∧
    f64Finite built.rom.efmScale = true ∧
    (∃ p ∈ built.rom.efmPoints, f64Rat p.freq = fbin built.n built.fsRat 0) ∧ f64Finite tiRom.efmPhaseFactor = true ∧
    (∀ p ∈ tiRom.efmPoints, f64Finite p.freq = true ∧ f64Finite p.amp = true ∧ f64Finite p.phase = true) ∧
    (tiRom.efmPoints.map (fun p => f64Rat p.freq)).Pairwise (· < ·) := by
  refine ⟨by decide +kernel, by decide +kernel, ⟨⟨0#64, 0x3FF0000000000000#64, 0#64⟩, by decide +kernel, by decide +kernel⟩, by decide +kernel,
    by decide +kernel, by decide +kernel⟩

theorem witness_SplineIsNotAKnot : (spline? [0, 1, 2, 3] [0, 1, 0, 1]).isSome = true ∧
    (spline? [0, 1, 3, 4, 6] [2, 0, 5, 1, 1]).isSome = true ∧ 4 ≤ ([0, 1, 2, 3] : List ℚ).length ∧
    ([0, 1, 2, 3] : List ℚ).Pairwise (· < ·) := by decide +kernel

/-! ### Witnesses: datapath commands -/

theorem witness_BlockCommandsWriteResults : tiReset.constructed = false ∧ zeroed.constructed = true ∧
    zeroed.geometryOk = true := by decide +kernel

theorem witness_TransformsWithinTolerance : Tolerance (fun x => 2 ^ 1024 + |x|) ∧ zeroed.constructed = true ∧
    zeroed.geometryOk = true ∧ ∀ n, n < zeroed.n → HoldsComplex zeroed.mem (bufAddr 0 n) 0 := by
  refine ⟨tolerance_wide, constructed_zeroed.1, constructed_zeroed.2.1, fun n h => ?_⟩
  rw [constructed_zeroed.2.2.1] at h
  exact (holds_zeroed n h).2

theorem witness_InverseTransform : 0 < 16 ∧ 15 < 16 := by decide

theorem witness_CmulMultipliesBySlot : tiReset.constructed = false ∧ (built.constructed = true ∧ 7 ≤ (7#4).toNat) ∧
    (built.constructed = true ∧ (6#4).toNat < 7 ∧ built.bankValid = false) ∧ banked.constructed = true ∧
    (6#4).toNat < 7 ∧ banked.bankValid = true ∧ banked.geometryOk = true := by decide +kernel

/-- `banked` with zeros in SIN and in bins 0 to 15 of F_RF, and BLK_LEN = N. -/
def bankedZeros : State :=
  { (withBuf 0 zeros 0#64 banked).storeWords (slotAddr 0 0) (List.replicate 32 0#64) with blkLen := 16#32 }

theorem inv_withBlkLen {s : State} (h : Inv s) (n : Word32) : Inv { s with blkLen := n } :=
  ⟨h.memory, h.mapped, h.bank, h.bankWhole, h.geometry, h.rate, h.standard, h.declared, h.ranges, h.reserved,
    h.errReserved, h.errCodes, h.errMeans, h.carries, h.counts⟩

theorem inv_zerosSlot {s : State} (h : Inv s) : Inv (s.storeWords (slotAddr 0 0) (List.replicate 32 0#64)) :=
  h.stored _ _ s.draws (fun a h1 h2 => by
    rw [List.length_replicate] at h2
    have hb : slotAddr 0 0 = 0x02000000 := by decide
    rw [hb] at h1 h2
    exact .inr (targetOf_slot (by omega) (by omega)))

theorem inv_bankedZeros : Inv bankedZeros := inv_withBlkLen (inv_zerosSlot (inv_zerosBuf inv_banked)) _

theorem slotWords_bankedZeros (i : ℕ) (h : i < 32) : Memory.word? bankedZeros.mem (slotAddr 0 0 + 8 * i) = some 0#64 :=
  word?_store_inside _ _ _ i _ (by rw [List.getElem?_replicate, if_pos h])

theorem sinWords_bankedZeros (i : ℕ) (h : i < 32) : Memory.word? bankedZeros.mem (bufAddr 0 0 + 8 * i) = some 0#64 := by
  have hl : zeros.flatMap (fun x => [x, 0#64]) = List.replicate 32 0#64 := by decide +kernel
  refine (word?_store_outside _ _ _ _ (.inl ?_)).trans (word?_store_inside _ _ _ i _ ?_)
  · have h1 : bufAddr 0 0 = 0x01000000 := by decide
    have h2 : slotAddr 0 0 = 0x02000000 := by decide
    omega
  · rw [hl, List.getElem?_replicate, if_pos h]

theorem slot_bankedZeros (k : Nat) (h : k < 16) : HoldsComplex bankedZeros.mem (slotAddr 0 k) 0 := by
  have ha : slotAddr 0 k = slotAddr 0 0 + 8 * (2 * k) := by unfold slotAddr; omega
  rw [ha]
  exact ⟨⟨_, slotWords_bankedZeros (2 * k) (by omega), by decide, f64Real_zero⟩,
    ⟨_, (congrArg _ (by omega)).trans (slotWords_bankedZeros (2 * k + 1) (by omega)), by decide, f64Real_zero⟩⟩

theorem sin_bankedZeros (n : Nat) (h : n < 16) : HoldsComplex bankedZeros.mem (bufAddr 0 n) 0 := by
  have ha : bufAddr 0 n = bufAddr 0 0 + 8 * (2 * n) := by unfold bufAddr; omega
  rw [ha]
  exact ⟨⟨_, sinWords_bankedZeros (2 * n) (by omega), by decide, f64Real_zero⟩,
    ⟨_, (congrArg _ (by omega)).trans (sinWords_bankedZeros (2 * n + 1) (by omega)), by decide, f64Real_zero⟩⟩

/-- The state continuing, with the carry that stands there. -/
def continued (s : State) : State := { s with carryValid := 1#3, nextStart := 12#64, blkStart := 12#64 }

theorem continued_frame (s : State) : (continued s).mem = s.mem ∧ (continued s).n = s.n := ⟨rfl, rfl⟩

theorem inv_continued {s : State} (h : Inv s) (hc : s.constructed = true) (hv : s.seedValid = 0#3) : Inv (continued s) :=
  ⟨h.memory, h.mapped, h.bank, h.bankWhole, h.geometry, h.rate, h.standard, h.declared, h.ranges, h.reserved,
    h.errReserved, h.errCodes, h.errMeans, ⟨fun _ => hc, by simp [continued, hv]⟩, h.counts⟩

/-- A block of zeros, elements and bins that are 0, and a PROCBLK of zeros that restarts, and that continues with a carry
of 0, without analog audio. -/
theorem witness_ExactZeros :
    (zeroed.constructed = true ∧ zeroed.geometryOk = true ∧ ∀ n, n < zeroed.n → HoldsComplex zeroed.mem (bufAddr 0 n) 0) ∧
    (bankedZeros.constructed = true ∧ (0#4).toNat < 7 ∧ bankedZeros.bankValid = true ∧ bankedZeros.geometryOk = true ∧
      15 < bankedZeros.n ∧ HoldsComplex bankedZeros.mem (bufAddr 0 15) 0 ∧
      HoldsComplex bankedZeros.mem (slotAddr (0#4).toNat 15) 0 ∧
      ∀ n, n < bankedZeros.n → HoldsComplex bankedZeros.mem (bufAddr 0 n) 0) ∧
    Tolerance (fun x => 2 ^ 1024 + |x|) ∧ (Inv bankedZeros ∧ ProcblkRuns bankedZeros ∧ ¬ Continues bankedZeros) ∧
    (let s := continued bankedZeros
     Inv s ∧ ProcblkRuns s ∧ Continues s ∧ f64Zero s.carryPh[(0 : Stream)] = true ∧ s.carryTurns[(0 : Stream)] = 0#64 ∧
       s.mem = bankedZeros.mem ∧ s.n = bankedZeros.n) ∧
    (∀ n, n < bankedZeros.n → HoldsReal bankedZeros.mem (bufAddr bufSIN n) 0) ∧
    (∀ k, k < bankedZeros.n → ∃ z, HoldsComplex bankedZeros.mem (slotAddr 0 k) z) ∧
    cfgAaLevel bankedZeros.cflags = 0#16 ∧ bankedZeros.w0 ≤ 2 ∧ 2 < bankedZeros.w1 := by
  have hn : bankedZeros.n = 16 := by decide +kernel
  refine ⟨⟨constructed_zeroed.1, constructed_zeroed.2.1, fun n h => ?_⟩,
    ⟨by decide +kernel, by decide, by decide +kernel, by decide +kernel, by decide +kernel, sin_bankedZeros 15 (by omega),
      slot_bankedZeros 15 (by omega), fun n h => sin_bankedZeros n (by omega)⟩, tolerance_wide, ⟨inv_bankedZeros, ?_, ?_⟩,
    ⟨inv_continued inv_bankedZeros (by decide +kernel) (by decide +kernel), ?_, ?_, by decide +kernel, by decide +kernel,
      continued_frame _⟩, fun n h => ?_, fun k h => ?_, by decide +kernel, by decide +kernel, by decide +kernel⟩
  · rw [constructed_zeroed.2.2.1] at h
    exact (holds_zeroed n h).2
  · unfold ProcblkRuns; decide +kernel
  · unfold Continues; decide +kernel
  · unfold ProcblkRuns; decide +kernel
  · unfold Continues; decide +kernel
  · rw [hn] at h
    exact (sin_bankedZeros n h).1
  · rw [hn] at h
    exact ⟨0, slot_bankedZeros k h⟩

theorem witness_EnvAndPhaseWithinTolerance : Tolerance (fun x => 2 ^ 1024 + |x|) ∧ zeroed.constructed = true ∧
    zeroed.geometryOk = true ∧ 15 < zeroed.n ∧ HoldsComplex zeroed.mem (bufAddr 0 15) 0 :=
  ⟨tolerance_wide, constructed_zeroed.1, constructed_zeroed.2.1, by decide +kernel, (holds_zeroed 15 (by omega)).2⟩

theorem witness_UnwrapFrame : tiReset.constructed = false ∧ (built.constructed = true ∧ built.geometryOk = true) ∧
    (2#2).toNat = (2 : Stream).val ∧ (0#2).toNat = (0 : Stream).val ∧ (0 : Stream) ≠ 2 := by decide +kernel

/-- A state with a valid carry of the video stream, 3.0 and 5 turns. -/
def withCarry (s : State) : State :=
  { s with carryValid := 1#3, carryPh := #v[three, 0#64, 0#64], carryTurns := #v[5#64, 0#64, 0#64] }

theorem withCarry_frame (s : State) : (withCarry s).mem = s.mem ∧ (withCarry s).w1 = s.w1 := ⟨rfl, rfl⟩

/-- With a carry and without one, over the turns of a block of zeros. -/
theorem witness_UnwrapFollowsPseudocode : Tolerance (fun x => 2 ^ 1024 + |x|) ∧ (0#2).toNat = (0 : Stream).val ∧
    (∀ s ∈ [zeroed, withCarry zeroed], s.constructed = true ∧ s.geometryOk = true ∧
      (∀ n, s.w0 ≤ n → n < s.w1 → HoldsReal s.mem (bufAddr 0 n) 0) ∧
      (s.carryOk (0 : Stream) = true → f64Finite s.carryPh[(0 : Stream)] = true)) ∧
    (withCarry zeroed).carryOk (0 : Stream) = true ∧ zeroed.carryOk (0 : Stream) = false ∧
    -(2 ^ 63) ≤ turnsReal (fun _ => 0) 2 0 0 11 ∧ turnsReal (fun _ => 0) 2 0 0 11 < 2 ^ 63 := by
  have ht : ∀ i, turnsReal (fun _ => 0) 2 0 0 i = 0 := by
    intro i
    induction i with
    | zero => simp [turnsReal, turnStep, Real.pi_nonneg, not_lt.2 (neg_nonpos.2 Real.pi_nonneg)]
    | succ i ih => simp [turnsReal, ih, turnStep, not_lt.2 Real.pi_nonneg]
  have hz : ∀ n, zeroed.w0 ≤ n → n < zeroed.w1 → HoldsReal zeroed.mem (bufAddr 0 n) 0 := fun n _ h2 => by
    rw [constructed_zeroed.2.2.2.2] at h2
    exact (holds_zeroed n (by omega)).1
  refine ⟨tolerance_wide, by decide, ?_, by decide +kernel, by decide +kernel, by rw [ht]; norm_num, by rw [ht]; norm_num⟩
  intro s hs
  rcases List.mem_pair.1 hs with rfl | rfl
  · exact ⟨constructed_zeroed.1, constructed_zeroed.2.1, hz, by decide +kernel⟩
  · refine ⟨by decide +kernel, by decide +kernel, fun n _ h2 => ?_, by decide +kernel⟩
    rw [(withCarry_frame zeroed).2, constructed_zeroed.2.2.2.2] at h2
    rw [(withCarry_frame zeroed).1]
    exact (holds_zeroed n (by omega)).1

theorem witness_FdemodWritesFrequency : tiReset.constructed = false ∧ built.constructed = true ∧ built.geometryOk = true ∧
    (2#2) ≠ 3#2 := by decide +kernel

/-- Every carrier, with a seed and without one. -/
theorem witness_FdemodWithinTolerance : Tolerance (fun x => 2 ^ 1024 + |x|) ∧ Inv zeroed ∧ zeroed.constructed = true ∧
    (2#2).toNat = (2 : Stream).val ∧ carrierOf? 0#2 = some .none ∧ carrierOf? 1#2 = some .audioL ∧
    carrierOf? 2#2 = some .audioR ∧ f64Finite zeroed.sp[8] = true ∧ f64Finite zeroed.sp[9] = true ∧
    (∀ n, zeroed.w0 ≤ n → n < zeroed.w1 → HoldsReal zeroed.mem (bufAddr 0 n) 0) ∧ f64Finite zeroed.seedU[(2 : Stream)] = true := by
  refine ⟨tolerance_wide, inv_zeroed, constructed_zeroed.1, by decide, by decide, by decide, by decide, by decide +kernel,
    by decide +kernel, fun n _ h2 => ?_, by decide +kernel⟩
  rw [constructed_zeroed.2.2.2.2] at h2
  exact (holds_zeroed n (by omega)).1

theorem witness_MtfScalesWindow : f64Finite one = true ∧
    ({ tiParams with mtfScalar := .other 3 } : Params).mtfScalar = .other 3 ∧ mtfPair built.params built.dp = (one, 0#64) ∧ built.params.mtfScalar = .default ∧
    built.dp[9] = 0x3FF0000000000000#64 ∧ zeroed.constructed = true ∧ zeroed.geometryOk = true ∧ zeroed.w0 ≤ 13 ∧ 13 < zeroed.w1 ∧
    f64Finite 0#64 = true ∧ Memory.word? zeroed.mem (bufAddr 0 13) = some 0#64 :=
  ⟨by decide, rfl, by decide +kernel, by decide +kernel, by decide +kernel, by decide +kernel, by decide +kernel,
    by decide +kernel, by decide +kernel, by decide, (words_zeroed 13 (by omega)).1⟩

/-- With samples kept, and with none: 2.8's rows DF = 4095 of S = 4093 and of S = 0. -/
theorem witness_DecimKeepsMultiples : tiReset.constructed = false ∧ built.constructed = true ∧ built.geometryOk = true ∧
    (4095#12) ≠ 0#12 ∧
    (let s := { built with blkStart := 4093#64 }
     ((List.range' s.w0 (s.w1 - s.w0)).filter (fun i => decide ((4095#12).toNat ∣ s.blkStart.toNat + i))).head? = some 2) ∧
    (List.range' built.w0 (built.w1 - built.w0)).filter (fun i => decide ((4095#12).toNat ∣ built.blkStart.toNat + i)) = [] := by
  decide +kernel

theorem witness_DecimStreamsConcatenate : (let s' := { built with blkStart := 12#64 }
    s'.w0 = built.w0 ∧ s'.w1 = built.w1 ∧ built.w0 ≤ built.w1 ∧ s'.blkStart.toNat = built.blkStart.toNat + (built.w1 - built.w0)) := by
  decide +kernel

theorem witness_CopyAndClear : (7#4 : Buf) ≠ 0#4 ∧ built.constructed = true ∧ built.geometryOk = true := by decide +kernel

/-- A computed result, a stored number, a zero that a rule writes and one that a rule says of what it computes. -/
theorem witness_StoredWithinTolerance : Tolerance (fun x => 2 ^ 1024 + |x|) ∧
    (∀ e ∈ [Exact.sqrt (.rat 2), .val one, .rat 0, .zero], Stored (.nth 0) (Memory.store [] 0 (wordsBytes [put (.nth 0) 0 e])) 0 e) ∧
    hasValue (.sqrt (.rat 2)) = true ∧ f64Finite one = true :=
  ⟨tolerance_wide, fun _ _ => word?_store_inside _ _ _ 0 _ rfl, by decide, by decide⟩

/-! ### Witnesses: PROCBLK and FINAUD -/

/-- `banked` with BLK_LEN = N; with a carry and NEXT_START it continues. -/
def ready : State := { banked with blkLen := 16#32 }
def following : State := { ready with carryValid := 1#3, nextStart := 12#64, blkStart := 12#64 }

theorem runs_ready : ProcblkRuns ready := by unfold ProcblkRuns; decide +kernel
theorem runs_following : ProcblkRuns following := by unfold ProcblkRuns; decide +kernel
theorem restarts_ready : ¬ Continues ready := by unfold Continues; decide +kernel
theorem continues_following : Continues following := by unfold Continues; decide +kernel

theorem witness_ProcblkChecks : tiReset.constructed = false ∧ (built.constructed = true ∧ built.bankValid = false) ∧
    (banked.constructed = true ∧ banked.bankValid = true ∧ banked.blkLen ≠ banked.cn) ∧ ProcblkRuns ready :=
  ⟨by decide +kernel, by decide +kernel, by decide +kernel, runs_ready⟩

theorem witness_ProcblkIsItsCommands : (ProcblkRuns ready ∧
      AfterContiguity ready { ready with status := ready.status ||| 0x20#7, carryValid := 0#3, seedValid := 0#3 }) ∧
    ProcblkRuns following ∧ AfterContiguity following { following with status := following.status &&& 0x5F#7 } :=
  ⟨⟨runs_ready, fun h => absurd h restarts_ready, fun _ => rfl⟩, runs_following, fun _ => rfl,
    fun h => absurd continues_following h⟩

theorem witness_ProcblkFrame : (ProcblkRuns ready ∧ ¬ Continues ready ∧ cfgAaLevel ready.cflags = 0#16) ∧
    ProcblkRuns following ∧ Continues following :=
  ⟨⟨runs_ready, restarts_ready, by decide +kernel⟩, runs_following, continues_following⟩

/-- Both forms of the gain, each check of FINAUD, a frame of no samples, and the longest frame. -/
theorem witness_FinaudWritesFrames : tiParams.audioMtfGain = .default ∧
    ({ tiParams with audioMtfGain := .other 3 } : Params).audioMtfGain = .other 3 ∧ tiReset.constructed = false ∧ built.constructed = true ∧
    524288 < ({ built with afLen := 524289#32 } : State).afLen.toNat ∧ f64Finite 0x7FF8000000000000#64 = false ∧
    built.afLen.toNat ≤ 524288 ∧ ({ built with afLen := 524288#32 } : State).afLen.toNat ≤ 524288 ∧
    f64Finite built.mtfLevel = true ∧ f64Finite (audioGain built.params built.mtfLevel) = true := by decide +kernel

/-- A frame of one sample, 0, in each channel. -/
def framed : State := { (built.storeWords 0x03000000 [0#64]).storeWords 0x03400000 [0#64] with afLen := 1#32 }

theorem inv_withLength {s : State} (h : Inv s) (n : Word32) : Inv { s with afLen := n } :=
  ⟨h.memory, h.mapped, h.bank, h.bankWhole, h.geometry, h.rate, h.standard, h.declared, h.ranges, h.reserved,
    h.errReserved, h.errCodes, h.errMeans, h.carries, h.counts⟩

theorem inv_storeFrame {s : State} (h : Inv s) (base : Nat) (hb : HostMemory base) (h8 : base % 8 = 0) (v : Word) :
    Inv (s.storeWords base [v]) :=
  h.stored base [v] s.draws (fun _ h1 h2 => .inl (targetOf_ram (hostMemory_word hb h8 h1 h2)))

theorem inv_framed : Inv framed :=
  inv_withLength (inv_storeFrame (inv_storeFrame inv_built _ (.inr (.inl (by omega))) (by norm_num) _) _
    (.inr (.inl (by omega))) (by norm_num) _) _

theorem witness_FinaudWithinTolerance : Tolerance (fun x => 2 ^ 1024 + |x|) ∧ Inv framed ∧ framed.constructed = true ∧
    framed.afLen.toNat ≤ 524288 ∧ f64Finite framed.mtfLevel = true ∧
    f64Finite (audioGain framed.params framed.mtfLevel) = true ∧ f64Finite framed.dp[2] = true ∧ f64Finite framed.dp[3] = true ∧
    (∀ i, i < framed.afLen.toNat → HoldsReal framed.mem (0x03000000 + 8 * i) 0 ∧ HoldsReal framed.mem (0x03400000 + 8 * i) 0) ∧
    0 < framed.afLen.toNat := by
  refine ⟨tolerance_wide, inv_framed, by decide +kernel, by decide +kernel, by decide +kernel, by decide +kernel,
    by decide +kernel, by decide +kernel, fun i hi => ?_, by decide +kernel⟩
  have h0 : i = 0 := by
    have h1 : framed.afLen.toNat = 1 := by decide +kernel
    omega
  subst h0
  refine ⟨⟨0#64, ?_, by decide, f64Real_zero⟩, ⟨0#64, word?_store_inside _ _ _ 0 _ rfl, by decide, f64Real_zero⟩⟩
  exact (word?_store_outside _ _ _ _ (.inl (by omega))).trans (word?_store_inside _ _ _ 0 _ rfl)

/-! ### Witnesses: the host's accesses -/

/-- A state whose next event is a 64-bit write or read. -/
def writing (s : State) (addr : BitVec 32) (v : Word) : State := { s with inputs := [.write 8 addr v] }
def reading (s : State) (addr : BitVec 32) : State := { s with inputs := [.read 8 addr] }

/-- A read of any width; and, of an idle engine, registers at both ends of their runs, ROM words, reserved ones too, and
written words of a buffer and of a slot. -/
theorem witness_ReadsHaveNoEffect :
    ({ tiReset with inputs := [.read 4 0x008#32] } : State).inputs = .read 4 0x008#32 :: [] ∧
    (built.busy = false ∧ Reading (reading built 0x110#32) 0x110#32 [] ∧ RegisterShows built (0x110#32).toNat built.win ∧
      RegisterShows built (0x278#32).toNat built.dp[15] ∧ RegisterShows built (0x318#32).toNat built.sp[19] ∧
      RegisterShows built (0x168#32).toNat built.carryTurns[2] ∧ RegisterShows built (0xFF8#32).toNat 0#64) ∧
    Reading (reading built 0x04000368#32) 0x04000368#32 [] ∧ (0x04000368#32).toNat = 0x04000000 + 0x368 ∧
    (RomShows tiRom 0x368 0x413C9C3800000000#64 ∧ RomShows tiRom 0x380 0#64 ∧ RomShows tiRom 0x078 4#64) ∧
    (bankedZeros.busy = false ∧ HostMemory (0x01000000#32).toNat ∧ Memory.word? bankedZeros.mem (0x01000000#32).toNat = some 0#64 ∧
      Memory.word? bankedZeros.mem (0x02000000#32).toNat = some 0#64 ∧
      Reading (reading bankedZeros 0x02000000#32) 0x02000000#32 []) := by
  have hk : tiRom.efmPoints.length = 4 := by decide +kernel
  refine ⟨rfl, ⟨by decide +kernel, rfl, .win, .dp 15, .sp 19, .carryTurns 2, .reserved _ (by decide)⟩, rfl, by decide, ⟨?_, ?_,
    .stdNtsc 15 (by decide)⟩, by decide +kernel, ?_, ?_, ?_, rfl⟩
  · have h := RomShows.freq (r := tiRom) 3 (by omega)
    exact h
  · exact .reserved _ (.inr (by rw [hk]; decide))
  · unfold HostMemory; decide
  · exact sinWords_bankedZeros 0 (by omega)
  · exact slotWords_bankedZeros 0 (by omega)

/-- A width, an alignment and the addresses at each end of a hole; and an access that is none of these. -/
theorem witness_BusErrors : ({ tiReset with inputs := [.read 4 0x008#32] } : State).inputs = .read 4 0x008#32 :: [] ∧
    (writing tiReset 0x004#32 0#64).inputs = .write 8 0x004#32 0#64 :: [] ∧ (4 : ℕ) ≠ 8 ∧ (0x004#32).toNat % 8 ≠ 0 ∧
    ¬ Mapped (0x1000#32).toNat ∧ ¬ Mapped (0x00FFFFF8#32).toNat ∧ ¬ Mapped (0x03900000#32).toNat ∧ Mapped (0x038FFFF8#32).toNat ∧
    Mapped (0x0FF8#32).toNat ∧ (0x0FF8#32).toNat % 8 = 0 := by
  refine ⟨rfl, rfl, by decide, by decide, ?_, ?_, ?_, ?_, ?_, by decide⟩ <;> unfold Mapped <;> decide +kernel

theorem busy_tiReset : tiReset.busy = false := by decide +kernel
theorem busy_issued : issued.busy = true := by decide +kernel

theorem witness_WordsReadBack : tiReset.busy = false ∧ (0x01000000#32).toNat % 8 = 0 ∧ HostMemory (0x01000000#32).toNat ∧
    HostMemory (0x03CFFFF8#32).toNat ∧ Writing (writing tiReset 0x01000000#32 one) 0x01000000#32 one [] := by
  refine ⟨busy_tiReset, by decide, ?_, ?_, rfl⟩ <;> unfold HostMemory <;> decide

theorem witness_BusyWrites : issued.busy = true ∧ ((0x018#32).toNat % 8 = 0 ∧ Mapped (0x018#32).toNat ∧
      Writing (writing issued 0x018#32 0#64) 0x018#32 0#64 [] ∧ (0x018#32 : BitVec 32) ≠ 0x008#32 ∧ (0x018#32 : BitVec 32) ≠ 0x020#32) ∧
    Mapped (0x020#32).toNat ∧ Writing (writing issued 0x020#32 3#64) 0x020#32 3#64 [] := by
  refine ⟨busy_issued, ⟨by decide, ?_, rfl, by decide, by decide⟩, ?_, rfl⟩ <;> unfold Mapped <;> decide

theorem witness_StatusAndInterrupt : Writing (writing issued 0x008#32 0x48#64) 0x008#32 0x48#64 [] := rfl

theorem witness_RegistersHoldWrites : tiReset.busy = false ∧ (0x028#32).toNat % 8 = 0 ∧
    writableBits (0x028#32).toNat = some 0xFFFF07FF#64 ∧ writableBits (0x0E0#32).toNat = some 0xFFFFFFFFFFFFFFFF#64 ∧
    writableBits (0x100#32).toNat = some 0xFFFFFFFFFFFFFFFF#64 ∧
    Writing (writing tiReset 0x028#32 0xFFFFFFFFFFFFFFFF#64) 0x028#32 0xFFFFFFFFFFFFFFFF#64 [] :=
  ⟨busy_tiReset, by decide, by decide, by decide, by decide, rfl⟩

/-- A slot, the ROM, and a read-only register. -/
theorem witness_ReadOnlyWritesIgnored : tiReset.busy = false ∧
    (0x02000000 ≤ (0x027FFFF8#32).toNat ∧ (0x027FFFF8#32).toNat < 0x02800000 ∧ (0x027FFFF8#32).toNat % 8 = 0) ∧
    (0x04000000 ≤ (0x04000FF8#32).toNat ∧ (0x04000FF8#32).toNat < 0x04001000) ∧
    ((0x108#32).toNat < 0x1000 ∧ writableBits (0x108#32).toNat = none ∧ (0x108#32 : BitVec 32) ≠ 0x008#32 ∧
      (0x108#32 : BitVec 32) ≠ 0x018#32) ∧ Writing (writing tiReset 0x108#32 one) 0x108#32 one [] := by
  refine ⟨busy_tiReset, by decide, by decide, by decide, rfl⟩

/-- `zeroed` with `REAL W1, SIN` running. -/
def realRunning : State := zeroed.issue 0x10100000#32

theorem real_writes (s : State) (addr : ℕ) (h : addr ≠ 0x010) (hb : ¬ InBlock s 1 addr) : ¬ WritesWord s (.real 1 0) addr := by
  rintro (⟨_, h'⟩ | ⟨_, h'⟩)
  · exact h h'
  · exact hb h'

/-- STATUS, a register, a ROM word and a memory word that the running REAL does not write; and a CONSTRUCT that fails, which
writes ERRCODE, and no other word. -/
theorem witness_BusyReads : realRunning.busy = true ∧ decode realRunning.cmd = .ok (.real 1 0) ∧
    Reading (reading realRunning 0x008#32) 0x008#32 [] ∧ Instr.real 1 0 ≠ .construct ∧
    Fails { issued with nreg := 3#32 } .construct ∧ WritesWord { issued with nreg := 3#32 } .construct 0x010 ∧
    ¬ WritesWord { issued with nreg := 3#32 } .construct 0x110 ∧
    ¬ WritesWord realRunning (.real 1 0) 0x108 ∧ ¬ WritesWord realRunning (.real 1 0) 0x04000FF8 ∧
    ((0x01000000#32).toNat % 8 = 0 ∧ HostMemory (0x01000000#32).toNat ∧
      ¬ WritesWord realRunning (.real 1 0) (0x01000000#32).toNat ∧
      Memory.word? realRunning.mem (0x01000000#32).toNat = some 0#64) := by
  have hf : Fails { issued with nreg := 3#32 } .construct := .inr (.inr (fun h => by
    have := h.basics.blockLength
    rw [← legalBlockLength_iff] at this
    exact absurd this (by decide +kernel)))
  refine ⟨by decide +kernel, test_decode_real, rfl, by decide, hf, .inl ⟨hf, rfl⟩, ?_, ?_, ?_, by decide, ?_, ?_,
    (words_zeroed 0 (by omega)).1⟩
  · rintro (⟨_, h⟩ | ⟨h, _⟩)
    · exact absurd h (by decide)
    · exact h hf
  · exact real_writes _ _ (by decide) (by unfold InBlock; decide +kernel)
  · exact real_writes _ _ (by decide) (by unfold InBlock; decide +kernel)
  · unfold HostMemory; decide
  · exact real_writes _ _ (by decide) (by unfold InBlock; decide +kernel)

/-! ### Witnesses: the whole machine -/

theorem exec_synth_before {s : State} (h : s.constructed = false) : exec .synth s = .next (errorState s 0x02#8 5#8 0#32) := by
  simp only [exec, execSynth, ifConstructed_false h]; rfl

/-- An error and a success. -/
theorem witness_CommandsCompleteOrRaise : exec .synth built = .next banked ∧ ¬ Fails built .synth ∧
    exec .synth tiReset = .next (errorState tiReset 0x02#8 5#8 0#32) ∧ Fails tiReset .synth := by
  refine ⟨exec_synth_built, ?_, exec_synth_before (by decide +kernel), .inl ⟨rfl, by decide +kernel⟩⟩
  rintro (⟨_, h⟩ | h | h)
  · exact absurd h (by decide +kernel)
  · exact h rfl
  · exact h

theorem witness_WritersOfState : exec .synth built = .next banked ∧ (Instr.synth ≠ .construct ∧ Instr.synth ≠ .procblk ∧
    Instr.synth ≠ .finaud) ∧ exec .construct issued = .next built ∧ Instr.construct ≠ .synth ∧
    (∃ b : Buf, b ∉ writtenBufs .synth ∧ bufAddr b 0 ≤ 0x01000000 ∧ 0x01000000 < bufAddr b 65536) :=
  ⟨exec_synth_built, by decide, (exec_construct_of_pass checks_issued).trans (congrArg _ built_eq.symm), by decide,
    0, by decide, by decide, by decide⟩

theorem witness_OnlyOwnersChange : Inv issued ∧ step issued = .next built ∧ Executing issued .construct ∧
    Resetting { built with inputs := [.reset] } :=
  ⟨inv_issued, step_issued, ⟨busy_issued, test_decode_construct, .inl rfl⟩, rfl⟩

theorem witness_ShadowsDoNotMatter : Instr.fft bufW1 bufSIN ≠ .construct ∧ exec .synth built = .next banked :=
  ⟨by decide, exec_synth_built⟩

end Sys2Proof.Tests
end

section
/-! PROOF. Command words: the formula of 30_encoding.md R90, and the words that the decoder refuses (R85). -/

namespace Sys2Proof.Laws

open Sys2Proof.Machine

/-! ### The encoding formula -/

/-- The formula of 30_encoding.md R90. -/
theorem toNat_commandWord (opc : BitVec 8) (d a : Buf) (f : BitVec 4) (imm : BitVec 12) :
    (commandWord opc d a f imm).toNat =
      opc.toNat <<< 24 ||| d.toNat <<< 20 ||| a.toNat <<< 16 ||| f.toNat <<< 12 ||| imm.toNat := by
  simp only [commandWord, BitVec.toNat_append, Nat.shiftLeft_or_distrib, ← Nat.shiftLeft_add]

/-! ### The reserved bits, field by field -/

theorem eq_zero_iff_fields (w : Word32) :
    w = 0#32 ↔ fieldOpc w = 0#8 ∧ fieldD w = 0#4 ∧ fieldA w = 0#4 ∧ fieldF w = 0#4 ∧ fieldImm w = 0#12 := by
  constructor
  · rintro rfl
    decide
  · rintro ⟨hopc, hd, ha, hf, himm⟩
    rw [← commandWord_fields w, hopc, hd, ha, hf, himm]
    decide

/-- A field below OPC of a word masked to the bits below OPC outside `used`. -/
theorem extract_reservedBits (w used : Word32) {start len : Nat} (h : start + len ≤ 24) :
    (w &&& 0x00FFFFFF#32 &&& ~~~used).extractLsb' start len =
      w.extractLsb' start len &&& ~~~used.extractLsb' start len := by
  apply BitVec.eq_of_getLsbD_eq
  intro i hi
  have hbelow : (0x00FFFFFF#32).getLsbD (start + i) = true := by
    rw [show 0x00FFFFFF#32 = BitVec.ofNat 32 (2 ^ 24 - 1) from rfl, BitVec.getLsbD_ofNat, Nat.testBit_two_pow_sub_one]
    simp only [Bool.and_eq_true, decide_eq_true_eq]
    omega
  simp only [BitVec.getLsbD_extractLsb', BitVec.getLsbD_and, BitVec.getLsbD_not, hbelow, hi,
    show start + i < 32 by omega, decide_true, Bool.true_and, Bool.and_true]

/-- The bits below OPC outside `used` are zero exactly when they are zero in each of the four fields. -/
theorem reservedBits_eq_zero_iff (w used : Word32) :
    w &&& 0x00FFFFFF#32 &&& ~~~used = 0#32 ↔
      fieldD w &&& ~~~fieldD used = 0#4 ∧ fieldA w &&& ~~~fieldA used = 0#4 ∧
        fieldF w &&& ~~~fieldF used = 0#4 ∧ fieldImm w &&& ~~~fieldImm used = 0#12 := by
  have hopc : fieldOpc (w &&& 0x00FFFFFF#32 &&& ~~~used) = 0#8 := by
    simp [fieldOpc, BitVec.extractLsb'_and]
  rw [eq_zero_iff_fields, hopc]
  simp only [fieldD, fieldA, fieldF, fieldImm, true_and, extract_reservedBits w used (by decide : 20 + 4 ≤ 24),
    extract_reservedBits w used (by decide : 16 + 4 ≤ 24), extract_reservedBits w used (by decide : 12 + 4 ≤ 24),
    extract_reservedBits w used (by decide : 0 + 12 ≤ 24)]

theorem getLsbD_and_not_lowMask {n : Nat} (x : BitVec n) (k i : Nat) :
    (x &&& ~~~BitVec.ofNat n (2 ^ k - 1)).getLsbD i = (x.getLsbD i && decide (k ≤ i)) := by
  by_cases hi : i < n
  · simp only [BitVec.getLsbD_and, BitVec.getLsbD_not, BitVec.getLsbD_ofNat, Nat.testBit_two_pow_sub_one, hi,
      decide_true, Bool.true_and, ← decide_not, not_lt]
  · rw [BitVec.getLsbD_of_ge _ _ (not_lt.mp hi), BitVec.getLsbD_of_ge _ _ (not_lt.mp hi), Bool.false_and]

/-- A field has no bit outside its low `k` exactly when the bits from `k` up are zero. -/
theorem and_not_lowMask_eq_zero_iff {n : Nat} (x : BitVec n) (k : Nat) :
    x &&& ~~~BitVec.ofNat n (2 ^ k - 1) = 0#n ↔ x.extractLsb' k (n - k) = 0#(n - k) := by
  constructor
  · intro h
    apply BitVec.eq_of_getLsbD_eq
    intro i hi
    have hbit := congrArg (·.getLsbD (k + i)) h
    simp only [getLsbD_and_not_lowMask, Nat.le_add_right, decide_true, Bool.and_true, BitVec.getLsbD_zero] at hbit
    simp only [BitVec.getLsbD_extractLsb', hbit, Bool.and_false, BitVec.getLsbD_zero]
  · intro h
    apply BitVec.eq_of_getLsbD_eq
    intro i hi
    rw [getLsbD_and_not_lowMask, BitVec.getLsbD_zero]
    by_cases hk : k ≤ i
    · have hbit := congrArg (·.getLsbD (i - k)) h
      simpa [BitVec.getLsbD_extractLsb', show i - k < n - k by omega, Nat.add_sub_cancel' hk, hk] using hbit
    · simp [hk]

/-! ### Reserved fields under their masks: whole fields, and the bits of IMM that RSTCARRY, UNWRAP and FDEMOD leave -/

@[simp] theorem imm_above_mask (imm : BitVec 12) : imm &&& 0xFF8#12 = 0#12 ↔ imm.extractLsb' 3 9 = 0#9 :=
  and_not_lowMask_eq_zero_iff imm 3

@[simp] theorem imm_above_stream (imm : BitVec 12) : imm &&& 0xFFC#12 = 0#12 ↔ imm.extractLsb' 2 10 = 0#10 :=
  and_not_lowMask_eq_zero_iff imm 2

@[simp] theorem imm_above_carrier (imm : BitVec 12) : imm &&& 0xFF0#12 = 0#12 ↔ imm.extractLsb' 4 8 = 0#8 :=
  and_not_lowMask_eq_zero_iff imm 4

@[simp] theorem and_ones4 (x : BitVec 4) : x &&& 0xF#4 = x := BitVec.and_allOnes

@[simp] theorem and_ones12 (x : BitVec 12) : x &&& 0xFFF#12 = x := BitVec.and_allOnes

/-! ### The words that the decoder refuses -/

theorem ifReservedZero_refuses_iff (b : Bool) (i : Instr) :
    (∃ r, ifReservedZero b i = .error r) ↔ b ≠ true := by
  cases b <;> simp [ifReservedZero]

theorem decode_of_usedBits_none {w : Word32} (h : usedBits (fieldOpc w) = none) : decode w = .error .opcode := by
  unfold decode
  extract_lets
  split
  case h_19 => rfl
  all_goals
    rename_i hopc
    simp [usedBits, hopc] at h

/-- Row by row of the map: the decoder's check and the row's mask `used`, read field by field, ask for the same fields to
be zero. -/
theorem decode_refuses_iff_of_usedBits_some {w used : Word32} (h : usedBits (fieldOpc w) = some used) :
    (∃ r, decode w = .error r) ↔ w &&& 0x00FFFFFF#32 &&& ~~~used ≠ 0#32 := by
  rw [Ne, reservedBits_eq_zero_iff]
  unfold decode
  extract_lets d a f imm none4 plain
  split
  case h_19 =>
    unfold usedBits at h
    split at h <;> simp_all
  all_goals
    rename_i hopc
    simp only [usedBits, hopc, Option.some.injEq] at h
    subst h
    rw [ifReservedZero_refuses_iff, not_iff_not]
    simp [d, a, f, imm, none4, plain, and_assoc, fieldD, fieldA, fieldF, fieldImm]

theorem decode_refuses_iff_illegalWord (w : Word32) : (∃ r, decode w = .error r) ↔ IllegalWord w := by
  unfold IllegalWord
  split
  next hused => simp [decode_of_usedBits_none hused]
  next used hused => exact decode_refuses_iff_of_usedBits_some hused

end Sys2Proof.Laws

namespace Sys2Proof.Certificates

open Sys2Proof.Machine Sys2Proof.Laws

/-- Settles O4: a refused word is an illegal one row by row of the map, and the engine's turn on it is the error ending. -/
theorem illegalWords : Obligations.IllegalWords := by
  intro w
  refine ⟨decode_refuses_iff_illegalWord w, ?_⟩
  rintro hill s rfl hbusy
  obtain ⟨r, hr⟩ := (decode_refuses_iff_illegalWord s.cmd).mpr hill
  exact engineTurn_error hbusy hr

/-- Settles O3: the formula for every field value, and the seven worked words of R90 by evaluation. -/
theorem workedEncodings : Obligations.WorkedEncodings :=
  ⟨toNat_commandWord, by decide, by decide, by decide, by decide, by decide, by decide, by decide⟩

end Sys2Proof.Certificates
end

section
/-! PROOF. SYNTH is deterministic (41_filter_synth.md R144): every bin of every slot reads seven fields of the state alone,
so the words that SYNTH stores, and with them every byte of the slots, are a function of those. -/

namespace Sys2Proof.Laws

open Sys2Proof.Machine

/-! ### What the bins of the bank are computed from -/

/-- Two states agree on what R144 lets the filter bank depend on: CN, CFS_MHZ, SP, DP, CFLAGS, the ROM and the
implementation's parameters (00_scope.md R8). -/
structure SameBankInputs (s s' : State) : Prop where
  cn : s.cn = s'.cn
  cfsMhz : s.cfsMhz = s'.cfsMhz
  sp : s.sp = s'.sp
  dp : s.dp = s'.dp
  cflags : s.cflags = s'.cflags
  rom : s.rom = s'.rom
  params : s.params = s'.params

namespace SameBankInputs

variable {s s' : State}

theorem n_eq (h : SameBankInputs s s') : s.n = s'.n := congrArg BitVec.toNat h.cn

theorem fs_eq (h : SameBankInputs s s') : s.fs = s'.fs := congrArg hertz h.cfsMhz

theorem fsRat_eq (h : SameBankInputs s s') : s.fsRat = s'.fsRat := congrArg mhzRat h.cfsMhz

theorem dpF_eq (h : SameBankInputs s s') (i : Fin 16) : s.dpF i = s'.dpF i := by
  simp only [State.dpF, h.dp]

theorem dpOrder_eq (h : SameBankInputs s s') (i : Fin 16) : s.dpOrder i = s'.dpOrder i := by
  simp only [State.dpOrder, h.dp]

/-! ### The bins, slot by slot -/

theorem binRf_eq (h : SameBankInputs s s') (k : Nat) : s.binRf k = s'.binRf k := by
  simp only [State.binRf, h.n_eq, h.fs_eq, h.dpF_eq, h.dpOrder_eq]

theorem binSync_eq (h : SameBankInputs s s') (k : Nat) : s.binSync k = s'.binSync k := by
  simp only [State.binSync, h.n_eq, h.fs_eq, h.dpF_eq, h.dpOrder_eq]

theorem bandAround_eq (h : SameBankInputs s s') (centre : Exact) (width : F64) (n k : Nat) :
    s.bandAround centre width n k = s'.bandAround centre width n k := by
  simp only [State.bandAround, h.n_eq, h.fs_eq]

theorem binFsync_eq (h : SameBankInputs s s') (k : Nat) : s.binFsync k = s'.binFsync k := by
  simp only [State.binFsync, State.fsyncHz, h.cflags, h.sp, h.params, h.bandAround_eq]

theorem binNotch_eq (h : SameBankInputs s s') (k : Nat) : s.binNotch k = s'.binNotch k := by
  simp only [State.binNotch, h.n_eq, h.fs_eq, h.sp, h.dp, h.dpF_eq, h.dpOrder_eq]

theorem binAudio_eq (h : SameBankInputs s s') (fa : F64) (k : Nat) : s.binAudio fa k = s'.binAudio fa k := by
  simp only [State.binAudio, h.n_eq, h.cflags, h.dp, h.dpOrder_eq, h.bandAround_eq, h.binNotch_eq]

theorem binEfm_eq (h : SameBankInputs s s') (curves : Option (Curve × Curve)) (k : Nat) :
    s.binEfm curves k = s'.binEfm curves k := by
  simp only [State.binEfm, h.n_eq, h.fsRat_eq, h.rom]

theorem binAlpf1_eq (h : SameBankInputs s s') (k : Nat) : s.binAlpf1 k = s'.binAlpf1 k := by
  simp only [State.binAlpf1, h.n_eq, h.fsRat_eq]

/-! ### The bank -/

theorem slotValue_eq (h : SameBankInputs s s') (f k : Nat) : s.slotValue f k = s'.slotValue f k := by
  unfold State.slotValue
  split
  · exact h.binRf_eq k
  · exact h.binSync_eq k
  · exact h.binFsync_eq k
  · rw [h.sp, h.binAudio_eq]
  · rw [h.sp, h.binAudio_eq]
  · rw [h.rom, h.binEfm_eq]
  · exact h.binAlpf1_eq k
  · rfl

/-- SYNTH stores at `Draw.fixed`, so the same exact bins at the same places are the same words. -/
theorem slotWords_eq (h : SameBankInputs s s') : s.slotWords = s'.slotWords := by
  simp only [State.slotWords, h.n_eq, h.slotValue_eq]

end SameBankInputs

/-! ### What SYNTH leaves in the slots -/

theorem completeOnBlock_eq_next_iff (s t : State) (eff : State → State) :
    s.completeOnBlock eff = .next t ↔ s.geometryOk = true ∧ t = (eff s).finish := by
  cases hg : s.geometryOk with
  | true => simp [completeOnBlock_ok hg, eq_comm]
  | false => simp [State.completeOnBlock, hg]

theorem exec_synth_eq_next {s t : State} (hc : s.constructed = true) (h : exec .synth s = .next t) :
    t = (effSynth s).finish := by
  simp only [exec, execSynth, ifConstructed_true hc, completeOnBlock_eq_next_iff] at h
  exact h.2

/-- A byte of a slot after SYNTH is one of `slotWords`, whatever memory held before. -/
theorem byte?_effSynth_slot (s : State) {addr : Nat} (hlo : 0x02000000 ≤ addr) (hhi : addr < 0x02800000) :
    Memory.byte? (effSynth s).finish.mem addr = (wordsBytes s.slotWords)[addr - 0x02000000]? := by
  have hbase : slotAddr 0 0 = 0x02000000 := rfl
  simp only [finish_mem, effSynth, setStatus_mem, storeWords_mem, hbase]
  refine byte?_store_inside _ _ _ _ hlo ?_
  rw [wordsBytes_length, slotWords_length]
  omega

end Sys2Proof.Laws

namespace Sys2Proof.Certificates

open Sys2Proof.Machine Sys2Proof.Laws

/-- Settles O23: each byte of the slots is one of the words SYNTH stores, and these agree in the two states. -/
theorem synthIsDeterministic : Obligations.SynthIsDeterministic := by
  intro s s' t t' hc hc' hcn hcfs hsp hdp hcflags hrom hparams hexec hexec' addr hlo hhi
  have hsame : SameBankInputs s s' := ⟨hcn, hcfs, hsp, hdp, hcflags, hrom, hparams⟩
  rw [exec_synth_eq_next hc hexec, exec_synth_eq_next hc' hexec', byte?_effSynth_slot s hlo hhi,
    byte?_effSynth_slot s' hlo hhi, hsame.slotWords_eq]

end Sys2Proof.Certificates
end

section
/-! PROOF. The control commands NOP and RSTCARRY (43_block_audio.md R200, R201), and the two steps in which a word written to
CMD reaches the engine and runs. -/

namespace Sys2Proof.Laws

open Sys2Proof.Machine

/-! ### A word written to CMD -/

/-- A write to CMD with the engine idle latches the word and sets BUSY (10_state.md R26). -/
theorem step_writeCmd {s : State} {v : Word} {rest : List Input} (h : Writing s 0x018#32 v rest) (hb : s.busy = false) :
    step s = .next { State.issue { s with inputs := rest } (v.setWidth 32) with reply := .ok } := by
  rw [step_writeRegister h (by decide) (by decide) (.inl hb), show (0x018#32).toNat = 0x018 from rfl, regWrite_cmd]

theorem issue_busy (s : State) (w : Word32) : (s.issue w).busy = true := by
  rw [State.busy, issue_status, getLsbD_setFlag _ _ _ _ (by decide), if_pos rfl]

/-- The end of a command does not show that BUSY was set for it. -/
theorem endStatus_setBusy (st : BitVec 7) : endStatus (setFlag 7 st bitBusy true) = endStatus st := by
  revert st
  decide

/-- A legal word written to an idle engine's CMD, then the engine's turn: the command runs on the state that latched it. -/
theorem steps_writeCmd_engine {s : State} {v : Word} {rest : List Input} {i : Instr}
    (h : Writing s 0x018#32 v (.engine :: rest)) (hb : s.busy = false) (hd : decode (v.setWidth 32) = .ok i) :
    ∃ t, step s = .next t ∧
      step t = exec i { State.issue { s with inputs := rest } (v.setWidth 32) with reply := .ok } := by
  refine ⟨_, step_writeCmd h hb, (step_engine rfl).trans ?_⟩
  exact engineTurn_ok (issue_busy { s with inputs := rest } (v.setWidth 32)) hd

/-! ### NOP -/

theorem decode_zero : decode 0#32 = .ok .nop := by decide

theorem exec_nop (s : State) : exec .nop s = .next { s with status := endStatus s.status } :=
  congrArg _ (finish_eq s)

/-! ### RSTCARRY -/

theorem exec_rstcarry (mask : BitVec 3) (s : State) : exec (.rstcarry mask) s = .next (effRstcarry mask s).finish := rfl

/-- RSTCARRY changes the valid bits and STATUS only. -/
theorem finish_effRstcarry (mask : BitVec 3) (s : State) :
    (effRstcarry mask s).finish = { s with
      status := endStatus s.status
      carryValid := (effRstcarry mask s).finish.carryValid
      seedValid := (effRstcarry mask s).finish.seedValid } :=
  finish_eq _

/-- Stream by stream, the valid bits outside the mask. -/
theorem getLsbD_and_not_mask (valid mask : BitVec 3) (st : Fin 3) :
    (valid &&& ~~~mask).getLsbD st = (valid.getLsbD st && !mask.getLsbD st) := by
  rw [BitVec.getLsbD_and, BitVec.getLsbD_not, decide_eq_true st.isLt, Bool.true_and]

theorem carryOk_effRstcarry (mask : BitVec 3) (s : State) (st : Fin 3) :
    (effRstcarry mask s).finish.carryOk st = (s.carryOk st && !mask.getLsbD st) :=
  getLsbD_and_not_mask s.carryValid mask st

theorem seedOk_effRstcarry (mask : BitVec 3) (s : State) (st : Fin 3) :
    (effRstcarry mask s).finish.seedOk st = (s.seedOk st && !mask.getLsbD st) :=
  getLsbD_and_not_mask s.seedValid mask st

/-- UNWRAP starts a stream without a carry from turns = 0 (42_datapath.md R167). -/
theorem unwrapTurns0_of_no_carry {s : State} {st : Stream} (h : s.carryOk st = false) : s.unwrapTurns0 st = 0 := by
  simp [State.unwrapTurns0, h]

end Sys2Proof.Laws

namespace Sys2Proof.Certificates

open Sys2Proof.Machine Sys2Proof.Laws

/-- Settles O14: NOP's effect is the end of a command alone, and setting BUSY before it leaves no trace in STATUS. -/
theorem nopOnlySetsDone : Obligations.NopOnlySetsDone := by
  refine ⟨exec_nop, fun s rest hw hb => ?_⟩
  obtain ⟨t, hwrite, hturn⟩ := steps_writeCmd_engine hw hb decode_zero
  rw [exec_nop, issue_status, endStatus_setBusy] at hturn
  exact ⟨t, hwrite, hturn⟩

/-- Settles O15: each stream's valid bit is kept exactly outside the mask, and a masked stream has no carry for UNWRAP. -/
theorem rstcarryClearsMaskedStreams : Obligations.RstcarryClearsMaskedStreams := by
  intro mask s
  refine ⟨_, exec_rstcarry mask s, finish_effRstcarry mask s, fun st => ?_⟩
  have hcarry := carryOk_effRstcarry mask s st
  refine ⟨hcarry, seedOk_effRstcarry mask s st, fun hmask => unwrapTurns0_of_no_carry ?_⟩
  rw [hcarry, hmask, Bool.not_true, Bool.and_false]

end Sys2Proof.Certificates
end

section
/-! PROOF. Reset (70_reset_and_hazards.md R261): what every register reads and every flag is in the state right after reset,
and that a reset event from any state leaves the same registers. -/

namespace Sys2Proof.Laws

open Sys2Proof.Machine

/-! ### The registers -/

/-- A run of registers that all hold 0 reads 0, at the places past its end too. -/
theorem regEntry_replicate_zero (n i : Nat) : regEntry (Vector.replicate n 0#64).toList i = 0#64 := by
  rw [regEntry, Vector.toList_replicate,
    List.getD_eq_getElem?_getD, List.getElem?_getD_replicate_default_eq]

/-- Every branch of `regRead` but ID's reads a field that reset makes 0, or reads 0 itself. -/
theorem regRead_reset_of_ne_id {off : Nat} (h : off ≠ 0x000) : regRead State.reset off = 0#64 := by
  simp only [regRead, if_neg h, State.reset, BitVec.ofNat_eq_ofNat, BitVec.setWidth_zero, regEntry_replicate_zero, ite_self]

theorem regRead_reset (off : Nat) : regRead State.reset off = if off = 0 then 0x4C44464200000007#64 else 0#64 := by
  split
  case isTrue h => rw [h, regRead_id]
  case isFalse h => exact regRead_reset_of_ne_id h

/-- What a reset keeps (the ROM, the parameters, the events, the draws) is no register. -/
theorem regRead_applyReset (s : State) (off : Nat) : regRead (applyReset s) off = regRead State.reset off := rfl

/-! ### The flags -/

@[simp] theorem reset_status : State.reset.status = 0#7 := rfl
@[simp] theorem reset_cfg : State.reset.cfg = 0#32 := rfl
@[simp] theorem reset_carryValid : State.reset.carryValid = 0#3 := rfl

@[simp] theorem reset_busy : State.reset.busy = false := by simp [State.busy]
@[simp] theorem reset_constructed : State.reset.constructed = false := by simp [State.constructed]
@[simp] theorem reset_bankValid : State.reset.bankValid = false := by simp [State.bankValid]
@[simp] theorem reset_err : State.reset.err = false := by simp [State.err]
@[simp] theorem reset_done : State.reset.done = false := by simp [State.done]

/-- IRQ needs DONE or ERR, and reset clears both. -/
@[simp] theorem reset_irq : State.reset.irq = false := by simp [State.irq]

@[simp] theorem reset_carryOk (st : Nat) : State.reset.carryOk st = false := by simp [State.carryOk]

/-- CFG after reset (10_state.md R28): NTSC, and every feature off. -/
theorem reset_cfg_selects_ntsc : cfgStdsel State.reset.cfg = 0#8 ∧ cfgLowband State.reset.cfg = false ∧
    cfgDda State.reset.cfg = false ∧ cfgHasAudio State.reset.cfg = false ∧ cfgAaLevel State.reset.cfg = 0#16 := by
  rw [reset_cfg]
  decide

/-! ### The reset event -/

theorem step_of_resetting {s : State} (h : Resetting s) : ∃ rest, step s = .next (applyReset { s with inputs := rest }) := by
  obtain ⟨rest, hin⟩ := List.head?_eq_some_iff.mp h
  exact ⟨rest, step_reset hin⟩

end Sys2Proof.Laws

namespace Sys2Proof.Certificates

open Sys2Proof.Machine Sys2Proof.Laws

/-- Settles O9: the state after reset register by register and flag by flag, and no register tells it from the state that a
reset event leaves. -/
theorem resetRegisters : Obligations.ResetRegisters := by
  refine ⟨regRead_reset, ⟨reset_busy, reset_constructed, reset_bankValid, reset_err, reset_done, reset_irq, reset_carryOk,
    reset_cfg_selects_ntsc⟩, fun s hs => ?_⟩
  obtain ⟨rest, hstep⟩ := step_of_resetting hs
  exact ⟨_, hstep, fun off => (regRead_applyReset _ off).trans (regRead_reset off)⟩

end Sys2Proof.Certificates
end

section
/-! PROOF. Command words: the decoder and the encoder are each other's inverse (30_encoding.md R84, R85, R90). -/

namespace Sys2Proof.Laws

open Sys2Proof.Machine

/-! ### Fields put together, and taken apart again -/

/-- The bits of a field above its low `k`, where zeros stand. -/
theorem extract_high_append {n k : Nat} (x : BitVec k) : ((0#n) ++ x).extractLsb' k n = 0#n := by
  apply BitVec.eq_of_getLsbD_eq
  intro i hi
  simp [BitVec.getLsbD_append]

/-- IMM of FDEMOD: the stream below the carrier, zeros above both. -/
theorem imm_fdemod_fields (st c : BitVec 2) :
    (0#8 ++ c ++ st : BitVec 12).extractLsb' 0 2 = st ∧ (0#8 ++ c ++ st : BitVec 12).extractLsb' 2 2 = c ∧
      (0#8 ++ c ++ st : BitVec 12).extractLsb' 4 8 = 0#8 := by
  revert st c
  decide

/-- A field whose bits from `k` up are zero is its low `k` bits below zeros. -/
theorem zero_append_extract_low {n k : Nat} (x : BitVec (n + k)) (h : x.extractLsb' k n = 0#n) :
    0#n ++ x.extractLsb' 0 k = x := by
  apply BitVec.eq_of_getLsbD_eq
  intro i hi
  by_cases hk : i < k
  · simp [BitVec.getLsbD_append, hk]
  · have hbit := congrArg (·.getLsbD (i - k)) h
    simp only [BitVec.getLsbD_extractLsb', BitVec.getLsbD_zero, show i - k < n by omega, decide_true, Bool.true_and,
      show k + (i - k) = i by omega] at hbit
    simp [BitVec.getLsbD_append, hk, hbit]

/-- IMM of RSTCARRY and of UNWRAP from its one field. -/
theorem imm_of_mask (imm : BitVec 12) (h : imm.extractLsb' 3 9 = 0#9) : 0#9 ++ imm.extractLsb' 0 3 = imm :=
  zero_append_extract_low (n := 9) (k := 3) imm h

theorem imm_of_stream (imm : BitVec 12) (h : imm.extractLsb' 2 10 = 0#10) : 0#10 ++ imm.extractLsb' 0 2 = imm :=
  zero_append_extract_low (n := 10) (k := 2) imm h

/-- IMM of FDEMOD from its two fields. -/
theorem imm_of_fdemod_fields (imm : BitVec 12) (h : imm.extractLsb' 4 8 = 0#8) :
    0#8 ++ imm.extractLsb' 2 2 ++ imm.extractLsb' 0 2 = imm := by
  apply BitVec.eq_of_getLsbD_eq
  intro i hi
  have hbit := congrArg (·.getLsbD (i - 4)) h
  simp only [BitVec.getLsbD_extractLsb', BitVec.getLsbD_zero] at hbit
  simp only [BitVec.getLsbD_append, BitVec.getLsbD_extractLsb', BitVec.getLsbD_zero]
  split
  · simp [*]
  · split
    · rw [decide_eq_true (by omega), Bool.true_and]
      congr 1
      omega
    · rw [decide_eq_true (by omega), Bool.true_and, show 4 + (i - 4) = i by omega] at hbit
      exact hbit.symm

/-! ### The decoder on a word that the encoder writes -/

theorem ifReservedZero_eq_ok_iff (b : Bool) (i j : Instr) : ifReservedZero b i = .ok j ↔ b = true ∧ i = j := by
  cases b <;> simp [ifReservedZero]

/-- Row by row of the map: OPC selects the row, and every field that the row reserves is written as 0. -/
theorem decode_encode (i : Instr) : decode (encode i) = .ok i := by
  cases i with
  | fdemod d a st c =>
    obtain ⟨hst, hc, hzero⟩ := imm_fdemod_fields st c
    simp [encode, opcodeOf, decode, ifReservedZero, hst, hc, hzero]
  | rstcarry mask =>
    have hlow : (0#9 ++ mask : BitVec 12).extractLsb' 0 3 = mask := extract_low_append mask
    have hzero : (0#9 ++ mask : BitVec 12).extractLsb' 3 9 = 0#9 := extract_high_append mask
    simp [encode, opcodeOf, decode, ifReservedZero, hlow, hzero]
  | unwrap d a st =>
    have hlow : (0#10 ++ st : BitVec 12).extractLsb' 0 2 = st := extract_low_append st
    have hzero : (0#10 ++ st : BitVec 12).extractLsb' 2 10 = 0#10 := extract_high_append st
    simp [encode, opcodeOf, decode, ifReservedZero, hlow, hzero]
  | _ => simp [encode, opcodeOf, decode, ifReservedZero]

/-- Row by row of the map: the word is its five fields, and the row's check says which of them are 0. -/
theorem encode_of_decode {w : Word32} {i : Instr} (h : decode w = .ok i) : encode i = w := by
  have hw := commandWord_fields w
  unfold decode at h
  extract_lets d a f imm none4 plain at h
  split at h
  case h_19 => cases h
  all_goals
    rename_i hopc
    rw [show fieldOpc w = BitVec.ofNat 8 (fieldOpc w).toNat by simp, hopc] at hw
    rw [ifReservedZero_eq_ok_iff] at h
    obtain ⟨hzero, rfl⟩ := h
    simp only [none4, plain, Bool.and_eq_true, beq_iff_eq] at hzero
    rw [← hw]
    simp_all [encode, opcodeOf, imm_of_mask, imm_of_stream, imm_of_fdemod_fields, d, a, f, imm]

end Sys2Proof.Laws

namespace Sys2Proof.Certificates

open Sys2Proof.Machine Sys2Proof.Laws

/-- Settles O1: the fields of a word put together read back, so OPC selects the command's own row and its check passes. -/
theorem decodeOfEncode : Obligations.DecodeOfEncode := decode_encode

/-- Settles O2: the check of a row leaves only the fields that the encoder writes. -/
theorem encodeOfDecode : Obligations.EncodeOfDecode := fun _ _ h => encode_of_decode h

end Sys2Proof.Certificates
end

section
/-! PROOF. What a step can do, each event said once, and the invariant kept by every one of them (Inv, 20_memory.md R71). -/

namespace Sys2Proof.Laws

open Sys2Proof.Machine

/-! ### Commands whose checks fail, and commands whose checks pass -/

/-- What a command answers when its checks have passed. -/
def passedOutcome (i : Instr) (s : State) : Host.Outcome State Fault Refusal :=
  if walksBuffers i then s.completeOnBlock (effectOf i) else s.complete (effectOf i)

/-- A command one of whose checks fails raises an error of its own opcode. -/
theorem exec_of_commandFails {i : Instr} {s : State} (h : commandFails s i = true) :
    ∃ e info, exec i s = .next (s.raise (opcodeOf i) e info) := by
  have body : ∀ opc x, (s.constructed = true → ∃ e info, x = .next (s.raise opc e info)) →
      ∃ e info, ifConstructed s opc x = .next (s.raise opc e info) := fun opc x hx => by
    cases hc : s.constructed with
    | true => rw [ifConstructed_true hc]; exact hx hc
    | false => exact ⟨.notConstructed, 0, by simp [ifConstructed, hc, errorOutcome]⟩
  cases i with
  | nop => simp [commandFails] at h
  | rstcarry mask => simp [commandFails] at h
  | construct =>
    obtain ⟨⟨e, info⟩, hf⟩ := Option.isSome_iff_exists.1 h
    exact ⟨e, info, by simp only [exec, execConstruct, hf, errorOutcome, opcodeOf]; rfl⟩
  | procblk =>
    refine body _ _ (fun hc => ?_)
    cases hb : s.bankValid with
    | false => exact ⟨.notSynthesized, 0, by simp [ifBankValid, hb, errorOutcome]⟩
    | true =>
      have hl : ¬ s.blkLen = s.cn := by simpa [commandFails, hc, hb] using h
      exact ⟨.blockSizeMismatch, s.blkLen, by simp [ifBankValid, hb, hl, errorOutcome]⟩
  | finaud =>
    refine body _ _ (fun hc => ?_)
    split
    next hl =>
      have hn : (f64Finite s.mtfLevel && f64Finite (audioGain s.params s.mtfLevel)) = false := by
        simp only [commandFails, hc, hl, Bool.not_true, Bool.false_or, decide_true, Bool.not_eq_true'] at h
        exact h
      exact ⟨.invalidParameter, 0x110, by simp only [hn]; rfl⟩
    next => exact ⟨.frameLength, s.afLen, rfl⟩
  | cmul d a f =>
    refine body _ _ (fun hc => ?_)
    split
    next hf =>
      have hb : s.bankValid = false := by simpa [commandFails, hc, hf] using h
      exact ⟨.notSynthesized, 0, by simp [ifBankValid, hb, errorOutcome]⟩
    next => exact ⟨.badOperand, f.setWidth 32, rfl⟩
  | unwrap d a st =>
    refine body _ _ (fun hc => ?_)
    have hs : streamOf? st = none := by simpa [commandFails, hc] using h
    exact ⟨.badOperand, 3, by rw [hs]; rfl⟩
  | fdemod d a st c =>
    refine body _ _ (fun hc => ?_)
    cases hs : streamOf? st with
    | none => exact ⟨.badOperand, 3, rfl⟩
    | some k =>
      have hcar : carrierOf? c = none := by simpa [commandFails, hc, hs] using h
      exact ⟨.badOperand, 3, by rw [hcar]; rfl⟩
  | decim d a df =>
    refine body _ _ (fun hc => ?_)
    have hf : factorInRange df = false := by simpa [commandFails, hc] using h
    exact ⟨.badOperand, 0, by rw [hf]; rfl⟩
  | _ =>
    refine body _ _ (fun hc => ?_)
    simp [commandFails, hc] at h

/-- A command that needs a CONSTRUCT and passes its checks runs after one. -/
theorem constructed_of_passes {i : Instr} {s : State} (h : commandFails s i = false) (hn : needsConstruct i = true) :
    s.constructed = true := by
  cases i <;> simp_all [commandFails, needsConstruct]

/-- A command all of whose checks pass has its effect. -/
theorem exec_of_passes {i : Instr} {s : State} (h : commandFails s i = false) : exec i s = passedOutcome i s := by
  have body : ∀ opc x y, needsConstruct i = true → x = y → ifConstructed s opc x = y := fun opc x y hn hx => by
    rw [ifConstructed_true (constructed_of_passes h hn), hx]
  cases i with
  | nop => rfl
  | rstcarry mask => rfl
  | construct =>
    have hf : firstFailure s.constructChecks = none := by simpa [commandFails] using h
    simp only [exec, execConstruct, hf]
    rfl
  | procblk =>
    have hp : s.bankValid = true ∧ s.blkLen = s.cn := by
      simp [commandFails] at h
      exact h.2
    refine body _ _ _ rfl ?_
    rw [ifBankValid_true hp.1, if_pos hp.2]
    rfl
  | finaud =>
    simp only [commandFails, Bool.or_eq_false_iff, Bool.not_eq_false', decide_eq_true_eq] at h
    refine body _ _ _ rfl ?_
    rw [if_pos h.2.1, if_pos h.2.2]
    rfl
  | cmul d a f =>
    simp only [commandFails, Bool.or_eq_false_iff, Bool.not_eq_false'] at h
    refine body _ _ _ rfl ?_
    rw [if_pos h.2.1, ifBankValid_true h.2.2]
    rfl
  | unwrap d a st =>
    obtain ⟨k, hk⟩ : ∃ k, streamOf? st = some k := by
      rw [← Option.isSome_iff_exists]
      simp only [commandFails, Bool.or_eq_false_iff] at h
      simpa [← Option.isSome_eq_false_iff] using h.2
    refine body _ _ _ rfl ?_
    simp only [hk, passedOutcome, walksBuffers, effectOf]
    rfl
  | fdemod d a st c =>
    simp only [commandFails, Bool.or_eq_false_iff] at h
    cases hs : streamOf? st with
    | none => simp [hs] at h
    | some k =>
      cases hc : carrierOf? c with
      | none => simp [hc] at h
      | some cr =>
        refine body _ _ _ rfl ?_
        simp only [hs, hc, passedOutcome, walksBuffers, effectOf]
        rfl
  | decim d a df =>
    simp only [commandFails, Bool.or_eq_false_iff, Bool.not_eq_false'] at h
    refine body _ _ _ rfl ?_
    rw [if_pos h.2]
    rfl
  | _ => exact body _ _ _ rfl rfl

/-- What a command that passes its checks leaves, where the buffers it walks exist. -/
theorem exec_of_passes_next {i : Instr} {s : State} (h : commandFails s i = false)
    (hg : walksBuffers i = true → s.geometryOk = true) : exec i s = .next (effectOf i s).finish := by
  rw [exec_of_passes h, passedOutcome]
  split
  next hw => exact completeOnBlock_ok (hg hw) _
  next => rfl

/-- A next state of a command that passes its checks. -/
theorem next_of_passes {i : Instr} {s t : State} (h : commandFails s i = false) (he : exec i s = .next t) :
    t = (effectOf i s).finish := by
  rw [exec_of_passes h, passedOutcome] at he
  split at he
  · exact ((completeOnBlock_eq_next_iff s t _).1 he).2
  · cases he
    rfl

/-- Only commands that need a CONSTRUCT walk buffers. -/
theorem needsConstruct_of_walksBuffers {i : Instr} (h : walksBuffers i = true) : needsConstruct i = true := by
  cases i <;> simp_all [walksBuffers, needsConstruct]

/-! ### What a host write can do -/

/-- What a host write leaves of the registers: STATUS with bits cleared, the latched command, or other values in the
registers that only the host writes, CFG with its reserved bits 0. -/
inductive RegWritten (s : State) : State → Prop where
  | cleared (m : BitVec 7) : RegWritten s { s with status := s.status &&& ~~~(m &&& statusW1C) }
  | issued (w : Word32) : RegWritten s (s.issue w)
  | host (irqen : BitVec 2) (cfg : Word32) (fsMhz : F64) (nreg blockcut blockcutEnd : Word32) (ovrMask : BitVec 17)
    (ovr : Vector Word 17) (blkStart : Word) (blkLen afLen : Word32) (mtfLevel : F64)
    (hc : cfg = s.cfg ∨ ∃ x, cfg = x &&& cfgMask) :
    RegWritten s { s with irqen := irqen, cfg := cfg, fsMhz := fsMhz, nreg := nreg, blockcut := blockcut,
                          blockcutEnd := blockcutEnd, ovrMask := ovrMask, ovr := ovr, blkStart := blkStart,
                          blkLen := blkLen, afLen := afLen, mtfLevel := mtfLevel }

theorem regWritten_ite {c : Prop} [Decidable c] {s a b : State} (ha : RegWritten s a) (hb : RegWritten s b) :
    RegWritten s (if c then a else b) := by
  split <;> assumption

theorem regWritten_regWrite (s : State) (off : Nat) (v : Word) : RegWritten s (regWrite s off v) := by
  have kept : s.cfg = s.cfg ∨ ∃ x, s.cfg = x &&& cfgMask := .inl rfl
  unfold regWrite
  refine regWritten_ite (.cleared _) (regWritten_ite (.issued _) ?_)
  refine regWritten_ite (.host _ _ _ _ _ _ _ _ _ _ _ _ kept) ?_
  refine regWritten_ite (.host _ _ _ _ _ _ _ _ _ _ _ _ (.inr ⟨_, rfl⟩)) ?_
  iterate 10 refine regWritten_ite (.host _ _ _ _ _ _ _ _ _ _ _ _ kept) ?_
  exact .host _ _ _ _ _ _ _ _ _ _ _ _ kept

/-- What a host write can do: an answer alone, WRBUSY, a register, or a word of the memory that the host may write. -/
inductive HostWritten (s : State) : State → Prop where
  | answer (r : Reply) : HostWritten s { s with reply := r }
  | dropped : HostWritten s { s with status := setFlag 7 s.status bitWrBusy true, reply := .ok }
  | register {t : State} (h : RegWritten s t) : HostWritten s { t with reply := .ok }
  | memory {a : Nat} (v : Word) (h : HostMemory a) (ha : a % 8 = 0) :
    HostWritten s { s with mem := Memory.store s.mem a (wordsBytes [v]), reply := .ok }

theorem hostWritten_hostWrite (s : State) (bytes a : Nat) (v : Word) : HostWritten s (hostWrite bytes a v s) := by
  by_cases hbad : badAccess bytes a = true
  · rw [hostWrite, if_pos hbad]
    exact .answer _
  have hok := (badAccess_iff bytes a).not.1 hbad
  push Not at hok
  obtain ⟨rfl, ha, hm⟩ := hok
  by_cases hb : s.busy = false ∨ a = 0x008 ∨ a = 0x020
  · rcases mapped_cases hm with hr | hr | hr | hr
    · rw [hostWrite_register ha hr hb]
      exact .register (regWritten_regWrite s a v)
    · have hidle : s.busy = false := hb.resolve_right (by unfold HostMemory at hr; omega)
      rw [hostWrite_memory ha hr hidle]
      exact .memory v hr ha
    · rw [hostWrite_readOnly ha (hb.resolve_right (by omega)) (.inl hr)]
      exact .answer _
    · rw [hostWrite_readOnly ha (hb.resolve_right (by omega)) (.inr hr)]
      exact .answer _
  · push Not at hb
    rw [hostWrite_busy ha hm (by simpa using hb.1) hb.2.1 hb.2.2]
    exact .dropped

/-! ### What a step can do -/

/-- Every event of a step, each with the answer it gives (20_memory.md R71); `is` are the events still to come. -/
inductive Stepped (s : State) : Host.Outcome State Fault Refusal → Prop where
  | idle (is : List Input) : Stepped s (.next { s with inputs := is })
  | illegal (is : List Input) : Stepped s (.next (State.raise { s with inputs := is } (fieldOpc s.cmd) .illegalCommand s.cmd))
  | executes (is : List Input) {i : Instr} (h : Executing s i) : Stepped s (exec i { s with inputs := is })
  | reads (is : List Input) (bytes a : Nat) : Stepped s (.next (hostRead bytes a { s with inputs := is }))
  | writes (is : List Input) (bytes a : Nat) (v : Word) : Stepped s (.next (hostWrite bytes a v { s with inputs := is }))
  | resets (is : List Input) (h : Resetting s) : Stepped s (.next (applyReset { s with inputs := is }))

theorem stepped_engineTurn {s : State} (is : List Input) (h : s.inputs = [] ∨ s.inputs.head? = some .engine) :
    Stepped s (engineTurn { s with inputs := is }) := by
  cases hb : s.busy with
  | false =>
    rw [engineTurn_idle (s := { s with inputs := is }) hb]
    exact .idle is
  | true =>
    cases hd : decode s.cmd with
    | ok i =>
      rw [engineTurn_ok (s := { s with inputs := is }) hb hd]
      exact .executes is ⟨hb, hd, h⟩
    | error r =>
      rw [engineTurn_error (s := { s with inputs := is }) hb hd]
      have he := Stepped.illegal (s := s) is
      rwa [raise_eq] at he

theorem stepped_step (s : State) : Stepped s (step s) := by
  cases hi : s.inputs with
  | nil =>
    rw [step_idle hi]
    exact stepped_engineTurn s.inputs (.inl hi)
  | cons i rest =>
    cases i with
    | read bytes addr =>
      rw [step_read hi]
      exact .reads rest bytes addr.toNat
    | write bytes addr v =>
      rw [step_write hi]
      exact .writes rest bytes addr.toNat v
    | engine =>
      rw [step_engine hi]
      exact stepped_engineTurn rest (.inr (by rw [hi]; rfl))
    | reset =>
      rw [step_reset hi]
      exact .resets rest (by rw [Resetting, hi]; rfl)

end Sys2Proof.Laws

namespace Sys2Proof.Machine

open Sys2Proof.Laws

/-! ### The invariant -/

/-- The effect of a command whose checks pass keeps the invariant. -/
theorem Inv.effectOf {s : State} (h : Inv s) {i : Instr} (hp : commandFails s i = false) : Inv (effectOf i s) := by
  have con : needsConstruct i = true → Constructed s := fun hn => ⟨h, constructed_of_passes hp hn⟩
  cases i with
  | nop => exact h
  | construct => exact h.construct (by simpa [commandFails] using hp)
  | synth => exact Inv.synth (con rfl)
  | procblk => exact (con rfl).procblk.inv
  | finaud =>
    simp only [commandFails, Bool.or_eq_false_iff, Bool.not_eq_false', decide_eq_true_eq] at hp
    exact h.finaud hp.2.1
  | rstcarry mask => exact h.rstcarry mask
  | real d a => exact ((con rfl).block (blockEffect_real d a)).inv
  | fft d a => exact ((con rfl).block (blockEffect_fft d a)).inv
  | ifft d a => exact ((con rfl).block (blockEffect_ifft d a)).inv
  | cmul d a f => exact ((con rfl).block (blockEffect_cmul d a f.toNat)).inv
  | env d a => exact ((con rfl).block (blockEffect_env d a)).inv
  | phase d a => exact ((con rfl).block (blockEffect_phase d a)).inv
  | unwrap d a st =>
    rcases effectOf_unwrap d a st with he | ⟨k, -, he⟩ <;> rw [he]
    · exact h
    · exact ((con rfl).unwrap d a k).inv
  | fdemod d a st c =>
    rcases effectOf_fdemod d a st c with he | ⟨k, cr, he⟩ <;> rw [he]
    · exact h
    · exact ((con rfl).block (blockEffect_fdemod d a k cr)).inv
  | mtf d a => exact ((con rfl).block (blockEffect_mtf d a)).inv
  | decim d a df => exact ((con rfl).decim d a df.toNat).inv
  | copy d a => exact ((con rfl).copy d a).inv
  | clr d => exact ((con rfl).block (blockEffect_clr d)).inv

theorem Inv.exec {s t : State} (h : Inv s) {i : Instr} (he : exec i s = .next t) : Inv t := by
  cases hf : commandFails s i with
  | true =>
    obtain ⟨e, info, hr⟩ := exec_of_commandFails hf
    rw [hr] at he
    cases he
    exact h.raise _ e info
  | false =>
    rw [next_of_passes hf he]
    exact (h.effectOf hf).finish

/-- In a state of the invariant a command ends. -/
theorem Inv.exec_next {s : State} (h : Inv s) (i : Instr) : ∃ t, Machine.exec i s = .next t := by
  cases hf : commandFails s i with
  | true =>
    obtain ⟨e, info, hr⟩ := exec_of_commandFails hf
    exact ⟨_, hr⟩
  | false =>
    exact ⟨_, exec_of_passes_next hf (fun hw =>
      h.geometry (constructed_of_passes hf (needsConstruct_of_walksBuffers hw)))⟩

theorem Inv.regWritten {s t : State} (h : Inv s) (hr : RegWritten s t) : Inv t := by
  cases hr with
  | cleared m =>
    have hb : ∀ st m : BitVec 7, (st &&& ~~~(m &&& statusW1C)).getLsbD 1 = st.getLsbD 1 ∧
        (st &&& ~~~(m &&& statusW1C)).getLsbD 2 = st.getLsbD 2 ∧
        ((st &&& ~~~(m &&& statusW1C)).getLsbD 3 = true → st.getLsbD 3 = true) := by
      intro st m
      simp [statusW1C]
      tauto
    obtain ⟨h1, h2, h3⟩ := hb s.status m
    exact h.withStatus _ h1 h2 h3 s.inputs s.reply s.draws s.cmd
  | issued w =>
    have hb : ∀ st : BitVec 7, (setFlag 7 st bitBusy true).getLsbD 1 = st.getLsbD 1 ∧
        (setFlag 7 st bitBusy true).getLsbD 2 = st.getLsbD 2 ∧
        ((setFlag 7 st bitBusy true).getLsbD 3 = true → st.getLsbD 3 = true) := by decide
    obtain ⟨h1, h2, h3⟩ := hb s.status
    exact h.withStatus _ h1 h2 h3 s.inputs s.reply s.draws w
  | host irqen cfg fsMhz nreg blockcut blockcutEnd ovrMask ovr blkStart blkLen afLen mtfLevel hc =>
    refine h.withHost irqen cfg fsMhz nreg blockcut blockcutEnd ovrMask ovr blkStart blkLen afLen mtfLevel ?_
    rcases hc with rfl | ⟨x, rfl⟩
    · exact h.reserved.1
    · rw [BitVec.and_assoc, BitVec.and_not_self]
      exact BitVec.and_zero

theorem Inv.hostWritten {s t : State} (h : Inv s) (hw : HostWritten s t) : Inv t := by
  cases hw with
  | answer r => exact h.withModel s.inputs r s.draws s.cmd
  | dropped =>
    have hb : ∀ st : BitVec 7, (setFlag 7 st bitWrBusy true).getLsbD 1 = st.getLsbD 1 ∧
        (setFlag 7 st bitWrBusy true).getLsbD 2 = st.getLsbD 2 ∧
        ((setFlag 7 st bitWrBusy true).getLsbD 3 = true → st.getLsbD 3 = true) := by decide
    obtain ⟨h1, h2, h3⟩ := hb s.status
    exact h.withStatus _ h1 h2 h3 s.inputs .ok s.draws s.cmd
  | register hr =>
    have ht := h.regWritten hr
    exact ht.withModel _ .ok _ _
  | memory v hm ha =>
    have hs := h.stored _ [v] s.draws (fun b h1 h2 => .inl (targetOf_ram (hostMemory_word hm ha h1 h2)))
    exact hs.withModel s.inputs .ok s.draws s.cmd

theorem Inv.applyReset (s : State) : Inv (applyReset s) :=
  have hc : (Machine.applyReset s).constructed = false := reset_constructed
  have hb : (Machine.applyReset s).bankValid = false := reset_bankValid
  have he : (Machine.applyReset s).err = false := reset_err
  { memory := rfl
    mapped := fun c hm => absurd hm List.not_mem_nil
    bank := by rw [hb]; simp
    bankWhole := by rw [hb]; simp
    geometry := by rw [hc]; simp
    rate := by rw [hc]; simp
    standard := by rw [hc]; simp
    declared := by rw [hc]; simp
    ranges := by rw [hc]; simp
    reserved := ⟨by simp [Machine.applyReset, State.reset], by simp [Machine.applyReset, State.reset]⟩
    errReserved := by simp [Machine.applyReset, State.reset]
    errCodes := by simp [Machine.applyReset, State.reset]
    errMeans := by rw [he]; simp
    carries := ⟨fun hne => absurd rfl hne, by simp [Machine.applyReset, State.reset]⟩
    counts := ⟨by simp [Machine.applyReset, State.reset], by simp [Machine.applyReset, State.reset]⟩ }

/-- Every event keeps the invariant. -/
theorem Inv.stepped {s t : State} (h : Inv s) {o : Host.Outcome State Fault Refusal} (ho : Stepped s o)
    (ht : o = .next t) : Inv t := by
  have hi : ∀ is, Inv { s with inputs := is } := fun is => h.withModel is s.reply s.draws s.cmd
  cases ho with
  | idle is => cases ht; exact hi is
  | illegal is => cases ht; exact (hi is).raise _ _ _
  | executes is hx => exact (hi is).exec ht
  | reads is bytes a => cases ht; rw [hostRead_eq]; exact (hi is).withModel _ _ _ _
  | writes is bytes a v => cases ht; exact (hi is).hostWritten (hostWritten_hostWrite _ bytes a v)
  | resets is hr => cases ht; exact Inv.applyReset _

end Sys2Proof.Machine

namespace Sys2Proof.Laws

open Sys2Proof.Machine

/-! ### Who changes the bank, the parameters in effect and the ROM -/

/-- What no event but SYNTH, CONSTRUCT and a reset changes: the bytes of the slots, and the parameters in effect. -/
structure BankFrame (s t : State) : Prop where
  slots : ∀ addr, 0x02000000 ≤ addr → addr < 0x02800000 → Memory.byte? t.mem addr = Memory.byte? s.mem addr
  sp : t.sp = s.sp
  dp : t.dp = s.dp
  deempAdj : t.deempAdj = s.deempAdj
  win : t.win = s.win
  cn : t.cn = s.cn
  cfsMhz : t.cfsMhz = s.cfsMhz
  cflags : t.cflags = s.cflags
  rom : t.rom = s.rom

theorem bankFrame_hostWritten {s t : State} (h : HostWritten s t) : BankFrame s t := by
  cases h with
  | answer r => constructor <;> intros <;> rfl
  | dropped => constructor <;> intros <;> rfl
  | register hr => cases hr <;> constructor <;> intros <;> rfl
  | memory v hm ha =>
    refine ⟨fun addr h1 h2 => byte?_store_outside _ _ _ _ ?_, rfl, rfl, rfl, rfl, rfl, rfl, rfl, rfl⟩
    rw [wordsBytes_length, List.length_singleton]
    unfold HostMemory at hm
    omega

theorem bankFrame_raise (s : State) (opc : BitVec 8) (e : ErrKind) (info : Word32) : BankFrame s (s.raise opc e info) := by
  constructor <;> intros <;> rfl

/-- Only SYNTH writes the slots. -/
theorem slots_effectOf {i : Instr} (hi : i ≠ .synth) {s : State} (hn : ∀ b ∈ writtenBufs i, s.n ≤ 65536) {addr : Nat}
    (h1 : 0x02000000 ≤ addr) (h2 : addr < 0x02800000) :
    Memory.byte? (effectOf i s).mem addr = Memory.byte? s.mem addr := by
  refine effectOf_memory i s addr (fun h => absurd h hi) (fun _ => by omega) (fun b hb hin => ?_)
  have := bufAddr_range b s.n (hn b hb)
  omega

/-- The block length is in range where a command that writes buffers ends. -/
theorem n_le_of_walks {i : Instr} {s : State} (hg : walksBuffers i = true → s.geometryOk = true) :
    ∀ b ∈ writtenBufs i, s.n ≤ 65536 := by
  intro b hb
  refine (geometry_bounds (hg ?_)).2.1
  cases i <;> simp_all [writtenBufs, walksBuffers]

/-- What a command changes of the slots, of the parameters in effect and of the ROM. -/
theorem exec_bank {i : Instr} {s t : State} (h : exec i s = .next t) :
    (∀ addr, 0x02000000 ≤ addr → addr < 0x02800000 → Memory.byte? t.mem addr ≠ Memory.byte? s.mem addr → i = .synth) ∧
    (¬ (t.sp = s.sp ∧ t.dp = s.dp ∧ t.deempAdj = s.deempAdj ∧ t.win = s.win ∧ t.cn = s.cn ∧ t.cfsMhz = s.cfsMhz ∧
        t.cflags = s.cflags) → i = .construct) ∧ t.rom = s.rom := by
  rcases exec_next h with ⟨e, info, rfl⟩ | ⟨hg, rfl⟩
  · have hf := bankFrame_raise s (opcodeOf i) e info
    exact ⟨fun addr h1 h2 hne => absurd (hf.slots addr h1 h2) hne,
      fun hne => absurd ⟨hf.sp, hf.dp, hf.deempAdj, hf.win, hf.cn, hf.cfsMhz, hf.cflags⟩ hne, hf.rom⟩
  · refine ⟨fun addr h1 h2 hne => ?_, fun hne => ?_, (hostFields_effectOf i s).rom⟩
    · by_contra hi
      exact hne (slots_effectOf hi (n_le_of_walks hg) h1 h2)
    · by_contra hi
      have hf := parameterFields_effectOf i s hi
      exact hne ⟨hf.sp, hf.dp, hf.deempAdj, hf.win, hf.cn, hf.cfsMhz, hf.cflags⟩

end Sys2Proof.Laws

namespace Sys2Proof.Certificates

open Sys2Proof.Machine Sys2Proof.Laws

/-- Settles O12: event by event, every operation and effect that a step is made of keeps the invariant. -/
theorem stepKeepsInvariant : Obligations.StepKeepsInvariant := fun s _ h hs => h.stepped (stepped_step s) hs

/-- Settles O13: a command's only stop is the geometry fault, which the invariant excludes. -/
theorem stepAnswersNext : Obligations.StepAnswersNext := by
  intro s h
  have ho := stepped_step s
  generalize step s = o at ho
  cases ho with
  | executes is hx =>
    have hi : Inv { s with inputs := is } := h.withModel is s.reply s.draws s.cmd
    exact hi.exec_next _
  | _ => exact ⟨_, rfl⟩

/-- Settles O11: the state right after reset is one that a reset event leaves. -/
theorem resetInvariant : Obligations.ResetInvariant := by
  have h := Inv.applyReset State.reset
  exact h

/-- Settles O59: of the events only a reset and an executed command reach the bank or the parameters, and of the commands
SYNTH and CONSTRUCT. -/
theorem onlyOwnersChange : Obligations.OnlyOwnersChange := by
  intro s t _ hs
  have frame : ∀ {u : State} (is : List Input), BankFrame { s with inputs := is } u →
      (∀ addr, 0x02000000 ≤ addr → addr < 0x02800000 → Memory.byte? u.mem addr ≠ Memory.byte? s.mem addr →
        Executing s .synth ∨ Resetting s) ∧
      (¬ (u.sp = s.sp ∧ u.dp = s.dp ∧ u.deempAdj = s.deempAdj ∧ u.win = s.win ∧ u.cn = s.cn ∧ u.cfsMhz = s.cfsMhz ∧
        u.cflags = s.cflags) → Executing s .construct ∨ Resetting s) ∧ u.rom = s.rom := fun is hf =>
    ⟨fun addr h1 h2 hne => absurd (hf.slots addr h1 h2) hne,
      fun hne => absurd ⟨hf.sp, hf.dp, hf.deempAdj, hf.win, hf.cn, hf.cfsMhz, hf.cflags⟩ hne, hf.rom⟩
  have ho := stepped_step s
  rw [hs] at ho
  generalize hx : Host.Outcome.next t = o at ho
  cases ho with
  | idle is => cases hx; exact frame is (by constructor <;> intros <;> rfl)
  | illegal is => cases hx; exact frame is (bankFrame_raise _ _ _ _)
  | executes is he =>
    obtain ⟨hslots, hparams, hrom⟩ := exec_bank hx.symm
    exact ⟨fun addr h1 h2 hne => .inl (hslots addr h1 h2 hne ▸ he), fun hne => .inl (hparams hne ▸ he), hrom⟩
  | reads is bytes a => cases hx; rw [hostRead_eq]; exact frame is (by constructor <;> intros <;> rfl)
  | writes is bytes a v => cases hx; exact frame is (bankFrame_hostWritten (hostWritten_hostWrite _ bytes a v))
  | resets is hr => cases hx; exact ⟨fun _ _ _ _ => .inr hr, fun _ => .inr hr, rfl⟩

end Sys2Proof.Certificates
end

section
/-! PROOF. The steps of the engine and the host's accesses (20_memory.md R61 to R72, 10_state.md R23 to R39, 70_reset_and_hazards.md
R260 to R270, 60_exceptions.md R240). -/

namespace Sys2Proof.Laws

open Sys2Proof.Machine

/-! ### STATUS after a host's access -/

theorem setFlag_busy (st : BitVec 7) : setFlag 7 st bitBusy true = st ||| 0x01#7 := by
  revert st
  decide

theorem setFlag_wrBusy (st : BitVec 7) : setFlag 7 st bitWrBusy true = st ||| 0x10#7 := by
  revert st
  decide

/-- The bits of STATUS that a write clears are ERR, WRBUSY and DONE, bits 3, 4 and 6. -/
theorem getLsbD_statusW1C (i : Nat) : statusW1C.getLsbD i = (decide (i = 3) || decide (i = 4) || decide (i = 6)) := by
  by_cases hi : i < 7
  · have : ∀ j : Fin 7, statusW1C.getLsbD j = (decide (j.val = 3) || decide (j.val = 4) || decide (j.val = 6)) := by decide
    exact this ⟨i, hi⟩
  · rw [BitVec.getLsbD_of_ge _ _ (not_lt.mp hi)]
    simp only [show i ≠ 3 by omega, show i ≠ 4 by omega, show i ≠ 6 by omega, decide_false, Bool.or_self]

theorem getLsbD_clearW1C (st : BitVec 7) (v : Word) (i : Nat) :
    (st &&& ~~~(v.setWidth 7 &&& statusW1C)).getLsbD i =
      (st.getLsbD i && !(v.getLsbD i && (decide (i = 3) || decide (i = 4) || decide (i = 6)))) := by
  rw [← getLsbD_statusW1C]
  by_cases hi : i < 7
  · simp only [BitVec.getLsbD_and, BitVec.getLsbD_not, BitVec.getLsbD_setWidth, hi, decide_true, Bool.true_and]
  · simp only [BitVec.getLsbD_and, BitVec.getLsbD_of_ge st i (not_lt.mp hi), Bool.false_and]

/-! ### The answers of an access -/

/-- A read that is no bus error returns data. -/
theorem hostRead_reply {bytes a : Nat} {s : State} (h : badAccess bytes a = false) :
    ∃ v, (hostRead bytes a s).reply = .data v := by
  unfold hostRead
  rw [h, if_neg Bool.false_ne_true]
  repeat' split
  all_goals exact ⟨_, rfl⟩

/-- A write that is no bus error is answered without one. -/
theorem hostWrite_reply {bytes a : Nat} {v : Word} {s : State} (h : badAccess bytes a = false) :
    (hostWrite bytes a v s).reply = .ok := by
  unfold hostWrite
  rw [h, if_neg Bool.false_ne_true]
  repeat' split
  all_goals rfl

theorem hostRead_bad {bytes a : Nat} {s : State} (h : badAccess bytes a = true) :
    hostRead bytes a s = { s with reply := .busError } := if_pos h

theorem hostWrite_bad {bytes a : Nat} {v : Word} {s : State} (h : badAccess bytes a = true) :
    hostWrite bytes a v s = { s with reply := .busError } := if_pos h

/-! ### The registers as the host sees them -/

/-- Every row of the register map is what the register reads. -/
theorem regRead_of_shows {s : State} {off : Nat} {v : Word} (h : RegisterShows s off v) : off < 0x1000 ∧ regRead s off = v := by
  cases h with
  | ovr i => exact ⟨by omega, regRead_ovr s i⟩
  | carryPh st => exact ⟨by omega, regRead_carryPh s st⟩
  | carryTurns st => exact ⟨by omega, regRead_carryTurns s st⟩
  | seedU st => exact ⟨by omega, regRead_seedU s st⟩
  | dp i => exact ⟨by omega, regRead_dp s i⟩
  | sp i => exact ⟨by omega, regRead_sp s i⟩
  | reserved off h =>
    refine ⟨by omega, ?_⟩
    rcases h with rfl | rfl | h | h
    · rfl
    · rfl
    all_goals
      simp only [regRead, Bool.or_eq_true, Bool.and_eq_true, decide_eq_true_eq]
      iterate 31 rw [if_neg (by omega)]
  | _ => exact ⟨by decide, rfl⟩

/-! ### The coefficient ROM as the host sees it -/

theorem efmPoints_length (r : Rom) : r.efmPoints.length = r.efmCount := by
  have := r.efmExtra.isLt
  simp only [Rom.efmPoints, List.length_take, Vector.length_toList, Rom.efmCount]
  omega

theorem efmCount_bounds (r : Rom) : 4 ≤ r.efmCount ∧ r.efmCount ≤ 64 := by
  have := r.efmExtra.isLt
  simp only [Rom.efmCount]
  omega

theorem efmWord_of_lt (pts : List EfmPoint) {i : Nat} (h : i < pts.length) :
    efmWord pts (3 * i) = pts[i].freq ∧ efmWord pts (3 * i + 1) = pts[i].amp ∧ efmWord pts (3 * i + 2) = pts[i].phase := by
  have h0 : 3 * i / 3 = i := by omega
  have h1 : (3 * i + 1) / 3 = i := by omega
  have h2 : (3 * i + 2) / 3 = i := by omega
  refine ⟨?_, ?_, ?_⟩ <;> simp only [efmWord, h0, h1, h2, List.getElem?_eq_getElem h]
  · rw [if_pos (by omega)]
  · rw [if_neg (by omega), if_pos (by omega)]
  · rw [if_neg (by omega), if_neg (by omega)]

theorem romRead_efm (r : Rom) {off : Nat} (h : 0x320 ≤ off) : romRead r off = efmWord r.efmPoints ((off - 0x320) / 8) := by
  unfold romRead
  iterate 10 rw [if_neg (by omega)]

theorem regEntry_toList (t : Vector Word 16) (i : Fin 16) : regEntry t.toList i = t[i] := by
  simp [regEntry]

/-- Every row of the ROM's layout is what the ROM reads. -/
theorem romRead_of_shows {r : Rom} {off : Nat} {v : Word} (h : RomShows r off v) : off < 0x1000 ∧ romRead r off = v := by
  have hlen := efmPoints_length r
  have hcount := efmCount_bounds r
  have entry : ∀ (t : Vector Word 16) (i : Fin 16), i ≠ 5 → stdEntry t i = t[i] := fun t i hi => by
    rw [stdEntry, if_neg (show ¬ i.val = 5 from fun e => hi (Fin.ext e)), regEntry_toList]
  cases h with
  | stdNtsc i h =>
    have hr : romRead r (0x000 + 8 * i) = stdEntry r.stdNtsc i := by fin_cases i <;> rfl
    exact ⟨by omega, hr.trans (entry _ i h)⟩
  | stdPal i h =>
    have hr : romRead r (0x080 + 8 * i) = stdEntry r.stdPal i := by fin_cases i <;> rfl
    exact ⟨by omega, hr.trans (entry _ i h)⟩
  | linePeriodNtsc => exact ⟨by decide, rfl⟩
  | linePeriodPal => exact ⟨by decide, rfl⟩
  | decNtsc i =>
    have hr : romRead r (0x100 + 8 * i) = regEntry r.decNtsc.toList i := by fin_cases i <;> rfl
    exact ⟨by omega, hr.trans (regEntry_toList _ i)⟩
  | decNtscLow i =>
    have hr : romRead r (0x180 + 8 * i) = regEntry r.decNtscLow.toList i := by fin_cases i <;> rfl
    exact ⟨by omega, hr.trans (regEntry_toList _ i)⟩
  | decPal i =>
    have hr : romRead r (0x200 + 8 * i) = regEntry r.decPal.toList i := by fin_cases i <;> rfl
    exact ⟨by omega, hr.trans (regEntry_toList _ i)⟩
  | decPalLow i =>
    have hr : romRead r (0x280 + 8 * i) = regEntry r.decPalLow.toList i := by fin_cases i <;> rfl
    exact ⟨by omega, hr.trans (regEntry_toList _ i)⟩
  | count => exact ⟨by decide, by rw [hlen]; rfl⟩
  | scale => exact ⟨by decide, rfl⟩
  | phaseFactor => exact ⟨by decide, rfl⟩
  | freq i h =>
    refine ⟨by omega, ?_⟩
    rw [romRead_efm r (by omega), show (0x320 + 24 * i - 0x320) / 8 = 3 * i by omega, (efmWord_of_lt _ h).1]
  | amp i h =>
    refine ⟨by omega, ?_⟩
    rw [romRead_efm r (by omega), show (0x328 + 24 * i - 0x320) / 8 = 3 * i + 1 by omega, (efmWord_of_lt _ h).2.1]
  | phase i h =>
    refine ⟨by omega, ?_⟩
    rw [romRead_efm r (by omega), show (0x330 + 24 * i - 0x320) / 8 = 3 * i + 2 by omega, (efmWord_of_lt _ h).2.2]
  | reserved off h =>
    refine ⟨by omega, ?_⟩
    rcases h with rfl | h
    · rfl
    · rw [romRead_efm r (by omega), efmWord, List.getElem?_eq_none (by omega)]

/-! ### A register that holds what is written -/

/-- A word of `n` bits read back as 64: the low `n` bits of what was written. -/
theorem setWidth_setWidth_eq_and (v : Word) (n : Nat) :
    (v.setWidth n).setWidth 64 = v &&& BitVec.ofNat 64 (2 ^ n - 1) := by
  apply BitVec.eq_of_getLsbD_eq
  intro i hi
  rw [BitVec.getLsbD_and, BitVec.getLsbD_ofNat, Nat.testBit_two_pow_sub_one, BitVec.getLsbD_setWidth,
    BitVec.getLsbD_setWidth]
  simp only [hi, decide_true, Bool.true_and]
  exact Bool.and_comm _ _

theorem setWidth_cfg (v : Word) : (v.setWidth 32 &&& cfgMask).setWidth 64 = v &&& 0xFFFF07FF#64 := by
  rw [BitVec.setWidth_and, setWidth_setWidth_eq_and v 32, BitVec.and_assoc]
  rfl

/-- What a write to a read-write register does: every other register reads as before, memory and BUSY stay, and the register
reads the implemented bits of what was written. -/
structure HoldsWrite (s t : State) (off : Nat) (v : Word) : Prop where
  others : ∀ o, o % 8 = 0 → o ≠ off → regRead t o = regRead s o
  mem : t.mem = s.mem
  busy : t.busy = s.busy
  reads : regRead t off = v

theorem holdsWrite_regWrite (s : State) (v : Word) {off : Nat} {mask : Word} (h8 : off % 8 = 0)
    (h : writableBits off = some mask) : HoldsWrite s (regWrite s off v) off (v &&& mask) := by
  have all : v &&& 0xFFFFFFFFFFFFFFFF#64 = v := BitVec.and_allOnes
  unfold writableBits at h
  split at h
  next e =>
    subst e
    cases h
    exact ⟨fun o _ ho => regRead_frame_irqen s _ ho, rfl, rfl, setWidth_setWidth_eq_and v 2⟩
  split at h
  next e =>
    subst e
    cases h
    exact ⟨fun o _ ho => regRead_frame_cfg s _ ho, rfl, rfl, setWidth_cfg v⟩
  split at h
  next e =>
    subst e
    cases h
    exact ⟨fun o _ ho => regRead_frame_fsMhz s _ ho, rfl, rfl, all.symm⟩
  split at h
  next e =>
    cases h
    have low := setWidth_setWidth_eq_and v 32
    rcases e with rfl | rfl | rfl
    · exact ⟨fun o _ ho => regRead_frame_nreg s _ ho, rfl, rfl, low⟩
    · exact ⟨fun o _ ho => regRead_frame_blockcut s _ ho, rfl, rfl, low⟩
    · exact ⟨fun o _ ho => regRead_frame_blockcutEnd s _ ho, rfl, rfl, low⟩
  split at h
  next e =>
    subst e
    cases h
    exact ⟨fun o _ ho => regRead_frame_ovrMask s _ ho, rfl, rfl, setWidth_setWidth_eq_and v 17⟩
  split at h
  next e =>
    cases h
    rw [all]
    by_cases hb : off = 0x0E8
    · subst hb
      exact ⟨fun o _ ho => regRead_frame_blkStart s _ ho, rfl, rfl, rfl⟩
    · obtain ⟨i, rfl⟩ : ∃ i : Fin 17, off = 0x060 + 8 * i.val := ⟨⟨(off - 0x060) / 8, by omega⟩, by simp only; omega⟩
      rw [regWrite_ovr]
      refine ⟨fun o h8o ho => regRead_frame_ovr s v i h8o ho, rfl, rfl, ?_⟩
      rw [regRead_ovr]
      exact Vector.getElem_set_self _
  split at h
  next e =>
    cases h
    have low := setWidth_setWidth_eq_and v 32
    rcases e with rfl | rfl
    · exact ⟨fun o _ ho => regRead_frame_blkLen s _ ho, rfl, rfl, low⟩
    · exact ⟨fun o _ ho => regRead_frame_afLen s _ ho, rfl, rfl, low⟩
  split at h
  next e =>
    subst e
    cases h
    exact ⟨fun o _ ho => regRead_frame_mtfLevel s _ ho, rfl, rfl, all.symm⟩
  cases h

theorem writableBits_lt {off : Nat} {mask : Word} (h : writableBits off = some mask) : off < 0x1000 := by
  by_contra hn
  unfold writableBits at h
  iterate 8 rw [if_neg (by omega)] at h
  cases h

/-! ### Reads while a command runs -/

/-- The bits of STATUS that may race (10_state.md R47, log 10): ERR, and those of CONSTRUCT, SYNTH and PROCBLK where they
end without an error. -/
theorem racingStatus_bits {s : State} {i : Instr} (hb : s.busy = true) (hd : decode s.cmd = .ok i) :
    (∀ b, b = 0 ∨ b = 4 ∨ b = 6 → s.racingStatus.getLsbD b = false) ∧
    (Fails s i ∨ i ≠ .construct → s.racingStatus.getLsbD 1 = false) ∧
    (Fails s i ∨ (i ≠ .construct ∧ i ≠ .synth) → s.racingStatus.getLsbD 2 = false) ∧
    (Fails s i ∨ i ≠ .procblk → s.racingStatus.getLsbD 5 = false) := by
  have never : ∀ m : BitVec 7, m &&& 0x51#7 = 0#7 → ∀ b, b = 0 ∨ b = 4 ∨ b = 6 → m.getLsbD b = false := by
    rintro m hm b (rfl | rfl | rfl) <;> revert m <;> decide
  rw [← fails_iff]
  simp only [State.racingStatus, hb, hd, if_true]
  split
  · exact ⟨never _ rfl, fun _ => rfl, fun _ => rfl, fun _ => rfl⟩
  next hf =>
    split
    next hi => subst hi; exact ⟨never _ rfl, by simp [hf], by simp [hf], fun _ => rfl⟩
    split
    next hi => subst hi; exact ⟨never _ rfl, fun _ => rfl, by simp [hf], fun _ => rfl⟩
    split
    next hi => subst hi; exact ⟨never _ rfl, fun _ => rfl, fun _ => rfl, by simp [hf]⟩
    exact ⟨never _ rfl, fun _ => rfl, fun _ => rfl, fun _ => rfl⟩

/-- A bit that does not race reads its value, whatever is drawn for the others. -/
theorem getLsbD_mix {st race : BitVec 7} (drawn : BitVec 7) {b : Nat} (h : race.getLsbD b = false) :
    ((st &&& ~~~race) ||| (drawn &&& race)).getLsbD b = st.getLsbD b := by
  by_cases hb : b < 7
  · simp only [BitVec.getLsbD_or, BitVec.getLsbD_and, BitVec.getLsbD_not, h, hb, decide_true, Bool.not_false,
      Bool.and_true, Bool.and_false, Bool.or_false]
  · simp [BitVec.getLsbD_of_ge _ b (not_lt.mp hb)]

theorem races_false_of_not_writesWord {s : State} {i : Instr} {a : Nat} (hb : s.busy = true) (hd : decode s.cmd = .ok i)
    (h : ¬ WritesWord s i a) : s.races a = false := by
  rw [races_ok hb hd, ← Bool.not_eq_true]
  exact fun hw => h (writesWord_of_writes hw)

/-- No command writes CMD. -/
theorem not_writesWord_cmd (s : State) (i : Instr) : ¬ WritesWord s i 0x018 := by
  have block : ∀ b : Buf, ¬ InBlock s b 0x018 := fun b h => by
    have := (bufAddr_range b 0 (by decide)).1
    unfold InBlock at h
    omega
  have carry : ∀ k : Stream, ¬ CarryOrSeed k 0x018 := fun k h => by
    unfold CarryOrSeed at h
    omega
  rintro (⟨-, h⟩ | ⟨-, h⟩)
  · simp at h
  · cases i <;> simp [ResultWord, block, carry] at h

theorem races_cmd (s : State) : s.races 0x018 = false := by
  cases hb : s.busy with
  | false => exact races_idle hb
  | true =>
    cases hd : decode s.cmd with
    | ok i => exact races_false_of_not_writesWord hb hd (not_writesWord_cmd s i)
    | error r => simp [State.races, hd]

end Sys2Proof.Laws

namespace Sys2Proof.Certificates

open Sys2Proof.Machine Sys2Proof.Laws

/-- Settles O6: both forms of the engine's turn run the latched command. -/
theorem stepRunsDecodedCommand : Obligations.StepRunsDecodedCommand := fun s _ hb hd =>
  ⟨fun hi => (step_idle hi).trans (engineTurn_ok hb hd),
    fun rest hi => (step_engine hi).trans (engineTurn_ok (s := { s with inputs := rest }) hb hd)⟩

/-- Settles O7: both forms of the engine's turn leave an idle engine's state. -/
theorem idleEngineHoldsState : Obligations.IdleEngineHoldsState := fun s hb =>
  ⟨fun hi => (step_idle hi).trans (engineTurn_idle hb),
    fun rest hi => (step_engine hi).trans (engineTurn_idle (s := { s with inputs := rest }) hb)⟩

/-- Settles O8: CMD is a register that latches, and that never races. -/
theorem commandIssue : Obligations.CommandIssue := by
  intro s v rest
  refine ⟨fun hw hb => ?_, fun hw hb => ?_, fun hr => ?_⟩
  · rw [step_writeCmd hw hb, State.issue, State.setStatus, setFlag_busy]
  · rw [step_writeBusy hw (by decide) (.inl (by decide)) hb (by decide) (by decide), setFlag_wrBusy]
  · exact step_readRegister hr (by decide) (by decide) (races_cmd s) (.inr (by decide))

/-- Settles O10: the state after a reset event is the one after reset but for the ROM and the model's own fields. -/
theorem resetAbandonsCommand : Obligations.ResetAbandonsCommand :=
  ⟨fun _ => rfl, fun _ _ hi => ⟨_, step_reset hi, fun _ => rfl, reset_busy, rfl, rfl, rfl⟩⟩

/-- Settles O49: a read changes the answer and the draw counter alone, and no register, ROM word or written word of memory
races while the engine is idle. -/
theorem readsHaveNoEffect : Obligations.ReadsHaveNoEffect := by
  refine ⟨fun s bytes addr rest hi => ?_, fun s addr v rest hb ha hr hv => ?_, fun s addr off v rest hb ha he hr hv => ?_,
    fun s addr v rest hb ha hm hr hw => ?_, fun r => ?_⟩
  · exact ⟨_, step_read hi, hostRead_eq bytes addr.toNat⟩
  · obtain ⟨hlt, hread⟩ := regRead_of_shows hv
    rw [step_readRegister hr ha hlt (races_idle hb) (.inl hb), hread]
  · obtain ⟨hlt, hread⟩ := romRead_of_shows hv
    rw [step_readRom hr ha (by omega) (by omega) (races_idle hb), show addr.toNat - 0x04000000 = off by omega, hread]
  · exact step_readMemory hr ha hm (races_idle hb) hw
  · rw [efmPoints_length]
    exact efmCount_bounds r

/-- Settles O50: the bus errors are the accesses of the wrong width, alignment or address, and no others. -/
theorem busErrors : Obligations.BusErrors := by
  intro s bytes addr v rest hi
  have good : bytes = 8 → addr.toNat % 8 = 0 → Mapped addr.toNat → badAccess bytes addr.toNat = false := by
    rintro rfl ha hm
    exact badAccess_false ha hm
  rcases hi with hi | hi
  · refine ⟨fun hbad => ?_, fun h8 ha hm => ⟨_, step_read hi, ?_⟩⟩
    · rw [step_read hi, hostRead_bad ((badAccess_iff _ _).2 hbad)]
    · obtain ⟨w, hw⟩ := hostRead_reply (s := { s with inputs := rest }) (good h8 ha hm)
      rw [hw]
      exact Reply.noConfusion
  · refine ⟨fun hbad => ?_, fun h8 ha hm => ⟨_, step_write hi, ?_⟩⟩
    · rw [step_write hi, hostWrite_bad ((badAccess_iff _ _).2 hbad)]
    · rw [hostWrite_reply (good h8 ha hm)]
      exact Reply.noConfusion

/-- Settles O51: the word's eight bytes stand at the address and only there, and make the word again. -/
theorem wordsReadBack : Obligations.WordsReadBack := by
  intro s addr v rest hb ha hm hw
  refine ⟨_, step_writeMemory hw ha hm hb, rfl, fun i hi => ?_, fun a h => ?_, fun rest' hr => ?_⟩
  · rw [byte?_store_inside _ _ _ _ (by omega) (by simp; omega), Nat.add_sub_cancel_left]
    have : ∀ j : Fin 8, (wordsBytes [v])[j.val]? = some (v.extractLsb' (8 * j.val) 8) := fun j => by fin_cases j <;> rfl
    exact this ⟨i, hi⟩
  · exact byte?_store_outside _ _ _ _ (by simpa using h)
  · exact step_readMemory hr ha (.inl hm) (races_idle hb) (word?_store_inside s.mem addr.toNat [v] 0 v rfl)

/-- Settles O52: a busy engine's write is dropped but at STATUS and IRQEN. -/
theorem busyWrites : Obligations.BusyWrites := by
  intro s addr v rest hb ha hm hw
  have ne : ∀ c : BitVec 32, addr ≠ c → addr.toNat ≠ c.toNat := fun c h e => h (BitVec.eq_of_toNat_eq e)
  refine ⟨fun h1 h2 => ?_, ?_⟩
  · rw [step_writeBusy hw ha hm hb (ne _ h1) (ne _ h2), setFlag_wrBusy]
  · rintro rfl
    exact step_writeRegister hw ha (by decide) (.inr (.inr rfl))

/-- Settles O53: a write to STATUS clears bits of the mask of ERR, WRBUSY and DONE, and IRQ is their level. -/
theorem statusAndInterrupt : Obligations.StatusAndInterrupt := by
  intro s
  refine ⟨?_, fun v rest hw => ?_⟩
  · simp only [State.irq, State.done, State.err, bitDone, bitErr, Bool.or_eq_true, Bool.and_eq_true]
  · exact ⟨_, step_writeRegister hw (by decide) (by decide) (.inr (.inl rfl)), rfl, getLsbD_clearW1C s.status v⟩

/-- Settles O54: a write to a read-write register changes what that register reads, to the implemented bits, and no other. -/
theorem registersHoldWrites : Obligations.RegistersHoldWrites := by
  intro s addr v mask rest hb ha hmask hw
  have hlt := writableBits_lt hmask
  have h := holdsWrite_regWrite { s with inputs := rest } v ha hmask
  refine ⟨_, step_writeRegister hw ha hlt (.inl hb), h.others, h.mem, fun rest' hr => ?_⟩
  have hb' : (regWrite { s with inputs := rest } addr.toNat v).busy = false := h.busy.trans hb
  rw [step_readRegister hr ha hlt (races_idle hb') (.inl hb')]
  exact congrArg (fun w => Host.Outcome.next { regWrite { s with inputs := rest } addr.toNat v with
    inputs := rest', reply := .data w }) h.reads

/-- Settles O55: the slots, the ROM and every register that is not read-write ignore a write. -/
theorem readOnlyWritesIgnored : Obligations.ReadOnlyWritesIgnored := by
  intro s addr v rest hb ha hplace hw
  rcases hplace with h | h | ⟨hlt, hmask, h1, h2⟩
  · exact step_writeReadOnly hw ha hb (.inl h)
  · exact step_writeReadOnly hw ha hb (.inr h)
  · rw [step_writeRegister hw ha hlt (.inl hb), regWrite_ignored _ v hmask (fun e => h1 (BitVec.eq_of_toNat_eq e))
      (fun e => h2 (BitVec.eq_of_toNat_eq e))]

/-- Settles O56: what the running command does not write does not race, and STATUS races in the bits it writes. -/
theorem busyReads : Obligations.BusyReads := by
  intro s addr i rest hb hd ha hr
  refine ⟨?_, fun hnw hns => ?_⟩
  · rintro rfl
    obtain ⟨hnever, hcon, hbank, hcarry⟩ := racingStatus_bits hb hd
    let drawn : BitVec 7 := (Config.unspecified (.nth s.draws) 0x008).setWidth 7
    refine ⟨(s.status &&& ~~~s.racingStatus) ||| (drawn &&& s.racingStatus), ?_, fun b h => getLsbD_mix drawn (hnever b h),
      fun h => getLsbD_mix drawn (hcon h), fun h => getLsbD_mix drawn (hbank h), fun h => getLsbD_mix drawn (hcarry h)⟩
    rw [step_read hr]
    exact (congrArg _ (hostRead_status (s := { s with inputs := rest }) hb (races_status _))).trans (by
      rw [State.statusReply, racingStatus_inputs])
  · have hx := races_false_of_not_writesWord hb hd hnw
    have hne : addr.toNat ≠ 0x008 := fun e => hns (BitVec.eq_of_toNat_eq e)
    exact ⟨fun hlt => step_readRegister hr ha hlt hx (.inr hne), fun h1 h2 => step_readRom hr ha h1 h2 hx,
      fun v hm hv => step_readMemory hr ha hm hx hv⟩

end Sys2Proof.Certificates
end

section
/-! PROOF. What every command does and leaves alone: its first checks and its two endings (60_exceptions.md R230 to R234), the
table of writers (10_state.md R47), and that only CONSTRUCT reads the configuration registers (R32). -/

namespace Sys2Proof.Laws

open Sys2Proof.Machine

/-! ### The first checks -/

theorem exec_eq_ifConstructed {i : Instr} (h : needsConstruct i = true) (s : State) :
    ∃ body, exec i s = ifConstructed s (opcodeOf i) body := by
  cases i with
  | nop => cases h
  | construct => cases h
  | rstcarry mask => cases h
  | _ => exact ⟨_, rfl⟩

/-- A command that needs a CONSTRUCT answers NotConstructed before one. -/
theorem notConstructedRaised {i : Instr} (h : needsConstruct i = true) (s : State) : NotConstructedRaised i s := by
  intro hc
  obtain ⟨body, hbody⟩ := exec_eq_ifConstructed h s
  rw [hbody, ifConstructed_false hc]

theorem streamInRange_iff (st : BitVec 2) : streamInRange st = true ↔ st ≠ 3#2 := by
  revert st
  decide

theorem carrierInRange_iff (c : BitVec 2) : carrierInRange c = true ↔ c ≠ 3#2 := by
  revert c
  decide

/-- A command is well formed when no field is out of range. -/
theorem wellFormed_iff (i : Instr) : WellFormed i = true ↔ outOfRange i = none := by
  cases i with
  | cmul d a f => simp [WellFormed, outOfRange, slotInRange_iff]
  | unwrap d a st => simp [WellFormed, outOfRange, streamInRange_iff]
  | fdemod d a st c => simp [WellFormed, outOfRange, streamInRange_iff, carrierInRange_iff]
  | decim d a df => simp [WellFormed, outOfRange, factorInRange_iff]
  | _ => simp [WellFormed, outOfRange]

theorem streamOf?_none : streamOf? 3#2 = none := rfl

theorem carrierOf?_none : carrierOf? 3#2 = none := rfl

theorem exec_cmul_badOperand {s : State} (hc : s.constructed = true) (d a : Buf) {f : BitVec 4} (h : 7 ≤ f.toNat) :
    exec (.cmul d a f) s = .next (errorState s 0x13#8 8#8 (f.setWidth 32)) := by
  have hf : slotInRange f = false := by
    rw [← Bool.not_eq_true, slotInRange_iff]
    simp [h]
  simp only [exec, execCmul, ifConstructed_true hc, hf, errorOutcome_eq]
  rfl

theorem exec_unwrap_badOperand {s : State} (hc : s.constructed = true) (d a : Buf) :
    exec (.unwrap d a 3#2) s = .next (errorState s 0x16#8 8#8 3#32) := by
  simp only [exec, execUnwrap, ifConstructed_true hc, streamOf?_none, errorOutcome_eq]
  rfl

theorem exec_fdemod_badOperand {s : State} (hc : s.constructed = true) (d a : Buf) {st c : BitVec 2}
    (h : st = 3#2 ∨ c = 3#2) : exec (.fdemod d a st c) s = .next (errorState s 0x17#8 8#8 3#32) := by
  simp only [exec, execFdemod, ifConstructed_true hc]
  rcases h with rfl | rfl
  · rw [streamOf?_none, errorOutcome_eq]
    rfl
  · rw [carrierOf?_none, errorOutcome_eq]
    cases streamOf? st <;> rfl

theorem exec_decim_badOperand {s : State} (hc : s.constructed = true) (d a : Buf) :
    exec (.decim d a 0#12) s = .next (errorState s 0x19#8 8#8 0#32) := by
  simp only [exec, execDecim, ifConstructed_true hc, errorOutcome_eq]
  rfl

/-- An out-of-range field raises BadOperand with its value. -/
theorem exec_badOperand {i : Instr} {s : State} {info : Word32} (hc : s.constructed = true)
    (h : outOfRange i = some info) : exec i s = .next (errorState s (opcodeOf i) 8#8 info) := by
  cases i with
  | cmul d a f =>
    simp only [outOfRange] at h
    split at h <;> cases h
    exact exec_cmul_badOperand hc d a ‹_›
  | unwrap d a st =>
    simp only [outOfRange] at h
    split at h <;> cases h
    subst st
    exact exec_unwrap_badOperand hc d a
  | fdemod d a st c =>
    simp only [outOfRange] at h
    split at h <;> cases h
    exact exec_fdemod_badOperand hc d a ‹_›
  | decim d a df =>
    simp only [outOfRange] at h
    split at h <;> cases h
    subst df
    exact exec_decim_badOperand hc d a
  | _ => cases h

/-! ### The two endings -/

theorem errorStatus_busy (st : BitVec 7) : (errorStatus st).getLsbD bitBusy = false := by
  revert st
  decide

theorem errorStatus_done (st : BitVec 7) : (errorStatus st).getLsbD bitDone = true := by
  revert st
  decide

/-- Either ending leaves BUSY = 0 and DONE = 1. -/
theorem exec_ends_idle {i : Instr} {s t : State} (h : exec i s = .next t) : t.busy = false ∧ t.done = true := by
  rcases exec_next h with ⟨e, info, rfl⟩ | ⟨-, rfl⟩
  · rw [raise_eq]
    exact ⟨errorStatus_busy s.status, errorStatus_done s.status⟩
  · exact ⟨finish_busy _, finish_done _⟩

theorem errCode_bounds (e : ErrKind) : 1 ≤ (errCode e).toNat ∧ (errCode e).toNat ≤ 9 := by
  cases e <;> decide

theorem commandFails_iff (s : State) (i : Instr) : commandFails s i = true ↔ Fails s i := by
  rw [← fails_eq, fails_iff]

/-! ### The writers of each part of the state -/

theorem finish_carryRestart (s : State) : s.finish.carryRestart = s.carryRestart := by
  have : ∀ st : BitVec 7, (endStatus st).getLsbD bitCarryRestart = st.getLsbD bitCarryRestart := by decide
  rw [State.carryRestart, finish_status]
  exact this s.status

theorem raise_carryRestart (s : State) (opc : BitVec 8) (e : ErrKind) (info : Word32) :
    (s.raise opc e info).carryRestart = s.carryRestart := by
  have : ∀ st : BitVec 7, (errorStatus st).getLsbD bitCarryRestart = st.getLsbD bitCarryRestart := by decide
  rw [State.carryRestart, raise_status]
  exact this s.status

/-- A byte of a buffer that a command does not write, of the slots, of the frames, or of no memory. -/
theorem effectOf_foreign_byte {i : Instr} {s : State} (hn : ∀ b ∈ writtenBufs i, s.n ≤ 65536) {addr : Nat}
    (h : (0x02000000 ≤ addr ∧ addr < 0x03000000 ∧ i ≠ .synth) ∨ (0x03000000 ≤ addr ∧ addr < 0x03800000) ∨
      (0x03800000 ≤ addr ∧ i ≠ .finaud) ∨ (∃ b : Buf, b ∉ writtenBufs i ∧ bufAddr b 0 ≤ addr ∧ addr < bufAddr b 65536)) :
    Memory.byte? (effectOf i s).mem addr = Memory.byte? s.mem addr := by
  refine effectOf_memory i s addr ?_ ?_ (fun d hd hin => ?_)
  · rintro rfl
    rcases h with h | h | h | ⟨b, -, h⟩
    · exact absurd rfl h.2.2
    · omega
    · omega
    · have := bufAddr_range b 65536 (le_refl _)
      omega
  · rintro rfl
    rcases h with h | h | h | ⟨b, -, h⟩
    · omega
    · omega
    · exact absurd rfl h.2
    · have := bufAddr_range b 65536 (le_refl _)
      omega
  · have hr := bufAddr_range d s.n (hn d hd)
    rcases h with h | h | h | ⟨b, hb, h⟩
    · omega
    · omega
    · omega
    · have := bufAddr_disjoint (b := b) (d := d) (fun e => hb (e ▸ hd)) (le_refl 65536) (hn d hd)
      omega

/-! ### The configuration registers as shadows -/

section Shadows

variable (cfg : Word32) (fsMhz : F64) (nreg cut cutEnd : Word32) (mask : BitVec 17) (ovr : Vector Word 17)

/-- The answer with the configuration registers of its next state replaced. -/
def outcomeWithShadows (o : Host.Outcome State Fault Refusal) : Host.Outcome State Fault Refusal :=
  match o with
  | .next t => .next (t.withShadows cfg fsMhz nreg cut cutEnd mask ovr)
  | .fault r => .fault r
  | .refused r => .refused r

/-- The effect neither reads nor writes the configuration registers. -/
def IgnoresShadows (eff : State → State) : Prop :=
  ∀ s : State, eff (s.withShadows cfg fsMhz nreg cut cutEnd mask ovr) =
    (eff s).withShadows cfg fsMhz nreg cut cutEnd mask ovr

variable {cfg fsMhz nreg cut cutEnd mask ovr}

theorem ifConstructed_withShadows (s : State) (opc : BitVec 8) {x y : Host.Outcome State Fault Refusal}
    (h : y = outcomeWithShadows cfg fsMhz nreg cut cutEnd mask ovr x) :
    ifConstructed (s.withShadows cfg fsMhz nreg cut cutEnd mask ovr) opc y =
      outcomeWithShadows cfg fsMhz nreg cut cutEnd mask ovr (ifConstructed s opc x) := by
  have hc : (s.withShadows cfg fsMhz nreg cut cutEnd mask ovr).constructed = s.constructed := rfl
  unfold ifConstructed
  rw [hc, h]
  split <;> rfl

theorem ifBankValid_withShadows (s : State) (opc : BitVec 8) {x y : Host.Outcome State Fault Refusal}
    (h : y = outcomeWithShadows cfg fsMhz nreg cut cutEnd mask ovr x) :
    ifBankValid (s.withShadows cfg fsMhz nreg cut cutEnd mask ovr) opc y =
      outcomeWithShadows cfg fsMhz nreg cut cutEnd mask ovr (ifBankValid s opc x) := by
  have hb : (s.withShadows cfg fsMhz nreg cut cutEnd mask ovr).bankValid = s.bankValid := rfl
  unfold ifBankValid
  rw [hb, h]
  split <;> rfl

theorem complete_withShadows {eff : State → State} (h : IgnoresShadows cfg fsMhz nreg cut cutEnd mask ovr eff) (s : State) :
    (s.withShadows cfg fsMhz nreg cut cutEnd mask ovr).complete eff =
      outcomeWithShadows cfg fsMhz nreg cut cutEnd mask ovr (s.complete eff) := by
  rw [State.complete, h s]
  rfl

theorem completeOnBlock_withShadows {eff : State → State} (h : IgnoresShadows cfg fsMhz nreg cut cutEnd mask ovr eff)
    (s : State) : (s.withShadows cfg fsMhz nreg cut cutEnd mask ovr).completeOnBlock eff =
      outcomeWithShadows cfg fsMhz nreg cut cutEnd mask ovr (s.completeOnBlock eff) := by
  have hg : (s.withShadows cfg fsMhz nreg cut cutEnd mask ovr).geometryOk = s.geometryOk := rfl
  unfold State.completeOnBlock
  rw [hg, complete_withShadows h]
  split <;> rfl

/-- A command that makes the check of R160 and then walks buffers. -/
theorem walk_withShadows {eff : State → State} (h : IgnoresShadows cfg fsMhz nreg cut cutEnd mask ovr eff) (s : State)
    (opc : BitVec 8) : ifConstructed (s.withShadows cfg fsMhz nreg cut cutEnd mask ovr) opc
        ((s.withShadows cfg fsMhz nreg cut cutEnd mask ovr).completeOnBlock eff) =
      outcomeWithShadows cfg fsMhz nreg cut cutEnd mask ovr (ifConstructed s opc (s.completeOnBlock eff)) :=
  ifConstructed_withShadows s opc (completeOnBlock_withShadows h s)

theorem ignoresShadows_seq {es : List (State → State)} (h : ∀ e ∈ es, IgnoresShadows cfg fsMhz nreg cut cutEnd mask ovr e) :
    IgnoresShadows cfg fsMhz nreg cut cutEnd mask ovr (effSeq es) := by
  induction es with
  | nil => exact fun _ => rfl
  | cons e es ih =>
    intro s
    rw [effSeq_cons, effSeq_cons, h e List.mem_cons_self s]
    exact ih (fun e' he' => h e' (List.mem_cons_of_mem _ he')) (e s)

theorem ignoresShadows_copy (d a : Buf) : IgnoresShadows cfg fsMhz nreg cut cutEnd mask ovr (effCopy d a) := by
  intro s
  unfold effCopy
  split <;> rfl

theorem ignoresShadows_contiguity : IgnoresShadows cfg fsMhz nreg cut cutEnd mask ovr effContiguity := by
  intro s
  have hc : (s.withShadows cfg fsMhz nreg cut cutEnd mask ovr).contiguous = s.contiguous := rfl
  unfold effContiguity
  rw [hc]
  split <;> rfl

theorem ignoresShadows_channel (slot : Nat) (out : Buf) (st : Stream) (c : Carrier) :
    ∀ e ∈ stepsChannel slot out st c, IgnoresShadows cfg fsMhz nreg cut cutEnd mask ovr e := by
  simp only [stepsChannel, List.forall_mem_cons, List.not_mem_nil, false_imp_iff, implies_true, and_true]
  and_intros <;> exact fun _ => rfl

theorem ignoresShadows_audio (on : Bool) : ∀ e ∈ stepsAudio on, IgnoresShadows cfg fsMhz nreg cut cutEnd mask ovr e := by
  unfold stepsAudio
  split
  · exact List.forall_mem_append.2 ⟨ignoresShadows_channel _ _ _ _, ignoresShadows_channel _ _ _ _⟩
  · simp only [List.forall_mem_cons, List.not_mem_nil, false_imp_iff, implies_true, and_true]
    and_intros <;> exact fun _ => rfl

theorem ignoresShadows_efm (on : Bool) : ∀ e ∈ stepsEfm on, IgnoresShadows cfg fsMhz nreg cut cutEnd mask ovr e := by
  unfold stepsEfm
  split <;> simp only [List.forall_mem_cons, List.not_mem_nil, false_imp_iff, implies_true, and_true]
  · and_intros <;> exact fun _ => rfl
  · exact fun _ => rfl

theorem ignoresShadows_steps (audio efm : Bool) :
    ∀ e ∈ procblkSteps audio efm, IgnoresShadows cfg fsMhz nreg cut cutEnd mask ovr e := by
  have video : ∀ e ∈ stepsSpectrum ++ stepsVideo ++ stepsSync ++ stepsMtf,
      IgnoresShadows cfg fsMhz nreg cut cutEnd mask ovr e := by
    simp only [stepsSpectrum, stepsVideo, stepsSync, stepsMtf, List.forall_mem_append, List.forall_mem_cons,
      List.not_mem_nil, false_imp_iff, implies_true, and_true]
    and_intros <;> exact fun _ => rfl
  exact List.forall_mem_append.2 ⟨List.forall_mem_append.2 ⟨video, ignoresShadows_audio audio⟩, ignoresShadows_efm efm⟩

theorem ignoresShadows_procblk : IgnoresShadows cfg fsMhz nreg cut cutEnd mask ovr effProcblk := by
  intro s
  have hcf : (s.withShadows cfg fsMhz nreg cut cutEnd mask ovr).cflags = s.cflags := rfl
  have next : IgnoresShadows cfg fsMhz nreg cut cutEnd mask ovr effNextStart := fun _ => rfl
  rw [effProcblk_eq, effProcblk_eq, hcf, ignoresShadows_contiguity s, ignoresShadows_seq (ignoresShadows_steps _ _), next]

/-- Every command but CONSTRUCT answers the same under any values of the configuration registers. -/
theorem exec_withShadows {i : Instr} (hi : i ≠ .construct) (s : State) :
    exec i (s.withShadows cfg fsMhz nreg cut cutEnd mask ovr) =
      outcomeWithShadows cfg fsMhz nreg cut cutEnd mask ovr (exec i s) := by
  cases i with
  | nop => rfl
  | construct => exact absurd rfl hi
  | synth => exact walk_withShadows (fun _ => rfl) s _
  | procblk =>
    refine ifConstructed_withShadows s _ (ifBankValid_withShadows s _ ?_)
    have hl : (s.withShadows cfg fsMhz nreg cut cutEnd mask ovr).blkLen = s.blkLen := rfl
    have hn : (s.withShadows cfg fsMhz nreg cut cutEnd mask ovr).cn = s.cn := rfl
    rw [hl, hn, completeOnBlock_withShadows ignoresShadows_procblk]
    split <;> rfl
  | finaud =>
    refine ifConstructed_withShadows s _ ?_
    have hm : (s.withShadows cfg fsMhz nreg cut cutEnd mask ovr).mtfLevel = s.mtfLevel := rfl
    have hp : (s.withShadows cfg fsMhz nreg cut cutEnd mask ovr).params = s.params := rfl
    have hl : (s.withShadows cfg fsMhz nreg cut cutEnd mask ovr).frameLen = s.frameLen := rfl
    rw [hm, hp, hl, complete_withShadows (fun _ => rfl)]
    split
    · split <;> rfl
    · rfl
  | rstcarry m => rfl
  | real d a => exact walk_withShadows (fun _ => rfl) s _
  | fft d a => exact walk_withShadows (fun _ => rfl) s _
  | ifft d a => exact walk_withShadows (fun _ => rfl) s _
  | cmul d a f =>
    refine ifConstructed_withShadows s _ ?_
    split
    · exact ifBankValid_withShadows s _ (completeOnBlock_withShadows (fun _ => rfl) s)
    · rfl
  | env d a => exact walk_withShadows (fun _ => rfl) s _
  | phase d a => exact walk_withShadows (fun _ => rfl) s _
  | unwrap d a st =>
    refine ifConstructed_withShadows s _ ?_
    cases streamOf? st with
    | none => rfl
    | some k => exact completeOnBlock_withShadows (fun _ => rfl) s
  | fdemod d a st c =>
    refine ifConstructed_withShadows s _ ?_
    cases streamOf? st with
    | none => rfl
    | some k =>
      cases carrierOf? c with
      | none => rfl
      | some cr => exact completeOnBlock_withShadows (fun _ => rfl) s
  | mtf d a => exact walk_withShadows (fun _ => rfl) s _
  | decim d a df =>
    refine ifConstructed_withShadows s _ ?_
    split
    · exact completeOnBlock_withShadows (fun _ => rfl) s
    · rfl
  | copy d a => exact walk_withShadows (ignoresShadows_copy d a) s _
  | clr d => exact walk_withShadows (fun _ => rfl) s _

end Shadows

end Sys2Proof.Laws

namespace Sys2Proof.Certificates

open Sys2Proof.Machine Sys2Proof.Laws

/-- Settles O5: the check of CONSTRUCTED stands before every other, that of the operands next. -/
theorem firstChecks : Obligations.FirstChecks := fun i =>
  ⟨wellFormed_iff i, fun s => ⟨fun hn => notConstructedRaised hn s, fun hc _ h => exec_badOperand hc h⟩⟩

/-- Settles O57: a command's checks fail exactly where `Fails` says, and its two endings are the error and its effect. -/
theorem commandsCompleteOrRaise : Obligations.CommandsCompleteOrRaise := by
  intro i s t h
  obtain ⟨hidle, hdone⟩ := exec_ends_idle h
  refine ⟨hidle, hdone, fun hf => ?_, fun hf => ?_⟩
  · obtain ⟨e, info, hr⟩ := exec_of_commandFails ((commandFails_iff s i).2 hf)
    rw [hr] at h
    cases h
    obtain ⟨hlo, hhi⟩ := errCode_bounds e
    exact ⟨errCode e, info, hlo, hhi, raise_eq s _ e info⟩
  · have hp : commandFails s i = false := by
      rw [← Bool.not_eq_true, commandFails_iff]
      exact hf
    obtain ⟨hcode, herr⟩ := effectOf_error i s
    rw [next_of_passes hp h]
    exact ⟨hcode, (finish_err _).trans herr⟩

/-- Settles O58: an error writes STATUS and ERRCODE alone, and the effects write what R47's table gives their commands. -/
theorem writersOfState : Obligations.WritersOfState := by
  intro i s t h
  rcases exec_next h with ⟨e, info, rfl⟩ | ⟨hg, rfl⟩
  · refine ⟨⟨rfl, rfl, rfl, rfl, rfl, rfl, rfl, rfl, rfl, rfl, rfl, rfl, rfl⟩, fun _ => ⟨raise_constructed _ _ _ _, rfl, rfl,
      rfl, rfl, rfl, rfl, rfl⟩, fun _ _ => raise_bankValid _ _ _ _, fun _ _ => ⟨⟨rfl, rfl, rfl⟩, fun _ _ => ⟨rfl, rfl⟩⟩,
      fun _ => ⟨raise_carryRestart _ _ _ _, fun _ => rfl⟩, fun _ _ => ⟨rfl, rfl⟩, fun _ => rfl, fun _ _ => rfl⟩
  · have host := hostFields_effectOf i s
    obtain ⟨hrestart, hcounts, houtlen⟩ := effectOf_audio i s
    refine ⟨⟨host.cfg, host.fsMhz, host.nreg, host.blockcut, host.blockcutEnd, host.ovrMask, host.ovr, host.blkStart,
      host.blkLen, host.afLen, host.mtfLevel, host.irqen, host.rom⟩, fun hi => ?_, fun hi hi' => ?_, effectOf_carries i s,
      fun hi => ⟨(finish_carryRestart _).trans (hrestart hi).1, (hrestart hi).2⟩, hcounts, houtlen,
      fun addr ha => effectOf_foreign_byte (n_le_of_walks hg) ha⟩
    · have par := parameterFields_effectOf i s hi
      exact ⟨(finish_constructed _).trans par.constructed, par.win, par.cn, par.cfsMhz, par.cflags, par.sp, par.dp,
        par.deempAdj⟩
    · exact (finish_bankValid _).trans (effectOf_bankValid i s hi hi')

/-- Settles O60: of all the commands' checks and effects only CONSTRUCT's read the configuration registers. -/
theorem shadowsDoNotMatter : Obligations.ShadowsDoNotMatter := by
  intro i s cfg fsMhz nreg cut cutEnd mask ovr hi
  rw [exec_withShadows hi]
  unfold outcomeWithShadows
  rfl

end Sys2Proof.Certificates
end

section
/-! PROOF. CONSTRUCT (40_parameter_model.md R101 to R119): the errors of its checks, its commit, and the parameters it leaves. -/

namespace Sys2Proof.Laws

open Sys2Proof.Machine

/-! ### The errors -/

theorem firstFailure_pass_three {c c' c'' : Check} (h : c.1 = true) (h' : c'.1 = true) (h'' : c''.1 = true)
    (cs : List Check) : firstFailure (c :: c' :: c'' :: cs) = firstFailure cs := by
  rw [firstFailure_pass h, firstFailure_pass h', firstFailure_pass h'']

theorem firstFailure_append_some {cs : List Check} {r : ErrKind × Word32} (h : firstFailure cs = some r) (ds : List Check) :
    firstFailure (cs ++ ds) = some r := by
  rw [firstFailure, Option.map_eq_some_iff] at *
  obtain ⟨c, hc, hr⟩ := h
  exact ⟨c, by rw [List.find?_append, hc, Option.some_or], hr⟩

/-- CONSTRUCT's error is that of its first failing check. -/
theorem exec_construct_error {s : State} {e : ErrKind} {info : Word32} (h : firstFailure s.constructChecks = some (e, info)) :
    exec .construct s = .next (errorState s 1#8 (errCode e) info) := by
  simp only [exec, execConstruct, h, errorOutcome_eq]
  rfl

theorem exec_construct_basic {s : State} {e : ErrKind} {info : Word32} (h : firstFailure (basicChecks s) = some (e, info)) :
    exec .construct s = .next (errorState s 1#8 (errCode e) info) := by
  refine exec_construct_error ?_
  rw [constructChecks_eq]
  exact firstFailure_append_some h _

theorem exec_construct_override {s : State} (hb : BasicsPass s) {i : Fin 17} (hi : ¬ OverrideOk s i)
    (hj : ∀ j, j < i → OverrideOk s j) : exec .construct s = .next (errorState s 1#8 2#8 (BitVec.ofNat 32 i)) := by
  refine exec_construct_error (e := .invalidParameter) ?_
  rw [constructChecks_eq, firstFailure_append_pass ((basicChecks_iff s).2 hb)]
  refine firstFailure_range (overrideCheck s) i.isLt ?_ (fun j h => ?_) _
  · rw [← Bool.not_eq_true, overrideCheck_iff]
    exact hi
  · exact (overrideCheck_iff s ⟨j, by omega⟩).2 (hj ⟨j, by omega⟩ h)

theorem exec_construct_range {s : State} (hb : BasicsPass s) (ho : ∀ i, OverrideOk s i) {j : Nat} (hj : j < 8)
    (hr : ¬ RangeOk s j) (hl : ∀ l, l < j → RangeOk s l) :
    exec .construct s = .next (errorState s 1#8 2#8 (0x20#32 + BitVec.ofNat 32 j)) := by
  have hinfo : 0x20#32 + BitVec.ofNat 32 j = BitVec.ofNat 32 (0x20 + j) := (BitVec.ofNat_add 0x20 j).symm
  have hover : ∀ c ∈ (List.range 17).map (overrideCheck s), c.1 = true := by
    simp only [List.forall_mem_map, List.mem_range]
    exact fun i hi => (overrideCheck_iff s ⟨i, hi⟩).2 (ho ⟨i, hi⟩)
  rw [hinfo]
  refine exec_construct_error (e := .invalidParameter) ?_
  rw [constructChecks_eq, firstFailure_append_pass ((basicChecks_iff s).2 hb), firstFailure_append_pass hover,
    ← List.append_nil ((List.range 8).map (rangeCheck s))]
  refine firstFailure_range (rangeCheck s) hj ?_ (fun l h => (rangeCheck_iff hb.rate l).2 (hl l h)) _
  rw [← Bool.not_eq_true, rangeCheck_iff hb.rate]
  exact hr

/-! ### The commit -/

theorem commandFails_construct {s : State} (h : ConstructPasses s) : commandFails s .construct = false := by
  rw [← Bool.not_eq_true, commandFails_iff]
  simp [Fails, needsConstruct, outOfRange, h]

theorem exec_construct {s : State} (h : ConstructPasses s) : exec .construct s = .next (effConstruct s).finish :=
  exec_of_passes_next (commandFails_construct h) (by simp [walksBuffers])

theorem next_construct {s t : State} (h : ConstructPasses s) (ht : exec .construct s = .next t) :
    t = (effConstruct s).finish :=
  Host.Outcome.next.inj (ht.symm.trans (exec_construct h))

theorem status_effConstruct (s : State) : (effConstruct s).status = (s.status ||| 0x02#7) &&& 0x7B#7 := by
  have : ∀ st : BitVec 7, setFlag 7 (setFlag 7 st bitConstructed true) bitBankValid false = (st ||| 0x02#7) &&& 0x7B#7 := by
    decide
  exact this s.status

theorem ovrWord_of_lt (s : State) {i : Nat} (h : i < 17) : s.ovrWord i = s.ovr[i] := ovrWord_eq s ⟨i, h⟩

theorem deempFactor_eq (s : State) :
    s.deempFactor = if s.ovrMask.getLsbD 16 then s.ovr[16] else 0x3FF0000000000000#64 := by
  rw [State.deempFactor, ovrWord_of_lt s (by decide)]
  rfl

/-! ### The decoder parameters -/

theorem decTable_eq (s : State) : decTable s.rom s.cfg = decRom s := by
  unfold decTable decRom
  by_cases h : cfgStdsel s.cfg = 0#8
  · rw [(isPal_eq s.cfg).2 h, if_pos h]
    rfl
  · have hp : isPal s.cfg = true := by
      rw [← Bool.not_eq_false, isPal_eq]
      exact h
    rw [hp, if_neg h]
    rfl

theorem dpWords_getElem (s : State) (i : Fin 16) : s.dpWords[i] =
    if i.val = 2 ∨ i.val = 3 then scaledWord (dpAddr i) (s.dpChosen i) s.deempFactor else s.dpChosen i := by
  simp [State.dpWords]

/-- A field that R111 does not scale. -/
theorem dpWords_plain (s : State) {i : Fin 16} (h2 : i ≠ 2) (h3 : i ≠ 3) :
    s.dpWords[i] = if s.ovrMask.getLsbD i then s.ovr[i.val] else (decRom s)[i] := by
  have h2' : ¬ i.val = 2 := fun e => h2 (Fin.ext e)
  have h3' : ¬ i.val = 3 := fun e => h3 (Fin.ext e)
  rw [dpWords_getElem, if_neg (by simp [h2', h3']), State.dpChosen, if_neg h2', ovrWord_of_lt s (by omega), decTable_eq]
  simp [h3', State.overridden]

theorem f64Finite_one : f64Finite f64One = true := by decide

/-- DEEMP_ADJ is a number: R108 asks it of the override. -/
theorem f64Finite_deempFactor {s : State} (h : ConstructPasses s) : f64Finite s.deempFactor = true := by
  have h16 := h.overrides 16
  unfold State.deempFactor
  split
  next hm =>
    rw [ovrWord_of_lt s (by decide)]
    exact h16 hm
  next => exact f64Finite_one

theorem scaledWord_eq (site : Nat) {x k : F64} (hx : f64Finite x = true) (hk : f64Finite k = true) :
    scaledWord site x k = f64Mul x k := by
  simp [scaledWord, hx, hk]

theorem dpChosen_low (s : State) : s.dpChosen 2 = if s.ovrMask.getLsbD 2 then s.ovr[2] else 0#64 := by
  rw [State.dpChosen, ovrWord_of_lt s (by decide)]
  rfl

theorem dpChosen_high (s : State) : s.dpChosen 3 = if s.ovrMask.getLsbD 3 then s.ovr[3]
    else if s.params.deempHighAbsent = .clear then 0#64 else (decRom s)[3] := by
  rw [State.dpChosen, ovrWord_of_lt s (by decide), decTable_eq]
  simp [State.overridden]

theorem dpWords_low {s : State} (h : ConstructPasses s) :
    s.dpWords[2] = f64Mul (if s.ovrMask.getLsbD 2 then s.ovr[2] else 0#64) s.deempFactor := by
  have h2 := h.overrides 2
  have hx : f64Finite (s.dpChosen 2) = true := by
    rw [dpChosen_low]
    split
    next hm => exact (h2 hm).1
    next => exact f64Finite_zero
  rw [← dpChosen_low, ← scaledWord_eq (dpAddr 2) hx (f64Finite_deempFactor h)]
  exact dpWords_getElem s 2

theorem dpWords_high {s : State} (h : ConstructPasses s) (ht : f64Finite (decRom s)[3] = true) :
    s.dpWords[3] = f64Mul (if s.ovrMask.getLsbD 3 then s.ovr[3]
      else if s.params.deempHighAbsent = .clear then 0#64 else (decRom s)[3]) s.deempFactor := by
  have h3 := h.overrides 3
  have hx : f64Finite (s.dpChosen 3) = true := by
    rw [dpChosen_high]
    split
    next hm => exact (h3 hm).1
    next =>
      split
      · exact f64Finite_zero
      · exact ht
  rw [← dpChosen_high, ← scaledWord_eq (dpAddr 3) hx (f64Finite_deempFactor h)]
  exact dpWords_getElem s 3

/-! ### The standard parameters -/

theorem stdTable_eq (s : State) : stdTable s.rom s.cfg = stdRom s := by
  unfold stdTable stdRom
  by_cases h : cfgStdsel s.cfg = 0#8
  · rw [(isPal_eq s.cfg).2 h, if_pos h]
    rfl
  · have hp : isPal s.cfg = true := by
      rw [← Bool.not_eq_false, isPal_eq]
      exact h
    rw [hp, if_neg h]
    rfl

/-- The entries that R112 to R116 do not derive are the table's. -/
theorem spWords_base (cfg : Word32) (std : Vector Word 16) (pilot : Word) (i : Fin 16) (h : i ≠ 5) :
    (spWords cfg std pilot)[i.val] = std[i] := by
  fin_cases i <;> first | rfl | exact absurd rfl h

/-- The words that a CONSTRUCT derives from each other. -/
theorem spWords_set_pilot (cfg : Word32) (std : Vector Word 16) (pilot : Word) :
    (spWords cfg std pilot).set 17 0#64 = spWords cfg std 0#64 := rfl

/-- The line frequency in MHz over the real numbers (R112). -/
noncomputable def lineFreqReal (cfg : Word32) (std : Vector Word 16) : ℝ :=
  if cfgStdsel cfg = 0#8 then f64Real std[1] / (455 / 2) else f64Real std[0] * f64Real std[3] / 1000000

section LineFrequency

variable {cfg : Word32} {std : Vector Word 16} (h0 : f64Finite std[0] = true) (h1 : f64Finite std[1] = true)
  (h3 : f64Finite std[3] = true)

include h0 h1 h3

theorem lineFreqExact_real :
    hasValue (lineFreqExact cfg std) = true ∧ denote (lineFreqExact cfg std) = lineFreqReal cfg std := by
  unfold lineFreqExact lineFreqReal
  by_cases h : cfgStdsel cfg = 0#8
  · rw [(isPal_eq cfg).2 h, if_pos h]
    refine ⟨by simp [hasValue, h1], ?_⟩
    simp only [Bool.false_eq_true, if_false, denote, Rat.mkRat_eq_div]
    push_cast
    rfl
  · have hp : isPal cfg = true := by
      rw [← Bool.not_eq_false, isPal_eq]
      exact h
    rw [hp, if_neg h]
    exact ⟨by simp [hasValue, h0, h3], by simp [denote]⟩

theorem lineFreqRat_real : ∃ q, lineFreqRat? cfg std = some q ∧ (q : ℝ) = lineFreqReal cfg std := by
  unfold lineFreqRat? lineFreqReal
  by_cases h : cfgStdsel cfg = 0#8
  · rw [(isPal_eq cfg).2 h, if_pos h]
    refine ⟨f64Rat std[1] / mkRat 455 2, by simp [h1], ?_⟩
    rw [f64Real_eq_rat h1, Rat.mkRat_eq_div]
    push_cast
    rfl
  · have hp : isPal cfg = true := by
      rw [← Bool.not_eq_false, isPal_eq]
      exact h
    rw [hp, if_neg h]
    refine ⟨f64Rat std[0] * f64Rat std[3] / 1000000, by simp [h0, h3], ?_⟩
    rw [f64Real_eq_rat h0, f64Real_eq_rat h3]
    push_cast
    rfl

theorem linePeriodRat_real (hl : lineFreqReal cfg std ≠ 0) :
    ∃ q, linePeriodRat? cfg std = some q ∧ (q : ℝ) = 1 / lineFreqReal cfg std := by
  obtain ⟨q, hq, hr⟩ := lineFreqRat_real h0 h1 h3 (cfg := cfg)
  have hq0 : q ≠ 0 := by
    rintro rfl
    exact hl (by rw [← hr]; simp)
  refine ⟨1 / q, by simp [linePeriodRat?, hq, hq0], ?_⟩
  rw [← hr]
  push_cast
  rfl

/-- A derived count is the exact floor over the real numbers (R114, R116). -/
theorem lineSamples_real (hl : lineFreqReal cfg std ≠ 0) {f : F64} (hf : f64Finite f = true) :
    lineSamples? cfg std f = some ⌊1 / lineFreqReal cfg std * 4 * f64Real f⌋ := by
  obtain ⟨q, hq, hr⟩ := linePeriodRat_real h0 h1 h3 hl
  have hfloor : ⌊1 / lineFreqReal cfg std * 4 * f64Real f⌋ = (q * 4 * f64Rat f).floor := by
    rw [← hr, f64Real_eq_rat hf, show (q : ℝ) * 4 * (f64Rat f : ℝ) = ((q * 4 * f64Rat f : ℚ) : ℝ) by push_cast; rfl,
      Rat.floor_cast]
    rfl
  simp only [lineSamples?, hq, hf, if_true, hfloor]

theorem linePeriodWord_matches {tol : ℝ → ℝ} (ht : Tolerance tol) (hl : lineFreqReal cfg std ≠ 0) :
    Matches tol (linePeriodWord cfg std) (1 / lineFreqReal cfg std) := by
  obtain ⟨q, hq, -⟩ := linePeriodRat_real h0 h1 h3 hl
  obtain ⟨hv, hd⟩ := lineFreqExact_real h0 h1 h3 (cfg := cfg)
  have hm := put_matches ht (e := .div (.rat 1) (lineFreqExact cfg std)) (by simp [hasValue, hv]) .fixed (spAddr 5)
  simp only [denote, hd, Rat.cast_one] at hm
  simpa only [linePeriodWord, hq] using hm

end LineFrequency

/-- A count that i64 holds is the number of its word. -/
theorem i64_countWord (site : Nat) {z : Int} (h1 : -(2 ^ 63) ≤ z) (h2 : z < 2 ^ 63) : i64 (countWord site (some z)) = z := by
  have hz : i64OfInt? z = some (BitVec.ofInt 64 z) := by
    rw [i64OfInt?, if_pos (by rw [Bool.and_eq_true, decide_eq_true_eq, decide_eq_true_eq]; exact ⟨h1, h2⟩)]
  simp only [countWord, Option.bind_some, hz, i64]
  rw [BitVec.toInt_ofInt]
  exact Int.bmod_eq_of_le (by norm_num; linarith) (by norm_num; linarith)

/-- LINE_LEN of NTSC, whatever the colour subcarrier: 227.5 periods of it at four samples each (R114). -/
theorem lineLen_ntsc {fsc : ℝ} (h : fsc ≠ 0) : ⌊1 / (fsc / (455 / 2)) * 4 * fsc⌋ = 910 := by
  rw [show 1 / (fsc / (455 / 2)) * 4 * fsc = ((910 : ℤ) : ℝ) by field_simp; norm_num, Int.floor_intCast]

end Sys2Proof.Laws

namespace Sys2Proof.Certificates

open Sys2Proof.Machine Sys2Proof.Laws

/-- Settles O16: with its checks passed CONSTRUCT ends with its commit. -/
theorem constructCommits : Obligations.ConstructCommits := by
  intro s h
  refine ⟨_, exec_construct h, ?_, construct_w0 s, ?_, deempFactor_eq s⟩
  · rw [finish_eq, status_effConstruct]
    rfl
  · have hw := h.basics.window
    have hlt : (s.blockcut.toNat : Int) < s.newW1 := hw.2
    rw [finish_w1, construct_w1, newW1_word hlt, State.newW1] 
    have : (0 : Int) ≤ s.nreg.toNat - s.blockcutEnd.toNat := by
      have := hw.2
      omega
    exact Int.toNat_of_nonneg this

/-- Settles O17: the commit's DP is the field chosen by R106 to R110, scaled where R111 says so. -/
theorem constructDecoderParameters : Obligations.ConstructDecoderParameters := by
  intro s t h ht
  rw [next_construct h ht]
  exact ⟨fun i h2 h3 => dpWords_plain s h2 h3, dpWords_low h, dpWords_high h⟩

/-- Settles O19: the commit's SP is the ROM's table with the derived words in their places. -/
theorem constructStandardParameters : Obligations.ConstructStandardParameters := by
  intro tol s t ht h hx
  have hsp : t.sp = spWords s.cfg (stdRom s) (pilotWord s.params s.cfg (stdRom s)) := by
    rw [next_construct h hx, ← stdTable_eq]
    rfl
  rw [hsp]
  refine ⟨fun i hi => spWords_base _ _ _ i hi, fun h0 h1 h3 => ?_, fun id hid => ?_⟩
  · intro fsc line
    have hline : line = lineFreqReal s.cfg (stdRom s) := rfl
    obtain ⟨hv, hd⟩ := lineFreqExact_real h0 h1 h3 (cfg := s.cfg)
    have hm := put_matches ht hv .fixed (spAddr 19)
    rw [hd] at hm
    have hsamples := @lineSamples_real s.cfg (stdRom s) h0 h1 h3
    have hlen : ∀ p : Word, (spWords s.cfg (stdRom s) p)[16]
        = countWord (spAddr 16) (lineSamples? s.cfg (stdRom s) (stdRom s)[1]) := fun _ => rfl
    refine ⟨hm, ?_, fun hn hf => ?_, fun hl => ⟨linePeriodWord_matches h0 h1 h3 ht hl, fun hlo hhi => ?_, fun hp h2 => ?_⟩⟩
    · have h4 := put_matches ht (e := .mul (.rat 4) (.val (stdRom s)[1])) (by simp [hasValue, h1]) .fixed (spAddr 18)
      simp only [denote, Rat.cast_ofNat] at h4
      exact h4
    · have hline' : lineFreqReal s.cfg (stdRom s) = fsc / (455 / 2) := if_pos hn
      have hl : lineFreqReal s.cfg (stdRom s) ≠ 0 := by
        rw [hline']
        exact div_ne_zero hf (by norm_num)
      rw [hlen, hsamples hl h1, hline', lineLen_ntsc hf]
      rfl
    · rw [hlen, hsamples hl h1]
      exact i64_countWord _ hlo hhi
    · intro pilot hb
      have hpw : (spWords s.cfg (stdRom s) (pilotWord s.params s.cfg (stdRom s)))[17]
          = countWord (spAddr 17) (lineSamples? s.cfg (stdRom s) (stdRom s)[2]) := by
        show pilotWord s.params s.cfg (stdRom s) = _
        rw [pilotWord, hp]
      have hpilot : pilot = ⌊(1 : ℝ) / line * (4 : ℝ) * f64Real (stdRom s)[2]⌋ := by
        push_cast [pilot]
        rfl
      rw [hpw, hsamples hl h2, ← hline, ← hpilot]
      exact i64_countWord _ hb.1 hb.2
  · rw [spWords_set_pilot]
    show pilotWord s.params s.cfg (stdRom s) = _
    rw [pilotWord, hid]

/-- Settles O20: each check stands in its place of the list, and the ones before it pass. -/
theorem constructFirstErrors : Obligations.ConstructFirstErrors := by
  intro s
  refine ⟨fun hstd => ?_, fun hstd => ⟨fun hn => ?_, fun hn => ⟨fun hr => ?_, fun hr => ⟨fun hd => ?_, fun ha => ?_,
    fun hdecl hw => ?_⟩⟩⟩⟩
  · exact exec_construct_basic (e := .invalidStandard) (firstFailure_fail (decide_eq_false hstd) _)
  all_goals have std := decide_eq_true hstd
  · have length := Bool.eq_false_iff.2 (mt (legalBlockLength_iff _).1 hn)
    exact exec_construct_basic (e := .invalidParameter) ((firstFailure_pass std _).trans (firstFailure_fail length _))
  all_goals have length := (legalBlockLength_iff _).2 hn
  · have rate := Bool.eq_false_iff.2 (mt (positive_iff _).1 hr)
    exact exec_construct_basic (e := .invalidParameter)
      ((firstFailure_pass std _).trans ((firstFailure_pass length _).trans (firstFailure_fail rate _)))
  all_goals
    have rate := (positive_iff _).2 hr
    have before := firstFailure_pass_three (c := (_, .invalidStandard, (cfgStdsel s.cfg).setWidth 32))
      (c' := (_, .invalidParameter, 0x100)) (c'' := (_, .invalidParameter, 0x101)) std length rate
  · have digital : (!(cfgDda s.cfg && !cfgHasAudio s.cfg)) = false := by simp [hd.1, hd.2]
    exact exec_construct_basic (e := .inconsistentConfiguration) ((before _).trans (firstFailure_fail digital _))
  · have digital : (!(cfgDda s.cfg && !cfgHasAudio s.cfg)) = true := by simp [ha.1]
    have analog : (!(cfgAudioOn s.cfg && !cfgHasAudio s.cfg)) = false := by simp [(audioOn_iff s.cfg).2 ha.2.1, ha.2.2]
    exact exec_construct_basic (e := .inconsistentConfiguration)
      ((before _).trans ((firstFailure_pass digital _).trans (firstFailure_fail analog _)))
  · have declared : cfgDda s.cfg = true ∨ cfgAudioOn s.cfg = true → cfgHasAudio s.cfg = true := by
      rw [audioOn_iff]
      exact hdecl
    have digital : (!(cfgDda s.cfg && !cfgHasAudio s.cfg)) = true := by
      cases hd : cfgDda s.cfg
      · rfl
      · rw [declared (.inl hd)]; rfl
    have analog : (!(cfgAudioOn s.cfg && !cfgHasAudio s.cfg)) = true := by
      cases ha : cfgAudioOn s.cfg
      · rfl
      · rw [declared (.inr ha)]; rfl
    have window := Bool.eq_false_iff.2 (mt (windowCheck_iff s).1 hw)
    exact exec_construct_basic (e := .invalidParameter) ((before _).trans ((firstFailure_pass digital _).trans
      ((firstFailure_pass analog _).trans (firstFailure_fail window _))))

/-- Settles O21: the overrides' checks stand before the rows of the final range check, each in the order of its index. -/
theorem constructParameterErrors : Obligations.ConstructParameterErrors := fun _ hb =>
  ⟨fun _ hi hj => exec_construct_override hb hi hj, fun _ ho hj hr hl => exec_construct_range hb ho hj hr hl⟩

end Sys2Proof.Certificates
end

section
/-! PROOF. The one rounded product (40_parameter_model.md R111, log 8): the pattern `f64Mul` makes stands for the exact product
rounded to a multiple of its last place, and no other binary64 lies nearer. -/

namespace Sys2Proof.Laws

open Sys2Proof.Machine

/-! ### Rounding to a multiple of a power of two -/

theorem shiftRoundEven_cases (p s : ℕ) :
    (shiftRoundEven p s = p / 2 ^ s ∧ 2 * (p % 2 ^ s) ≤ 2 ^ s) ∨
      (shiftRoundEven p s = p / 2 ^ s + 1 ∧ 2 ^ s ≤ 2 * (p % 2 ^ s)) := by
  unfold shiftRoundEven
  simp only [Nat.shiftRight_eq_div_pow, Bool.or_eq_true, Bool.and_eq_true, decide_eq_true_eq, beq_iff_eq]
  split <;> omega

/-- No multiple of 2^s lies nearer. -/
theorem shiftRoundEven_nearest (p s : ℕ) (j : ℤ) :
    |(shiftRoundEven p s : ℤ) * 2 ^ s - p| ≤ |j * 2 ^ s - p| := by
  have hpow : (0 : ℤ) < 2 ^ s := by positivity
  have hdiv : ((p / 2 ^ s : ℕ) : ℤ) * 2 ^ s + ((p % 2 ^ s : ℕ) : ℤ) = p := by
    exact_mod_cast Nat.div_add_mod' p (2 ^ s)
  have hmod : ((p % 2 ^ s : ℕ) : ℤ) < 2 ^ s := by
    exact_mod_cast Nat.mod_lt p (by positivity)
  have hmod0 : (0 : ℤ) ≤ ((p % 2 ^ s : ℕ) : ℤ) := by positivity
  generalize hq : ((p / 2 ^ s : ℕ) : ℤ) = q at hdiv
  generalize hr : ((p % 2 ^ s : ℕ) : ℤ) = r at hdiv hmod hmod0
  have far : min r (2 ^ s - r) ≤ |j * 2 ^ s - p| := by
    rw [← hdiv]
    rcases le_or_gt j q with hj | hj
    · have : j * 2 ^ s ≤ q * 2 ^ s := mul_le_mul_of_nonneg_right hj hpow.le
      rw [abs_sub_comm]
      exact (min_le_left _ _).trans (le_trans (by linarith) (le_abs_self _))
    · have : (q + 1) * 2 ^ s ≤ j * 2 ^ s := mul_le_mul_of_nonneg_right hj hpow.le
      exact (min_le_right _ _).trans (le_trans (by linarith) (le_abs_self _))
  refine le_trans (le_of_eq ?_) far
  rcases shiftRoundEven_cases p s with ⟨hm, hle⟩ | ⟨hm, hle⟩
  · have hle' : 2 * r ≤ 2 ^ s := by
      rw [← hr]
      exact_mod_cast hle
    rw [hm, hq, ← hdiv, min_eq_left (by linarith), sub_add_cancel_left, abs_neg, abs_of_nonneg hmod0]
  · have hle' : 2 ^ s ≤ 2 * r := by
      rw [← hr]
      exact_mod_cast hle
    rw [hm, Nat.cast_add, hq, ← hdiv, min_eq_right (by linarith), Nat.cast_one,
      show (q + 1) * 2 ^ s - (q * 2 ^ s + r) = 2 ^ s - r by ring, abs_of_nonneg (by linarith)]

/-! ### Magnitudes and their patterns -/

/-- The magnitude, in units of 2^-1074, of the pattern whose bits 62:0 are `b`. -/
def bitsMagnitude (b : ℕ) : ℕ :=
  if b / 2 ^ 52 = 0 then b % 2 ^ 52 else (2 ^ 52 + b % 2 ^ 52) * 2 ^ (b / 2 ^ 52 - 1)

theorem f64Exp_eq (x : F64) : f64Exp x = x.toNat % 2 ^ 63 / 2 ^ 52 := by
  simp only [f64Exp, BitVec.extractLsb'_toNat, Nat.shiftRight_eq_div_pow]
  omega

theorem f64Frac_eq (x : F64) : f64Frac x = x.toNat % 2 ^ 63 % 2 ^ 52 := by
  simp only [f64Frac, BitVec.extractLsb'_toNat, Nat.shiftRight_eq_div_pow]
  omega

theorem f64Magnitude_eq (x : F64) : f64Magnitude x = bitsMagnitude (x.toNat % 2 ^ 63) := by
  rw [f64Magnitude, bitsMagnitude, f64Exp_eq, f64Frac_eq]

/-- A significand `m` with `k` doublings. At m = 2^53 the carry out of the significand is one doubling more. -/
theorem bitsMagnitude_significand {k m : ℕ} (h : k = 0 ∨ 2 ^ 52 ≤ m) (hm : m ≤ 2 ^ 53) :
    bitsMagnitude (k * 2 ^ 52 + m) = m * 2 ^ k := by
  unfold bitsMagnitude
  rcases Nat.lt_or_ge m (2 ^ 52) with hlt | hge
  · obtain rfl : k = 0 := h.resolve_right (by omega)
    rw [if_pos (by omega), Nat.mod_eq_of_lt (by omega)]
    omega
  rcases Nat.lt_or_ge m (2 ^ 53) with hlt' | hge'
  · have hdiv : (k * 2 ^ 52 + m) / 2 ^ 52 = k + 1 := by omega
    have hmod : (k * 2 ^ 52 + m) % 2 ^ 52 = m - 2 ^ 52 := by omega
    rw [hdiv, hmod, if_neg (by omega), Nat.add_sub_cancel, show 2 ^ 52 + (m - 2 ^ 52) = m by omega]
  · obtain rfl : m = 2 ^ 53 := by omega
    have hdiv : (k * 2 ^ 52 + 2 ^ 53) / 2 ^ 52 = k + 2 := by omega
    have hmod : (k * 2 ^ 52 + 2 ^ 53) % 2 ^ 52 = 0 := by omega
    rw [hdiv, hmod, if_neg (by omega), show k + 2 - 1 = k + 1 by omega]
    ring

/-- A magnitude of at least 2^(52 + k) is a multiple of 2^k. -/
theorem two_pow_dvd_bitsMagnitude {b k : ℕ} (h : 2 ^ (52 + k) ≤ bitsMagnitude b) : 2 ^ k ∣ bitsMagnitude b := by
  unfold bitsMagnitude at *
  have hmod : b % 2 ^ 52 < 2 ^ 52 := Nat.mod_lt b (by positivity)
  split at h
  · have : 2 ^ 52 ≤ 2 ^ (52 + k) := Nat.pow_le_pow_right (by decide) (by omega)
    omega
  next he =>
    rw [if_neg he]
    have hlt : 2 ^ (52 + k) < 2 ^ (53 + (b / 2 ^ 52 - 1)) := by
      refine lt_of_le_of_lt h ?_
      rw [pow_add 2 53]
      exact Nat.mul_lt_mul_of_pos_right (by omega) (by positivity)
    have hk : k ≤ b / 2 ^ 52 - 1 := by
      have := (Nat.pow_lt_pow_iff_right (by decide : 1 < 2)).1 hlt
      omega
    exact (pow_dvd_pow 2 hk).mul_left _

/-! ### The rounded product -/

/-- How far `roundProduct` shifts. -/
def productShift (p : ℕ) : ℕ := max 1074 (Nat.log2 p - 52)

theorem roundProduct_le (p : ℕ) : roundProduct p ≤ 2047 * 2 ^ 52 := by
  unfold roundProduct
  dsimp only
  split <;> omega

/-- The significand has 53 places. -/
theorem significand_bounds (p : ℕ) : shiftRoundEven p (productShift p) ≤ 2 ^ 53 ∧
    (productShift p ≠ 1074 → 2 ^ 52 ≤ shiftRoundEven p (productShift p)) := by
  have hm : p / 2 ^ productShift p ≤ shiftRoundEven p (productShift p) ∧
      shiftRoundEven p (productShift p) ≤ p / 2 ^ productShift p + 1 := by
    rcases shiftRoundEven_cases p (productShift p) with ⟨h, -⟩ | ⟨h, -⟩ <;> omega
  have hlog : p.log2 < productShift p + 53 := by
    unfold productShift
    omega
  have hlt : p / 2 ^ productShift p < 2 ^ 53 := by
    rw [Nat.div_lt_iff_lt_mul (by positivity), ← pow_add, Nat.add_comm]
    rcases Nat.eq_zero_or_pos p with rfl | hp
    · positivity
    · exact (Nat.log2_lt hp.ne').1 hlog
  refine ⟨by omega, fun hs => ?_⟩
  have hs' : productShift p + 52 = p.log2 := by
    unfold productShift at *
    omega
  have hp : p ≠ 0 := by
    rintro rfl
    simp [productShift] at hs
  refine le_trans ?_ hm.1
  rw [Nat.le_div_iff_mul_le (by positivity), ← pow_add, Nat.add_comm, hs']
  exact Nat.log2_self_le hp

/-- Short of an overflow, the pattern's magnitude is the product rounded to the places that it keeps. -/
theorem bitsMagnitude_roundProduct {p : ℕ} (h : roundProduct p < 2047 * 2 ^ 52) :
    bitsMagnitude (roundProduct p) = shiftRoundEven p (productShift p) * 2 ^ (productShift p - 1074) := by
  obtain ⟨hhi, hlo⟩ := significand_bounds p
  have hr : roundProduct p = (productShift p - 1074) * 2 ^ 52 + shiftRoundEven p (productShift p) := by
    unfold roundProduct at h ⊢
    dsimp only at h ⊢
    have hmax : max 1074 (p.log2 - 52) = productShift p := rfl
    rw [hmax] at h ⊢
    split at h
    · exact absurd h (lt_irrefl _)
    next hn => rw [if_neg hn]
  rw [hr]
  refine bitsMagnitude_significand ?_ hhi
  by_cases hs : productShift p = 1074
  · exact .inl (by omega)
  · exact .inr (hlo hs)

/-- No magnitude of a binary64, with either sign, lies nearer to the product. -/
theorem roundProduct_nearest {p : ℕ} (h : roundProduct p < 2047 * 2 ^ 52) (z : F64) {w : ℤ}
    (hw : w = f64Magnitude z ∨ w = -f64Magnitude z) :
    |(bitsMagnitude (roundProduct p) : ℤ) * 2 ^ 1074 - p| ≤ |w * 2 ^ 1074 - p| := by
  have hs : productShift p - 1074 + 1074 = productShift p := by
    unfold productShift
    omega
  have scale : ∀ j : ℤ, j * 2 ^ (productShift p - 1074) * 2 ^ 1074 = j * 2 ^ productShift p := fun j => by
    rw [mul_assoc, ← pow_add, hs]
  rw [bitsMagnitude_roundProduct h]
  rw [Nat.cast_mul, Nat.cast_pow, Nat.cast_ofNat]
  rw [scale]
  rcases le_or_gt (2 ^ (52 + (productShift p - 1074))) (f64Magnitude z) with hbig | hsmall
  · obtain ⟨c, hc⟩ : (2 ^ (productShift p - 1074) : ℤ) ∣ w := by
      rw [f64Magnitude_eq] at hbig hw
      have hdvd : (2 ^ (productShift p - 1074) : ℤ) ∣ (bitsMagnitude (z.toNat % 2 ^ 63) : ℤ) := by
        exact_mod_cast two_pow_dvd_bitsMagnitude hbig
      rcases hw with rfl | rfl
      · exact hdvd
      · exact (Int.dvd_neg).2 hdvd
    rw [hc, mul_comm _ c, scale]
    exact shiftRoundEven_nearest p _ c
  by_cases h0 : productShift p = 1074
  · rw [h0]
    exact shiftRoundEven_nearest p 1074 w
  · have hp : p ≠ 0 := by
      rintro rfl
      simp [productShift] at h0
    have hlog : 52 + productShift p = p.log2 := by
      unfold productShift at *
      omega
    have hle : (2 : ℤ) ^ 52 * 2 ^ productShift p ≤ p := by
      rw [← pow_add, hlog]
      exact_mod_cast Nat.log2_self_le hp
    have hwlt : w * 2 ^ 1074 ≤ 2 ^ 52 * 2 ^ productShift p := by
      rw [← scale (2 ^ 52), ← pow_add 2 52 (productShift p - 1074)]
      refine mul_le_mul_of_nonneg_right ?_ (by positivity)
      have : (f64Magnitude z : ℤ) ≤ 2 ^ (52 + (productShift p - 1074)) := by exact_mod_cast hsmall.le
      rcases hw with rfl | rfl
      · exact this
      · have : (0 : ℤ) ≤ f64Magnitude z := Int.natCast_nonneg _
        linarith
    refine (shiftRoundEven_nearest p _ (2 ^ 52)).trans ?_
    rw [abs_of_nonpos (sub_nonpos.2 hle), abs_of_nonpos (sub_nonpos.2 (hwlt.trans hle))]
    exact neg_le_neg (sub_le_sub_right hwlt _)

/-! ### The product of two patterns -/

theorem toNat_f64Mul (x y : F64) : (f64Mul x y).toNat % 2 ^ 63 = roundProduct (f64Magnitude x * f64Magnitude y) := by
  have hlt : roundProduct (f64Magnitude x * f64Magnitude y) < 2 ^ 63 := by
    have := roundProduct_le (f64Magnitude x * f64Magnitude y)
    omega
  unfold f64Mul
  dsimp only
  rw [BitVec.toNat_append, BitVec.toNat_ofNat, Nat.mod_eq_of_lt hlt, Nat.shiftLeft_eq, Nat.mul_comm,
    ← Nat.two_pow_add_eq_or_of_lt hlt, Nat.mul_add_mod, Nat.mod_eq_of_lt hlt]

theorem msb_f64Mul (x y : F64) : (f64Mul x y).msb = (x.msb != y.msb) := by
  unfold f64Mul
  dsimp only
  rw [BitVec.msb_append]
  simp

/-- The sign of a pattern. -/
def signOf (x : F64) : ℤ := if x.msb then -1 else 1

theorem f64Scaled_eq (x : F64) : f64Scaled x = signOf x * f64Magnitude x := by
  unfold f64Scaled signOf
  split <;> simp

theorem signOf_mul (x y : F64) : signOf (f64Mul x y) = signOf x * signOf y := by
  unfold signOf
  rw [msb_f64Mul]
  cases x.msb <;> cases y.msb <;> rfl

theorem abs_signOf (x : F64) : |signOf x| = 1 := by
  unfold signOf
  split <;> rfl

theorem roundProduct_lt_of_finite {x y : F64} (h : f64Finite (f64Mul x y) = true) :
    roundProduct (f64Magnitude x * f64Magnitude y) < 2047 * 2 ^ 52 := by
  have hne : f64Exp (f64Mul x y) ≠ 2047 := by simpa [f64Finite] using h
  rw [f64Exp_eq, toNat_f64Mul] at hne
  have := roundProduct_le (f64Magnitude x * f64Magnitude y)
  omega

/-- No binary64 lies nearer to the product, in units of 2^-2148. -/
theorem f64Mul_nearest {x y : F64} (h : f64Finite (f64Mul x y) = true) (z : F64) :
    |f64Scaled (f64Mul x y) * 2 ^ 1074 - f64Scaled x * f64Scaled y| ≤
      |f64Scaled z * 2 ^ 1074 - f64Scaled x * f64Scaled y| := by
  have hsign : ∀ a b : ℤ, |signOf (f64Mul x y) * a - signOf (f64Mul x y) * b| = |a - b| := fun a b => by
    rw [← mul_sub, abs_mul, abs_signOf, one_mul]
  have hsq : signOf (f64Mul x y) * signOf (f64Mul x y) = 1 := by
    unfold signOf
    split <;> rfl
  have hp : f64Scaled x * f64Scaled y = signOf (f64Mul x y) * ((f64Magnitude x * f64Magnitude y : ℕ) : ℤ) := by
    rw [f64Scaled_eq x, f64Scaled_eq y, signOf_mul]
    push_cast
    ring
  have hz : f64Scaled z * 2 ^ 1074 = signOf (f64Mul x y) * (signOf (f64Mul x y) * f64Scaled z * 2 ^ 1074) := by
    rw [← mul_assoc, ← mul_assoc, hsq, one_mul]
  rw [hp, hz, f64Scaled_eq (f64Mul x y), f64Magnitude_eq, toNat_f64Mul, mul_assoc, hsign, hsign]
  refine roundProduct_nearest (roundProduct_lt_of_finite h) z ?_
  rw [f64Scaled_eq z]
  unfold signOf
  split <;> split <;> simp

end Sys2Proof.Laws

namespace Sys2Proof.Certificates

open Sys2Proof.Machine Sys2Proof.Laws

/-- Settles O18: over whole numbers of units of 2^-2148, where the product of two patterns is one. -/
theorem productIsNearest : Obligations.ProductIsNearest := by
  intro x y z hx hy hm hz
  have units : ∀ u : F64, f64Finite u = true → f64Real u - f64Real x * f64Real y =
      ((f64Scaled u * 2 ^ 1074 - f64Scaled x * f64Scaled y : ℤ) : ℝ) / (2 ^ 1074 * 2 ^ 1074) := fun u hu => by
    rw [f64Real, f64Real, f64Real, if_pos hu, if_pos hx, if_pos hy, Int.cast_sub, Int.cast_mul, Int.cast_mul,
      Int.cast_pow, Int.cast_ofNat]
    field_simp
  rw [units _ hm, units z hz, abs_div, abs_div]
  refine div_le_div_of_nonneg_right ?_ (abs_nonneg _)
  exact_mod_cast f64Mul_nearest hm z

end Sys2Proof.Certificates
end

section
/-! PROOF. SYNTH (41_filter_synth.md): what it stores, that the building blocks are R131's closed forms, the responses of the
slots other than F_EFM, and the bins that their rules define as 0. -/

namespace Sys2Proof.Laws

open Sys2Proof.Machine

/-! ### The words of the bank -/

/-- Entry c*n + i of a list made of runs of c entries. -/
theorem flatMap_getElem?_of_length {α β : Type} (g : α → List β) {c : ℕ} (hg : ∀ a, (g a).length = c) (l : List α)
    {n i : ℕ} {a : α} (ha : l[n]? = some a) (hi : i < c) : (l.flatMap g)[c * n + i]? = (g a)[i]? := by
  induction l generalizing n with
  | nil => simp at ha
  | cons b l ih =>
    rw [List.flatMap_cons]
    cases n with
    | zero =>
      obtain rfl : b = a := by simpa using ha
      rw [List.getElem?_append_left (by rw [hg]; omega), Nat.mul_zero, Nat.zero_add]
    | succ n =>
      have hlen : c ≤ c * (n + 1) + i := le_trans (Nat.le_mul_of_pos_right c n.succ_pos) (Nat.le_add_right _ _)
      rw [List.getElem?_append_right (by rw [hg]; exact hlen), hg, ← ih (by simpa using ha),
        show c * (n + 1) + i - c = c * n + i by rw [Nat.mul_succ]; omega]

/-- Bin k of slot f as SYNTH stores it: its rule's below N, zero elsewhere (R130). -/
def bankBin (s : State) (f k : ℕ) : CExact := if k < s.n then s.slotValue f k else cZero

theorem bankBin_of_lt {s : State} {k : ℕ} (h : k < s.n) (f : ℕ) : bankBin s f k = s.slotValue f k := if_pos h

theorem bankBin_eq_zero {s : State} {f k : ℕ} (h : f = 7 ∨ s.n ≤ k) : bankBin s f k = cZero := by
  unfold bankBin
  rcases h with rfl | h
  · exact ite_self _
  · exact if_neg (not_lt.2 h)

theorem bufLen_eq : Config.bufLen = 65536 := by simp [Config.bufLen]

theorem slotWords_getElem? (s : State) {f i : ℕ} (hf : f < 8) (hi : i < 131072) :
    s.slotWords[131072 * f + i]? = (putRun .fixed (slotAddr f 0) Config.bufLen (bankBin s f))[i]? := by
  have hlen : ∀ f, (putRun .fixed (slotAddr f 0) Config.bufLen (bankBin s f)).length = 131072 := fun f => by
    rw [putRun_length, bufLen_eq]
  have hwords : s.slotWords =
      (List.range 8).flatMap (fun f => putRun .fixed (slotAddr f 0) Config.bufLen (bankBin s f)) := rfl
  rw [hwords, flatMap_getElem?_of_length _ hlen (List.range 8) (a := f) (by simp [hf]) hi]

theorem slotAddr_eq (f k : ℕ) : slotAddr f k = slotAddr 0 0 + 8 * (131072 * f + 2 * k) := by
  simp only [slotAddr, bufBytes]
  omega

theorem mem_effSynth (s : State) : (effSynth s).mem = Memory.store s.mem (slotAddr 0 0) (wordsBytes s.slotWords) := rfl

/-- Every bin of every slot after SYNTH. -/
theorem synth_stored (s : State) {f k : ℕ} (hf : f < 8) (hk : k < 65536) :
    StoredComplex .fixed (effSynth s).mem (slotAddr f k) (bankBin s f k) := by
  have hk' : k < Config.bufLen := by rw [bufLen_eq]; exact hk
  have haddr : slotAddr f 0 + 16 * k = slotAddr f k := by
    simp only [slotAddr]
    omega
  have hre : s.slotWords[131072 * f + 2 * k]? = some (put .fixed (slotAddr f k) (bankBin s f k).re) := by
    rw [slotWords_getElem? s hf (by omega), putRun_re _ _ _ _ _ hk', haddr]
  have him : s.slotWords[131072 * f + 2 * k + 1]? = some (put .fixed (slotAddr f k + 8) (bankBin s f k).im) := by
    rw [Nat.add_assoc, slotWords_getElem? s hf (by omega), putRun_im _ _ _ _ _ hk', haddr]
  constructor
  · rw [Stored, mem_effSynth, ← word?_store_inside s.mem (slotAddr 0 0) _ _ _ hre, ← slotAddr_eq]
  · rw [Stored, mem_effSynth, ← word?_store_inside s.mem (slotAddr 0 0) _ _ _ him, Nat.mul_succ, ← Nat.add_assoc, ← slotAddr_eq]

/-- A zero that a rule writes is stored as +0.0 in both halves. -/
theorem words_of_stored_zero {d : Draw} {m : List Host.Cell} {addr : ℕ} {z : CExact} (h : StoredComplex d m addr z)
    (hz : z = cZero) : Memory.word? m addr = some 0#64 ∧ Memory.word? m (addr + 8) = some 0#64 := by
  subst hz
  obtain ⟨hre, him⟩ := h
  exact ⟨hre.trans (congrArg some (put_rat_zero d addr)), him.trans (congrArg some (put_rat_zero d _))⟩

theorem status_effSynth (s : State) : (effSynth s).status = s.status ||| 0x04#7 := rfl

theorem effSynth_eq (s : State) : effSynth s = { s with status := s.status ||| 0x04#7, mem := (effSynth s).mem } := rfl

theorem sameOutside_effSynth (s : State) : SameOutside s (effSynth s) 0x02000000 0x02800000 := by
  intro addr h
  have hbase : slotAddr 0 0 = 0x02000000 := rfl
  rw [mem_effSynth, byte?_store_outside]
  rw [wordsBytes_length, slotWords_length, hbase]
  omega

theorem exec_synth {s : State} (hc : s.constructed = true) (hg : s.geometryOk = true) :
    exec .synth s = .next (effSynth s).finish := by
  rw [exec, execSynth, ifConstructed_true hc, completeOnBlock_ok hg]

/-! ### Butterworth responses -/

theorem cDenote_bandDen (N : ℕ) (fs f1 f2 : Exact) (k : ℕ) : cDenote (bandDen N fs f1 f2 k) =
    (warpReal (denote fs) (denote f2) - warpReal (denote fs) (denote f1)) * (Complex.I * tanReal N k) := by
  rw [bandDen, cDenote_ofImag]
  simp only [denote, denote_tanBin, denote_warp]
  push_cast
  ring

theorem cDenote_butterLP (N : ℕ) (fs fc : Exact) {n : ℕ} (hn : n ≠ 0) (k : ℕ) :
    cDenote (butterLP N fs fc n k) = lowPass N (denote fs) (denote fc) n k := by
  unfold butterLP lowPass
  split
  · exact cDenote_zero
  · rw [cDenote_butterProto hn, cDenote_div, cDenote_ofImag, cDenote_ofReal, denote_tanBin, denote_warp]

theorem cDenote_butterHP (N : ℕ) (fs fc : Exact) {n : ℕ} (hn : n ≠ 0) (k : ℕ) :
    cDenote (butterHP N fs fc n k) = highPass N (denote fs) (denote fc) n k := by
  unfold butterHP highPass
  split
  · exact cDenote_zero
  split
  · exact cDenote_one
  · rw [cDenote_butterProto hn, cDenote_div, cDenote_ofImag, cDenote_ofReal, denote_tanBin, denote_warp]

theorem butterBP_edge {N k : ℕ} (h : k = 0 ∨ 2 * k = N) (fs f1 f2 : Exact) (n : ℕ) : butterBP N fs f1 f2 n k = cZero := by
  rw [butterBP, ← ite_or, if_pos h]

theorem cDenote_butterBP (N : ℕ) (fs f1 f2 : Exact) {n : ℕ} (hn : n ≠ 0) (k : ℕ) :
    cDenote (butterBP N fs f1 f2 n k) = bandPass N (denote fs) (denote f1) (denote f2) n k := by
  unfold bandPass
  split
  next h => rw [butterBP_edge h, cDenote_zero]
  next h =>
    rw [butterBP, ← ite_or, if_neg h, cDenote_butterProto hn, cDenote_div, cDenote_ofReal, denote_bandNum,
      cDenote_bandDen]

theorem cDenote_butterBS (N : ℕ) (fs f1 f2 : Exact) {n : ℕ} (hn : n ≠ 0) (k : ℕ) :
    cDenote (butterBS N fs f1 f2 n k) = bandStop N (denote fs) (denote f1) (denote f2) n k := by
  unfold butterBS bandStop
  rw [← ite_or]
  split
  · exact cDenote_one
  rw [← denote_bandNum]
  by_cases h0 : denote (bandNum N fs f1 f2 k) = 0
  · rw [if_pos (by exact_mod_cast h0)]
    exact Complex.ext (by simp [cDenote, denote, h0]) (by simp [cDenote, denote, h0])
  · rw [if_neg (by exact_mod_cast h0), ← cDenote_bandDen, ← cDenote_ofReal, ← cDenote_div, ← cDenote_butterProto hn]
    exact Complex.ext (by simp [cDenote, denote, h0]) (by simp [cDenote, denote, h0])

/-! ### The slots -/

theorem bandAround_edge {s : State} {k : ℕ} (h : k = 0 ∨ 2 * k = s.n) (centre : Exact) (width : F64) (n : ℕ) :
    s.bandAround centre width n k = cZero := by
  rw [State.bandAround, ← ite_or, if_pos h]

theorem bandAround_eq_butterBP {s : State} {width : F64} (hw : 0 < f64Scaled width) (centre : Exact) (n k : ℕ) :
    s.bandAround centre width n k =
      butterBP s.n s.fs (.sub centre (half (.val width))) (.add centre (half (.val width))) n k := by
  by_cases h : k = 0 ∨ 2 * k = s.n
  · rw [bandAround_edge h, butterBP_edge h]
  · rw [State.bandAround, ← ite_or, if_neg h, if_pos hw]

/-- The exact result is computed from numbers, and is the number. -/
def Denotes (z : CExact) (w : ℂ) : Prop := HasNumbers z ∧ cDenote z = w

theorem denotes_zero : Denotes cZero 0 := ⟨hasNumbers_zero, cDenote_zero⟩

theorem denotes_one : Denotes cOne 1 := ⟨⟨rfl, rfl⟩, cDenote_one⟩

theorem Denotes.times {z z' : CExact} {w w' : ℂ} (h : Denotes z w) (h' : Denotes z' w') :
    Denotes (cTimes z z') (w * w') :=
  ⟨hasNumbers_times h.1 h'.1, by rw [cDenote_times, h.2, h'.2]⟩

/-- The weight HILB of R132. -/
theorem Denotes.hilb {z : CExact} {w : ℂ} (h : Denotes z w) (N k : ℕ) :
    Denotes (cWeigh (hilb N k) z) (hilbert N k * w) := by
  have hq : ((Machine.hilb N k : ℚ) : ℂ) = (hilbert N k : ℂ) := by exact_mod_cast congrArg Complex.ofReal (hilb_eq N k)
  exact ⟨hasNumbers_weigh h.1, by rw [cDenote_weigh, h.2, hq]⟩

theorem denote_half (x : Exact) : denote (half x) = denote x / 2 := by simp [half, denote]

theorem denote_hertz (x : F64) : denote (hertz x) = hzReal x := by simp [hertz, denote, hzReal]

theorem denotes_bandAround {s : State} {centre : Exact} {width : F64} {n : ℕ} (k : ℕ)
    (hfs : f64Finite s.cfsMhz = true) (hc : hasValue centre = true) (hwf : f64Finite width = true)
    (hw : 0 < f64Real width) (hn : 1 ≤ n) : Denotes (s.bandAround centre width n k)
      (bandPass s.n s.fsReal (denote centre - f64Real width / 2) (denote centre + f64Real width / 2) n k) := by
  rw [bandAround_eq_butterBP ((f64Real_pos_iff hwf).1 hw)]
  refine ⟨hasNumbers_butterBP _ _ (by omega) (hasValue_fs hfs) ?_ ?_, ?_⟩
  · simp [hasValue, half, hc, hwf]
  · simp [hasValue, half, hc, hwf]
  · rw [cDenote_butterBP _ _ _ _ (by omega), denote_fs]
    simp only [denote, denote_half]

theorem dpOrder_pos_of_notchOn {s : State} (h : notchOn s.dp = true) : 1 ≤ s.dpOrder 1 := by
  have hpos : 0 < i64 s.dp[1] := by
    simp only [notchOn, Bool.and_eq_true, decide_eq_true_eq] at h
    exact h.2
  have hget : s.dpOrder 1 = (i64 s.dp[1]).toNat := rfl
  omega

theorem denotes_binNotch {s : State} (h : FiniteParameters s) (ha : cfgAudioOn s.cflags = true) (k : ℕ) :
    Denotes (s.binNotch k) (notchResponse s k) := by
  unfold State.binNotch notchResponse
  split
  next hn =>
    obtain ⟨hsp, hdp⟩ := h.notch ha hn
    have hord := dpOrder_pos_of_notchOn hn
    have hdpF : hasValue (s.dpF 0) = true := hdp
    refine ⟨hasNumbers_butterBS _ _ (by omega) (hasValue_fs h.fs) ?_ ?_, ?_⟩
    · simp [hasValue, half, hertz, hsp, hdpF]
    · simp [hasValue, half, hertz, hsp, hdpF]
    · rw [cDenote_butterBS _ _ _ _ (by omega), denote_fs]
      simp only [denote, denote_half, denote_hertz, State.dpF]
      rfl
  next => exact denotes_one

theorem cfgAudioOn_eq_true {c : Word32} : cfgAudioOn c = true ↔ cfgAaLevel c ≠ 0#16 := by simp [cfgAudioOn]

theorem binAudio_off {s : State} (h : cfgAaLevel s.cflags = 0#16) (fa : F64) (k : ℕ) : s.binAudio fa k = cZero := by
  simp [State.binAudio, cfgAudioOn, h]

theorem binAudio_on {s : State} (h : cfgAudioOn s.cflags = true) (fa : F64) (k : ℕ) : s.binAudio fa k =
    cTimes (cWeigh (hilb s.n k) (s.bandAround (hertz fa) s.dp[14] (s.dpOrder 15) k)) (s.binNotch k) := if_pos h

theorem denotes_binAudio {s : State} {fa : F64} (h : FiniteParameters s) (k : ℕ)
    (hfa : cfgAudioOn s.cflags = true → f64Finite fa = true)
    (hs : cfgAaLevel s.cflags ≠ 0#16 → 1 ≤ s.dpOrder 15 ∧ (0 : ℝ) < f64Real s.dp[14]) :
    Denotes (s.binAudio fa k) (audioResponse s (hzReal fa) k) := by
  unfold audioResponse
  split
  next hoff =>
    rw [binAudio_off hoff]
    exact denotes_zero
  next hon =>
    have ha := cfgAudioOn_eq_true.2 hon
    obtain ⟨hord, hw⟩ := hs hon
    have hc : hasValue (hertz fa) = true := by simp [hertz, hasValue, hfa ha]
    rw [binAudio_on ha, ← denote_hertz]
    exact ((denotes_bandAround k h.fs hc (h.audio ha).2.2 hw hord).hilb _ _).times (denotes_binNotch h ha k)

theorem denotes_binRf {s : State} (h : FiniteParameters s) (k : ℕ) (h6 : 1 ≤ s.dpOrder 6) (h13 : 1 ≤ s.dpOrder 13) :
    Denotes (s.binRf k) (slotResponse s 0 k) := by
  have hband : Denotes (butterBP s.n s.fs (s.dpF 4) (s.dpF 5) (s.dpOrder 6) k)
      (bandPass s.n s.fsReal (f64Real s.dp[4]) (f64Real s.dp[5]) (s.dpOrder 6) k) :=
    ⟨hasNumbers_butterBP _ _ (by omega) (hasValue_fs h.fs) h.rfLow h.rfHigh,
      by rw [cDenote_butterBP _ _ _ _ (by omega), denote_fs]; rfl⟩
  have hhigh : Denotes (butterHP s.n s.fs (s.dpF 12) (s.dpOrder 13) k)
      (highPass s.n s.fsReal (f64Real s.dp[12]) (s.dpOrder 13) k) :=
    ⟨hasNumbers_butterHP _ _ (by omega) (hasValue_fs h.fs) h.rfCut,
      by rw [cDenote_butterHP _ _ _ (by omega), denote_fs]; rfl⟩
  have hboth := (hband.times hhigh).hilb s.n k
  rw [← mul_assoc] at hboth
  exact hboth

theorem denotes_binSync {s : State} (h : FiniteParameters s) (k : ℕ) (h8 : 1 ≤ s.dpOrder 8) :
    Denotes (s.binSync k) (slotResponse s 1 k) :=
  ⟨hasNumbers_butterLP _ _ (by omega) (hasValue_fs h.fs) h.sync,
    by rw [State.binSync, cDenote_butterLP _ _ _ (by omega), denote_fs]; rfl⟩

theorem denotes_binFsync {s : State} (h : FiniteParameters s) (k : ℕ) (hord : 1 ≤ s.params.fsyncOrder)
    (hw : (0 : ℝ) < f64Real s.params.fsyncBwHz) : Denotes (s.binFsync k) (slotResponse s 2 k) := by
  have hc : hasValue s.fsyncHz = true := by simp [State.fsyncHz, hertz, hasValue, h.fsync]
  have := denotes_bandAround k h.fs hc h.fsyncBw hw hord
  rw [denote_fsyncHz] at this
  exact this

theorem denotes_binAlpf1 {s : State} (h : FiniteParameters s) (k : ℕ) :
    Denotes (s.binAlpf1 k) (slotResponse s 6 k) := by
  refine ⟨⟨rfl, rfl⟩, ?_⟩
  have hb := brick_eq s.n s.fsRat (s.fsRat / (2 * Config.d1 : ℕ)) k
  rw [State.binAlpf1, cDenote_ofReal, denote, hb, fsRat_eq h.fs]
  push_cast
  rw [fsRat_eq h.fs]
  norm_num [slotResponse, Config.d1]

/-! ### The bins that are 0 -/

theorem cWeigh_zero (q : ℚ) : cWeigh q cZero = cZero := by simp [cWeigh, cIsZero, cZero, cOfReal, isZero]

theorem cWeigh_of_zero (z : CExact) : cWeigh 0 z = cZero := by simp [cWeigh]

theorem cTimes_zero_left {w : CExact} (h : HasNumbers w) : cTimes cZero w = cZero := by
  have hw : cHasValue w = true := by rw [cHasValue, h.1, h.2]; rfl
  have hz : cIsZero cZero = true := rfl
  rw [cTimes, hz, hw]
  rfl

theorem hilb_of_negative {N k : ℕ} (h : N < 2 * k) : hilb N k = 0 := by
  rw [hilb, if_neg (by simp; omega), if_neg (by omega)]

/-- F_RF at DC and Nyquist: the high-pass has a value there whatever its order is. -/
theorem binRf_edge {s : State} {k : ℕ} (h : k = 0 ∨ 2 * k = s.n) : s.binRf k = cZero := by
  have hp : HasNumbers (butterHP s.n s.fs (s.dpF 12) (s.dpOrder 13) k) := by
    unfold butterHP
    split
    · exact ⟨rfl, rfl⟩
    next hk =>
      rw [if_pos (h.resolve_left hk)]
      exact ⟨rfl, rfl⟩
  rw [State.binRf, butterBP_edge h, cTimes_zero_left hp, cWeigh_zero]

theorem binAudio_eq_zero {s : State} (hp : FiniteParameters s) {k : ℕ} (h : (k = 0 ∨ 2 * k = s.n) ∨ s.n < 2 * k)
    (fa : F64) : s.binAudio fa k = cZero := by
  by_cases ha : cfgAudioOn s.cflags = true
  · rw [binAudio_on ha]
    have hz : cWeigh (hilb s.n k) (s.bandAround (hertz fa) s.dp[14] (s.dpOrder 15) k) = cZero := by
      rcases h with h | h
      · rw [bandAround_edge h, cWeigh_zero]
      · rw [hilb_of_negative h, cWeigh_of_zero]
    rw [hz, cTimes_zero_left (denotes_binNotch hp ha k).1]
  · exact if_neg ha

theorem binSync_nyquist {s : State} {k : ℕ} (h : 2 * k = s.n) : s.binSync k = cZero := if_pos h

theorem binAlpf1_outside {s : State} (hf : f64Finite s.cfsMhz = true) {k : ℕ}
    (h : s.fsReal / 64 < |fsigReal s.n s.fsReal k|) : s.binAlpf1 k = cZero := by
  have hout : ¬ |fsig s.n s.fsRat k| ≤ s.fsRat / (2 * Config.d1 : ℕ) := by
    rw [← fsRat_eq hf, fsig_eq] at h
    have h' : s.fsRat / 64 < |fsig s.n s.fsRat k| := by exact_mod_cast h
    rw [not_le]
    norm_num [Config.d1]
    exact h'
  rw [State.binAlpf1, brick, if_neg hout]
  rfl

theorem binEfm_above {s : State} {k : ℕ} (h : efmLast s.rom < fbin s.n s.fsRat k) (curves : Option (Curve × Curve)) :
    s.binEfm curves k = cZero := if_neg (not_le.2 h)

end Sys2Proof.Laws

namespace Sys2Proof.Certificates

open Sys2Proof.Machine Sys2Proof.Laws

/-- Settles O22: every bin read back from the words that SYNTH stores. -/
theorem synthFillsBank : Obligations.SynthFillsBank := by
  intro s
  refine ⟨notConstructedRaised rfl s, fun hc hg => ⟨_, exec_synth hc hg, ?_, ?_, fun f k hf hk => ⟨?_, ?_⟩⟩⟩
  · rw [finish_eq, effSynth_eq]
  · exact sameOutside_effSynth s
  · intro _ hkn
    rw [← bankBin_of_lt hkn]
    exact synth_stored s hf hk
  · exact fun h => words_of_stored_zero (synth_stored s hf hk) (bankBin_eq_zero h)

/-- Settles O24: the four closed forms, each from the numbers of its parts. -/
theorem butterworthResponses : Obligations.ButterworthResponses := by
  intro N n k fs f1 f2 hn
  have hn0 : n ≠ 0 := by omega
  exact ⟨cDenote_butterLP N fs f1 hn0 k, cDenote_butterHP N fs f1 hn0 k, cDenote_butterBP N fs f1 f2 hn0 k,
    cDenote_butterBS N fs f1 f2 hn0 k⟩

/-- Settles O25: slot by slot; the invariant makes every parameter that a rule reads a number. -/
theorem slotResponses : Obligations.SlotResponses := by
  intro s f k hinv hc hf hf5 hk hstated
  have hp := finiteParameters_of_inv hinv hc
  have answer : Denotes (s.slotValue f k) (slotResponse s f k) := by
    match f, hf, hf5, hstated with
    | 0, _, _, h => exact denotes_binRf hp k h.1 h.2
    | 1, _, _, h => exact denotes_binSync hp k h
    | 2, _, _, h => exact denotes_binFsync hp k h.1 h.2
    | 3, _, _, h => exact denotes_binAudio hp k (fun ha => (hp.audio ha).1) h
    | 4, _, _, h => exact denotes_binAudio hp k (fun ha => (hp.audio ha).2.1) h
    | 6, _, _, _ => exact denotes_binAlpf1 hp k
  exact ⟨answer.1.1, answer.1.2, answer.2⟩

/-- Settles O26: in each case the bin's rule gives the zero that a rule writes. -/
theorem zeroBinsAreZero : Obligations.ZeroBinsAreZero := by
  intro s t f k hinv hc hexec hk hcase
  have hp := finiteParameters_of_inv hinv hc
  have hn := (geometry_bounds (hinv.geometry hc)).2.1
  have hzero : f < 8 ∧ s.slotValue f k = cZero := by
    rcases hcase with ⟨hneg, rfl | rfl | rfl⟩ | ⟨rfl, hout⟩ | ⟨hedge, rfl | rfl | rfl | rfl⟩ | ⟨hny, rfl⟩ |
      ⟨hoff, rfl | rfl⟩ | ⟨rfl, habove⟩
    · exact ⟨by decide, by rw [State.slotValue, State.binRf, hilb_of_negative hneg, cWeigh_of_zero]⟩
    · exact ⟨by decide, binAudio_eq_zero hp (.inr hneg) _⟩
    · exact ⟨by decide, binAudio_eq_zero hp (.inr hneg) _⟩
    · exact ⟨by decide, binAlpf1_outside hp.fs hout⟩
    · exact ⟨by decide, binRf_edge hedge⟩
    · exact ⟨by decide, bandAround_edge hedge _ _ _⟩
    · exact ⟨by decide, binAudio_eq_zero hp (.inl hedge) _⟩
    · exact ⟨by decide, binAudio_eq_zero hp (.inl hedge) _⟩
    · exact ⟨by decide, binSync_nyquist hny⟩
    · exact ⟨by decide, binAudio_off hoff _ _⟩
    · exact ⟨by decide, binAudio_off hoff _ _⟩
    · exact ⟨by decide, binEfm_above habove _⟩
  rw [exec_synth_eq_next hc hexec]
  exact words_of_stored_zero (synth_stored s hzero.1 (by omega)) ((bankBin_of_lt hk f).trans hzero.2)

end Sys2Proof.Certificates
end

section
/-! PROOF. The block commands without further effects (42_datapath.md R161 to R166, R169, R171, R172): what they write, and
that it is within the tolerance of the transform, the product, the modulus, the angle; IDFT_N(DFT_N(x)) = x (00_scope.md R14). -/

namespace Sys2Proof.Laws

open Sys2Proof.Machine

/-! ### Commands that write one block -/

theorem finish_writeBuf_onlyMemory (s : State) (d : Buf) (f : ℕ → CExact) : OnlyMemory s (s.writeBuf d f).finish := by
  rw [OnlyMemory, finish_eq]
  rfl

theorem finish_writeBuf_blockStored (s : State) (d : Buf) (f : ℕ → CExact) :
    BlockStored s (s.writeBuf d f).finish d f := writeBuf_blockStored s d f

/-- A command whose checks pass and whose effect is the write of a block. -/
theorem exec_of_writeBuf {i : Instr} {s : State} {d : Buf} {f : ℕ → CExact} (hp : commandFails s i = false)
    (hg : s.geometryOk = true) (he : effectOf i s = s.writeBuf d f) : exec i s = .next (s.writeBuf d f).finish := by
  rw [exec_of_passes_next hp (fun _ => hg), he]

/-- A command that checks CONSTRUCTED alone and writes a block. -/
theorem writesBlock_of_effect {i : Instr} {s : State} {d : Buf} {f : ℕ → CExact} (hn : needsConstruct i = true)
    (hp : commandFails s i = !s.constructed) (he : effectOf i s = s.writeBuf d f) : WritesBlock i s d f := by
  refine ⟨notConstructedRaised hn s, fun hc hg => ⟨_, exec_of_writeBuf ?_ hg he, finish_writeBuf_onlyMemory s d f,
    finish_writeBuf_blockStored s d f⟩⟩
  rw [hp, hc]
  rfl

/-- What such a command leaves in one element. -/
theorem stored_of_writesBlock {i : Instr} {s : State} {d : Buf} {f : ℕ → CExact} (h : WritesBlock i s d f)
    (hc : s.constructed = true) (hg : s.geometryOk = true) : ∃ t, exec i s = .next t ∧ OnlyMemory s t ∧
      ∀ n, n < s.n → StoredComplex (.nth s.draws) t.mem (bufAddr d n) (f n) := by
  obtain ⟨t, ht, hmem, hst, -⟩ := h.2 hc hg
  exact ⟨t, ht, hmem, hst⟩

theorem writesBlock_real (d a : Buf) (s : State) : WritesBlock (.real d a) s d (fun n => realElem (s.bufRe a n)) :=
  writesBlock_of_effect rfl rfl rfl

theorem writesBlock_fft (d a : Buf) (s : State) : WritesBlock (.fft d a) s d (s.fftElem a) :=
  writesBlock_of_effect rfl rfl rfl

theorem writesBlock_ifft (d a : Buf) (s : State) : WritesBlock (.ifft d a) s d (s.ifftElem a) :=
  writesBlock_of_effect rfl rfl rfl

theorem writesBlock_env (d a : Buf) (s : State) : WritesBlock (.env d a) s d (fun n => realElem (modulus (s.bufElem a n))) :=
  writesBlock_of_effect rfl rfl rfl

theorem writesBlock_phase (d a : Buf) (s : State) : WritesBlock (.phase d a) s d (fun n => realElem (angle (s.bufElem a n))) :=
  writesBlock_of_effect rfl rfl rfl

theorem writesBlock_clr (d : Buf) (s : State) : WritesBlock (.clr d) s d (fun _ => realElem (.rat 0)) :=
  writesBlock_of_effect rfl rfl rfl

theorem inWindow_eq (s : State) (x : ℕ → Exact) : s.inWindow x = windowElem s x := by
  funext n
  unfold State.inWindow windowElem
  by_cases h : s.w0 ≤ n ∧ n < s.w1
  · rw [if_pos h, if_pos (by simpa using h)]
    rfl
  · rw [if_neg h, if_neg (by simpa using h)]
    rfl

theorem writesBlock_mtf (d a : Buf) (s : State) :
    WritesBlock (.mtf d a) s d (windowElem s (fun n => s.mtfApply (s.bufRe a n))) :=
  writesBlock_of_effect rfl rfl (by rw [← inWindow_eq]; rfl)

theorem writesBlock_copy {d a : Buf} (h : d ≠ a) (s : State) : WritesBlock (.copy d a) s d (s.bufElem a) :=
  writesBlock_of_effect rfl rfl (by simp [effectOf, effCopy, h])

/-- A COPY of a buffer to itself (log 23). -/
theorem exec_copy_self {s : State} (hc : s.constructed = true) (hg : s.geometryOk = true) (d : Buf) :
    exec (.copy d d) s = .next { s with status := endStatus s.status } := by
  have he : effectOf (.copy d d) s = s := by simp [effectOf, effCopy]
  rw [exec_of_passes_next (by simp [commandFails, hc]) (fun _ => hg), he, finish_eq]

theorem exec_cmul {s : State} (hc : s.constructed = true) (hb : s.bankValid = true) (hg : s.geometryOk = true)
    (d a : Buf) {f : BitVec 4} (hf : f.toNat < 7) :
    exec (.cmul d a f) s = .next (s.writeBuf d (s.cmulElem a f.toNat)).finish := by
  have hslot : slotInRange f = true := (slotInRange_iff f).2 (by omega)
  exact exec_of_writeBuf (by simp [commandFails, hc, hb, hslot]) hg rfl

theorem exec_cmul_notSynthesized {s : State} (hc : s.constructed = true) (hb : s.bankValid = false) (d a : Buf)
    {f : BitVec 4} (hf : f.toNat < 7) : exec (.cmul d a f) s = .next (errorState s 0x13#8 6#8 0#32) := by
  have hslot : slotInRange f = true := (slotInRange_iff f).2 (by omega)
  simp only [exec, execCmul, ifConstructed_true hc, hslot, if_true, ifBankValid_false hb]
  rfl

/-! ### Operands and stored numbers -/

/-- An operand is a zero exactly where memory holds the number 0. -/
theorem isZero_operand_iff (s : State) (addr : ℕ) : isZero (s.operand addr) = true ↔ HoldsReal s.mem addr 0 := by
  unfold State.operand HoldsReal
  cases Memory.word? s.mem addr with
  | none => simp [isZero]
  | some x => simp [isZero, f64Zero_iff]

theorem cIsZero_bufElem_iff (s : State) (a : Buf) (n : ℕ) :
    cIsZero (s.bufElem a n) = true ↔ HoldsComplex s.mem (bufAddr a n) 0 := by
  rw [cIsZero, Bool.and_eq_true]
  exact and_congr (isZero_operand_iff s _) (isZero_operand_iff s _)

theorem zeroBlock_iff (s : State) (a : Buf) :
    s.zeroBlock a = true ↔ ∀ n, n < s.n → HoldsComplex s.mem (bufAddr a n) 0 := by
  simp only [State.zeroBlock, List.all_eq_true, List.mem_range, cIsZero_bufElem_iff]

theorem denotes_bufElem {s : State} {b : Buf} {n : ℕ} {z : ℂ} (h : HoldsComplex s.mem (bufAddr b n) z) :
    Denotes (s.bufElem b n) z := by
  obtain ⟨hre, him, hz⟩ := bufElem_of_holds h
  exact ⟨⟨hre, him⟩, hz⟩

theorem denotes_vanished : Denotes cVanished 0 := ⟨⟨rfl, rfl⟩, cDenote_vanished⟩

theorem denotes_real {e : Exact} (h : hasValue e = true) : Denotes (realElem e) (denote e : ℝ) :=
  ⟨⟨h, rfl⟩, cDenote_ofReal e⟩

theorem nearComplex_of_denotes {tol : ℝ → ℝ} (ht : Tolerance tol) {d : Draw} {m : List Host.Cell} {addr : ℕ} {z : CExact}
    {w : ℂ} (h : StoredComplex d m addr z) (hz : Denotes z w) : NearComplex tol m addr w := by
  rw [← hz.2]
  exact nearComplex_of_stored ht h hz.1.1 hz.1.2

theorem holdsReal_of_stored_zero {d : Draw} {m : List Host.Cell} {addr : ℕ} (h : Stored d m addr .zero) :
    HoldsReal m addr 0 := ⟨_, h, f64Zero_iff.1 (f64Zero_put_zero d addr)⟩

theorem holdsReal_of_stored_rat_zero {d : Draw} {m : List Host.Cell} {addr : ℕ} (h : Stored d m addr (.rat 0)) :
    HoldsReal m addr 0 := by
  rw [Stored, put_rat_zero] at h
  exact ⟨_, h, f64Finite_zero, f64Real_zero⟩

theorem holdsComplex_of_stored_vanished {d : Draw} {m : List Host.Cell} {addr : ℕ} (h : StoredComplex d m addr cVanished) :
    HoldsComplex m addr 0 := ⟨holdsReal_of_stored_zero h.1, holdsReal_of_stored_zero h.2⟩

theorem holdsComplex_of_stored_realZero {d : Draw} {m : List Host.Cell} {addr : ℕ}
    (h : StoredComplex d m addr (realElem .zero)) : HoldsComplex m addr 0 :=
  ⟨holdsReal_of_stored_zero h.1, holdsReal_of_stored_rat_zero h.2⟩

/-! ### The transforms -/

/-- The sum of the powers of an N-th root of 1 other than 1 is 0. -/
theorem sum_pow_of_pow_eq_one {N : ℕ} {r : ℂ} (h : r ^ N = 1) (h1 : r ≠ 1) : ∑ k ∈ Finset.range N, r ^ k = 0 := by
  rw [geom_sum_eq h1, h, sub_self, zero_div]

/-- exp(2*pi*j*z/N). -/
noncomputable def unitRoot (N : ℕ) (z : ℤ) : ℂ := Complex.exp (Complex.I * (2 * Real.pi * z / N))

theorem unitRoot_pow (N : ℕ) (z : ℤ) (k : ℕ) : unitRoot N z ^ k = unitRoot N (k * z) := by
  rw [unitRoot, unitRoot, ← Complex.exp_nat_mul]
  congr 1
  push_cast
  ring

theorem unitRoot_mul {N : ℕ} (hN : N ≠ 0) (z : ℤ) : unitRoot N (N * z) = 1 := by
  have hN' : (N : ℂ) ≠ 0 := Nat.cast_ne_zero.2 hN
  rw [unitRoot, Complex.exp_eq_one_iff]
  refine ⟨z, ?_⟩
  push_cast
  field_simp

theorem unitRoot_ne_one {N : ℕ} {z : ℤ} (hz : z ≠ 0) (hlt : |z| < N) : unitRoot N z ≠ 1 := by
  have hN : (N : ℂ) ≠ 0 := by
    rintro h
    rw [Nat.cast_eq_zero] at h
    subst h
    exact absurd hlt (not_lt.2 (by simp))
  intro h
  obtain ⟨m, hm⟩ := Complex.exp_eq_one_iff.1 h
  have hc : (z : ℂ) = m * N := by
    have hpi : (Real.pi : ℂ) ≠ 0 := Complex.ofReal_ne_zero.2 Real.pi_ne_zero
    field_simp at hm
    linear_combination hm
  have hzm : z = m * N := by exact_mod_cast hc
  exact hz (Int.eq_zero_of_abs_lt_dvd ⟨m, by rw [hzm, mul_comm]⟩ hlt)

/-- The roots of 1 are orthogonal. -/
theorem sum_unitRoot {N n m : ℕ} (hn : n < N) (hm : m < N) :
    ∑ k ∈ Finset.range N, unitRoot N (k * ((n : ℤ) - m)) = if m = n then (N : ℂ) else 0 := by
  split
  next h =>
    subst h
    simp [unitRoot]
  next h =>
    simp_rw [← unitRoot_pow]
    refine sum_pow_of_pow_eq_one ?_ (unitRoot_ne_one (by omega) (abs_lt.2 ⟨by omega, by omega⟩))
    rw [unitRoot_pow, unitRoot_mul (by omega)]

/-- IDFT_N(DFT_N(x)) = x (R14). -/
theorem idftReal_dftReal {N n : ℕ} (x : ℕ → ℂ) (hn : n < N) : idftReal N (dftReal N x) n = x n := by
  have hN : (N : ℂ) ≠ 0 := Nat.cast_ne_zero.2 (by omega)
  have term : ∀ k m : ℕ, x m * Complex.exp (-(Complex.I * (2 * Real.pi * k * m / N)))
      * Complex.exp (Complex.I * (2 * Real.pi * k * n / N)) = x m * unitRoot N (k * ((n : ℤ) - m)) := fun k m => by
    rw [mul_assoc, ← Complex.exp_add, unitRoot]
    congr 2
    push_cast
    ring
  unfold idftReal dftReal
  simp_rw [Finset.sum_mul, term]
  rw [Finset.sum_comm]
  have inner : ∀ m ∈ Finset.range N, ∑ k ∈ Finset.range N, x m * unitRoot N (k * ((n : ℤ) - m)) =
      if m = n then x m * N else 0 := fun m hm => by
    rw [← Finset.mul_sum, sum_unitRoot hn (Finset.mem_range.1 hm), mul_ite, mul_zero]
  rw [Finset.sum_congr rfl inner, Finset.sum_ite_eq', if_pos (Finset.mem_range.2 hn)]
  field_simp

theorem dftReal_congr {N : ℕ} {x y : ℕ → ℂ} (h : ∀ n, n < N → x n = y n) : dftReal N x = dftReal N y := by
  funext k
  exact Finset.sum_congr rfl (fun n hn => by rw [h n (Finset.mem_range.1 hn)])

theorem idftReal_congr {N : ℕ} {x y : ℕ → ℂ} (h : ∀ n, n < N → x n = y n) : idftReal N x = idftReal N y := by
  funext k
  exact congrArg _ (Finset.sum_congr rfl (fun n hn => by rw [h n (Finset.mem_range.1 hn)]))

theorem dftReal_zero (N k : ℕ) : dftReal N (fun _ => 0) k = 0 := by simp [dftReal]

theorem idftReal_zero (N k : ℕ) : idftReal N (fun _ => 0) k = 0 := by simp [idftReal]

/-- Two spectra's inverse transforms lie no further apart than the spectra do in the mean. -/
theorem norm_idftReal_sub_le (N : ℕ) (z w : ℕ → ℂ) (n : ℕ) :
    ‖idftReal N z n - idftReal N w n‖ ≤ (1 / N) * ∑ k ∈ Finset.range N, ‖z k - w k‖ := by
  have hroot : ∀ k : ℕ, ‖Complex.exp (Complex.I * (2 * Real.pi * k * n / N))‖ = 1 := fun k => by
    rw [show Complex.I * (2 * Real.pi * k * n / N) = ((2 * Real.pi * k * n / N : ℝ) : ℂ) * Complex.I by push_cast; ring]
    exact Complex.norm_exp_ofReal_mul_I _
  have hnorm : ‖(1 / N : ℂ)‖ = 1 / N := by rw [norm_div, norm_one, Complex.norm_natCast]
  unfold idftReal
  rw [← mul_sub, ← Finset.sum_sub_distrib, norm_mul, hnorm]
  refine mul_le_mul_of_nonneg_left ((norm_sum_le _ _).trans (Finset.sum_le_sum (fun k _ => ?_))) (by positivity)
  rw [← sub_mul, norm_mul, hroot, mul_one]

/-- The numbers of a block of zeros. -/
theorem eq_zero_of_zeroBlock {s : State} {a : Buf} {x : ℕ → ℂ} (hz : s.zeroBlock a = true)
    (h : ∀ n, n < s.n → HoldsComplex s.mem (bufAddr a n) (x n)) {n : ℕ} (hn : n < s.n) : x n = 0 := by
  have h0 := (denotes_bufElem ((zeroBlock_iff s a).1 hz n hn)).2
  rw [← (denotes_bufElem (h n hn)).2, h0]

theorem denotes_fftElem {s : State} {a : Buf} {x : ℕ → ℂ} (h : ∀ n, n < s.n → HoldsComplex s.mem (bufAddr a n) (x n))
    (k : ℕ) : Denotes (s.fftElem a k) (dftReal s.n x k) := by
  unfold State.fftElem
  split
  next hz =>
    rw [dftReal_congr (fun n hn => eq_zero_of_zeroBlock hz h hn), dftReal_zero]
    exact denotes_vanished
  next =>
    refine ⟨hasValue_dft k (fun n hn => (denotes_bufElem (h n hn)).1), ?_⟩
    rw [cDenote_dft, dftReal_congr (fun n hn => (denotes_bufElem (h n hn)).2)]

theorem denotes_ifftElem {s : State} {a : Buf} {x : ℕ → ℂ} (h : ∀ n, n < s.n → HoldsComplex s.mem (bufAddr a n) (x n))
    (k : ℕ) : Denotes (s.ifftElem a k) (idftReal s.n x k) := by
  unfold State.ifftElem
  split
  next hz =>
    rw [idftReal_congr (fun n hn => eq_zero_of_zeroBlock hz h hn), idftReal_zero]
    exact denotes_vanished
  next =>
    refine ⟨hasValue_idft k (fun n hn => (denotes_bufElem (h n hn)).1), ?_⟩
    rw [cDenote_idft, idftReal_congr (fun n hn => (denotes_bufElem (h n hn)).2)]

/-- The number that is stored for a complex result. -/
noncomputable def storedNumber (d : Draw) (addr : ℕ) (z : CExact) : ℂ := ⟨f64Real (put d addr z.re), f64Real (put d (addr + 8) z.im)⟩

theorem holdsComplex_of_stored {d : Draw} {m : List Host.Cell} {addr : ℕ} {z : CExact} (h : StoredComplex d m addr z)
    (hz : HasNumbers z) : HoldsComplex m addr (storedNumber d addr z) :=
  ⟨⟨_, h.1, f64Finite_put hz.1 _ _, rfl⟩, ⟨_, h.2, f64Finite_put hz.2 _ _, rfl⟩⟩

theorem storedNumber_near {tol : ℝ → ℝ} (ht : Tolerance tol) {z : CExact} {w : ℂ} (hz : Denotes z w) (d : Draw) (addr : ℕ) :
    |(storedNumber d addr z).re - w.re| ≤ tol w.re ∧ |(storedNumber d addr z).im - w.im| ≤ tol w.im := by
  rw [← hz.2]
  exact ⟨(put_matches ht hz.1.1 d addr).2, (put_matches ht hz.1.2 d (addr + 8)).2⟩

theorem fft_near {tol : ℝ → ℝ} (ht : Tolerance tol) (d : Buf) {a : Buf} {s : State} {x : ℕ → ℂ} (hc : s.constructed = true)
    (hg : s.geometryOk = true) (h : ∀ n, n < s.n → HoldsComplex s.mem (bufAddr a n) (x n)) :
    ∃ t, exec (.fft d a) s = .next t ∧ ∀ k, k < s.n → NearComplex tol t.mem (bufAddr d k) (dftReal s.n x k) := by
  obtain ⟨t, hexec, -, hst⟩ := stored_of_writesBlock (writesBlock_fft d a s) hc hg
  exact ⟨t, hexec, fun k hk => nearComplex_of_denotes ht (hst k hk) (denotes_fftElem h k)⟩

theorem ifft_near {tol : ℝ → ℝ} (ht : Tolerance tol) (d : Buf) {a : Buf} {s : State} {x : ℕ → ℂ} (hc : s.constructed = true)
    (hg : s.geometryOk = true) (h : ∀ n, n < s.n → HoldsComplex s.mem (bufAddr a n) (x n)) :
    ∃ t, exec (.ifft d a) s = .next t ∧ ∀ k, k < s.n → NearComplex tol t.mem (bufAddr d k) (idftReal s.n x k) := by
  obtain ⟨t, hexec, -, hst⟩ := stored_of_writesBlock (writesBlock_ifft d a s) hc hg
  exact ⟨t, hexec, fun k hk => nearComplex_of_denotes ht (hst k hk) (denotes_ifftElem h k)⟩

/-- The frame of a command that writes memory alone. -/
theorem geometry_of_onlyMemory {s t : State} (h : OnlyMemory s t) :
    t.constructed = s.constructed ∧ t.geometryOk = s.geometryOk ∧ t.n = s.n := by
  rw [h]
  exact ⟨endStatus_constructed s.status, rfl, rfl⟩

/-! ### MTF -/

theorem mtfCopies_iff (s : State) : s.mtfCopies = true ↔ s.params.mtfScalar = .default ∧ s.dp[9] = f64One := by
  simp [State.mtfCopies]

theorem mtfPair_default {p : Params} (h : p.mtfScalar = .default) (dp : Vector Word 16) : mtfPair p dp = (dp[9], 0#64) := by
  rw [mtfPair, h]

/-- The gain and the offset, copied words included. -/
theorem denote_mtfApply {s : State} {g o : F64} (x : Exact) (h : mtfPair s.params s.dp = (g, o)) (hg : f64Finite g = true)
    (ho : f64Finite o = true) : denote (s.mtfApply x) = denote x * f64Real g + f64Real o ∧
      hasValue (s.mtfApply x) = hasValue x := by
  unfold State.mtfApply
  split
  next hcopy =>
    obtain ⟨hdef, hone⟩ := (mtfCopies_iff s).1 hcopy
    rw [mtfPair_default hdef, Prod.mk.injEq] at h
    obtain ⟨rfl, rfl⟩ := h
    rw [hone, f64Real_one, f64Real_zero, mul_one, add_zero]
    exact ⟨rfl, rfl⟩
  next =>
    rw [h]
    exact ⟨rfl, by simp [hasValue, hg, ho]⟩

end Sys2Proof.Laws

namespace Sys2Proof.Certificates

open Sys2Proof.Machine Sys2Proof.Laws

/-- Settles O29: each command's effect is the write of one block. -/
theorem blockCommandsWriteResults : Obligations.BlockCommandsWriteResults :=
  ⟨fun d a s => ⟨writesBlock_real d a s, writesBlock_fft d a s, writesBlock_ifft d a s, writesBlock_env d a s,
    writesBlock_phase d a s⟩, fun a s => ⟨cIsZero_bufElem_iff s a, zeroBlock_iff s a⟩⟩

/-- Settles O31: the roots of 1 are orthogonal. -/
theorem inverseTransform : Obligations.InverseTransform := by
  intro N x n hn
  rw [cDenote_idft, idftReal_congr (fun k _ => cDenote_dft N x k)]
  exact idftReal_dftReal (fun n => cDenote (x n)) hn

/-- Settles O30: the third part executes IFFT on what FFT stored, and compares its spectrum with the exact one. -/
theorem transformsWithinTolerance : Obligations.TransformsWithinTolerance := by
  intro tol d a s x ht hc hg hx
  refine ⟨fft_near ht d hc hg hx, ifft_near ht d hc hg hx, ?_⟩
  obtain ⟨t, hexec, hmem, hst⟩ := stored_of_writesBlock (writesBlock_fft d a s) hc hg
  obtain ⟨hc', hg', hn'⟩ := geometry_of_onlyMemory hmem
  let z : ℕ → ℂ := fun k => storedNumber (.nth s.draws) (bufAddr d k) (s.fftElem a k)
  have hz : ∀ k, k < s.n → HoldsComplex t.mem (bufAddr d k) (z k) := fun k hk =>
    holdsComplex_of_stored (hst k hk) (denotes_fftElem hx k).1
  obtain ⟨u, hexec', hnear⟩ := ifft_near ht d (hc'.trans hc) (hg'.trans hg) (hn'.symm ▸ hz)
  rw [hn'] at hnear
  refine ⟨t, u, z, hexec, hexec', fun k hk => ⟨hz k hk, storedNumber_near ht (denotes_fftElem hx k) _ _⟩,
    fun n hn => ⟨hnear n hn, ?_⟩⟩
  have hdist := norm_idftReal_sub_le s.n z (dftReal s.n x) n
  rwa [idftReal_dftReal x hn] at hdist

/-- Settles O32: the checks in order; the product is `cMul` of the element and the bin. -/
theorem cmulMultipliesBySlot : Obligations.CmulMultipliesBySlot := fun d a _ s =>
  ⟨notConstructedRaised rfl s, fun hc hf => exec_cmul_badOperand hc d a hf,
    fun hc hf hb => exec_cmul_notSynthesized hc hb d a hf, fun hc hf hb hg =>
      ⟨_, exec_cmul hc hb hg d a hf, finish_writeBuf_onlyMemory s d _, finish_writeBuf_blockStored s d _⟩⟩

/-- Settles O34: the modulus and the argument of the number that the element holds. -/
theorem envAndPhaseWithinTolerance : Obligations.EnvAndPhaseWithinTolerance := by
  intro tol d a s n z ht hc hg hn hz
  have hx := denotes_bufElem hz
  have hvalue : hasValue (modulus (s.bufElem a n)) = true ∧ hasValue (angle (s.bufElem a n)) = true := by
    unfold modulus angle
    split
    · exact ⟨rfl, rfl⟩
    · simp [hasValue, normSq, hx.1.1, hx.1.2]
  have hmod : denote (modulus (s.bufElem a n)) = Real.sqrt (z.re ^ 2 + z.im ^ 2) := by
    rw [denote_modulus, ← hx.2]
    simp only [cDenote, sq]
  have hang : denote (angle (s.bufElem a n)) = Complex.arg z := by rw [denote_angle, hx.2]
  constructor
  · obtain ⟨t, hexec, -, hst⟩ := stored_of_writesBlock (writesBlock_env d a s) hc hg
    refine ⟨t, hexec, ?_⟩
    rw [← hmod]
    exact nearComplex_of_denotes ht (hst n hn) (denotes_real hvalue.1)
  · obtain ⟨t, hexec, -, hst⟩ := stored_of_writesBlock (writesBlock_phase d a s) hc hg
    refine ⟨t, Complex.arg z, hexec, ?_, Complex.neg_pi_lt_arg z, Complex.arg_le_pi z, ?_, ?_⟩
    · rw [← hang]
      exact nearComplex_of_denotes ht (hst n hn) (denotes_real hvalue.2)
    · rw [mul_comm Complex.I]
      exact (Complex.norm_mul_exp_arg_mul_I z).symm
    · rintro rfl
      exact Complex.arg_zero

/-- Settles O39: with the default function and MTF_MULT = 1 the result is the sample itself, which keeps its word. -/
theorem mtfScalesWindow : Obligations.MtfScalesWindow := by
  intro d a s
  refine ⟨writesBlock_mtf d a s, fun x g o h hg ho => denote_mtfApply x h hg ho, fun h => mtfPair_default h s.dp,
    fun id h => by rw [mtfPair, h], fun hdef hone hc hg => ?_⟩
  obtain ⟨t, hexec, -, hst⟩ := stored_of_writesBlock (writesBlock_mtf d a s) hc hg
  refine ⟨t, hexec, fun n x h0 h1 hx hfin => ?_⟩
  have hn : n < s.n := lt_of_lt_of_le h1 (geometry_bounds hg).2.2.2.2
  have hstored := (hst n hn).1
  have hop : s.bufRe a n = .val x := by simp [State.bufRe, State.operand, hx]
  rw [windowElem, if_pos ⟨h0, h1⟩, realElem, State.mtfApply, if_pos ((mtfCopies_iff s).2 ⟨hdef, hone⟩), hop, Stored,
    put_val hfin] at hstored
  exact hstored

/-- Settles O42: COPY and CLR are the write of a block, but for a COPY of a buffer to itself. -/
theorem copyAndClear : Obligations.CopyAndClear := by
  intro d a s
  refine ⟨fun h => writesBlock_copy h s, ?_, writesBlock_clr d s⟩
  rintro rfl
  exact ⟨notConstructedRaised rfl s, fun hc hg => exec_copy_self hc hg d⟩

/-- Settles O43: the four kinds of exact results that a word is stored for. -/
theorem storedWithinTolerance : Obligations.StoredWithinTolerance := by
  intro tol d m addr e ht hst
  refine ⟨near_of_stored ht hst, ?_, ?_, ?_⟩
  · rintro x rfl hfin
    rwa [Stored, put_val hfin] at hst
  · rintro q rfl rfl
    rwa [Stored, put_rat_zero] at hst
  · rintro rfl
    exact holdsReal_of_stored_zero hst

end Sys2Proof.Certificates
end

section
/-! PROOF. UNWRAP, FDEMOD and DECIM (42_datapath.md R167, R168, R170): their results, the carries, seeds and counts that they
leave, and the results over the real numbers. -/

namespace Sys2Proof.Laws

open Sys2Proof.Machine

/-! ### UNWRAP -/

theorem streamOf?_of_toNat {st : BitVec 2} {k : Stream} (h : st.toNat = k.val) : streamOf? st = some k := by
  revert st k
  decide

/-- The phase of R167, as the statements write it. -/
theorem addTurns_eq (zeros : Bool) (phi : Exact) (turns : ℤ) : addTurns zeros phi turns =
    if zeros = true ∧ isZero phi = true ∧ turns = 0 then .zero else .add phi (.mul (.rat ((2 * turns : ℤ) : ℚ)) .pi) := by
  unfold addTurns ratPi
  by_cases h : zeros = true ∧ isZero phi = true ∧ turns = 0
  · rw [if_pos h, if_pos (by simpa [and_assoc] using h)]
  · rw [if_neg h, if_neg (by simpa [and_assoc] using h)]

theorem hasValue_addTurns {phi : Exact} (h : hasValue phi = true) (zeros : Bool) (turns : ℤ) :
    hasValue (addTurns zeros phi turns) = true := by
  rw [addTurns_eq]
  split
  · rfl
  · simp [hasValue, h]

theorem denote_addTurns (zeros : Bool) (phi : Exact) (turns : ℤ) :
    denote (addTurns zeros phi turns) = denote phi + 2 * Real.pi * turns := by
  rw [addTurns_eq]
  split
  next h =>
    rw [denote_of_isZero h.2.1, h.2.2]
    simp [denote]
  next =>
    simp only [denote]
    push_cast
    ring

theorem exec_unwrap {s : State} (hc : s.constructed = true) (hg : s.geometryOk = true) (d a : Buf) {st : BitVec 2}
    {k : Stream} (hk : st.toNat = k.val) : exec (.unwrap d a st) s = .next (effUnwrap d a k s).finish := by
  have hst := streamOf?_of_toNat hk
  have heff : effectOf (.unwrap d a st) s = effUnwrap d a k s := by simp only [effectOf, hst]
  rw [exec_of_passes_next (by simp [commandFails, hc, hst]) (fun _ => hg), heff]

theorem blockStored_unwrap (d a : Buf) (k : Stream) (s : State) : BlockStored s (effUnwrap d a k s).finish d
    (windowElem s (fun n => addTurns (s.zeroBlock a) (s.bufRe a n) (s.turnsAt a k n))) := by
  rw [← inWindow_eq]
  exact writeBuf_blockStored s d _

theorem carryOk_unwrap (d a : Buf) (k l : Stream) (s : State) :
    (effUnwrap d a k s).carryOk l = if l = k then true else s.carryOk l := by
  have hset := getLsbD_setFlag s.carryValid k l true k.isLt
  simp only [Fin.val_inj] at hset
  exact hset

theorem seedOk_unwrap (d a : Buf) (k l : Stream) (s : State) :
    (effUnwrap d a k s).seedOk l = if l = k then s.carryOk k else s.seedOk l := by
  have hset := getLsbD_setFlag s.seedValid k l (s.carryOk k) k.isLt
  simp only [Fin.val_inj] at hset
  exact hset

/-- An entry of a stream's registers after one was written. -/
theorem vector_set_get {α : Type} (v : Vector α 3) (k l : Stream) (x : α) : (v.set k x)[l] = if l = k then x else v[l] := by
  rw [Fin.getElem_fin, Fin.getElem_fin, Vector.getElem_set]
  exact if_congr ⟨fun h => Fin.ext h.symm, fun h => congrArg Fin.val h.symm⟩ rfl rfl

/-- The window of a state that CONSTRUCT has left. -/
theorem window_bounds {s : State} (hg : s.geometryOk = true) : s.w0 < s.w1 ∧ s.w1 ≤ s.n := by
  obtain ⟨-, -, -, h0, h1⟩ := geometry_bounds hg
  exact ⟨h0, h1⟩

/-- The turns that the model counts over numbers are those counted over the reals. -/
theorem turnsAt_eq {s : State} {a : Buf} {k : Stream} {phi : ℕ → ℝ}
    (hphi : ∀ n, s.w0 ≤ n → n < s.w1 → HoldsReal s.mem (bufAddr a n) (phi n)) (hw : s.w0 < s.w1)
    (hcarry : s.carryOk k = true → f64Finite s.carryPh[k] = true) {n : ℕ} (h0 : s.w0 ≤ n) (h1 : n < s.w1) :
    s.turnsAt a k n = turnsReal phi s.w0 (if s.carryOk k then f64Real s.carryPh[k] else phi s.w0)
      (if s.carryOk k then i64 s.carryTurns[k] else 0) (n - s.w0) := by
  have hprev : ∃ p : F64, s.unwrapPrev a k = .val p ∧ f64Finite p = true ∧
      f64Real p = if s.carryOk k then f64Real s.carryPh[k] else phi s.w0 := by
    unfold State.unwrapPrev
    split
    next hok => exact ⟨_, rfl, hcarry hok, rfl⟩
    next => exact operand_val_of_holds (hphi s.w0 le_rfl hw)
  obtain ⟨p, hp, hfin, hreal⟩ := hprev
  rw [State.turnsAt, hp, ← hreal]
  exact unwrapTurns_eq _ _ phi _ _ _ _ hfin (fun j hj => operand_val_of_holds (hphi _ (by omega) (by omega)))

theorem i64_turnsWord (dr : Draw) (site : ℕ) {z : ℤ} (h1 : -(2 ^ 63) ≤ z) (h2 : z < 2 ^ 63) :
    i64 (turnsWord dr site z) = z := by
  have hz : i64OfInt? z = some (BitVec.ofInt 64 z) := by
    rw [i64OfInt?, if_pos (by rw [Bool.and_eq_true, decide_eq_true_eq, decide_eq_true_eq]; exact ⟨h1, h2⟩)]
  have hword : turnsWord dr site z = countWord site (some z) := by
    rw [turnsWord, countWord, Option.bind_some, hz]
  rw [hword, i64_countWord site h1 h2]

/-! ### FDEMOD -/

theorem exec_fdemod {s : State} (hc : s.constructed = true) (hg : s.geometryOk = true) (d a : Buf) {st c : BitVec 2}
    {k : Stream} {car : Carrier} (hk : streamOf? st = some k) (hcar : carrierOf? c = some car) :
    exec (.fdemod d a st c) s = .next (effFdemod d a k car s).finish := by
  have heff : effectOf (.fdemod d a st c) s = effFdemod d a k car s := by simp only [effectOf, hk, hcar]
  rw [exec_of_passes_next (by simp [commandFails, hc, hk, hcar]) (fun _ => hg), heff]

theorem effFdemod_eq (d a : Buf) (k : Stream) (car : Carrier) (s : State) : effFdemod d a k car s =
    s.writeBuf d (windowElem s (fun n => s.lessCarrier (s.demodulated a k n) car)) := by
  rw [← inWindow_eq]
  rfl

/-- A real exact result that is computed from numbers, and which number it is. -/
def DenotesReal (e : Exact) (x : ℝ) : Prop := hasValue e = true ∧ denote e = x

theorem denotesReal_bufRe {s : State} {b : Buf} {n : ℕ} {x : ℝ} (h : HoldsReal s.mem (bufAddr b n) x) :
    DenotesReal (s.bufRe b n) x := operand_of_holds h

theorem DenotesReal.realElem {e : Exact} {x : ℝ} (h : DenotesReal e x) : Denotes (realElem e) (x : ℝ) := by
  rw [← h.2]
  exact denotes_real h.1

theorem denotesReal_frequency {s : State} (hfs : f64Finite s.cfsMhz = true) (zeros : Bool) {e1 e0 : Exact} {u1 u0 : ℝ}
    (h1 : DenotesReal e1 u1) (h0 : DenotesReal e0 u0) :
    DenotesReal (s.frequency zeros e1 e0) ((u1 - u0) * s.fsReal / (2 * Real.pi)) := by
  unfold State.frequency
  split
  next hz =>
    simp only [Bool.and_eq_true] at hz
    refine ⟨rfl, ?_⟩
    rw [← h1.2, ← h0.2, denote_of_isZero hz.1.2, denote_of_isZero hz.2]
    simp [denote]
  next =>
    refine ⟨by simp [hasValue, ratPi, hasValue_fs hfs, h1.1, h0.1], ?_⟩
    simp only [denote, denote_ratPi, denote_fs, h1.2, h0.2]
    push_cast
    ring

theorem denotesReal_demodulated {s : State} {a : Buf} {k : Stream} {u : ℕ → ℝ} (hfs : f64Finite s.cfsMhz = true)
    (hu : ∀ n, s.w0 ≤ n → n < s.w1 → HoldsReal s.mem (bufAddr a n) (u n))
    (hseed : s.seedOk k = true → f64Finite s.seedU[k] = true) {n : ℕ} (h0 : s.w0 ≤ n) (h1 : n < s.w1) :
    DenotesReal (s.demodulated a k n) (frequencyReal s u k n) := by
  have hw0 := denotesReal_bufRe (hu s.w0 le_rfl (by omega))
  unfold State.demodulated frequencyReal
  dsimp only
  split
  next hn =>
    split
    next hs => exact denotesReal_frequency hfs _ hw0 ⟨hseed hs, rfl⟩
    next =>
      split
      next h2 => exact denotesReal_frequency hfs _ (denotesReal_bufRe (hu _ (by omega) (by omega))) hw0
      next => exact ⟨rfl, by simp [denote]⟩
  next hn =>
    exact denotesReal_frequency hfs _ (denotesReal_bufRe (hu n h0 h1)) (denotesReal_bufRe (hu _ (by omega) (by omega)))

theorem denotesReal_lessCarrier {s : State} {e : Exact} {x : ℝ} {car : Carrier} (h : DenotesReal e x)
    (hl : car = .audioL → f64Finite s.sp[8] = true) (hr : car = .audioR → f64Finite s.sp[9] = true) :
    DenotesReal (s.lessCarrier e car) (x - carrierReal s car) := by
  cases car with
  | none => exact ⟨h.1, by rw [State.lessCarrier, carrierReal, h.2, sub_zero]⟩
  | audioL =>
    refine ⟨by simp [State.lessCarrier, hertz, hasValue, h.1, hl rfl], ?_⟩
    simp only [State.lessCarrier, denote, denote_hertz, h.2, carrierReal]
  | audioR =>
    refine ⟨by simp [State.lessCarrier, hertz, hasValue, h.1, hr rfl], ?_⟩
    simp only [State.lessCarrier, denote, denote_hertz, h.2, carrierReal]

/-! ### DECIM -/

/-- R170's picked samples, as the statements write them. -/
theorem decimIndex_eq (s : State) (df : ℕ) : s.decimIndex df =
    (List.range' s.w0 (s.w1 - s.w0)).filter (fun i => decide (df ∣ s.blkStart.toNat + i)) := by
  refine List.filter_congr (fun i _ => ?_)
  rw [beq_eq_decide, decide_eq_decide, Nat.dvd_iff_mod_eq_zero]

/-- R170's results: the picked samples in order, zeros after them. -/
def decimElem (s : State) (a : Buf) (df j : ℕ) : CExact :=
  cOfReal (match (s.decimIndex df)[j]? with
           | some i => s.bufRe a i
           | none => .rat 0)

theorem decimElem_eq (s : State) (a : Buf) (df : ℕ) (idx : List ℕ) (h : s.decimIndex df = idx) (j : ℕ) :
    decimElem s a df j = if h : j < idx.length then realElem (s.bufRe a idx[j]) else realElem (.rat 0) := by
  subst h
  unfold decimElem
  split
  next i hi =>
    obtain ⟨hj, rfl⟩ := List.getElem?_eq_some_iff.1 hi
    rw [dif_pos hj]
    rfl
  next hnone =>
    rw [dif_neg (not_lt.2 (List.getElem?_eq_none_iff.1 hnone))]
    rfl

theorem exec_decim {s : State} (hc : s.constructed = true) (hg : s.geometryOk = true) (d a : Buf) {df : BitVec 12}
    (h : df ≠ 0#12) : exec (.decim d a df) s = .next (effDecim d a df.toNat s).finish := by
  have hrange : factorInRange df = true := by
    have hne : df.toNat ≠ 0 := fun e => h (BitVec.eq_of_toNat_eq e)
    simp [factorInRange]
    omega
  exact exec_of_passes_next (by simp [commandFails, hc, hrange]) (fun _ => hg)

theorem decimIndex_length_le (s : State) (df : ℕ) : (s.decimIndex df).length ≤ s.w1 - s.w0 := by
  refine (List.length_filter_le _ _).trans ?_
  rw [List.length_range']

/-- The multiples of DF in a run of global indices, picked by their place in the block. -/
theorem map_filter_range' (df b w c : ℕ) :
    ((List.range' w c).filter (fun i => decide (df ∣ b + i))).map (fun i => b + i) =
      (List.range' (b + w) c).filter (fun g => decide (df ∣ g)) := by
  rw [← List.map_add_range', List.filter_map]
  rfl

end Sys2Proof.Laws

namespace Sys2Proof.Certificates

open Sys2Proof.Machine Sys2Proof.Laws

/-- Settles O35: UNWRAP's effect, register by register; the window's phases are `addTurns`. -/
theorem unwrapFrame : Obligations.UnwrapFrame := by
  intro d a st s
  refine ⟨notConstructedRaised rfl s, fun hc h => h ▸ exec_unwrap_badOperand hc d a, fun hc hg k hk => ?_⟩
  refine ⟨_, exec_unwrap hc hg d a hk, by rw [finish_eq]; rfl, ?_, ?_, ?_, fun l hl => ⟨?_, ?_, ?_, ?_, ?_⟩⟩
  · have hst := blockStored_unwrap d a k s
    simp only [addTurns_eq] at hst
    exact hst
  · exact (carryOk_unwrap d a k k s).trans (if_pos rfl)
  · exact (seedOk_unwrap d a k k s).trans (if_pos rfl)
  · exact (carryOk_unwrap d a k l s).trans (if_neg hl)
  · exact (vector_set_get _ k l _).trans (if_neg hl)
  · exact (vector_set_get _ k l _).trans (if_neg hl)
  · exact (seedOk_unwrap d a k l s).trans (if_neg hl)
  · exact (vector_set_get _ k l _).trans (if_neg hl)

/-- Settles O36: the turns counted are those over the real numbers; the rest is what `addTurns` denotes. -/
theorem unwrapFollowsPseudocode : Obligations.UnwrapFollowsPseudocode := by
  intro tol d a st k s phi ht hc hg hk hphi hcarry
  obtain ⟨hw, hwn⟩ := window_bounds hg
  have hst := (blockStored_unwrap d a k s).1
  have hturns : ∀ n, s.w0 ≤ n → n < s.w1 → s.turnsAt a k n = _ := fun n h0 h1 =>
    turnsAt_eq hphi hw hcarry h0 h1
  have hlast : s.carryPh.set k (put (.nth s.draws) (carryPhAddr k) (s.bufRe a (s.w1 - 1))) =
      (effUnwrap d a k s).finish.carryPh := rfl
  refine ⟨_, exec_unwrap hc hg d a hk, fun i hi => ?_, fun n hn hout => ?_, ?_, fun h1 h2 => ?_, fun hok => ?_, fun hok => ?_⟩
  · have hwindow := hst (s.w0 + i) (by omega)
    have hphase := operand_of_holds (hphi (s.w0 + i) (by omega) hi)
    have hd : DenotesReal (addTurns (s.zeroBlock a) (s.bufRe a (s.w0 + i)) (s.turnsAt a k (s.w0 + i))) _ :=
      ⟨hasValue_addTurns hphase.1 _ _, denote_addTurns _ _ _⟩
    rw [windowElem, if_pos ⟨by omega, hi⟩] at hwindow
    have hnear := nearComplex_of_denotes ht hwindow hd.realElem
    rw [hturns _ (by omega) hi, Nat.add_sub_cancel_left] at hnear
    rw [State.bufRe, hphase.2] at hnear
    exact hnear
  · refine words_of_stored_zero (hst n hn) ?_
    rw [windowElem, if_neg (by omega)]
    rfl
  · obtain ⟨w, hword, hfin, -⟩ := hphi (s.w1 - 1) (by omega) (by omega)
    have hop : s.bufRe a (s.w1 - 1) = .val w := by simp [State.bufRe, State.operand, hword]
    rw [hword, ← hlast, vector_set_get, if_pos rfl, hop, put_val hfin]
  · have hcount : (effUnwrap d a k s).finish.carryTurns[k] =
        turnsWord (.nth s.draws) (carryTurnsAddr k) (s.turnsAt a k (s.w1 - 1)) :=
      (vector_set_get s.carryTurns k k _).trans (if_pos rfl)
    rw [hcount, hturns _ (by omega) (by omega), i64_turnsWord _ _ h1 h2]
  · have hseed : (effUnwrap d a k s).finish.seedU[k] = put (.nth s.draws) (seedUAddr k)
        (addTurns (s.zeroBlock a) (.val s.carryPh[k]) (s.unwrapTurns0 k)) :=
      ((vector_set_get s.seedU k k _).trans (if_pos rfl)).trans (if_pos hok)
    have hphase : hasValue (.val s.carryPh[k]) = true := hcarry hok
    have hmatch := put_matches ht (hasValue_addTurns hphase (s.zeroBlock a) (s.unwrapTurns0 k)) (.nth s.draws)
      (seedUAddr k)
    rw [denote_addTurns] at hmatch
    rw [hseed, if_pos hok]
    exact hmatch
  · exact ((vector_set_get s.seedU k k _).trans (if_pos rfl)).trans (if_neg (by simp [hok]))

/-- Settles O37: FDEMOD's effect is the write of one block. -/
theorem fdemodWritesFrequency : Obligations.FdemodWritesFrequency := by
  intro d a st c s
  refine ⟨notConstructedRaised rfl s, fun hc h => exec_fdemod_badOperand hc d a h, fun hc hg hst hcar => ?_⟩
  have hstream : (streamOf? st).isNone = false := by simp [streamOf?_isNone, hst]
  have hcarrier : (carrierOf? c).isNone = false := by simp [carrierOf?_isNone, hcar]
  obtain ⟨k, hk⟩ := Option.isSome_iff_exists.1 (Option.isNone_eq_false_iff.1 hstream)
  obtain ⟨car, hcar'⟩ := Option.isSome_iff_exists.1 (Option.isNone_eq_false_iff.1 hcarrier)
  have hexec := exec_fdemod hc hg d a hk hcar'
  rw [effFdemod_eq] at hexec
  exact ⟨_, k, car, hk, hcar', hexec, finish_writeBuf_onlyMemory s d _, finish_writeBuf_blockStored s d _⟩

/-- Settles O38: the number that `demodulated` less the carrier denotes, sample by sample. -/
theorem fdemodWithinTolerance : Obligations.FdemodWithinTolerance := by
  intro tol d a st c k car s u ht hinv hc hk hcar hl hr hu hseed
  have hexec := exec_fdemod hc (hinv.geometry hc) d a (streamOf?_of_toNat hk) hcar
  rw [effFdemod_eq] at hexec
  refine ⟨_, hexec, fun n hn => nearComplex_of_denotes ht ((finish_writeBuf_blockStored s d _).1 n hn) ?_⟩
  unfold windowElem
  split
  next hw =>
    exact (denotesReal_lessCarrier (denotesReal_demodulated (hinv.rate hc).1 hu hseed hw.1 hw.2) hl hr).realElem
  next =>
    have hzero : DenotesReal (.rat 0) 0 := ⟨rfl, by simp [denote]⟩
    exact hzero.realElem

/-- Settles O40: the picked samples as a list, its length and its head. -/
theorem decimKeepsMultiples : Obligations.DecimKeepsMultiples := by
  intro d a df s
  refine ⟨notConstructedRaised rfl s, fun hc h => h ▸ exec_decim_badOperand hc d a, fun hc hg h => ?_⟩
  intro idx
  have hidx : s.decimIndex df.toNat = idx := decimIndex_eq s df.toNat
  have hlen := decimIndex_length_le s df.toNat
  have hbounds := geometry_bounds hg
  have hcount : (effDecim d a df.toNat s).finish.audCount = BitVec.ofNat 32 idx.length := by rw [← hidx]; rfl
  have hfirst : (effDecim d a df.toNat s).finish.audFirst =
      match idx.head? with
      | some i => BitVec.ofNat 64 (s.blkStart.toNat + i)
      | none => 0#64 := by rw [← hidx]; rfl
  refine ⟨_, exec_decim hc hg d a h, by rw [finish_eq]; rfl, ?_, fun i hi => ?_, fun hnil => ?_, ?_⟩
  · rw [hcount, BitVec.toNat_ofNat, Nat.mod_eq_of_lt]
    rw [hidx] at hlen
    omega
  · rw [hfirst, hi]
    exact BitVec.toNat_ofNat _ _
  · rw [hfirst, hnil]
    rfl
  · have hst : BlockStored s (effDecim d a df.toNat s).finish d (decimElem s a df.toNat) := writeBuf_blockStored s d _
    rw [funext (decimElem_eq s a df.toNat idx hidx)] at hst
    exact hst

/-- Settles O41: two runs of global indices, the second from where the first ends, are one run. -/
theorem decimStreamsConcatenate : Obligations.DecimStreamsConcatenate := by
  intro s s' df h0 h1 hw hstart
  rw [decimIndex_eq, decimIndex_eq, map_filter_range', map_filter_range', ← List.filter_append, h0, h1, hstart,
    show s.blkStart.toNat + (s.w1 - s.w0) + s.w0 = s.blkStart.toNat + s.w0 + (s.w1 - s.w0) by omega, Nat.two_mul]
  congr 1
  have := List.range'_append (s := s.blkStart.toNat + s.w0) (m := s.w1 - s.w0) (n := s.w1 - s.w0) (step := 1)
  rwa [Nat.one_mul] at this

end Sys2Proof.Certificates
end

section
/-! PROOF. The cubic spline (41_filter_synth.md R141) and F_EFM (R140): elimination solves every system with one solution, the
spline's system has one for at least four rising knots, and its pieces meet the not-a-knot conditions. -/

namespace Sys2Proof.Laws

open Sys2Proof.Machine

/-! ### Elimination -/

/-- The left side of an equation at a point; the point ends with -1 for the right side, with 0 for the equation without it. -/
def rowDot (row v : List ℚ) : ℚ := (List.zipWith (· * ·) row v).sum

theorem residual_eq (row ms : List ℚ) : residual row ms = rowDot row (ms ++ [-1]) := rfl

theorem rowDot_cons (r x : ℚ) (rs v : List ℚ) : rowDot (r :: rs) (x :: v) = r * x + rowDot rs v := by
  simp [rowDot]

theorem rowDot_append {l v : List ℚ} (h : l.length = v.length) (b e : ℚ) :
    rowDot (l ++ [b]) (v ++ [e]) = rowDot l v + b * e := by
  simp [rowDot, List.zipWith_append h]

theorem rowDot_pivot {row : List ℚ} (h : row ≠ []) (x : ℚ) (v : List ℚ) :
    rowDot row (x :: v) = nth row 0 * x + rowDot row.tail v := by
  cases row with
  | nil => exact absurd rfl h
  | cons r rs => exact rowDot_cons r x rs v

/-- A row less a multiple of another. -/
theorem rowDot_reduce {x y : List ℚ} (h : x.length = y.length) (c : ℚ) (v : List ℚ) :
    rowDot (List.zipWith (fun a b => a - c * b) x y) v = rowDot x v - c * rowDot y v := by
  induction x generalizing y v with
  | nil =>
    obtain rfl : y = [] := List.eq_nil_of_length_eq_zero h.symm
    simp [rowDot]
  | cons a x ih =>
    cases y with
    | nil => simp at h
    | cons b y =>
      cases v with
      | nil => simp [rowDot]
      | cons e v =>
        rw [List.zipWith_cons_cons, rowDot_cons, rowDot_cons, rowDot_cons, ih (by simpa using h)]
        ring

theorem pickPivot_none {rows : List (List ℚ)} (h : pickPivot rows = none) : ∀ r ∈ rows, nth r 0 = 0 := by
  induction rows with
  | nil => simp
  | cons r rs ih =>
    unfold pickPivot at h
    split at h
    next hr =>
      have hrest : pickPivot rs = none := by
        revert h
        cases pickPivot rs <;> simp
      exact List.forall_mem_cons.2 ⟨by simpa using hr, ih hrest⟩
    next => cases h

theorem pickPivot_some {rows rest : List (List ℚ)} {p : List ℚ} (h : pickPivot rows = some (p, rest)) :
    nth p 0 ≠ 0 ∧ rows.Perm (p :: rest) := by
  induction rows generalizing p rest with
  | nil => cases h
  | cons r rs ih =>
    unfold pickPivot at h
    split at h
    next =>
      cases hq : pickPivot rs with
      | none =>
        rw [hq] at h
        cases h
      | some q =>
        rw [hq] at h
        cases h
        obtain ⟨hne, hperm⟩ := ih hq
        exact ⟨hne, (hperm.cons r).trans (List.Perm.swap _ _ _)⟩
    next hr =>
      cases h
      exact ⟨by simpa using hr, List.Perm.refl _⟩

/-- A system of `n` equations of `n` unknowns, each a row with its right side, whose only solution without the right sides
is 0. -/
structure Solvable (n : ℕ) (rows : List (List ℚ)) : Prop where
  count : rows.length = n
  width : ∀ r ∈ rows, r.length = n + 1
  kernel : ∀ v : List ℚ, v.length = n → (∀ r ∈ rows, rowDot r (v ++ [0]) = 0) → ∀ x ∈ v, x = 0

theorem Solvable.perm {n : ℕ} {rows rows' : List (List ℚ)} (h : Solvable n rows) (hp : rows.Perm rows') :
    Solvable n rows' :=
  ⟨hp.length_eq ▸ h.count, fun r hr => h.width r (hp.mem_iff.2 hr),
    fun v hv hz => h.kernel v hv (fun r hr => hz r (hp.mem_iff.1 hr))⟩

/-- The rows that elimination leaves of `rest` with the pivot row `p`. -/
def reducedRows (p : List ℚ) (rest : List (List ℚ)) : List (List ℚ) :=
  rest.map (fun r => List.zipWith (fun a b => a - nth r 0 / nth p 0 * b) r.tail p.tail)

/-- The unknown of the pivot row, from the others. -/
def pivotValue (p v : List ℚ) : ℚ := -(rowDot p.tail v) / nth p 0

theorem rowDot_pivotValue {p v : List ℚ} (hp : nth p 0 ≠ 0) : rowDot p (pivotValue p v :: v) = 0 := by
  have hne : p ≠ [] := fun e => hp (by rw [e]; rfl)
  rw [rowDot_pivot hne, pivotValue]
  field_simp
  ring

/-- A row vanishes at a point of the pivot row where its reduced row does. -/
theorem rowDot_of_reduced {p r v : List ℚ} (hp : nth p 0 ≠ 0) (hr : r ≠ []) (hlen : r.length = p.length)
    (h : rowDot (List.zipWith (fun a b => a - nth r 0 / nth p 0 * b) r.tail p.tail) v = 0) :
    rowDot r (pivotValue p v :: v) = 0 := by
  rw [rowDot_reduce (by simp [hlen])] at h
  rw [rowDot_pivot hr, pivotValue, ← h]
  field_simp
  ring

theorem rowDot_of_reducedRows {n : ℕ} {p : List ℚ} {rest : List (List ℚ)} (h : Solvable (n + 1) (p :: rest))
    (hp : nth p 0 ≠ 0) {v : List ℚ} (hv : ∀ r ∈ reducedRows p rest, rowDot r v = 0) :
    ∀ r ∈ p :: rest, rowDot r (pivotValue p v :: v) = 0 := by
  obtain ⟨hpw, hrw⟩ := List.forall_mem_cons.1 h.width
  refine List.forall_mem_cons.2 ⟨rowDot_pivotValue hp, fun r hr => ?_⟩
  have hne : r ≠ [] := List.ne_nil_of_length_pos (by rw [hrw r hr]; omega)
  exact rowDot_of_reduced hp hne (by rw [hpw, hrw r hr]) (hv _ (List.mem_map.2 ⟨r, hr, rfl⟩))

theorem Solvable.reduced {n : ℕ} {p : List ℚ} {rest : List (List ℚ)} (h : Solvable (n + 1) (p :: rest))
    (hp : nth p 0 ≠ 0) : Solvable n (reducedRows p rest) := by
  obtain ⟨hpw, hrw⟩ := List.forall_mem_cons.1 h.width
  refine ⟨?_, ?_, fun v hv hz x hx => ?_⟩
  · have hcount := h.count
    rw [List.length_cons] at hcount
    rw [reducedRows, List.length_map]
    omega
  · intro r' hr'
    obtain ⟨r, hr, rfl⟩ := List.mem_map.1 hr'
    have := hrw r hr
    simp only [List.length_zipWith, List.length_tail]
    omega
  · have hall := rowDot_of_reducedRows h hp hz
    exact h.kernel (pivotValue p (v ++ [0]) :: v) (by simp [hv]) hall x (List.mem_cons_of_mem _ hx)

/-- A system with one solution has a row to pivot on: the first unit vector is no solution of the equations without their
right sides. -/
theorem Solvable.pivot {n : ℕ} {rows : List (List ℚ)} (h : Solvable (n + 1) rows) :
    ∃ p rest, pickPivot rows = some (p, rest) := by
  cases hp : pickPivot rows with
  | some q => exact ⟨q.1, q.2, rfl⟩
  | none =>
    have hz : ∀ r ∈ rows, rowDot r ((1 :: List.replicate n 0) ++ [0]) = 0 := fun r hr => by
      have hne : r ≠ [] := List.ne_nil_of_length_pos (by rw [h.width r hr]; omega)
      have hzero : ∀ (l : List ℚ) (k : ℕ), rowDot l (List.replicate k 0) = 0 := fun l k => by
        induction l generalizing k with
        | nil => simp [rowDot]
        | cons a l ih =>
          cases k with
          | zero => simp [rowDot]
          | succ k => rw [List.replicate_succ, rowDot_cons, ih k, mul_zero, add_zero]
      rw [List.cons_append, rowDot_pivot hne, pickPivot_none hp r hr, zero_mul, zero_add,
        show List.replicate n (0 : ℚ) ++ [0] = List.replicate (n + 1) 0 from List.replicate_succ'.symm, hzero]
    exact absurd (h.kernel _ (by simp) hz 1 List.mem_cons_self) one_ne_zero

/-- `solve` finds the solution. -/
theorem solve_of_solvable {n : ℕ} {rows : List (List ℚ)} (h : Solvable n rows) :
    ∃ ms, solve n rows = some ms ∧ ms.length = n ∧ ∀ r ∈ rows, residual r ms = 0 := by
  induction n generalizing rows with
  | zero =>
    obtain rfl : rows = [] := List.eq_nil_of_length_eq_zero h.count
    exact ⟨[], rfl, rfl, by simp⟩
  | succ n ih =>
    obtain ⟨p, rest, hpick⟩ := h.pivot
    obtain ⟨hp, hperm⟩ := pickPivot_some hpick
    have h' := h.perm hperm
    obtain ⟨ms, hsolve, hlen, hres⟩ := ih (h'.reduced hp)
    have hsol : solve (n + 1) rows = some (pivotValue p (ms ++ [-1]) :: ms) := by
      unfold reducedRows at hsolve
      simp only [solve, hpick, hsolve]
      rfl
    exact ⟨_, hsol, by simp [hlen], fun r hr => rowDot_of_reducedRows h' hp hres r (hperm.mem_iff.1 hr)⟩

/-! ### The spline's equations have one solution -/

/-- The left sides of the equations of K = L + 4 second derivatives `m`. -/
theorem splineSum_first (xs : List ℚ) (L : ℕ) (m : ℕ → ℚ) :
    ∑ j ∈ Finset.range (L + 4), splineCoeff xs (L + 4) 0 j * m j =
      -knotGap xs 1 * m 0 + (knotGap xs 0 + knotGap xs 1) * m 1 + -knotGap xs 0 * m 2 := by
  rw [sum_three _ 0 1 2 _ (by omega) (by omega) (by omega) (by omega) (by omega) (by omega)]
  · simp [splineCoeff]
  · intro j hj h0 h1 h2
    simp [splineCoeff, h0, h1, h2]

theorem splineSum_last (xs : List ℚ) (L : ℕ) (m : ℕ → ℚ) :
    ∑ j ∈ Finset.range (L + 4), splineCoeff xs (L + 4) (L + 3) j * m j =
      -knotGap xs (L + 2) * m (L + 1) + (knotGap xs (L + 1) + knotGap xs (L + 2)) * m (L + 2)
        + -knotGap xs (L + 1) * m (L + 3) := by
  rw [sum_three _ (L + 1) (L + 2) (L + 3) _ (by omega) (by omega) (by omega) (by omega) (by omega) (by omega)]
  · simp [splineCoeff]
  · intro j hj h0 h1 h2
    simp [splineCoeff, h0, h1, h2]

theorem splineSum_inner (xs : List ℚ) {L i : ℕ} (hi : i < L + 2) (m : ℕ → ℚ) :
    ∑ j ∈ Finset.range (L + 4), splineCoeff xs (L + 4) (i + 1) j * m j =
      knotGap xs i * m i + 2 * (knotGap xs i + knotGap xs (i + 1)) * m (i + 1) + knotGap xs (i + 1) * m (i + 2) := by
  rw [sum_three _ i (i + 1) (i + 2) _ (by omega) (by omega) (by omega) (by omega) (by omega) (by omega)]
  · simp [splineCoeff, show i ≠ L + 2 by omega]
  · intro j hj h0 h1 h2
    simp [splineCoeff, show i ≠ L + 2 by omega, h0, h1, h2]

/-- One equation at a point of greatest magnitude M: its middle coefficient outweighs the others, so M is 0. -/
theorem eq_zero_of_dominant {a b c x y z M : ℚ} (hsum : a * x + b * y + c * z = 0) (hdom : |a| + |c| < b) (hM : |y| = M)
    (hx : |x| ≤ M) (hz : |z| ≤ M) : M = 0 := by
  have hM0 : 0 ≤ M := hM ▸ abs_nonneg y
  have hb : 0 < b := lt_of_le_of_lt (by positivity) hdom
  have hy : b * y = -(a * x) + -(c * z) := by linarith
  have hle : b * M ≤ |a| * M + |c| * M := by
    calc b * M = |b * y| := by rw [abs_mul, abs_of_pos hb, hM]
      _ ≤ |a| * |x| + |c| * |z| := by
        rw [hy, ← abs_mul, ← abs_mul, ← abs_neg (a * x), ← abs_neg (c * z)]
        exact abs_add_le _ _
      _ ≤ |a| * M + |c| * M :=
        add_le_add (mul_le_mul_of_nonneg_left hx (abs_nonneg a)) (mul_le_mul_of_nonneg_left hz (abs_nonneg c))
  by_contra hne
  have hpos : 0 < M := lt_of_le_of_ne hM0 (Ne.symm hne)
  have := mul_lt_mul_of_pos_right hdom hpos
  linarith

/-- The end equation with the one next to it, the outermost unknown eliminated. -/
theorem end_eliminated {g h p q r : ℚ} (hg : 0 < g) (hh : 0 < h) (hend : -h * p + (g + h) * q + -g * r = 0)
    (hinner : g * p + 2 * (g + h) * q + h * r = 0) : (g + 2 * h) * q + (h - g) * r = 0 := by
  have hprod : (g + h) * ((g + 2 * h) * q + (h - g) * r) = 0 := by linear_combination g * hend + h * hinner
  exact (mul_eq_zero.1 hprod).resolve_left (by positivity)

theorem abs_sub_lt_of_pos {g h : ℚ} (hg : 0 < g) (hh : 0 < h) : |h - g| < g + 2 * h :=
  abs_lt.2 ⟨by linarith, by linarith⟩

/-- Without their right sides the equations of at least four rising knots have the solution 0 alone. -/
theorem spline_kernel {g m : ℕ → ℚ} {L : ℕ} (hg : ∀ i, i < L + 3 → 0 < g i)
    (hfirst : -g 1 * m 0 + (g 0 + g 1) * m 1 + -g 0 * m 2 = 0)
    (hinner : ∀ i, i < L + 2 → g i * m i + 2 * (g i + g (i + 1)) * m (i + 1) + g (i + 1) * m (i + 2) = 0)
    (hlast : -g (L + 2) * m (L + 1) + (g (L + 1) + g (L + 2)) * m (L + 2) + -g (L + 1) * m (L + 3) = 0) :
    ∀ i, i < L + 4 → m i = 0 := by
  have h0 := hg 0 (by omega)
  have h1 := hg 1 (by omega)
  have hp := hg (L + 1) (by omega)
  have hq := hg (L + 2) (by omega)
  have hlow := end_eliminated h0 h1 hfirst (hinner 0 (by omega))
  have hhigh : (g (L + 2) + 2 * g (L + 1)) * m (L + 2) + (g (L + 1) - g (L + 2)) * m (L + 1) = 0 :=
    end_eliminated (p := m (L + 3)) (r := m (L + 1)) hq hp (by linear_combination hlast) (by linear_combination hinner (L + 1) (by omega))
  obtain ⟨i, hi, hmax⟩ := Finset.exists_max_image (Finset.Icc 1 (L + 2)) (fun i => |m i|) ⟨1, by simp⟩
  have hle : ∀ j, 1 ≤ j → j ≤ L + 2 → |m j| ≤ |m i| := fun j hj hj' => hmax j (Finset.mem_Icc.2 ⟨hj, hj'⟩)
  obtain ⟨hi1, hi2⟩ := Finset.mem_Icc.1 hi
  have hM : |m i| = 0 := by
    rcases Nat.eq_or_lt_of_le hi1 with rfl | hi1'
    · exact eq_zero_of_dominant (a := 0) (x := 0) (b := g 0 + 2 * g 1) (c := g 1 - g 0) (z := m 2)
        (by linear_combination hlow) (by simpa using abs_sub_lt_of_pos h0 h1) rfl (by simp) (hle 2 (by omega) (by omega))
    rcases Nat.eq_or_lt_of_le hi2 with rfl | hi2'
    · exact eq_zero_of_dominant (a := 0) (x := 0) (b := g (L + 2) + 2 * g (L + 1)) (c := g (L + 1) - g (L + 2))
        (z := m (L + 1)) (by linear_combination hhigh) (by simpa using abs_sub_lt_of_pos hq hp) rfl (by simp)
        (hle (L + 1) (by omega) (by omega))
    · obtain ⟨k, rfl⟩ : ∃ k, i = k + 1 := ⟨i - 1, by omega⟩
      have ha := hg k (by omega)
      have hb := hg (k + 1) (by omega)
      refine eq_zero_of_dominant (hinner k (by omega)) ?_ rfl (hle k (by omega) (by omega))
        (hle (k + 2) (by omega) (by omega))
      rw [abs_of_pos ha, abs_of_pos hb]
      linarith
  have hmid : ∀ j, 1 ≤ j → j ≤ L + 2 → m j = 0 := fun j hj hj' =>
    abs_nonpos_iff.1 ((hle j hj hj').trans_eq hM)
  intro j hj
  rcases Nat.eq_zero_or_pos j with rfl | hj1
  · rw [hmid 1 (by omega) (by omega), hmid 2 (by omega) (by omega)] at hfirst
    exact (mul_eq_zero.1 (by linarith : g 1 * m 0 = 0)).resolve_left h1.ne'
  rcases Nat.eq_or_lt_of_le (Nat.lt_succ_iff.1 hj) with rfl | hj2
  · rw [hmid (L + 1) (by omega) (by omega), hmid (L + 2) (by omega) (by omega)] at hlast
    exact (mul_eq_zero.1 (by linarith : g (L + 1) * m (L + 3) = 0)).resolve_left hp.ne'
  · exact hmid j hj1 (by omega)

theorem rowDot_coeffs (xs ys v : List ℚ) {K : ℕ} (hv : v.length = K) (i : ℕ) (e : ℚ) :
    rowDot ((List.range K).map (splineCoeff xs K i) ++ [splineRhs xs ys K i]) (v ++ [e]) =
      ∑ j ∈ Finset.range K, splineCoeff xs K i j * nth v j + splineRhs xs ys K i * e := by
  have hres := residual_splineRow xs ys v K i hv
  rw [residual_eq, rowDot_append (by simp [hv])] at hres
  rw [rowDot_append (by simp [hv])]
  linarith

theorem splineRows_solvable {xs ys : List ℚ} (hK : 4 ≤ xs.length) (hp : xs.Pairwise (· < ·)) :
    Solvable xs.length (splineRows xs ys xs.length) := by
  refine ⟨by simp [splineRows], ?_, fun v hv hz => ?_⟩
  · intro r hr
    obtain ⟨i, -, rfl⟩ := List.mem_map.1 hr
    simp
  · have hsum : ∀ i, i < xs.length → ∑ j ∈ Finset.range xs.length, splineCoeff xs xs.length i j * nth v j = 0 :=
      fun i hi => by
        have hrow := hz _ (List.mem_map.2 ⟨i, List.mem_range.2 hi, rfl⟩)
        rwa [rowDot_coeffs xs ys v hv, mul_zero, add_zero] at hrow
    obtain ⟨L, hL⟩ : ∃ L, xs.length = L + 4 := ⟨xs.length - 4, by omega⟩
    rw [hL] at hsum
    have hzero := spline_kernel (g := knotGap xs) (m := nth v) (L := L) (fun i hi => knotGap_pos hp (by omega))
      (by rw [← splineSum_first, hsum 0 (by omega)]) (fun i hi => by rw [← splineSum_inner xs hi, hsum _ (by omega)])
      (by rw [← splineSum_last, hsum _ (by omega)])
    intro x hx
    obtain ⟨i, hi, rfl⟩ := List.getElem_of_mem hx
    rw [← nth_getElem hi]
    exact hzero i (by omega)

/-- `spline?` answers for at least four rising knots with as many values. -/
theorem spline?_isSome {xs ys : List ℚ} (hK : 4 ≤ xs.length) (hl : ys.length = xs.length) (hp : xs.Pairwise (· < ·)) :
    ∃ c, spline? xs ys = some c := by
  obtain ⟨ms, hsolve, hlen, hres⟩ := solve_of_solvable (splineRows_solvable (ys := ys) hK hp)
  have hall : (splineRows xs ys xs.length).all (fun r => residual r ms == 0) = true :=
    List.all_eq_true.2 (fun r hr => by rw [hres r hr]; rfl)
  refine ⟨⟨xs, ys, ms⟩, ?_⟩
  unfold spline?
  simp only [hK, hl, hp, hsolve, hlen, hall, decide_true, Bool.and_self, if_true, beq_self_eq_true]

/-! ### The spline at its knots -/

/-- The piece after a knot gives the values up to the next one. -/
theorem eval_of_piece {xs ys : List ℚ} {c : Curve} (h : spline? xs ys = some c) {i : ℕ} (hi : i + 1 < xs.length) {z : ℚ}
    (h1 : i = 0 ∨ nth xs i ≤ z) (h2 : i + 2 = xs.length ∨ z < nth xs (i + 1)) : c.eval z = c.cubic i z := by
  obtain ⟨hxs, -, -, -, hp, -⟩ := spline_facts h
  rw [Curve.eval, piece_eq (by rwa [hxs]) (by rwa [hxs]) (by rwa [hxs]) (by rwa [hxs])]

theorem cubic_ends {xs ys : List ℚ} {c : Curve} (h : spline? xs ys = some c) {i : ℕ} (hi : i + 1 < xs.length) :
    c.cubic i (nth xs i) = nth ys i ∧ c.cubic i (nth xs (i + 1)) = nth ys (i + 1) := by
  obtain ⟨hxs, hys, -, -, hp, -⟩ := spline_facts h
  have hgap : knotGap c.xs i ≠ 0 := by
    rw [hxs]
    exact (knotGap_pos hp hi).ne'
  have hleft := cubic_left c i hgap
  have hright := cubic_right c i hgap
  rw [hxs, hys] at hleft hright
  exact ⟨hleft, hright⟩

/-- The spline passes through its points. -/
theorem eval_knot {xs ys : List ℚ} {c : Curve} (h : spline? xs ys = some c) {i : ℕ} (hi : i < xs.length) :
    c.eval (nth xs i) = nth ys i := by
  obtain ⟨-, -, hK, -, hp, -⟩ := spline_facts h
  by_cases hlast : i + 1 < xs.length
  · rw [eval_of_piece h hlast (.inr le_rfl) (.inr (nth_lt hp (by omega) hlast)), (cubic_ends h hlast).1]
  · obtain ⟨k, rfl⟩ : ∃ k, i = k + 1 := ⟨i - 1, by omega⟩
    rw [eval_of_piece h hi (.inr (nth_le_of_le hp (by omega) hi)) (.inl (by omega)), (cubic_ends h hi).2]

/-- The first and second derivatives of two neighbouring pieces agree at their knot. -/
theorem cubicPoly_smooth {xs ys : List ℚ} {c : Curve} (h : spline? xs ys = some c) {i : ℕ} (hi : i + 2 < xs.length) :
    (cubicPoly c i).derivative.eval (nth xs (i + 1)) = (cubicPoly c (i + 1)).derivative.eval (nth xs (i + 1)) ∧
      (cubicPoly c i).derivative.derivative.eval (nth xs (i + 1)) =
        (cubicPoly c (i + 1)).derivative.derivative.eval (nth xs (i + 1)) := by
  obtain ⟨hxs, hys, -, -, hp, -⟩ := spline_facts h
  have hg0 := (knotGap_pos hp (show i + 1 < xs.length by omega)).ne'
  have hg1 := (knotGap_pos hp (show i + 1 + 1 < xs.length by omega)).ne'
  have heq := spline_inner h hi
  rw [cubicPoly_derivative, cubicPoly_derivative, cubicPoly_derivative2, cubicPoly_derivative2, hxs, hys,
    nth_succ xs (i + 1), nth_succ xs i]
  refine ⟨?_, ?_⟩
  · field_simp at heq ⊢
    linear_combination heq
  · field_simp
    ring

theorem cubicPoly_notAKnot {c : Curve} {i : ℕ} {x0 x1 x2 z : ℚ} (hg0 : knotGap c.xs i ≠ 0) (hg1 : knotGap c.xs (i + 1) ≠ 0)
    (hx : nth c.ms i = x0 ∧ nth c.ms (i + 1) = x1 ∧ nth c.ms (i + 2) = x2)
    (h : -knotGap c.xs (i + 1) * x0 + (knotGap c.xs i + knotGap c.xs (i + 1)) * x1 + -knotGap c.xs i * x2 = 0) :
    (cubicPoly c i).derivative.derivative.derivative.eval z =
      (cubicPoly c (i + 1)).derivative.derivative.derivative.eval z := by
  obtain ⟨rfl, rfl, rfl⟩ := hx
  rw [cubicPoly_derivative3, cubicPoly_derivative3]
  field_simp
  linear_combination h

/-! ### F_EFM -/

/-- The control points' frequencies. -/
def efmKnots (r : Rom) : List ℚ := r.efmPoints.map (fun p => f64Rat p.freq)

theorem efmCurves?_facts {r : Rom} {sa sp : Curve} (h : efmCurves? r = some (sa, sp)) :
    f64Finite r.efmPhaseFactor = true ∧
    (∀ p ∈ r.efmPoints, f64Finite p.freq = true ∧ f64Finite p.amp = true ∧ f64Finite p.phase = true) ∧
    spline? (efmKnots r) (r.efmPoints.map (fun p => f64Rat p.amp)) = some sa ∧
    spline? (efmKnots r) (r.efmPoints.map (fun p => f64Rat r.efmPhaseFactor * f64Rat p.phase)) = some sp := by
  unfold efmCurves? at h
  split at h
  next hfin =>
    simp only [Bool.and_eq_true, List.all_eq_true, and_assoc] at hfin
    dsimp only at h
    split at h
    next hsa hsp =>
      cases h
      exact ⟨hfin.1, hfin.2, hsa, hsp⟩
    next => cases h
  next => cases h

theorem nth_map {l : List EfmPoint} (f : EfmPoint → ℚ) {i : ℕ} (h : i < l.length) : nth (l.map f) i = f l[i] := by
  rw [nth_getElem (by simpa using h), List.getElem_map]

theorem efmLast_eq (r : Rom) (h : 0 < r.efmPoints.length) : efmLast r = nth (efmKnots r) (r.efmPoints.length - 1) := by
  have hlast : r.efmPoints.getLast? = some r.efmPoints[r.efmPoints.length - 1] := by
    rw [List.getLast?_eq_getElem?, List.getElem?_eq_getElem]
  rw [efmLast, hlast, efmKnots, nth_map _ (by omega)]

/-- A control point lies at or below the last one. -/
theorem le_efmLast {r : Rom} (hp : (efmKnots r).Pairwise (· < ·)) {p : EfmPoint} (h : p ∈ r.efmPoints) :
    f64Rat p.freq ≤ efmLast r := by
  obtain ⟨i, hi, rfl⟩ := List.getElem_of_mem h
  rw [efmLast_eq r (by omega), ← nth_map (fun p => f64Rat p.freq) hi]
  exact nth_le_of_le hp (by omega) (by simp [efmKnots]; omega)

theorem binEfm_eq_scale {s : State} {sa sp : Curve} {k : ℕ} (h : fbin s.n s.fsRat k ≤ efmLast s.rom) :
    s.binEfm (some (sa, sp)) k = cScale (.mul (.rat (sa.eval (fbin s.n s.fsRat k))) (.val s.rom.efmScale))
      ⟨.cos (.rat (sp.eval (fbin s.n s.fsRat k))), .neg (.sin (.rat (sp.eval (fbin s.n s.fsRat k))))⟩ := if_pos h

theorem cDenote_cos_neg_sin (q : ℚ) :
    cDenote ⟨.cos (.rat q), .neg (.sin (.rat q))⟩ = Real.cos (q : ℝ) - Complex.I * Real.sin (q : ℝ) :=
  have parts : ∀ a b : ℝ, (⟨a, -b⟩ : ℂ) = a - Complex.I * b := fun a b => by apply Complex.ext <;> simp
  parts _ _

theorem cDenote_binEfm (s : State) (sa sp : Curve) (k : ℕ) :
    cDenote (s.binEfm (some (sa, sp)) k) = efmResponse s sa sp k := by
  unfold efmResponse
  dsimp only
  split
  next h =>
    rw [binEfm_eq_scale h, cDenote_scale, cDenote_cos_neg_sin]
    simp only [denote]
    push_cast
    rfl
  next h =>
    rw [binEfm_above (not_le.1 h), cDenote_zero]

theorem hasNumbers_binEfm {s : State} (h : f64Finite s.rom.efmScale = true) (sa sp : Curve) (k : ℕ) :
    HasNumbers (s.binEfm (some (sa, sp)) k) := by
  by_cases hk : fbin s.n s.fsRat k ≤ efmLast s.rom
  · rw [binEfm_eq_scale hk]
    simp [HasNumbers, cScale, hasValue, h]
  · rw [binEfm_above (not_le.1 hk)]
    exact hasNumbers_zero

theorem norm_cos_sub_sin (x theta : ℝ) :
    ‖(x : ℂ) * (Real.cos theta - Complex.I * Real.sin theta)‖ = |x| := by
  have hexp : (Real.cos theta - Complex.I * Real.sin theta : ℂ) = Complex.exp ((-theta : ℝ) * Complex.I) := by
    rw [Complex.exp_mul_I, ← Complex.ofReal_cos, ← Complex.ofReal_sin, Real.cos_neg, Real.sin_neg]
    push_cast
    ring
  rw [norm_mul, hexp, Complex.norm_exp_ofReal_mul_I, mul_one, Complex.norm_real, Real.norm_eq_abs]

/-- A bin on a control point. -/
theorem efmResponse_knot {s : State} {sa sp : Curve} {k : ℕ} (h : efmCurves? s.rom = some (sa, sp)) {p : EfmPoint}
    (hp : p ∈ s.rom.efmPoints) (hk : f64Rat p.freq = fbin s.n s.fsRat k) : efmResponse s sa sp k =
      f64Real p.amp * f64Real s.rom.efmScale * (Real.cos (f64Real s.rom.efmPhaseFactor * f64Real p.phase)
        - Complex.I * Real.sin (f64Real s.rom.efmPhaseFactor * f64Real p.phase)) := by
  obtain ⟨hfac, hfin, hsa, hsp⟩ := efmCurves?_facts h
  obtain ⟨-, -, -, -, hrise, -⟩ := spline_facts hsa
  obtain ⟨-, hamp, hphase⟩ := hfin p hp
  have hle : fbin s.n s.fsRat k ≤ efmLast s.rom := hk ▸ le_efmLast hrise hp
  obtain ⟨i, hi, rfl⟩ := List.getElem_of_mem hp
  have hlen : i < (efmKnots s.rom).length := by simpa [efmKnots] using hi
  have hknot : nth (efmKnots s.rom) i = fbin s.n s.fsRat k := by rw [efmKnots, nth_map _ hi, hk]
  have hav := eval_knot hsa hlen
  have hpv := eval_knot hsp hlen
  rw [hknot, nth_map _ hi] at hav hpv
  unfold efmResponse
  dsimp only
  rw [if_pos hle, hav, hpv, f64Real_eq_rat hamp, f64Real_eq_rat hphase, f64Real_eq_rat hfac]
  push_cast
  rfl

end Sys2Proof.Laws

namespace Sys2Proof.Certificates

open Sys2Proof.Machine Sys2Proof.Laws

/-- Settles O28: elimination finds the second derivatives; the pieces are `cubicPoly`. -/
theorem splineIsNotAKnot : Obligations.SplineIsNotAKnot := by
  refine ⟨fun xs ys hK hl hp => spline?_isSome hK hl hp, fun xs ys c h => ?_⟩
  intro K x
  obtain ⟨hxs, -, hK, hlen, hp, -⟩ := spline_facts h
  refine ⟨cubicPoly c, fun i hi => ?_, fun i z hi h0 h1 => ?_, fun z hz => ?_, ?_, fun i hi => cubicPoly_smooth h hi, ?_, ?_⟩
  · rw [cubicPoly_eval, cubicPoly_eval]
    exact ⟨cubicPoly_natDegree c i, (cubic_ends h hi).1, (cubic_ends h hi).2⟩
  · rw [cubicPoly_eval, eval_of_piece h hi (.inr h0) (.inr h1)]
  · rw [cubicPoly_eval, eval_of_piece h (by omega) (.inl rfl) (.inr (lt_trans hz (nth_lt hp (by omega) (by omega))))]
  · exact eval_knot h (by omega)
  · have hfirst := spline_first h
    rw [← hxs] at hfirst
    exact cubicPoly_notAKnot (by rw [hxs]; exact (knotGap_pos hp (by omega)).ne')
      (by rw [hxs]; exact (knotGap_pos hp (by omega)).ne') ⟨rfl, rfl, rfl⟩ hfirst
  · obtain ⟨L, hL⟩ : ∃ L, xs.length = L + 3 := ⟨xs.length - 3, by omega⟩
    have hlast := spline_last h hL
    rw [← hxs] at hlast
    have h3 : K - 3 = L := by omega
    have h2 : K - 2 = L + 1 := by omega
    rw [h3, h2]
    exact cubicPoly_notAKnot (by rw [hxs]; exact (knotGap_pos hp (by omega)).ne')
      (by rw [hxs]; exact (knotGap_pos hp (by omega)).ne') ⟨rfl, rfl, rfl⟩ hlast

/-- Settles O27: the bins from the two splines; a ROM of R46 has both by `spline?_isSome`. -/
theorem efmEqualizer : Obligations.EfmEqualizer := by
  refine ⟨fun s sa sp k h => ⟨?_, fun hscale => ?_, fun p hp hk => ?_⟩, fun r hfac hfin hrise => ?_⟩
  · rw [h, cDenote_binEfm]
  · rw [h]
    exact hasNumbers_binEfm hscale sa sp k
  · intro theta
    have hbin := efmResponse_knot h hp hk
    rw [h, cDenote_binEfm, hbin]
    refine ⟨rfl, ?_⟩
    have hnorm := norm_cos_sub_sin (f64Real p.amp * f64Real s.rom.efmScale) theta
    rw [Complex.ofReal_mul] at hnorm
    exact hnorm
  · have hlen : 4 ≤ (efmKnots r).length := by
      rw [efmKnots, List.length_map, efmPoints_length]
      exact (efmCount_bounds r).1
    obtain ⟨sa, hsa⟩ := spline?_isSome (ys := r.efmPoints.map (fun p => f64Rat p.amp)) hlen (by simp [efmKnots]) hrise
    obtain ⟨sp, hsp⟩ := spline?_isSome (ys := r.efmPoints.map (fun p => f64Rat r.efmPhaseFactor * f64Rat p.phase)) hlen
      (by simp [efmKnots]) hrise
    have hall : (f64Finite r.efmPhaseFactor &&
        r.efmPoints.all (fun p => f64Finite p.freq && f64Finite p.amp && f64Finite p.phase)) = true := by
      simp only [Bool.and_eq_true, List.all_eq_true, and_assoc]
      exact ⟨hfac, hfin⟩
    refine ⟨sa, sp, ?_⟩
    unfold efmKnots at hsa hsp
    unfold efmCurves?
    simp only [hall, if_true, hsa, hsp]

end Sys2Proof.Certificates
end

section
/-! PROOF. FINAUD (43_block_audio.md R210 to R213): its checks, the words it writes, and that they are within the tolerance of
every fourth filtered sample times the gain. -/

namespace Sys2Proof.Laws

open Sys2Proof.Machine

/-! ### The checks -/

theorem exec_finaud_frameLength {s : State} (hc : s.constructed = true) (h : 524288 < s.afLen.toNat) :
    exec .finaud s = .next (errorState s 4#8 9#8 s.afLen) := by
  have hlen : ¬ s.frameLen ≤ Config.maxFrame := not_le.2 h
  rw [exec, execFinaud, ifConstructed_true hc, if_neg hlen, errorOutcome_eq]
  rfl

theorem exec_finaud_notNumber {s : State} (hc : s.constructed = true) (h : s.afLen.toNat ≤ 524288)
    (hnan : f64Finite s.mtfLevel = false ∨ f64Finite (audioGain s.params s.mtfLevel) = false) :
    exec .finaud s = .next (errorState s 4#8 2#8 0x110#32) := by
  have hlen : s.frameLen ≤ Config.maxFrame := h
  have hval : ¬ (f64Finite s.mtfLevel && f64Finite (audioGain s.params s.mtfLevel)) = true := by
    rcases hnan with h | h <;> simp [h]
  rw [exec, execFinaud, ifConstructed_true hc, if_pos hlen, if_neg hval, errorOutcome_eq]
  rfl

theorem exec_finaud {s : State} (hc : s.constructed = true) (h : s.afLen.toNat ≤ 524288)
    (hl : f64Finite s.mtfLevel = true) (hgain : f64Finite (audioGain s.params s.mtfLevel) = true) :
    exec .finaud s = .next (effFinaud s).finish := by
  have hlen : s.frameLen ≤ Config.maxFrame := h
  rw [exec, execFinaud, ifConstructed_true hc, if_pos hlen, if_pos (by rw [hl, hgain]; rfl), State.complete]

/-! ### The words -/

theorem frameOutLen_eq (s : State) : s.frameOutLen = (s.afLen.toNat + 3) / 4 := rfl

theorem frameWords_length (s : State) (xin xout : ℕ) : (s.frameWords xin xout).length = 131072 := by
  rw [State.frameWords, List.length_map, List.length_range, map_bases.2.2.2.2]

theorem frameWords_getElem? (s : State) (xin xout : ℕ) {j : ℕ} (h : j < 131072) : (s.frameWords xin xout)[j]? =
    some (if j < s.frameOutLen then put (.nth s.draws) (xout + 8 * j) (s.frameSample xin s.frameLen j) else 0#64) := by
  have hj : j < Config.outFrame := by rwa [map_bases.2.2.2.2]
  rw [State.frameWords, List.getElem?_map, List.getElem?_range hj, Option.map_some]

theorem mem_effFinaud (s : State) : (effFinaud s).mem =
    Memory.store (Memory.store s.mem afOutL (wordsBytes (s.frameWords afInL afOutL))) afOutR
      (wordsBytes (s.frameWords afInR afOutR)) := rfl

/-- The words of the two output frames. -/
theorem word?_effFinaud (s : State) {j : ℕ} (h : j < 131072) :
    Memory.word? (effFinaud s).mem (0x03800000 + 8 * j) = (s.frameWords 0x03000000 0x03800000)[j]? ∧
      Memory.word? (effFinaud s).mem (0x03C00000 + 8 * j) = (s.frameWords 0x03400000 0x03C00000)[j]? := by
  have hright : afInR = 0x03400000 := rfl
  obtain ⟨hinL, houtL, houtR, -, -⟩ := map_bases
  rw [mem_effFinaud, hinL, houtL, houtR, hright, frameWords_getElem? s _ _ h, frameWords_getElem? s _ _ h]
  constructor
  · rw [word?_store_outside _ _ _ _ (by omega)]
    exact word?_store_inside _ _ _ _ _ (frameWords_getElem? s _ _ h)
  · exact word?_store_inside _ _ _ _ _ (frameWords_getElem? s _ _ h)

theorem byte?_effFinaud (s : State) {addr : ℕ} (hl : ¬ (0x03800000 ≤ addr ∧ addr < 0x03900000))
    (hr : ¬ (0x03C00000 ≤ addr ∧ addr < 0x03D00000)) : Memory.byte? (effFinaud s).mem addr = Memory.byte? s.mem addr := by
  obtain ⟨-, houtL, houtR, -, -⟩ := map_bases
  rw [mem_effFinaud, houtL, houtR, byte?_store_outside, byte?_store_outside]
  · rw [wordsBytes_length, frameWords_length]
    omega
  · rw [wordsBytes_length, frameWords_length]
    omega

/-- A sample's word, and the zeros past the samples. -/
theorem stored_frame {s : State} {j : ℕ} (h : j < 131072) : (4 * j < s.afLen.toNat →
      Stored (.nth s.draws) (effFinaud s).mem (0x03800000 + 8 * j) (s.frameSample 0x03000000 s.afLen.toNat j) ∧
      Stored (.nth s.draws) (effFinaud s).mem (0x03C00000 + 8 * j) (s.frameSample 0x03400000 s.afLen.toNat j)) ∧
    (s.afLen.toNat ≤ 4 * j → Memory.word? (effFinaud s).mem (0x03800000 + 8 * j) = some 0#64 ∧
      Memory.word? (effFinaud s).mem (0x03C00000 + 8 * j) = some 0#64) := by
  obtain ⟨hleft, hright⟩ := word?_effFinaud s h
  rw [frameWords_getElem? s _ _ h] at hleft hright
  have hout := frameOutLen_eq s
  constructor
  · intro hj
    have hlt : j < s.frameOutLen := by omega
    rw [if_pos hlt] at hleft hright
    exact ⟨hleft, hright⟩
  · intro hj
    have hge : ¬ j < s.frameOutLen := by omega
    rw [if_neg hge] at hleft hright
    exact ⟨hleft, hright⟩

/-! ### The samples over the real numbers -/

theorem denote_fsigM (s : State) (M k : ℕ) : denote (s.fsigM M k) = fsigReal M (s.fsReal / 32) k := by
  have hd : ((Config.d1 : ℕ) : ℚ) = 32 := rfl
  unfold State.fsigM fsigReal fsig
  simp only [denote, denote_fs, hd]
  split
  · push_cast
    ring
  · push_cast
    ring

theorem denote_seconds (x : F64) : denote (seconds x) = f64Real x / 1000000 := by
  simp only [seconds, denote, Rat.mkRat_eq_div]
  push_cast
  ring

/-- 1 + j*omega*tau, numerator and denominator of R212. -/
theorem denotes_deemphasisTerm {s : State} (hfs : f64Finite s.cfsMhz = true) (M k : ℕ) {x : F64} (hx : f64Finite x = true) :
    Denotes ⟨.rat 1, .mul (.mul (ratPi 2) (s.fsigM M k)) (seconds x)⟩
      (1 + Complex.I * (2 * Real.pi * fsigReal M (s.fsReal / 32) k * (f64Real x / 1000000))) := by
  refine ⟨⟨rfl, by simp [hasValue, ratPi, State.fsigM, hasValue_fs hfs, seconds, hx]⟩, ?_⟩
  have him : denote (.mul (.mul (ratPi 2) (s.fsigM M k)) (seconds x)) =
      2 * Real.pi * fsigReal M (s.fsReal / 32) k * (f64Real x / 1000000) := by
    simp only [denote, denote_ratPi, denote_fsigM, denote_seconds]
    push_cast
    ring
  have parts : ∀ b : ℝ, (⟨1, b⟩ : ℂ) = 1 + Complex.I * b := fun b => by apply Complex.ext <;> simp
  have hone : denote (.rat 1) = 1 := by simp [denote]
  rw [cDenote, him, hone, parts]
  push_cast
  rfl

theorem denotes_deemphasis {s : State} (hfs : f64Finite s.cfsMhz = true) (h2 : f64Finite s.dp[2] = true)
    (h3 : f64Finite s.dp[3] = true) (M k : ℕ) : Denotes (s.deemphasis M k) (deemphasisResponse s M k) := by
  have hz : f64Zero s.dp[2] = true ↔ f64Real s.dp[2] = 0 := by rw [f64Zero_iff, h2]; simp
  unfold State.deemphasis deemphasisResponse
  by_cases h0 : f64Real s.dp[2] = 0
  · rw [if_pos h0, if_pos (hz.2 h0)]
    exact denotes_one
  · rw [if_neg h0, if_neg (fun h => h0 (hz.1 h))]
    have hnum := denotes_deemphasisTerm hfs M k h3
    have hden := denotes_deemphasisTerm hfs M k h2
    exact ⟨hasNumbers_div hnum.1 hden.1, by rw [cDenote_div, hnum.2, hden.2]; push_cast; rfl⟩

theorem stage2Brick_eq {s : State} (hfs : f64Finite s.cfsMhz = true) (M k : ℕ) :
    ((s.stage2Brick M k : ℚ) : ℝ) = brickReal M (s.fsReal / 32) (s.fsReal / 32 / 8) k := by
  have h1 : ((s.fs1Rat : ℚ) : ℝ) = s.fsReal / 32 := by
    rw [State.fs1Rat, Rat.cast_div, fsRat_eq hfs]
    norm_num [Config.d1]
  have h2 : ((s.fs1Rat / (2 * Config.d2 : ℕ) : ℚ) : ℝ) = s.fsReal / 32 / 8 := by
    rw [Rat.cast_div, h1]
    norm_num [Config.d2]
  rw [State.stage2Brick, brick_eq, h1, h2]

theorem denotes_frameSpectrum {s : State} (hfs : f64Finite s.cfsMhz = true) (h2 : f64Finite s.dp[2] = true)
    (h3 : f64Finite s.dp[3] = true) {base M : ℕ} {x : ℕ → ℝ} (hx : ∀ i, i < M → HoldsReal s.mem (base + 8 * i) (x i))
    (k : ℕ) : Denotes (s.frameSpectrum base M k)
      (dftReal M (fun i => x i) k * brickReal M (s.fsReal / 32) (s.fsReal / 32 / 8) k * deemphasisResponse s M k) := by
  have hin : ∀ i, i < M → Denotes (cOfReal (s.operand (base + 8 * i))) (x i : ℝ) := fun i hi =>
    DenotesReal.realElem (operand_of_holds (hx i hi))
  have hde := denotes_deemphasis hfs h2 h3 M k
  refine ⟨hasNumbers_mul (hasNumbers_scale (hasValue_dft k (fun i hi => (hin i hi).1))) hde.1, ?_⟩
  rw [State.frameSpectrum, cDenote_mul, cDenote_scale, cDenote_dft, hde.2, denote, stage2Brick_eq hfs,
    dftReal_congr (fun i hi => (hin i hi).2)]
  ring

theorem denotesReal_frameSample {s : State} (hfs : f64Finite s.cfsMhz = true)
    (hgain : f64Finite (audioGain s.params s.mtfLevel) = true) (h2 : f64Finite s.dp[2] = true)
    (h3 : f64Finite s.dp[3] = true) {base M : ℕ} {x : ℕ → ℝ} (hx : ∀ i, i < M → HoldsReal s.mem (base + 8 * i) (x i))
    (j : ℕ) : DenotesReal (s.frameSample base M j) (f64Real (audioGain s.params s.mtfLevel) *
      (idftReal M (fun k => dftReal M (fun i => x i) k * brickReal M (s.fsReal / 32) (s.fsReal / 32 / 8) k
        * deemphasisResponse s M k) (4 * j)).re) := by
  have hspec := denotes_frameSpectrum hfs h2 h3 hx
  have hout := hasValue_idft (N := M) (X := s.frameSpectrum base M) (j * Config.d2) (fun k _ => (hspec k).1)
  have hre : denote (idft M (s.frameSpectrum base M) (j * Config.d2)).re =
      (cDenote (idft M (s.frameSpectrum base M) (j * Config.d2))).re := rfl
  refine ⟨by rw [State.frameSample, hasValue, hout.1]; simpa [hasValue] using hgain, ?_⟩
  rw [State.frameSample, denote, hre, cDenote_idft, idftReal_congr (fun k _ => (hspec k).2),
    show j * Config.d2 = 4 * j from Nat.mul_comm j 4]
  rfl

end Sys2Proof.Laws

namespace Sys2Proof.Certificates

open Sys2Proof.Machine Sys2Proof.Laws

/-- Settles O47: the checks in order, then the two output frames word by word. -/
theorem finaudWritesFrames : Obligations.FinaudWritesFrames := by
  refine ⟨fun p level => ⟨fun h => by rw [audioGain, h]; rfl, fun id h => by rw [audioGain, h]⟩, fun s => ?_⟩
  refine ⟨notConstructedRaised rfl s, exec_finaud_frameLength, exec_finaud_notNumber, fun hc hlen hl hgain => ?_⟩
  refine ⟨_, exec_finaud hc hlen hl hgain, by rw [finish_eq]; rfl, ?_, fun j hj => stored_frame hj,
    fun addr => byte?_effFinaud s⟩
  have hout : (effFinaud s).finish.afOutlen = BitVec.ofNat 32 ((s.afLen.toNat + 3) / 4) := rfl
  rw [hout, BitVec.toNat_ofNat, Nat.mod_eq_of_lt (by omega)]

/-- Settles O48: the number that a frame's sample denotes. -/
theorem finaudWithinTolerance : Obligations.FinaudWithinTolerance := by
  intro tol s l r ht hinv hc hlen hl hgain h2 h3 hin M spectrum out
  have hfs := (hinv.rate hc).1
  refine ⟨_, exec_finaud hc hlen hl hgain, fun j hj => ?_⟩
  obtain ⟨hleft, hright⟩ := (stored_frame (s := s) (j := j) (by omega)).1 hj
  have dl := denotesReal_frameSample hfs hgain h2 h3 (fun i hi => (hin i hi).1) j
  have dr := denotesReal_frameSample hfs hgain h2 h3 (fun i hi => (hin i hi).2) j
  have nl := near_of_stored ht hleft dl.1
  have nr := near_of_stored ht hright dr.1
  rw [dl.2] at nl
  rw [dr.2] at nr
  exact ⟨nl, nr⟩

end Sys2Proof.Certificates
end

section
/-! PROOF. PROCBLK (43_block_audio.md R202, R203, R214): its checks, that it is the sequence of its commands, and what it
leaves of STATUS, the carries and the seeds. -/

namespace Sys2Proof.Laws

open Sys2Proof.Machine

/-! ### The checks -/

theorem exec_procblk_notSynthesized {s : State} (hc : s.constructed = true) (hb : s.bankValid = false) :
    exec .procblk s = .next (errorState s 3#8 6#8 0#32) := by
  rw [exec, execProcblk, ifConstructed_true hc, ifBankValid_false hb]
  rfl

theorem exec_procblk_blockSize {s : State} (hc : s.constructed = true) (hb : s.bankValid = true) (hl : s.blkLen ≠ s.cn) :
    exec .procblk s = .next (errorState s 3#8 4#8 s.blkLen) := by
  rw [exec, execProcblk, ifConstructed_true hc, ifBankValid_true hb, if_neg hl, errorOutcome_eq]
  rfl

theorem exec_procblk {s : State} (h : ProcblkRuns s) : exec .procblk s = .next (effProcblk s).finish := by
  obtain ⟨hc, hb, hl, hg⟩ := h
  rw [exec, execProcblk, ifConstructed_true hc, ifBankValid_true hb, if_pos hl, completeOnBlock_ok hg]

/-! ### The sequence of commands -/

/-- CONSTRUCTED and BANK_VALID are 1 and the block is one that CONSTRUCT leaves: no command of R203 can fail. -/
structure Ready (s : State) : Prop where
  constructed : s.constructed = true
  bank : s.bankValid = true
  geometry : s.geometryOk = true

theorem ready_of_frame {s t : State} (h : ProcFrame s t) (hs : Ready s) : Ready t := by
  refine ⟨(h.status 1 (by decide)).trans hs.constructed, (h.status 2 (by decide)).trans hs.bank, ?_⟩
  rw [h.fields]
  exact hs.geometry

/-- The effect does not depend on BUSY and DONE. -/
def CommutesWithFinish (e : State → State) : Prop := ∀ s : State, e s.finish = (e s).finish

/-- A command of R203's sequence: it cannot fail, and its effect is one of PROCBLK's. -/
structure ProcCommand (i : Instr) : Prop where
  passes : ∀ s : State, Ready s → commandFails s i = false
  effect : ProcEffect (effectOf i)
  finish : CommutesWithFinish (effectOf i)

theorem finish_finish (s : State) : s.finish.finish = s.finish := by
  rw [finish_eq, finish_eq]
  exact congrArg (fun st => { s with status := st }) (endStatus_endStatus s.status)

theorem effSeq_finish {es : List (State → State)} (he : ∀ e ∈ es, CommutesWithFinish e) (s : State) :
    effSeq es s.finish = (effSeq es s).finish := by
  induction es generalizing s with
  | nil => rfl
  | cons e es ih =>
    obtain ⟨h, hs⟩ := List.forall_mem_cons.1 he
    rw [effSeq_cons, effSeq_cons, h, ih hs]

theorem exec_procCommand {i : Instr} (h : ProcCommand i) {s : State} (hs : Ready s) :
    exec i s = .next (effectOf i s).finish := exec_of_passes_next (h.passes s hs) (fun _ => hs.geometry)

theorem ready_procCommand {i : Instr} (h : ProcCommand i) {s : State} (hs : Ready s) : Ready (effectOf i s).finish := by
  have ht := ready_of_frame (procFrame_effect h.effect s) hs
  exact ⟨(finish_constructed _).trans ht.constructed, (finish_bankValid _).trans ht.bank,
    (finish_geometryOk _).trans ht.geometry⟩

/-- Commands executed one after the other leave what their effects leave. -/
theorem execAll_procCommands (i : Instr) (is : List Instr) (h : ∀ j ∈ i :: is, ProcCommand j) {s : State} (hs : Ready s) :
    execAll (i :: is) s = .next (effSeq ((i :: is).map effectOf) s).finish := by
  induction is generalizing i s with
  | nil =>
    rw [execAll, exec_procCommand (h i List.mem_cons_self) hs]
    rfl
  | cons j js ih =>
    obtain ⟨hi, hjs⟩ := List.forall_mem_cons.1 h
    have hfin : ∀ e ∈ (j :: js).map effectOf, CommutesWithFinish e := fun e he => by
      obtain ⟨k, hk, rfl⟩ := List.mem_map.1 he
      exact (hjs k hk).finish
    rw [execAll, exec_procCommand hi hs]
    dsimp only
    rw [ih j hjs (ready_procCommand hi hs), effSeq_finish hfin, finish_finish]
    rfl

theorem procCommand_real {d : Buf} (hd : procblkWrites d) (a : Buf) : ProcCommand (.real d a) :=
  ⟨fun s h => by simp [commandFails, h.constructed], .block hd (blockEffect_real d a), fun _ => rfl⟩
theorem procCommand_fft {d : Buf} (hd : procblkWrites d) (a : Buf) : ProcCommand (.fft d a) :=
  ⟨fun s h => by simp [commandFails, h.constructed], .block hd (blockEffect_fft d a), fun _ => rfl⟩
theorem procCommand_ifft {d : Buf} (hd : procblkWrites d) (a : Buf) : ProcCommand (.ifft d a) :=
  ⟨fun s h => by simp [commandFails, h.constructed], .block hd (blockEffect_ifft d a), fun _ => rfl⟩
theorem procCommand_env {d : Buf} (hd : procblkWrites d) (a : Buf) : ProcCommand (.env d a) :=
  ⟨fun s h => by simp [commandFails, h.constructed], .block hd (blockEffect_env d a), fun _ => rfl⟩
theorem procCommand_phase {d : Buf} (hd : procblkWrites d) (a : Buf) : ProcCommand (.phase d a) :=
  ⟨fun s h => by simp [commandFails, h.constructed], .block hd (blockEffect_phase d a), fun _ => rfl⟩
theorem procCommand_mtf {d : Buf} (hd : procblkWrites d) (a : Buf) : ProcCommand (.mtf d a) :=
  ⟨fun s h => by simp [commandFails, h.constructed], .block hd (blockEffect_mtf d a), fun _ => rfl⟩
theorem procCommand_clr {d : Buf} (hd : procblkWrites d) : ProcCommand (.clr d) :=
  ⟨fun s h => by simp [commandFails, h.constructed], .block hd (blockEffect_clr d), fun _ => rfl⟩
theorem procCommand_cmul {d : Buf} (hd : procblkWrites d) (a : Buf) {f : BitVec 4} (hf : f.toNat < 7) :
    ProcCommand (.cmul d a f) :=
  ⟨fun s h => by simp [commandFails, h.constructed, h.bank, (slotInRange_iff f).2 (not_le.2 hf)],
    .block hd (blockEffect_cmul d a f.toNat), fun _ => rfl⟩
theorem procCommand_decim {d : Buf} (hd : procblkWrites d) (a : Buf) {df : BitVec 12} (hf : factorInRange df = true) :
    ProcCommand (.decim d a df) :=
  ⟨fun s h => by simp [commandFails, h.constructed, hf], .decim d a _ hd, fun _ => rfl⟩

theorem effectOf_unwrap_of_stream {st : BitVec 2} {k : Stream} (hk : streamOf? st = some k) (d a : Buf) :
    effectOf (.unwrap d a st) = effUnwrap d a k := by simp only [effectOf, hk]

theorem effectOf_fdemod_of_stream {st c : BitVec 2} {k : Stream} {car : Carrier} (hk : streamOf? st = some k)
    (hc : carrierOf? c = some car) (d a : Buf) : effectOf (.fdemod d a st c) = effFdemod d a k car := by
  simp only [effectOf, hk, hc]

theorem procCommand_unwrap {d : Buf} (hd : procblkWrites d) (a : Buf) {st : BitVec 2} {k : Stream}
    (hk : streamOf? st = some k) : ProcCommand (.unwrap d a st) := by
  have he := effectOf_unwrap_of_stream hk d a
  exact ⟨fun s h => by simp [commandFails, h.constructed, hk], he ▸ .unwrap d a k hd, he ▸ fun _ => rfl⟩

theorem procCommand_fdemod {d : Buf} (hd : procblkWrites d) (a : Buf) {st c : BitVec 2} {k : Stream} {car : Carrier}
    (hk : streamOf? st = some k) (hc : carrierOf? c = some car) : ProcCommand (.fdemod d a st c) := by
  have he := effectOf_fdemod_of_stream hk hc d a
  exact ⟨fun s h => by simp [commandFails, h.constructed, hk, hc], he ▸ .block hd (blockEffect_fdemod d a k car),
    he ▸ fun _ => rfl⟩

theorem procCommands_channel {slot : BitVec 4} (hslot : slot.toNat < 7) {out : Buf} (hout : procblkWrites out)
    {st c : BitVec 2} {k : Stream} {car : Carrier} (hk : streamOf? st = some k) (hc : carrierOf? c = some car) :
    ∀ i ∈ channelCommands slot out st c, ProcCommand i := by
  unfold channelCommands
  simp only [List.forall_mem_cons, List.not_mem_nil, false_imp_iff, implies_true, and_true]
  exact ⟨procCommand_cmul (by decide) _ hslot, procCommand_ifft (by decide) _, procCommand_phase (by decide) _,
    procCommand_unwrap (by decide) _ hk, procCommand_fdemod (by decide) _ hk hc, procCommand_fft (by decide) _,
    procCommand_cmul (by decide) _ (by decide), procCommand_ifft (by decide) _, procCommand_decim hout _ (by decide)⟩

/-- The commands before the audio and EFM parts. -/
def videoCommands : List Instr :=
  [.real bufW1 bufSIN, .fft bufW1 bufW1, .cmul bufW2 bufW1 0#4, .ifft bufW2 bufW2, .env bufOutEnv bufW2,
   .phase bufW3 bufW2, .unwrap bufOutUphase bufW3 0#2, .fdemod bufW4 bufOutUphase 0#2 0#2, .fft bufW5 bufW4,
   .cmul bufW6 bufW5 1#4, .ifft bufW6 bufW6, .real bufOutSync bufW6, .cmul bufW6 bufW5 2#4, .ifft bufW6 bufW6,
   .real bufOutFsync bufW6, .mtf bufOutDemod bufW4]

def audioCommands (audio : Bool) : List Instr :=
  if audio then channelCommands 3#4 bufOutAudl 1#2 1#2 ++ channelCommands 4#4 bufOutAudr 2#2 2#2
  else [.clr bufOutAudl, .clr bufOutAudr]

def efmCommands (efm : Bool) : List Instr :=
  if efm then [.cmul bufW2 bufW1 5#4, .ifft bufOutEfm bufW2] else [.clr bufOutEfm]

theorem procblkCommands_eq (audio efm : Bool) :
    procblkCommands audio efm = videoCommands ++ audioCommands audio ++ efmCommands efm := rfl

theorem procCommands_video : ∀ i ∈ videoCommands, ProcCommand i := by
  unfold videoCommands
  simp only [List.forall_mem_cons, List.not_mem_nil, false_imp_iff, implies_true, and_true]
  exact ⟨procCommand_real (by decide) _, procCommand_fft (by decide) _, procCommand_cmul (by decide) _ (by decide),
    procCommand_ifft (by decide) _, procCommand_env (by decide) _, procCommand_phase (by decide) _,
    procCommand_unwrap (by decide) _ (k := streamVid) rfl,
    procCommand_fdemod (by decide) _ (k := streamVid) (car := .none) rfl rfl, procCommand_fft (by decide) _,
    procCommand_cmul (by decide) _ (by decide), procCommand_ifft (by decide) _, procCommand_real (by decide) _,
    procCommand_cmul (by decide) _ (by decide), procCommand_ifft (by decide) _, procCommand_real (by decide) _,
    procCommand_mtf (by decide) _⟩

theorem procCommands_audio (audio : Bool) : ∀ i ∈ audioCommands audio, ProcCommand i := by
  unfold audioCommands
  split
  · exact List.forall_mem_append.2
      ⟨procCommands_channel (by decide) (by decide) (k := streamAudl) (car := .audioL) rfl rfl,
        procCommands_channel (by decide) (by decide) (k := streamAudr) (car := .audioR) rfl rfl⟩
  · simp only [List.forall_mem_cons, List.not_mem_nil, false_imp_iff, implies_true, and_true]
    exact ⟨procCommand_clr (by decide), procCommand_clr (by decide)⟩

theorem procCommands_efm (efm : Bool) : ∀ i ∈ efmCommands efm, ProcCommand i := by
  unfold efmCommands
  split
  · simp only [List.forall_mem_cons, List.not_mem_nil, false_imp_iff, implies_true, and_true]
    exact ⟨procCommand_cmul (by decide) _ (by decide), procCommand_ifft (by decide) _⟩
  · simp only [List.forall_mem_cons, List.not_mem_nil, false_imp_iff, implies_true, and_true]
    exact procCommand_clr (by decide)

theorem procCommands_all (audio efm : Bool) : ∀ i ∈ procblkCommands audio efm, ProcCommand i := by
  rw [procblkCommands_eq]
  exact List.forall_mem_append.2
    ⟨List.forall_mem_append.2 ⟨procCommands_video, procCommands_audio audio⟩, procCommands_efm efm⟩

theorem execAll_procblkCommands (audio efm : Bool) {s : State} (hs : Ready s) : execAll (procblkCommands audio efm) s =
    .next (effSeq ((procblkCommands audio efm).map effectOf) s).finish :=
  execAll_procCommands _ _ (procCommands_all audio efm) hs

/-! ### The effects of the commands -/

/-- The steps before the audio and EFM parts. -/
def videoSteps : List (State → State) := stepsSpectrum ++ stepsVideo ++ stepsSync ++ stepsMtf

theorem procblkSteps_eq (audio efm : Bool) :
    procblkSteps audio efm = videoSteps ++ stepsAudio audio ++ stepsEfm efm := rfl

theorem map_effectOf_video : videoCommands.map effectOf = videoSteps := rfl

theorem map_effectOf_efm (efm : Bool) : (efmCommands efm).map effectOf = stepsEfm efm := by cases efm <;> rfl

theorem map_effectOf_audio_on : (audioCommands true).map effectOf = stepsAudio true := rfl

theorem map_effectOf_audio_off : stepsAudio false = (audioCommands false).map effectOf ++ [effNoAudio] := rfl

/-- With analog audio PROCBLK's steps are its commands' effects. -/
theorem effSeq_steps_audio (efm : Bool) (r : State) :
    effSeq (procblkSteps true efm) r = effSeq ((procblkCommands true efm).map effectOf) r := by
  rw [procblkSteps_eq, procblkCommands_eq, List.map_append, List.map_append, map_effectOf_video, map_effectOf_audio_on,
    map_effectOf_efm]

theorem noAudio_stepsEfm (efm : Bool) (r : State) : effSeq (stepsEfm efm) (effNoAudio r) = effNoAudio (effSeq (stepsEfm efm) r) := by
  cases efm <;> rfl

/-- Without analog audio the counts are 0 besides. -/
theorem effSeq_steps_noAudio (efm : Bool) (r : State) :
    effSeq (procblkSteps false efm) r = effNoAudio (effSeq ((procblkCommands false efm).map effectOf) r) := by
  rw [procblkSteps_eq, procblkCommands_eq, List.map_append, List.map_append, map_effectOf_video, map_effectOf_audio_off,
    map_effectOf_efm]
  simp only [effSeq_append]
  rw [effSeq_cons, effSeq_nil, noAudio_stepsEfm]

/-! ### The contiguity check -/

theorem contiguous_iff (s : State) : s.contiguous = true ↔ Continues s := by
  simp only [State.contiguous, Continues, Bool.and_eq_true, beq_iff_eq]
  rfl

theorem effContiguity_continues {s : State} (h : Continues s) :
    effContiguity s = { s with status := s.status &&& 0x5F#7 } := if_pos ((contiguous_iff s).2 h)

theorem effContiguity_restarts {s : State} (h : ¬ Continues s) :
    effContiguity s = { s with status := s.status ||| 0x20#7, carryValid := 0#3, seedValid := 0#3 } :=
  if_neg (fun e => h ((contiguous_iff s).1 e))

theorem eq_effContiguity {s r : State} (h : AfterContiguity s r) : r = effContiguity s := by
  by_cases hc : Continues s
  · rw [h.1 hc, effContiguity_continues hc]
  · rw [h.2 hc, effContiguity_restarts hc]

/-- NEXT_START (R202), after effects that keep BLK_START and the window. -/
theorem effNextStart_of_frame {s t : State} (h : ProcFrame s t) :
    effNextStart t = { t with nextStart := s.blkStart + BitVec.ofNat 64 (s.w1 - s.w0) } := by
  unfold effNextStart State.w1 State.w0
  have hstart : t.blkStart = s.blkStart := by rw [h.fields]
  have hwin : t.win = s.win := by rw [h.fields]
  rw [hstart, hwin]

theorem procFrame_steps (s : State) (audio efm : Bool) :
    ProcFrame s (effSeq (procblkSteps audio efm) (effContiguity s)) :=
  (procFrame_effect .contiguity s).trans (procFrame_seq _ (procEffect_steps _ _) _)

/-! ### STATUS, the carries and the seeds -/

/-- The effect leaves STATUS, CARRY_VALID and SEED_VALID as they are. -/
def KeepsValid (e : State → State) : Prop :=
  ∀ s, (e s).status = s.status ∧ (e s).carryValid = s.carryValid ∧ (e s).seedValid = s.seedValid

/-- The effect leaves STATUS and the valid bits of the video stream as they are. -/
def KeepsVideo (e : State → State) : Prop :=
  ∀ s, (e s).status = s.status ∧ (e s).carryOk 0 = s.carryOk 0 ∧ (e s).seedOk 0 = s.seedOk 0

theorem keepsValid_of_block {d : Buf} {e : State → State} (h : BlockEffect d e) : KeepsValid e := fun s => by
  obtain ⟨f, hf⟩ := h s
  rw [hf]
  exact ⟨rfl, rfl, rfl⟩

theorem keepsVideo_of_valid {e : State → State} (h : KeepsValid e) : KeepsVideo e := fun s => by
  obtain ⟨hst, hc, hs⟩ := h s
  exact ⟨hst, congrArg (·.getLsbD 0) hc, congrArg (·.getLsbD 0) hs⟩

theorem keepsVideo_unwrap (d a : Buf) {k : Stream} (hk : k ≠ 0) : KeepsVideo (effUnwrap d a k) := fun s =>
  ⟨rfl, (carryOk_unwrap d a k 0 s).trans (if_neg hk.symm), (seedOk_unwrap d a k 0 s).trans (if_neg hk.symm)⟩

theorem keepsValid_seq {es : List (State → State)} (h : ∀ e ∈ es, KeepsValid e) : KeepsValid (effSeq es) := fun s =>
  effSeq_keeps (P := fun t => t.status = s.status ∧ t.carryValid = s.carryValid ∧ t.seedValid = s.seedValid) es
    (fun e he t ht => by
      obtain ⟨h1, h2, h3⟩ := h e he t
      exact ⟨h1.trans ht.1, h2.trans ht.2.1, h3.trans ht.2.2⟩) ⟨rfl, rfl, rfl⟩

theorem keepsVideo_seq {es : List (State → State)} (h : ∀ e ∈ es, KeepsVideo e) : KeepsVideo (effSeq es) := fun s =>
  effSeq_keeps (P := fun t => t.status = s.status ∧ t.carryOk 0 = s.carryOk 0 ∧ t.seedOk 0 = s.seedOk 0) es
    (fun e he t ht => by
      obtain ⟨h1, h2, h3⟩ := h e he t
      exact ⟨h1.trans ht.1, h2.trans ht.2.1, h3.trans ht.2.2⟩) ⟨rfl, rfl, rfl⟩

/-- The steps before the video stream is unwrapped, and those after it. -/
def stepsBeforeUnwrap : List (State → State) := stepsSpectrum ++ [effEnv bufOutEnv bufW2, effPhase bufW3 bufW2]

def stepsAfterUnwrap (audio efm : Bool) : List (State → State) :=
  effFdemod bufW4 bufOutUphase streamVid .none :: (stepsSync ++ stepsMtf ++ stepsAudio audio ++ stepsEfm efm)

theorem procblkSteps_unwrap (audio efm : Bool) : procblkSteps audio efm =
    stepsBeforeUnwrap ++ effUnwrap bufOutUphase bufW3 streamVid :: stepsAfterUnwrap audio efm := by
  simp only [procblkSteps, stepsBeforeUnwrap, stepsAfterUnwrap, stepsVideo, List.append_assoc, List.cons_append,
    List.nil_append]

theorem keepsValid_stepsSpectrum : ∀ e ∈ stepsSpectrum, KeepsValid e := by
  unfold stepsSpectrum
  simp only [List.forall_mem_cons, List.not_mem_nil, false_imp_iff, implies_true, and_true]
  exact ⟨keepsValid_of_block (blockEffect_real _ _), keepsValid_of_block (blockEffect_fft _ _),
    keepsValid_of_block (blockEffect_cmul _ _ _), keepsValid_of_block (blockEffect_ifft _ _)⟩

theorem keepsValid_beforeUnwrap : KeepsValid (effSeq stepsBeforeUnwrap) := by
  refine keepsValid_seq (List.forall_mem_append.2 ⟨keepsValid_stepsSpectrum, ?_⟩)
  simp only [List.forall_mem_cons, List.not_mem_nil, false_imp_iff, implies_true, and_true]
  exact ⟨keepsValid_of_block (blockEffect_env _ _), keepsValid_of_block (blockEffect_phase _ _)⟩

theorem keepsValid_stepsSync : ∀ e ∈ stepsSync, KeepsValid e := by
  unfold stepsSync
  simp only [List.forall_mem_cons, List.not_mem_nil, false_imp_iff, implies_true, and_true]
  exact ⟨keepsValid_of_block (blockEffect_fft _ _), keepsValid_of_block (blockEffect_cmul _ _ _),
    keepsValid_of_block (blockEffect_ifft _ _), keepsValid_of_block (blockEffect_real _ _),
    keepsValid_of_block (blockEffect_cmul _ _ _), keepsValid_of_block (blockEffect_ifft _ _),
    keepsValid_of_block (blockEffect_real _ _)⟩

theorem keepsValid_stepsMtf : ∀ e ∈ stepsMtf, KeepsValid e :=
  List.forall_mem_singleton.2 (keepsValid_of_block (blockEffect_mtf _ _))

theorem keepsValid_stepsEfm (efm : Bool) : ∀ e ∈ stepsEfm efm, KeepsValid e := by
  unfold stepsEfm
  split
  · simp only [List.forall_mem_cons, List.not_mem_nil, false_imp_iff, implies_true, and_true]
    exact ⟨keepsValid_of_block (blockEffect_cmul _ _ _), keepsValid_of_block (blockEffect_ifft _ _)⟩
  · exact List.forall_mem_singleton.2 (keepsValid_of_block (blockEffect_clr _))

theorem keepsValid_stepsAudio_off : ∀ e ∈ stepsAudio false, KeepsValid e := by
  have hsteps : stepsAudio false = [effClr bufOutAudl, effClr bufOutAudr, effNoAudio] := rfl
  rw [hsteps]
  simp only [List.forall_mem_cons, List.not_mem_nil, false_imp_iff, implies_true, and_true]
  exact ⟨keepsValid_of_block (blockEffect_clr _), keepsValid_of_block (blockEffect_clr _), fun _ => ⟨rfl, rfl, rfl⟩⟩

theorem keepsVideo_stepsChannel (slot : ℕ) (out : Buf) {k : Stream} (hk : k ≠ 0) (c : Carrier) :
    ∀ e ∈ stepsChannel slot out k c, KeepsVideo e := by
  have block : ∀ {d : Buf} {e : State → State}, BlockEffect d e → KeepsVideo e := fun h =>
    keepsVideo_of_valid (keepsValid_of_block h)
  unfold stepsChannel
  simp only [List.forall_mem_cons, List.not_mem_nil, false_imp_iff, implies_true, and_true]
  exact ⟨block (blockEffect_cmul _ _ _), block (blockEffect_ifft _ _), block (blockEffect_phase _ _),
    keepsVideo_unwrap _ _ hk, block (blockEffect_fdemod _ _ _ _), block (blockEffect_fft _ _),
    block (blockEffect_cmul _ _ _), block (blockEffect_ifft _ _), fun _ => ⟨rfl, rfl, rfl⟩⟩

theorem keepsVideo_stepsAudio (audio : Bool) : ∀ e ∈ stepsAudio audio, KeepsVideo e := by
  cases audio with
  | false => exact fun e he => keepsVideo_of_valid (keepsValid_stepsAudio_off e he)
  | true =>
    rw [stepsAudio, if_pos rfl]
    exact List.forall_mem_append.2
      ⟨keepsVideo_stepsChannel _ _ (by decide) _, keepsVideo_stepsChannel _ _ (by decide) _⟩

theorem keepsVideo_afterUnwrap (audio efm : Bool) : KeepsVideo (effSeq (stepsAfterUnwrap audio efm)) := by
  refine keepsVideo_seq (List.forall_mem_cons.2 ⟨keepsVideo_of_valid (keepsValid_of_block (blockEffect_fdemod _ _ _ _)), ?_⟩)
  simp only [List.forall_mem_append]
  exact ⟨⟨⟨fun e he => keepsVideo_of_valid (keepsValid_stepsSync e he),
    fun e he => keepsVideo_of_valid (keepsValid_stepsMtf e he)⟩, keepsVideo_stepsAudio audio⟩,
    fun e he => keepsVideo_of_valid (keepsValid_stepsEfm efm e he)⟩

theorem keepsValid_afterUnwrap_noAudio (efm : Bool) : KeepsValid (effSeq (stepsAfterUnwrap false efm)) := by
  refine keepsValid_seq (List.forall_mem_cons.2 ⟨keepsValid_of_block (blockEffect_fdemod _ _ _ _), ?_⟩)
  simp only [List.forall_mem_append]
  exact ⟨⟨⟨keepsValid_stepsSync, keepsValid_stepsMtf⟩, keepsValid_stepsAudio_off⟩, keepsValid_stepsEfm efm⟩

/-- The video stream after the steps: its carry is valid, its seed is when the carry was before. -/
theorem video_after_steps (audio efm : Bool) (r : State) :
    (effSeq (procblkSteps audio efm) r).status = r.status ∧ (effSeq (procblkSteps audio efm) r).carryOk 0 = true ∧
      (effSeq (procblkSteps audio efm) r).seedOk 0 = r.carryOk 0 := by
  rw [procblkSteps_unwrap, effSeq_append, effSeq_cons]
  obtain ⟨hst, hcarry, hseed⟩ := keepsVideo_afterUnwrap audio efm
    (effUnwrap bufOutUphase bufW3 streamVid (effSeq stepsBeforeUnwrap r))
  obtain ⟨hst0, hcarry0, -⟩ := keepsVideo_of_valid keepsValid_beforeUnwrap r
  exact ⟨hst.trans hst0, hcarry.trans (carryOk_unwrap _ _ streamVid streamVid _),
    hseed.trans ((seedOk_unwrap _ _ streamVid streamVid _).trans hcarry0)⟩

/-- After a restart without analog audio the video carry alone is valid. -/
theorem valid_after_restart (efm : Bool) {r : State} (hc : r.carryValid = 0#3) (hs : r.seedValid = 0#3) :
    (effSeq (procblkSteps false efm) r).carryValid = 1#3 ∧ (effSeq (procblkSteps false efm) r).seedValid = 0#3 := by
  rw [procblkSteps_unwrap, effSeq_append, effSeq_cons]
  obtain ⟨-, hcarry, hseed⟩ := keepsValid_afterUnwrap_noAudio efm
    (effUnwrap bufOutUphase bufW3 streamVid (effSeq stepsBeforeUnwrap r))
  obtain ⟨-, hcarry0, hseed0⟩ := keepsValid_beforeUnwrap r
  rw [hc] at hcarry0
  rw [hs] at hseed0
  refine ⟨hcarry.trans ?_, hseed.trans ?_⟩
  · have he : (effUnwrap bufOutUphase bufW3 streamVid (effSeq stepsBeforeUnwrap r)).carryValid =
        setFlag 3 (effSeq stepsBeforeUnwrap r).carryValid 0 true := rfl
    rw [he, hcarry0]
    rfl
  · have he : (effUnwrap bufOutUphase bufW3 streamVid (effSeq stepsBeforeUnwrap r)).seedValid =
        setFlag 3 (effSeq stepsBeforeUnwrap r).seedValid 0 ((effSeq stepsBeforeUnwrap r).carryValid.getLsbD 0) := rfl
    rw [he, hcarry0, hseed0]
    rfl

theorem cfgAudioOn_eq_decide (c : Word32) : cfgAudioOn c = decide (cfgAaLevel c ≠ 0#16) := by
  rw [cfgAudioOn, bne, beq_eq_decide, decide_not]

end Sys2Proof.Laws

namespace Sys2Proof.Certificates

open Sys2Proof.Machine Sys2Proof.Laws

/-- Settles O44: the checks in order; PROCBLK's effects keep ERRCODE and every bit of STATUS but CARRY_RESTART. -/
theorem procblkChecks : Obligations.ProcblkChecks := by
  refine fun s => ⟨notConstructedRaised rfl s, exec_procblk_notSynthesized, exec_procblk_blockSize, fun h => ?_⟩
  have hframe := procFrame_procblk s
  refine ⟨_, exec_procblk h, ?_, ?_⟩
  · rw [finish_errcode, hframe.fields]
  · exact (finish_err _).trans (hframe.status 3 (by decide))

/-- Settles O45: the commands' effects are PROCBLK's steps, but for the counts without analog audio and NEXT_START. -/
theorem procblkIsItsCommands : Obligations.ProcblkIsItsCommands := by
  intro s r h hr
  obtain rfl := eq_effContiguity hr
  have hready : Ready (effContiguity s) :=
    ready_of_frame (procFrame_effect .contiguity s) ⟨h.1, h.2.1, h.2.2.2⟩
  rw [← cfgAudioOn_eq_decide]
  refine ⟨_, execAll_procblkCommands (cfgAudioOn s.cflags) (cfgDda s.cflags) hready, ?_⟩
  rw [exec_procblk h, effProcblk_eq, effNextStart_of_frame (procFrame_steps s _ _)]
  by_cases ha : cfgAaLevel s.cflags = 0#16
  · have hoff : cfgAudioOn s.cflags = false := by simp [cfgAudioOn, ha]
    rw [hoff, if_pos ha, if_pos ha, effSeq_steps_noAudio]
    generalize effSeq ((procblkCommands false (cfgDda s.cflags)).map effectOf) (effContiguity s) = u
    rfl
  · have hon : cfgAudioOn s.cflags = true := cfgAudioOn_eq_true.2 ha
    rw [hon, if_neg ha, if_neg ha, effSeq_steps_audio]
    generalize effSeq ((procblkCommands true (cfgDda s.cflags)).map effectOf) (effContiguity s) = u
    rfl

/-- Settles O46: the frame of the steps, and the video stream before and after it is unwrapped. -/
theorem procblkFrame : Obligations.ProcblkFrame := by
  intro s h
  have hframe := procFrame_procblk s
  have hsteps := procFrame_steps s (cfgAudioOn s.cflags) (cfgDda s.cflags)
  have heff : effProcblk s = { effSeq (procblkSteps (cfgAudioOn s.cflags) (cfgDda s.cflags)) (effContiguity s) with
      nextStart := s.blkStart + BitVec.ofNat 64 (s.w1 - s.w0) } := by
    rw [effProcblk_eq, effNextStart_of_frame hsteps]
  obtain ⟨hst, hcarry, hseed⟩ := video_after_steps (cfgAudioOn s.cflags) (cfgDda s.cflags) (effContiguity s)
  refine ⟨_, exec_procblk h, ?_, fun hc => ⟨?_, ?_⟩, fun hc => ⟨?_, ?_⟩, ?_, ?_, fun ha hc => ?_, hframe.memory⟩
  · rw [finish_eq]
    have hf := hframe.fields
    rw [hf]
  · rw [finish_status, heff]
    dsimp only
    rw [hst, effContiguity_continues hc]
  · rw [heff]
    refine hseed.trans ?_
    rw [effContiguity_continues hc]
    exact hc.2
  · rw [finish_status, heff]
    dsimp only
    rw [hst, effContiguity_restarts hc]
  · rw [heff]
    refine hseed.trans ?_
    rw [effContiguity_restarts hc]
    exact BitVec.getLsbD_zero
  · rw [heff]
    exact hcarry
  · rw [heff]
    have hnext : (s.blkStart + BitVec.ofNat 64 (s.w1 - s.w0)).toNat = (s.blkStart.toNat + (s.w1 - s.w0)) % 2 ^ 64 := by
      rw [BitVec.toNat_add, BitVec.toNat_ofNat, Nat.add_mod_mod]
    exact hnext
  · have hoff : cfgAudioOn s.cflags = false := by simp [cfgAudioOn, ha]
    rw [heff, hoff]
    exact valid_after_restart (cfgDda s.cflags) (by rw [effContiguity_restarts hc]) (by rw [effContiguity_restarts hc])

end Sys2Proof.Certificates
end

section
/-! PROOF. Exact zeros (42_datapath.md R162, R164 to R166, 43_block_audio.md R203): what each effect of PROCBLK makes of a block
of zeros, which buffers its later effects leave alone, and the four parts of the statement. -/

namespace Sys2Proof.Laws

open Sys2Proof.Machine

/-! ### Stored zeros -/

theorem holdsReal_of_stored_isZero {d : Draw} {m : List Host.Cell} {addr : ℕ} {e : Exact} (h : Stored d m addr e)
    (hz : isZero e = true) : HoldsReal m addr 0 := by
  cases e with
  | val x =>
    rw [Stored, put_val (f64Finite_of_zero hz)] at h
    exact ⟨x, h, f64Zero_iff.1 hz⟩
  | zero => exact holdsReal_of_stored_zero h
  | rat q =>
    obtain rfl : q = 0 := by simpa [isZero] using hz
    exact holdsReal_of_stored_rat_zero h
  | _ => cases hz

theorem holdsComplex_of_stored_cIsZero {d : Draw} {m : List Host.Cell} {addr : ℕ} {z : CExact}
    (h : StoredComplex d m addr z) (hz : cIsZero z = true) : HoldsComplex m addr 0 := by
  rw [cIsZero, Bool.and_eq_true] at hz
  exact ⟨holdsReal_of_stored_isZero h.1 hz.1, holdsReal_of_stored_isZero h.2 hz.2⟩

/-- A block written with zeros is a block of zeros. -/
theorem zeroBlock_writeBuf {s : State} {d : Buf} {f : ℕ → CExact} (h : ∀ n, n < s.n → cIsZero (f n) = true) :
    (s.writeBuf d f).zeroBlock d = true :=
  (zeroBlock_iff _ d).2 (fun n hn => holdsComplex_of_stored_cIsZero ((writeBuf_blockStored s d f).1 n hn) (h n hn))

theorem cIsZero_of_zeroBlock {s : State} {a : Buf} (h : s.zeroBlock a = true) {n : ℕ} (hn : n < s.n) :
    cIsZero (s.bufElem a n) = true := (cIsZero_bufElem_iff s a n).2 ((zeroBlock_iff s a).1 h n hn)

theorem isZero_bufRe_of_zeroBlock {s : State} {a : Buf} (h : s.zeroBlock a = true) {n : ℕ} (hn : n < s.n) :
    isZero (s.bufRe a n) = true := (isZero_operand_iff s _).2 ((zeroBlock_iff s a).1 h n hn).1

theorem cIsZero_realElem {e : Exact} (h : isZero e = true) : cIsZero (realElem e) = true := by
  simp [cIsZero, realElem, h, isZero_rat_zero]

theorem modulus_of_zero {z : CExact} (h : cIsZero z = true) : modulus z = .zero := if_pos h

theorem angle_of_zero {z : CExact} (h : cIsZero z = true) : angle z = .zero := if_pos h

/-! ### The effects on a block of zeros -/

theorem zeroBlock_real {s : State} {a : Buf} (h : ∀ n, n < s.n → HoldsReal s.mem (bufAddr a n) 0) (d : Buf) :
    (effReal d a s).zeroBlock d = true :=
  zeroBlock_writeBuf (fun n hn => cIsZero_realElem ((isZero_operand_iff s _).2 (h n hn)))

theorem zeroBlock_fft {s : State} {a : Buf} (h : s.zeroBlock a = true) (d : Buf) : (effFft d a s).zeroBlock d = true :=
  zeroBlock_writeBuf (fun n _ => by rw [State.fftElem, if_pos h]; rfl)

theorem zeroBlock_ifft {s : State} {a : Buf} (h : s.zeroBlock a = true) (d : Buf) : (effIfft d a s).zeroBlock d = true :=
  zeroBlock_writeBuf (fun n _ => by rw [State.ifftElem, if_pos h]; rfl)

/-- A number in a bin. -/
theorem hasValue_slotElem {s : State} {f k : ℕ} {z : ℂ} (h : HoldsComplex s.mem (slotAddr f k) z) :
    cHasValue (s.slotElem f k) = true := by
  have hre := (operand_of_holds h.1).1
  have him := (operand_of_holds h.2).1
  simp [cHasValue, State.slotElem, hre, him]

theorem cmulElem_of_zeroBlock {s : State} {a : Buf} (h : s.zeroBlock a = true) {f k : ℕ} {z : ℂ}
    (hz : HoldsComplex s.mem (slotAddr f k) z) : s.cmulElem a f k = cVanished := by
  unfold State.cmulElem
  dsimp only
  rw [if_pos]
  rw [h, hasValue_slotElem hz, Bool.and_self, Bool.or_true]

theorem zeroBlock_cmul {s : State} {a : Buf} {f : ℕ} (h : s.zeroBlock a = true)
    (hslot : ∀ k, k < s.n → ∃ z, HoldsComplex s.mem (slotAddr f k) z) (d : Buf) : (effCmul d a f s).zeroBlock d = true :=
  zeroBlock_writeBuf (fun k hk => by
    obtain ⟨z, hz⟩ := hslot k hk
    rw [cmulElem_of_zeroBlock h hz]
    rfl)

theorem zeroBlock_env {s : State} {a : Buf} (h : s.zeroBlock a = true) (d : Buf) : (effEnv d a s).zeroBlock d = true :=
  zeroBlock_writeBuf (fun n hn => by rw [modulus_of_zero (cIsZero_of_zeroBlock h hn)]; rfl)

theorem zeroBlock_phase {s : State} {a : Buf} (h : s.zeroBlock a = true) (d : Buf) :
    (effPhase d a s).zeroBlock d = true :=
  zeroBlock_writeBuf (fun n hn => by rw [angle_of_zero (cIsZero_of_zeroBlock h hn)]; rfl)

theorem cIsZero_windowElem {s : State} {x : ℕ → Exact} (h : ∀ n, s.w0 ≤ n → n < s.w1 → isZero (x n) = true) (n : ℕ) :
    cIsZero (windowElem s x n) = true := by
  unfold windowElem
  split
  next hw => exact cIsZero_realElem (h n hw.1 hw.2)
  next => rfl

/-- The stream starts without a turn from the phase 0: its carry is not valid, or is a zero without turns. -/
def CarryZero (s : State) (k : Stream) : Prop :=
  s.carryOk k = true → f64Zero s.carryPh[k] = true ∧ s.carryTurns[k] = 0#64

theorem turnsReal_zero (w0 i : ℕ) : turnsReal (fun _ => 0) w0 0 0 i = 0 := by
  have hstep : turnStep (0 - 0) = 0 := by
    rw [turnStep, sub_zero, if_neg (not_lt.2 Real.pi_pos.le), if_neg (not_lt.2 (neg_nonpos.2 Real.pi_pos.le))]
  induction i with
  | zero => rw [turnsReal, hstep, add_zero]
  | succ i ih => rw [turnsReal, ih, hstep, add_zero]

theorem turnsAt_zero {s : State} {a : Buf} {k : Stream} (hg : s.geometryOk = true) (h : s.zeroBlock a = true)
    (hc : CarryZero s k) {n : ℕ} (h0 : s.w0 ≤ n) (h1 : n < s.w1) : s.turnsAt a k n = 0 := by
  obtain ⟨hw, hwn⟩ := window_bounds hg
  have hprev : (if s.carryOk k then f64Real s.carryPh[k] else 0) = 0 := by
    split
    next hok => exact f64Real_of_zero (hc hok).1
    next => rfl
  have hturns : (if s.carryOk k then i64 s.carryTurns[k] else 0) = 0 := by
    split
    next hok => rw [(hc hok).2]; rfl
    next => rfl
  have hphi : ∀ n, s.w0 ≤ n → n < s.w1 → HoldsReal s.mem (bufAddr a n) ((fun _ => 0) n) := fun n _ hn =>
    ((zeroBlock_iff s a).1 h n (by omega)).1
  rw [turnsAt_eq hphi hw (fun hok => f64Finite_of_zero (hc hok).1) h0 h1, hprev, hturns, turnsReal_zero]

theorem addTurns_zero {e : Exact} (h : isZero e = true) : addTurns true e 0 = .zero := by
  rw [addTurns_eq, if_pos ⟨rfl, h, rfl⟩]

theorem zeroBlock_unwrap {s : State} {a : Buf} {k : Stream} (hg : s.geometryOk = true) (h : s.zeroBlock a = true)
    (hc : CarryZero s k) (d : Buf) : (effUnwrap d a k s).zeroBlock d = true := by
  have hwrite : (s.writeBuf d (windowElem s (fun n => addTurns (s.zeroBlock a) (s.bufRe a n) (s.turnsAt a k n)))).zeroBlock d
      = true := by
    refine zeroBlock_writeBuf (fun n _ => cIsZero_windowElem (fun n h0 h1 => ?_) n)
    have hn : n < s.n := lt_of_lt_of_le h1 (window_bounds hg).2
    rw [h, turnsAt_zero hg h hc h0 h1, addTurns_zero (isZero_bufRe_of_zeroBlock h hn)]
    rfl
  rw [← inWindow_eq] at hwrite
  exact hwrite

/-- The seed that UNWRAP leaves is a zero, where it is valid. -/
theorem seed_unwrap_zero {s : State} {a : Buf} {k : Stream} (h : s.zeroBlock a = true) (hc : CarryZero s k) (d : Buf)
    (hs : (effUnwrap d a k s).seedOk k = true) : f64Zero (effUnwrap d a k s).seedU[k] = true := by
  have hok : s.carryOk k = true := ((seedOk_unwrap d a k k s).trans (if_pos rfl)).symm.trans hs
  obtain ⟨hph, hturns⟩ := hc hok
  have hturns0 : s.unwrapTurns0 k = 0 := by
    rw [State.unwrapTurns0, if_pos hok, hturns]
    rfl
  have hseed : (effUnwrap d a k s).seedU[k] = put (.nth s.draws) (seedUAddr k)
      (addTurns (s.zeroBlock a) (.val s.carryPh[k]) (s.unwrapTurns0 k)) :=
    ((vector_set_get s.seedU k k _).trans (if_pos rfl)).trans (if_pos hok)
  rw [hseed, h, hturns0, addTurns_zero (e := .val s.carryPh[k]) hph]
  exact f64Zero_put_zero _ _

theorem isZero_frequency {s : State} {u1 u0 : Exact} (h1 : isZero u1 = true) (h0 : isZero u0 = true) :
    isZero (s.frequency true u1 u0) = true := by
  rw [State.frequency, h1, h0]
  rfl

theorem zeroBlock_fdemod {s : State} {a : Buf} {k : Stream} (hg : s.geometryOk = true) (h : s.zeroBlock a = true)
    (hs : s.seedOk k = true → f64Zero s.seedU[k] = true) (d : Buf) : (effFdemod d a k .none s).zeroBlock d = true := by
  rw [effFdemod_eq]
  refine zeroBlock_writeBuf (fun n _ => cIsZero_windowElem (fun n h0 h1 => ?_) n)
  obtain ⟨hw, hwn⟩ := window_bounds hg
  have hre : ∀ m, m < s.w1 → isZero (s.bufRe a m) = true := fun m hm => isZero_bufRe_of_zeroBlock h (by omega)
  unfold State.lessCarrier State.demodulated
  dsimp only
  rw [h]
  split
  next =>
    split
    next hok => exact isZero_frequency (hre _ hw) (hs hok)
    next =>
      split
      next h2 => exact isZero_frequency (hre _ (by omega)) (hre _ hw)
      next => rfl
  next => exact isZero_frequency (hre n h1) (hre _ (by omega))

/-! ### Buffers that effects leave alone -/

/-- The effect keeps N and changes no byte outside buffer `d`. -/
def Writes (d : Buf) (e : State → State) : Prop := ∀ s, (e s).n = s.n ∧ OnlyBlock s (e s) d

theorem writes_of_block {d : Buf} {e : State → State} (h : BlockEffect d e) : Writes d e := fun s => by
  obtain ⟨f, hf⟩ := h s
  rw [hf]
  exact ⟨rfl, (writeBuf_blockStored s d f).2⟩

theorem writes_unwrap (d a : Buf) (k : Stream) : Writes d (effUnwrap d a k) := fun s =>
  ⟨rfl, (writeBuf_blockStored s d _).2⟩

theorem writes_decim (d a : Buf) (df : ℕ) : Writes d (effDecim d a df) := fun s => ⟨rfl, (writeBuf_blockStored s d _).2⟩

/-- What the write of a block keeps of the block in effect and of a stream's carry. -/
theorem geometry_of_block {d : Buf} {e : State → State} (h : BlockEffect d e) (s : State) :
    (e s).n = s.n ∧ (e s).geometryOk = s.geometryOk ∧ ∀ k, CarryZero s k → CarryZero (e s) k := by
  obtain ⟨f, hf⟩ := h s
  rw [hf]
  exact ⟨writeBuf_n s d f, writeBuf_geometryOk s d f, fun _ hc => hc⟩

theorem geometryOk_unwrap (d a : Buf) (k : Stream) (s : State) : (effUnwrap d a k s).geometryOk = s.geometryOk := rfl

/-- Elements 0..N-1 of buffer `b` hold the same words. -/
def SameBuffer (b : Buf) (s t : State) : Prop :=
  t.n = s.n ∧ ∀ n, n < s.n → Memory.word? t.mem (bufAddr b n) = Memory.word? s.mem (bufAddr b n) ∧
    Memory.word? t.mem (bufAddr b n + 8) = Memory.word? s.mem (bufAddr b n + 8)

theorem SameBuffer.refl (b : Buf) (s : State) : SameBuffer b s s := ⟨rfl, fun _ _ => ⟨rfl, rfl⟩⟩

theorem SameBuffer.trans {b : Buf} {s t u : State} (h : SameBuffer b s t) (h' : SameBuffer b t u) : SameBuffer b s u := by
  refine ⟨h'.1.trans h.1, fun n hn => ?_⟩
  obtain ⟨hre, him⟩ := h.2 n hn
  obtain ⟨hre', him'⟩ := h'.2 n (h.1.symm ▸ hn)
  exact ⟨hre'.trans hre, him'.trans him⟩

theorem SameBuffer.holds {b : Buf} {s t : State} (h : SameBuffer b s t) {n : ℕ} (hn : n < s.n) {z : ℂ}
    (hz : HoldsComplex s.mem (bufAddr b n) z) : HoldsComplex t.mem (bufAddr b n) z := by
  obtain ⟨hre, him⟩ := h.2 n hn
  unfold HoldsComplex HoldsReal at *
  rw [hre, him]
  exact hz

theorem SameBuffer.zeroBlock {b : Buf} {s t : State} (h : SameBuffer b s t) (hz : s.zeroBlock b = true) :
    t.zeroBlock b = true :=
  (zeroBlock_iff t b).2 (fun n hn => h.holds (h.1 ▸ hn) ((zeroBlock_iff s b).1 hz n (h.1 ▸ hn)))

theorem sameBuffer_of_writes {b d : Buf} {e : State → State} (h : Writes d e) (hbd : b ≠ d) {s : State}
    (hn : s.n ≤ 65536) : SameBuffer b s (e s) := by
  obtain ⟨hsame, honly⟩ := h s
  refine ⟨hsame, fun n hlt => ?_⟩
  have hdisj := bufAddr_disjoint hbd hn hn
  have hlast : bufAddr b n + 16 ≤ bufAddr b s.n := by
    rw [bufAddr_eq b n, bufAddr_eq b s.n]
    omega
  have hfirst : bufAddr b 0 ≤ bufAddr b n := by
    rw [bufAddr_eq b n]
    omega
  exact ⟨word?_congr (fun j hj => honly _ (by omega)), word?_congr (fun j hj => honly _ (by omega))⟩

/-- The effects of a list write the buffers of a list, each its own. -/
abbrev WritesEach (ds : List Buf) (es : List (State → State)) : Prop := List.Forall₂ Writes ds es

theorem sameBuffer_seq {b : Buf} {ds : List Buf} {es : List (State → State)} (h : WritesEach ds es) (hb : b ∉ ds) {s : State}
    (hn : s.n ≤ 65536) : SameBuffer b s (effSeq es s) := by
  induction h generalizing s with
  | nil => exact .refl b s
  | cons he _ ih =>
    simp only [List.mem_cons, not_or] at hb
    have hfirst := sameBuffer_of_writes he hb.1 hn
    exact hfirst.trans (ih hb.2 (hfirst.1.symm ▸ hn))

theorem writesEach_sync : WritesEach [bufW5, bufW6, bufW6, bufOutSync, bufW6, bufW6, bufOutFsync] stepsSync := by
  unfold stepsSync
  simp only [WritesEach, List.forall₂_cons, List.forall₂_nil_left_iff, and_true]
  exact ⟨writes_of_block (blockEffect_fft _ _), writes_of_block (blockEffect_cmul _ _ _),
    writes_of_block (blockEffect_ifft _ _), writes_of_block (blockEffect_real _ _),
    writes_of_block (blockEffect_cmul _ _ _), writes_of_block (blockEffect_ifft _ _),
    writes_of_block (blockEffect_real _ _)⟩

theorem writesEach_mtf : WritesEach [bufOutDemod] stepsMtf :=
  .cons (writes_of_block (blockEffect_mtf _ _)) .nil

theorem writesEach_channel (slot : ℕ) (out : Buf) (k : Stream) (c : Carrier) :
    WritesEach [bufW2, bufW2, bufW3, bufW3, bufW4, bufW4, bufW4, bufW4, out] (stepsChannel slot out k c) := by
  unfold stepsChannel
  simp only [WritesEach, List.forall₂_cons, List.forall₂_nil_left_iff, and_true]
  exact ⟨writes_of_block (blockEffect_cmul _ _ _), writes_of_block (blockEffect_ifft _ _),
    writes_of_block (blockEffect_phase _ _), writes_unwrap _ _ _, writes_of_block (blockEffect_fdemod _ _ _ _),
    writes_of_block (blockEffect_fft _ _), writes_of_block (blockEffect_cmul _ _ _),
    writes_of_block (blockEffect_ifft _ _), writes_decim _ _ _⟩

/-- The buffers that the audio part writes. -/
def audioBuffers (audio : Bool) : List Buf :=
  if audio then [bufW2, bufW2, bufW3, bufW3, bufW4, bufW4, bufW4, bufW4, bufOutAudl] ++
    [bufW2, bufW2, bufW3, bufW3, bufW4, bufW4, bufW4, bufW4, bufOutAudr]
  else [bufOutAudl, bufOutAudr, bufOutAudr]

theorem writesEach_audio (audio : Bool) : WritesEach (audioBuffers audio) (stepsAudio audio) := by
  cases audio with
  | true => exact List.rel_append (writesEach_channel _ _ _ _) (writesEach_channel _ _ _ _)
  | false => exact .cons (writes_of_block (blockEffect_clr _)) (.cons (writes_of_block (blockEffect_clr _))
      (.cons (fun _ => ⟨rfl, fun _ _ => rfl⟩) .nil))

/-- The buffers that the EFM part writes. -/
def efmBuffers (efm : Bool) : List Buf := if efm then [bufW2, bufOutEfm] else [bufOutEfm]

theorem writesEach_efm (efm : Bool) : WritesEach (efmBuffers efm) (stepsEfm efm) := by
  cases efm with
  | true => exact .cons (writes_of_block (blockEffect_cmul _ _ _)) (.cons (writes_of_block (blockEffect_ifft _ _)) .nil)
  | false => exact .cons (writes_of_block (blockEffect_clr _)) .nil

/-- The steps after the demodulated video, and the buffers they write. -/
def stepsAfterDemod (audio efm : Bool) : List (State → State) :=
  stepsSync ++ (stepsMtf ++ (stepsAudio audio ++ stepsEfm efm))

def buffersAfterDemod (audio efm : Bool) : List Buf :=
  [bufW5, bufW6, bufW6, bufOutSync, bufW6, bufW6, bufOutFsync] ++ ([bufOutDemod] ++ (audioBuffers audio ++ efmBuffers efm))

theorem writesEach_tail (audio efm : Bool) :
    WritesEach (audioBuffers audio ++ efmBuffers efm) (stepsAudio audio ++ stepsEfm efm) :=
  List.rel_append (writesEach_audio audio) (writesEach_efm efm)

theorem writesEach_afterDemod (audio efm : Bool) :
    WritesEach (buffersAfterDemod audio efm) (stepsAfterDemod audio efm) :=
  List.rel_append writesEach_sync (List.rel_append writesEach_mtf (writesEach_tail audio efm))

/-- Nothing after step 3 of R203 writes the envelope and the phase, and without analog audio nothing writes W3 and W4. -/
theorem notMem_afterDemod (audio efm : Bool) :
    bufOutEnv ∉ buffersAfterDemod audio efm ∧ bufOutUphase ∉ buffersAfterDemod audio efm ∧
      bufW3 ∉ buffersAfterDemod false efm ∧ bufW4 ∉ buffersAfterDemod false efm := by
  cases audio <;> cases efm <;> decide

/-- The audio and EFM parts leave OUT_DEMOD alone. -/
theorem demod_notMem_tail (audio efm : Bool) : bufOutDemod ∉ audioBuffers audio ++ efmBuffers efm := by
  cases audio <;> cases efm <;> decide

/-! ### PROCBLK on a block of zeros -/

/-- The slots lie above every buffer. -/
theorem slot_of_onlyBlock {s t : State} {d : Buf} (h : OnlyBlock s t d) (hn : s.n ≤ 65536) (f k : ℕ) :
    Memory.word? t.mem (slotAddr f k) = Memory.word? s.mem (slotAddr f k) ∧
      Memory.word? t.mem (slotAddr f k + 8) = Memory.word? s.mem (slotAddr f k + 8) := by
  have hrange := (bufAddr_range d s.n hn).2.2
  have hslot : 0x02000000 ≤ slotAddr f k := by
    simp only [slotAddr]
    omega
  exact ⟨word?_congr (fun j hj => h _ (.inr (by omega))), word?_congr (fun j hj => h _ (.inr (by omega)))⟩

theorem holdsComplex_slot {s t : State} {d : Buf} (h : OnlyBlock s t d) (hn : s.n ≤ 65536) {f k : ℕ} {z : ℂ}
    (hz : HoldsComplex s.mem (slotAddr f k) z) : HoldsComplex t.mem (slotAddr f k) z := by
  obtain ⟨hre, him⟩ := slot_of_onlyBlock h hn f k
  unfold HoldsComplex HoldsReal at *
  rw [hre, him]
  exact hz

/-- Steps 1 and 2 of R203. -/
theorem zeroBlock_spectrum {s : State} (hg : s.geometryOk = true)
    (hin : ∀ n, n < s.n → HoldsReal s.mem (bufAddr bufSIN n) 0)
    (hslot : ∀ k, k < s.n → ∃ z, HoldsComplex s.mem (slotAddr 0 k) z) :
    (effSeq stepsSpectrum s).zeroBlock bufW2 = true := by
  have hn := (geometry_bounds hg).2.1
  have hz1 := zeroBlock_real hin bufW1
  have w1 := writes_of_block (blockEffect_real bufW1 bufSIN) s
  have hsteps : effSeq stepsSpectrum s =
      effIfft bufW2 bufW2 (effCmul bufW2 bufW1 0 (effFft bufW1 bufW1 (effReal bufW1 bufSIN s))) := rfl
  rw [hsteps]
  generalize effReal bufW1 bufSIN s = input at hz1 w1
  have w2 := writes_of_block (blockEffect_fft bufW1 bufW1) input
  refine zeroBlock_ifft (zeroBlock_cmul (zeroBlock_fft hz1 bufW1) (fun k hk => ?_) bufW2) bufW2
  obtain ⟨z, hz⟩ := hslot k ((w2.1.trans w1.1) ▸ hk)
  exact ⟨z, holdsComplex_slot w2.2 (w1.1.symm ▸ hn) (holdsComplex_slot w1.2 hn hz)⟩

/-- Step 3 of R203 on a block of zeros. -/
theorem zeroBlock_video {s : State} (hg : s.geometryOk = true) (h : s.zeroBlock bufW2 = true)
    (hc : CarryZero s streamVid) : (effSeq stepsVideo s).zeroBlock bufOutEnv = true ∧
      (effSeq stepsVideo s).zeroBlock bufW3 = true ∧ (effSeq stepsVideo s).zeroBlock bufOutUphase = true ∧
      (effSeq stepsVideo s).zeroBlock bufW4 = true := by
  have hn := (geometry_bounds hg).2.1
  have hsteps : effSeq stepsVideo s = effFdemod bufW4 bufOutUphase streamVid .none
      (effUnwrap bufOutUphase bufW3 streamVid (effPhase bufW3 bufW2 (effEnv bufOutEnv bufW2 s))) := rfl
  rw [hsteps]
  have zEnv := zeroBlock_env h bufOutEnv
  have zW2 := (sameBuffer_of_writes (b := bufW2) (writes_of_block (blockEffect_env bufOutEnv bufW2)) (by decide) hn).zeroBlock h
  obtain ⟨n1, g1, c1⟩ := geometry_of_block (blockEffect_env bufOutEnv bufW2) s
  generalize effEnv bufOutEnv bufW2 s = env at zEnv zW2 n1 g1 c1
  have zW3 := zeroBlock_phase zW2 bufW3
  have same2 : SameBuffer bufOutEnv env (effPhase bufW3 bufW2 env) :=
    sameBuffer_of_writes (writes_of_block (blockEffect_phase bufW3 bufW2)) (by decide) (n1.symm ▸ hn)
  obtain ⟨n2, g2, c2⟩ := geometry_of_block (blockEffect_phase bufW3 bufW2) env
  generalize effPhase bufW3 bufW2 env = phase at zW3 same2 n2 g2 c2
  have hn2 : phase.n ≤ 65536 := (n2.trans n1).symm ▸ hn
  have hg2 : phase.geometryOk = true := (g2.trans g1).trans hg
  have hc2 := c2 _ (c1 _ hc)
  have zUphase := zeroBlock_unwrap hg2 zW3 hc2 bufOutUphase
  have hseed := seed_unwrap_zero zW3 hc2 bufOutUphase
  have wunwrap : Writes bufOutUphase (effUnwrap bufOutUphase bufW3 streamVid) := writes_unwrap _ _ _
  have same3 : ∀ {b : Buf}, b ≠ bufOutUphase → SameBuffer b phase (effUnwrap bufOutUphase bufW3 streamVid phase) :=
    fun hb => sameBuffer_of_writes wunwrap hb hn2
  have g3 := geometryOk_unwrap bufOutUphase bufW3 streamVid phase
  have n3 := (wunwrap phase).1
  generalize effUnwrap bufOutUphase bufW3 streamVid phase = unwrapped at zUphase hseed same3 g3 n3
  have same4 : ∀ {b : Buf}, b ≠ bufW4 →
      SameBuffer b unwrapped (effFdemod bufW4 bufOutUphase streamVid .none unwrapped) :=
    fun hb => sameBuffer_of_writes (writes_of_block (blockEffect_fdemod _ _ _ _)) hb (n3.symm ▸ hn2)
  exact ⟨((same2.trans (same3 (by decide))).trans (same4 (by decide))).zeroBlock zEnv,
    ((same3 (by decide)).trans (same4 (by decide))).zeroBlock zW3, (same4 (by decide)).zeroBlock zUphase,
    zeroBlock_fdemod (g3.trans hg2) zUphase hseed bufW4⟩

/-- MTF of zeros leaves the offset (R169). -/
theorem near_mtf_zero {tol : ℝ → ℝ} (ht : Tolerance tol) {s : State} {a d : Buf} (hg : s.geometryOk = true)
    (h : s.zeroBlock a = true) (hgain : f64Finite (mtfPair s.params s.dp).1 = true)
    (hoff : f64Finite (mtfPair s.params s.dp).2 = true) {n : ℕ} (h0 : s.w0 ≤ n) (h1 : n < s.w1) :
    Near tol (effMtf d a s).mem (bufAddr d n) (f64Real (mtfPair s.params s.dp).2) := by
  have hn : n < s.n := lt_of_lt_of_le h1 (window_bounds hg).2
  have hst : BlockStored s (effMtf d a s) d (windowElem s (fun n => s.mtfApply (s.bufRe a n))) := by
    rw [← inWindow_eq]
    exact writeBuf_blockStored s d _
  have hstored := (hst.1 n hn).1
  obtain ⟨hvalue, hnumber⟩ := operand_of_holds ((zeroBlock_iff s a).1 h n hn).1
  obtain ⟨hden, hhas⟩ := denote_mtfApply (s.bufRe a n) (Prod.mk.eta (p := mtfPair s.params s.dp)).symm hgain hoff
  rw [windowElem, if_pos ⟨h0, h1⟩] at hstored
  have hnear := near_of_stored ht hstored (hhas.trans hvalue)
  have hzero : denote (s.mtfApply (s.bufRe a n)) = f64Real (mtfPair s.params s.dp).2 := by
    rw [hden, State.bufRe, hnumber, Complex.zero_re, zero_mul, zero_add]
  rw [← hzero]
  exact hnear

/-- What a frame of PROCBLK's keeps of the block in effect. -/
theorem geometry_of_procFrame {s t : State} (h : ProcFrame s t) : t.geometryOk = s.geometryOk ∧ t.n = s.n ∧ t.w0 = s.w0 ∧
    t.w1 = s.w1 ∧ t.params = s.params ∧ t.dp = s.dp := by
  rw [h.fields]
  exact ⟨rfl, rfl, rfl, rfl, rfl, rfl⟩

/-- The steps up to the demodulated video. -/
def stepsToDemod : List (State → State) := stepsSpectrum ++ stepsVideo

theorem procEffect_toDemod : ∀ e ∈ stepsToDemod, ProcEffect e :=
  List.forall_mem_append.2 ⟨procEffect_spectrum, procEffect_video⟩

theorem procblkSteps_demod (audio efm : Bool) : procblkSteps audio efm = stepsToDemod ++ stepsAfterDemod audio efm := by
  simp only [procblkSteps, stepsToDemod, stepsAfterDemod, List.append_assoc]

/-- OUT_DEMOD of a block whose demodulated video is zeros. -/
theorem near_demod_zero {tol : ℝ → ℝ} (ht : Tolerance tol) (audio efm : Bool) {demod : State} (hg : demod.geometryOk = true)
    (h : demod.zeroBlock bufW4 = true) (hgain : f64Finite (mtfPair demod.params demod.dp).1 = true)
    (hoff : f64Finite (mtfPair demod.params demod.dp).2 = true) {n : ℕ} (h0 : demod.w0 ≤ n) (h1 : n < demod.w1) :
    Near tol (effSeq (stepsAfterDemod audio efm) demod).mem (bufAddr bufOutDemod n)
      (f64Real (mtfPair demod.params demod.dp).2) := by
  have hn := (geometry_bounds hg).2.1
  have zW4 := (sameBuffer_seq (b := bufW4) writesEach_sync (by decide) hn).zeroBlock h
  obtain ⟨hg1, hn1, hw0, hw1, hparams, hdp⟩ := geometry_of_procFrame (procFrame_seq stepsSync procEffect_sync demod)
  rw [stepsAfterDemod, effSeq_append, effSeq_append, show stepsMtf = [effMtf bufOutDemod bufW4] from rfl, effSeq_cons,
    effSeq_nil]
  generalize effSeq stepsSync demod = sync at *
  rw [← hparams, ← hdp] at hgain hoff ⊢
  obtain ⟨w, hword, hmatch⟩ := near_mtf_zero (d := bufOutDemod) ht (hg1.trans hg) zW4 hgain hoff (hw0.symm ▸ h0) (hw1.symm ▸ h1)
  have nmtf := (writes_of_block (blockEffect_mtf bufOutDemod bufW4) sync).1
  generalize effMtf bufOutDemod bufW4 sync = mtf at *
  have hlt : n < mtf.n := by
    rw [nmtf, hn1]
    exact lt_of_lt_of_le h1 (window_bounds hg).2
  have same := sameBuffer_seq (s := mtf) (writesEach_tail audio efm) (demod_notMem_tail audio efm)
    (by rw [nmtf, hn1]; exact hn)
  exact ⟨w, (same.2 n hlt).1.trans hword, hmatch⟩

theorem blockEffect_stepsSpectrum : ∀ e ∈ stepsSpectrum, ∃ d, BlockEffect d e := by
  unfold stepsSpectrum
  simp only [List.forall_mem_cons, List.not_mem_nil, false_imp_iff, implies_true, and_true]
  exact ⟨⟨_, blockEffect_real _ _⟩, ⟨_, blockEffect_fft _ _⟩, ⟨_, blockEffect_cmul _ _ _⟩, ⟨_, blockEffect_ifft _ _⟩⟩

theorem carryZero_spectrum {s : State} {k : Stream} (h : CarryZero s k) : CarryZero (effSeq stepsSpectrum s) k :=
  effSeq_keeps (P := fun t => CarryZero t k) stepsSpectrum (fun e he t ht => by
    obtain ⟨d, hd⟩ := blockEffect_stepsSpectrum e he
    exact (geometry_of_block hd t).2.2 k ht) h

theorem zeroBlock_toDemod {s : State} (hg : s.geometryOk = true)
    (hin : ∀ n, n < s.n → HoldsReal s.mem (bufAddr bufSIN n) 0)
    (hslot : ∀ k, k < s.n → ∃ z, HoldsComplex s.mem (slotAddr 0 k) z) (hc : CarryZero s streamVid) :
    (effSeq stepsToDemod s).zeroBlock bufOutEnv = true ∧ (effSeq stepsToDemod s).zeroBlock bufW3 = true ∧
      (effSeq stepsToDemod s).zeroBlock bufOutUphase = true ∧ (effSeq stepsToDemod s).zeroBlock bufW4 = true := by
  rw [stepsToDemod, effSeq_append]
  have hg' := (geometry_of_procFrame (procFrame_seq stepsSpectrum procEffect_spectrum s)).1.trans hg
  exact zeroBlock_video hg' (zeroBlock_spectrum hg hin hslot) (carryZero_spectrum hc)

/-- The carries of a block that restarts or continues from zero. -/
theorem carryZero_contiguity {s : State}
    (h : ¬ Continues s ∨ (f64Zero s.carryPh[(0 : Stream)] = true ∧ s.carryTurns[(0 : Stream)] = 0#64)) :
    CarryZero (effContiguity s) streamVid := by
  intro hok
  by_cases hc : Continues s
  · rw [effContiguity_continues hc]
    exact h.resolve_left (not_not.2 hc)
  · rw [effContiguity_restarts hc] at hok
    simp [State.carryOk] at hok

theorem mem_effContiguity (s : State) : (effContiguity s).mem = s.mem := by
  unfold effContiguity
  split
  · rfl
  · rfl

theorem mem_effNextStart (s : State) : (effNextStart s).mem = s.mem := rfl

/-- R203 on a block of zeros: what each of the buffers holds at the end. -/
theorem procblk_zeros {tol : ℝ → ℝ} (ht : Tolerance tol) {s : State} (hinv : Inv s) (hruns : ProcblkRuns s)
    (hcarry : ¬ Continues s ∨ (f64Zero s.carryPh[(0 : Stream)] = true ∧ s.carryTurns[(0 : Stream)] = 0#64))
    (hin : ∀ n, n < s.n → HoldsReal s.mem (bufAddr bufSIN n) 0)
    (hslot : ∀ k, k < s.n → ∃ z, HoldsComplex s.mem (slotAddr 0 k) z) {n : ℕ} (hn : n < s.n) :
    HoldsComplex (effProcblk s).mem (bufAddr bufOutEnv n) 0 ∧ HoldsComplex (effProcblk s).mem (bufAddr bufOutUphase n) 0 ∧
      (cfgAaLevel s.cflags = 0#16 → HoldsComplex (effProcblk s).mem (bufAddr bufW3 n) 0 ∧
        HoldsComplex (effProcblk s).mem (bufAddr bufW4 n) 0) ∧
      (s.w0 ≤ n → n < s.w1 →
        Near tol (effProcblk s).mem (bufAddr bufOutDemod n) (f64Real (mtfPair s.params s.dp).2)) := by
  obtain ⟨hc, -, -, hg⟩ := hruns
  have hmem0 := mem_effContiguity s
  have hframe0 := procFrame_effect .contiguity s
  obtain ⟨hg0, hn0, -, -, -, -⟩ := geometry_of_procFrame hframe0
  obtain ⟨zEnv, zW3, zUphase, zW4⟩ := zeroBlock_toDemod (hg0.trans hg) (by rw [hn0, hmem0]; exact hin)
    (by rw [hn0, hmem0]; exact hslot) (carryZero_contiguity hcarry)
  obtain ⟨hg1, hn1, hw0, hw1, hparams, hdp⟩ := geometry_of_procFrame (hframe0.trans (procFrame_seq _ procEffect_toDemod _))
  have hend : (effProcblk s).mem = (effSeq (stepsAfterDemod (cfgAudioOn s.cflags) (cfgDda s.cflags))
      (effSeq stepsToDemod (effContiguity s))).mem := by
    rw [effProcblk_eq, mem_effNextStart, procblkSteps_demod, effSeq_append]
  rw [hend]
  generalize effSeq stepsToDemod (effContiguity s) = demod at zEnv zW3 zUphase zW4 hg1 hn1 hw0 hw1 hparams hdp ⊢
  obtain ⟨mEnv, mUphase, mW3, mW4⟩ := notMem_afterDemod (cfgAudioOn s.cflags) (cfgDda s.cflags)
  have held : ∀ {b : Buf}, demod.zeroBlock b = true →
      b ∉ buffersAfterDemod (cfgAudioOn s.cflags) (cfgDda s.cflags) → HoldsComplex
        (effSeq (stepsAfterDemod (cfgAudioOn s.cflags) (cfgDda s.cflags)) demod).mem (bufAddr b n) 0 := fun hz hb =>
    (sameBuffer_seq (writesEach_afterDemod _ _) hb (hn1.symm ▸ (geometry_bounds hg).2.1)).holds (hn1.symm ▸ hn)
      ((zeroBlock_iff demod _).1 hz n (hn1.symm ▸ hn))
  refine ⟨held zEnv mEnv, held zUphase mUphase, fun ha => ?_, fun h0 h1 => ?_⟩
  · have hoff : cfgAudioOn s.cflags = false := by simp [cfgAudioOn, ha]
    exact ⟨held zW3 (hoff.symm ▸ mW3), held zW4 (hoff.symm ▸ mW4)⟩
  · have hrow := hinv.ranges hc 6 (by decide)
    simp only [rangeRowOk, Bool.and_eq_true] at hrow
    rw [← hparams, ← hdp] at hrow ⊢
    exact near_demod_zero ht _ _ (hg1.trans hg) zW4 hrow.1 hrow.2 (hw0.symm ▸ h0) (hw1.symm ▸ h1)

/-! ### CMUL by a zero -/

theorem cmulElem_of_zeroBin {s : State} {a : Buf} {f k : ℕ} {x : ℂ} (hx : HoldsComplex s.mem (bufAddr a k) x)
    (hz : HoldsComplex s.mem (slotAddr f k) 0) : s.cmulElem a f k = cVanished := by
  have hzero : cIsZero (s.slotElem f k) = true := by
    rw [cIsZero, Bool.and_eq_true]
    exact ⟨(isZero_operand_iff s _).2 hz.1, (isZero_operand_iff s _).2 hz.2⟩
  have hval : cHasValue (s.bufElem a k) = true := by
    have hnum := (denotes_bufElem hx).1
    rw [cHasValue, hnum.1, hnum.2]
    rfl
  unfold State.cmulElem
  dsimp only
  rw [if_pos]
  rw [hzero, hval, Bool.and_self, Bool.true_or]

end Sys2Proof.Laws

namespace Sys2Proof.Certificates

open Sys2Proof.Machine Sys2Proof.Laws

/-- Settles O33: each command stores an exact zero, and PROCBLK's later effects leave the buffers named alone. -/
theorem exactZeros : Obligations.ExactZeros := by
  refine ⟨fun d a s hc hg hz => ⟨?_, ?_⟩, fun d a f s k x y hc hf hb hg hk hx hy hcase => ?_,
    fun d a s n hc hg hn hz => ⟨?_, ?_⟩, fun tol s ht hinv hruns hcarry hin hslot => ?_⟩
  · obtain ⟨t, hexec, -, hst⟩ := stored_of_writesBlock (writesBlock_fft d a s) hc hg
    refine ⟨t, hexec, fun k hk => holdsComplex_of_stored_cIsZero (hst k hk) ?_⟩
    rw [State.fftElem, if_pos ((zeroBlock_iff s a).2 hz)]
    rfl
  · obtain ⟨t, hexec, -, hst⟩ := stored_of_writesBlock (writesBlock_ifft d a s) hc hg
    refine ⟨t, hexec, fun k hk => holdsComplex_of_stored_cIsZero (hst k hk) ?_⟩
    rw [State.ifftElem, if_pos ((zeroBlock_iff s a).2 hz)]
    rfl
  · have hzero : s.cmulElem a f.toNat k = cVanished := by
      rcases hcase with rfl | hblock
      · exact cmulElem_of_zeroBin hx hy
      · exact cmulElem_of_zeroBlock ((zeroBlock_iff s a).2 hblock) hy
    have hst := (finish_writeBuf_blockStored s d (s.cmulElem a f.toNat)).1 k hk
    rw [hzero] at hst
    exact ⟨_, exec_cmul hc hb hg d a hf, holdsComplex_of_stored_vanished hst⟩
  · obtain ⟨t, hexec, -, hst⟩ := stored_of_writesBlock (writesBlock_env d a s) hc hg
    have hstored := hst n hn
    rw [modulus_of_zero ((cIsZero_bufElem_iff s a n).2 hz)] at hstored
    exact ⟨t, hexec, holdsComplex_of_stored_realZero hstored⟩
  · obtain ⟨t, hexec, -, hst⟩ := stored_of_writesBlock (writesBlock_phase d a s) hc hg
    have hstored := hst n hn
    rw [angle_of_zero ((cIsZero_bufElem_iff s a n).2 hz)] at hstored
    exact ⟨t, hexec, holdsComplex_of_stored_realZero hstored⟩
  · exact ⟨_, exec_procblk hruns, fun n hn => procblk_zeros ht hinv hruns hcarry hin hslot hn⟩

end Sys2Proof.Certificates
end
